-- ==== Sys2Proof/Word.lean ====
section
/-! DEFINITION. The word types of the D9 and their plainest arithmetic (R2, R5, R246). -/

namespace Sys2Proof

/-- A byte of memory. -/
abbrev Byte := BitVec 8
/-- A 32-bit lane or ostler word. -/
abbrev W32 := BitVec 32
/-- A 64-bit ostler register, CSR or address. -/
abbrev W64 := BitVec 64
/-- A 2048-bit wide-plane token: lane k in bits [32k+31:32k] (R58). -/
abbrev Vec := BitVec 2048
/-- A 128-byte cache line, lowest address in the low bits. -/
abbrev Line := BitVec 1024
/-- A 128-bit row word (R259). -/
abbrev Row := BitVec 128

/-- A sparse table: keys strictly rising, no entry equal to the table's unlisted value. -/
abbrev SMap (α : Type) := List (Nat × α)

/-- Bits hi..lo of a natural number (R2). -/
def bits (n hi lo : Nat) : Nat := (n >>> lo) % 2 ^ (hi + 1 - lo)

/-- One bit of a natural number (R2). -/
def bit (n i : Nat) : Bool := n.testBit i

/-- sext of R246: an n-bit value widened to 64 bits. -/
def sext (v n : Nat) : W64 := (BitVec.ofNat n v).signExtend 64

/-- A boolean as 0 or 1. -/
def b2n (b : Bool) : Nat := if b then 1 else 0

end Sys2Proof
end

