-- ==== Sys2Proof/Syntax.lean ====
section
/-! DEFINITION. The abstract syntax: one constructor per row of spec/opcode_table.json.
Ostler words carry the fields of R252..R256, row ops the fields of R259 (the op code is the
constructor), stream words the fields of R372, and the part's own steps (events) the parameters
that say where they happen and, where the outside world supplies data, that data. -/

namespace Sys2Proof

/-- An ostler register number (R252). -/
abbrev Reg := BitVec 5

/-- The fields of a row word other than OPC (R259). -/
structure RowMods where
  fmt : BitVec 3
  dst : BitVec 6
  sa : BitVec 6
  sb : BitVec 6
  sc : BitVec 6
  pr : BitVec 3
  pn : BitVec 1
  stg : BitVec 3
  hold : BitVec 2
  hid : BitVec 4
  rtn : BitVec 2
  rte : BitVec 2
  rts : BitVec 2
  rtw : BitVec 2
  pl : BitVec 2
  aux : BitVec 6
  imm : BitVec 64
  deriving DecidableEq, Repr

/-- The bytes an access writes at a home, and whether its page is SPLITW for the writer (R97). -/
structure HomeStore where
  bytes : List Byte
  split : Bool
  deriving DecidableEq, Repr

/-- Where an uncorrectable error strikes (R105): a line in HBM or L2, a private copy of a line, or a row of a PE's SRAM. -/
inductive ErrorPlace where
  | memory (line : Nat)
  | l2 (line : Nat)
  | copy (agent line : Nat)
  | sram (die pen pe row : Nat)
  deriving DecidableEq, Repr

/-- A firmware image that the ROM is given (R434): its bytes, the public key that signed it, and the ECDSA signature. -/
structure Firmware where
  image : List Byte
  key : BitVec 768
  sig : BitVec 768
  deriving DecidableEq, Repr

/-- The instructions of the D9 and the steps the part takes by itself. -/
inductive Instr where
  /-- R278. Sets xd to xa + xb modulo 2^64. -/
  | add (d a b : Reg)
  /-- R278. Sets xd to xa - xb modulo 2^64. -/
  | sub (d a b : Reg)
  /-- R278. Sets xd to the bitwise AND of xa and xb. -/
  | and (d a b : Reg)
  /-- R278. Sets xd to the bitwise OR of xa and xb. -/
  | or (d a b : Reg)
  /-- R278. Sets xd to the bitwise XOR of xa and xb. -/
  | xor (d a b : Reg)
  /-- R278. Shifts xa left by xb[5:0]. -/
  | sll (d a b : Reg)
  /-- R278. Shifts xa right by xb[5:0], filling with zeros. -/
  | srl (d a b : Reg)
  /-- R278. Shifts xa right by xb[5:0], filling with the sign bit. -/
  | sra (d a b : Reg)
  /-- R278. Sets xd to the low 64 bits of the product. -/
  | mul (d a b : Reg)
  /-- R278. Sets xd to the high 64 bits of the signed product. -/
  | mulh (d a b : Reg)
  /-- R278. Sets xd to the high 64 bits of the unsigned product. -/
  | mulhu (d a b : Reg)
  /-- R278. Signed division truncated toward zero, with defined results for divide-by-zero and overflow. -/
  | div (d a b : Reg)
  /-- R278. Unsigned division; dividing by zero gives all ones. -/
  | divu (d a b : Reg)
  /-- R278. Signed remainder, with defined results for divide-by-zero and overflow. -/
  | rem (d a b : Reg)
  /-- R278. Unsigned remainder; dividing by zero gives the dividend. -/
  | remu (d a b : Reg)
  /-- R278. Sets xd to 1 when xa is less than xb as signed values, else 0. -/
  | slt (d a b : Reg)
  /-- R278. Sets xd to 1 when xa is less than xb as unsigned values, else 0. -/
  | sltu (d a b : Reg)
  /-- R278. Sets xd to the signed minimum. -/
  | min (d a b : Reg)
  /-- R278. Sets xd to the signed maximum. -/
  | max (d a b : Reg)
  /-- R278. Sets xd to the unsigned minimum. -/
  | minu (d a b : Reg)
  /-- R278. Sets xd to the unsigned maximum. -/
  | maxu (d a b : Reg)
  /-- R278. Counts the leading zero bits of xa. -/
  | clz (d a : Reg)
  /-- R278. Counts the one bits of xa. -/
  | popc (d a : Reg)
  /-- R278. Extracts a bit field of xa at the position and length given in xb. -/
  | bext (d a b : Reg)
  /-- R278. Inserts the low bits of xc into a bit field of xa. -/
  | bins (d a b c : Reg)
  /-- R278. Selects xa when xc is nonzero, otherwise xb. -/
  | sel (d a b c : Reg)
  /-- R279. Adds a sign-extended immediate to xa. -/
  | addi (d a : Reg) (i : BitVec 16)
  /-- R279. ANDs xa with a zero-extended immediate. -/
  | andi (d a : Reg) (i : BitVec 16)
  /-- R279. ORs xa with a zero-extended immediate. -/
  | ori (d a : Reg) (i : BitVec 16)
  /-- R279. XORs xa with a zero-extended immediate. -/
  | xori (d a : Reg) (i : BitVec 16)
  /-- R279. Signed compare of xa with a sign-extended immediate. -/
  | slti (d a : Reg) (i : BitVec 16)
  /-- R279. Shifts xa by an immediate amount; kind SLL, SRL or SRA, with kind 3 faulting ILLEGAL. -/
  | shi (d a : Reg) (k : BitVec 2) (n : BitVec 6)
  /-- R279. Loads the sign-extended immediate shifted left by 16. -/
  | lui (d : Reg) (i : BitVec 16)
  /-- R280. Extracts one field of a work identifier using the WIDW widths. -/
  | idf (d a : Reg) (l : BitVec 3)
  /-- R281. Loads a sign-extended byte. -/
  | ldb (d a : Reg) (o : BitVec 16)
  /-- R281. Loads a zero-extended byte. -/
  | ldbu (d a : Reg) (o : BitVec 16)
  /-- R281. Loads a sign-extended halfword. -/
  | ldh (d a : Reg) (o : BitVec 16)
  /-- R281. Loads a zero-extended halfword. -/
  | ldhu (d a : Reg) (o : BitVec 16)
  /-- R281. Loads a sign-extended word. -/
  | ldw (d a : Reg) (o : BitVec 16)
  /-- R281. Loads a zero-extended word. -/
  | ldwu (d a : Reg) (o : BitVec 16)
  /-- R281. Loads a doubleword. -/
  | ldd (d a : Reg) (o : BitVec 16)
  /-- R283. Acquire load of a doubleword at a named scope; invalidates leased copies. -/
  | ldaq (d a : Reg) (s : BitVec 3)
  /-- R281. Stores the low byte of xs. -/
  | stb (s a : Reg) (o : BitVec 16)
  /-- R281. Stores the low halfword of xs. -/
  | sth (s a : Reg) (o : BitVec 16)
  /-- R281. Stores the low word of xs. -/
  | stw (s a : Reg) (o : BitVec 16)
  /-- R281. Stores the doubleword in xs. -/
  | std (s a : Reg) (o : BitVec 16)
  /-- R284. Release store at a named scope; adds a release record at the home after deltas are applied. -/
  | strl (s a : Reg) (c : BitVec 3)
  /-- R285. Branches when xa equals xb, applying the unwind rule. -/
  | beq (a b : Reg) (o : BitVec 16)
  /-- R285. Branches when xa differs from xb. -/
  | bne (a b : Reg) (o : BitVec 16)
  /-- R285. Branches on signed less-than. -/
  | blt (a b : Reg) (o : BitVec 16)
  /-- R285. Branches on signed greater-or-equal. -/
  | bge (a b : Reg) (o : BitVec 16)
  /-- R285. Branches on unsigned less-than. -/
  | bltu (a b : Reg) (o : BitVec 16)
  /-- R285. Branches on unsigned greater-or-equal. -/
  | bgeu (a b : Reg) (o : BitVec 16)
  /-- R286. Jumps by a word offset, linking to x31 when L is 1. -/
  | jal (l : BitVec 1) (o : BitVec 25)
  /-- R286. Jumps to xa plus an offset, with bits 1:0 cleared, writing the link to xd. -/
  | jalr (d a : Reg) (o : BitVec 16)
  /-- R287. Pushes a hardware loop entry whose count is taken from xa. -/
  | loop (a : Reg) (o : BitVec 16)
  /-- R287. Pushes a hardware loop entry with an immediate count. -/
  | loopi (n : BitVec 10) (o : BitVec 16)
  /-- R290. Enters the trap handler with cause TRAP and the immediate in CAUSE[31:16]. -/
  | trap (i : BitVec 16)
  /-- R292. Reads a CSR into xd. -/
  | csrr (d : Reg) (c : BitVec 12)
  /-- R292. Writes xa to a CSR and returns the old value. -/
  | csrw (d a : Reg) (c : BitVec 12)
  /-- R292. Sets the CSR bits given by the mask in xa and returns the old value. -/
  | csrs (d a : Reg) (c : BitVec 12)
  /-- R292. Clears the CSR bits given by the mask in xa and returns the old value. -/
  | csrc (d a : Reg) (c : BitVec 12)
  /-- R293. Acquire, release or full fence at a named scope. -/
  | fence (k : BitVec 2) (s : BitVec 3)
  /-- R294. Waits until FCYCLE reaches xa or the event queue is not empty. -/
  | wait (a : Reg)
  /-- R296. Pops the head event record to memory and acquires at die scope. -/
  | eqpop (d a : Reg)
  /-- R297. Copies the head event record without popping it or acquiring. -/
  | eqpeek (d a : Reg)
  /-- R298. Waits for a queued record or an FCYCLE deadline. -/
  | eqwait (d a : Reg)
  /-- R299. Posts a USER record to an ostler or the host ring after a release wait. -/
  | eqpost (d a b c : Reg)
  /-- R303. Places an empty pen of a given shape, first-fit. -/
  | rplace (d a : Reg)
  /-- R304. Sweeps a pen and expands and checks an image into it. -/
  | rload (d a b : Reg)
  /-- R305. Reconfigures a pen with a new image, keeping registers and the masked ports. -/
  | rcfg (d a b c : Reg)
  /-- R306. Starts owned pens as one gang, or resumes a resumable faulted domain. -/
  | rstart (d a : Reg)
  /-- R307. Stops a pen's timing domain at its next row boundary. -/
  | rstop (d a : Reg)
  /-- R308. Reports a pen's PSTATE, origin, shape and ownership. -/
  | rstat (d a : Reg)
  /-- R309. Releases a pen that is not running, freeing its stalls and id. -/
  | rrel (d a : Reg)
  /-- R310. Writes the backward image of a pen's image using adjoint templates. -/
  | radj (d a b c : Reg)
  /-- R312. Adds to a JCB's expected total; faults JCBLATE on a completed JCB. -/
  | jraise (d a b : Reg)
  /-- R313. After a release wait, adds to a JCB's completed count, possibly completing the job. -/
  | jdone (d a b : Reg)
  /-- R314. Waits for a JCB to complete or fail, or for a timeout; acquires on completion. -/
  | jwait (d a b : Reg)
  /-- R315. Submits a job record to a die's launch queue. -/
  | launch (d a b : Reg)
  /-- R365. Queues a stream transfer on a pen port. -/
  | sq (d a b : Reg)
  /-- R366. Starts a stream command list in a free program slot. -/
  | sprog (d a b c : Reg)
  /-- R367. Cancels a running stream command or program, and a port's queued commands. -/
  | scancel (d a : Reg)
  /-- R368. Reports the state of a program slot or a pen port. -/
  | sstat (d a : Reg)
  /-- R369. Writes back a layout record and its extent map and drops them from every record cache. -/
  | recfl (d a : Reg)
  /-- R377. Starts an elementwise combine of two DRAM ranges into a third at the combine units. -/
  | scomb (d a : Reg)
  /-- R378. Waits until a port's handle has n slots in a given state, or a deadline passes. -/
  | bwait (d a b c : Reg)
  /-- R379. Sets the RESIDENT mark of a port's handle. -/
  | bset (d a b : Reg)
  /-- R380. Writes every dirty copy of a range to memory, leaving the copies valid. -/
  | clean (d a b : Reg)
  /-- R380. Discards L2 copies, the issuer's copies and owned copies of a range, without writeback. -/
  | inval (d a b : Reg)
  /-- R380. Writes back and invalidates a range in the issuer's data and instruction caches. -/
  | flush (d a b : Reg)
  /-- R84. Pins the lines of a range in L2 against the context's quota. -/
  | lock (d a b : Reg)
  /-- R84. Unpins the lines of a range that the context pinned. -/
  | unlock (d a b : Reg)
  /-- R381. Starts a host-window handover, TO_DEVICE or TO_HOST. -/
  | hover (d a b c : Reg)
  /-- R382. Atomic wrapping add at the line's home. -/
  | aadd (d a b : Reg) (w : BitVec 1)
  /-- R382. Atomic AND at the line's home. -/
  | aand (d a b : Reg) (w : BitVec 1)
  /-- R382. Atomic OR at the line's home. -/
  | aor (d a b : Reg) (w : BitVec 1)
  /-- R382. Atomic XOR at the line's home. -/
  | axor (d a b : Reg) (w : BitVec 1)
  /-- R382. Atomic minimum, signed or unsigned. -/
  | amin (d a b : Reg) (s w : BitVec 1)
  /-- R382. Atomic maximum, signed or unsigned. -/
  | amax (d a b : Reg) (s w : BitVec 1)
  /-- R382. Atomic exchange. -/
  | axchg (d a b : Reg) (w : BitVec 1)
  /-- R382. Atomic 8-byte compare-and-swap. -/
  | acas (d a b c : Reg)
  /-- R382. Atomic FP32 add, rounded RNE. -/
  | afadd (d a b : Reg)
  /-- R384. Runs a slice routine at the home of a locked line. -/
  | arun (d a b c : Reg)
  /-- R383. Writes a routine into a routine-table slot on every die. -/
  | rdef (d a b : Reg)
  /-- R386. Appends one entry to the append log at the destination's home slice. -/
  | lapp (d a b c : Reg)
  /-- R387. Starts a merge of the context's log entries for a range. -/
  | lmrg (d a b c : Reg)
  /-- R385. Routine word: loads a doubleword of the locked line. -/
  | lld (d a : Reg)
  /-- R385. Routine word: buffers a doubleword store to the locked line. -/
  | lst (a b : Reg)
  /-- R385. Routine word: writes the buffered doublewords and ends the routine. -/
  | ldone (a : Reg)
  /-- R111. Declares a derived region in a set and starts its build. -/
  | ddecl (d a b : Reg)
  /-- R113. Drops a derived region's slot. -/
  | ddrop (d a : Reg)
  /-- R128. Plain read of a derived group into a read record. -/
  | drd (d a b : Reg)
  /-- R128. Synchronised read of a derived group after DSYNC and the end of PENDING. -/
  | drds (d a b : Reg)
  /-- R128. Reads a group of several slots of a set between the same two steps. -/
  | dsnap (d a b : Reg)
  /-- R128. Waits until every delta batch the base homes have sent to a set is applied. -/
  | dsync (d a : Reg)
  /-- R113. Re-translates a set's bases and rescans every group. -/
  | dreb (d a : Reg)
  /-- R131. Derives a next-step scale code from an AMAX or BSCALE group. -/
  | qscale (d a b : Reg)
  /-- R396. Infers one sample on a clause bank. -/
  | kinf (d a b c : Reg)
  /-- R398. Queues one training sample for feedback. -/
  | kfb (d a b c : Reg)
  /-- R394. Sets the bank key, clears KSER and optionally resets the counters. -/
  | kseed (d a b c : Reg)
  /-- R395. Loads a nudge set, or counter rows with their include plane, into a bank. -/
  | kld (d a b c : Reg)
  /-- R395. Stores a nudge set, counter rows or the bank registers to memory. -/
  | kst (d a b c : Reg)
  /-- R393. Writes KCFGR and binds an unbound bank. -/
  | kcfg (d a b : Reg)
  /-- R397. Starts inference over a batch of samples. -/
  | kvote (d a b : Reg)
  /-- R400. Waits until the bank is idle with no queued feedback, or a timeout passes, and returns KSTATE. -/
  | ksync (d a b : Reg)
  /-- R401. Ends bank activity, clears all bank state and unbinds the bank. -/
  | kclr (d a : Reg)
  /-- R300. Sets RNGKEY and RNGCTR in one oc. -/
  | rkey (a b : Reg)
  /-- R301. Draws a random value and increments RNGCTR. -/
  | rdraw (d : Reg)
  /-- R403. Issues an NVMe read from a drive into HBM. -/
  | nvrd (d a b c : Reg)
  /-- R403. Issues an NVMe write from HBM to a drive. -/
  | nvwr (d a b c : Reg)
  /-- R404. Starts offloading an offload-table entry to its tier. -/
  | offl (d a : Reg)
  /-- R404. Recalls an offload-table entry to HBM. -/
  | recall (d a : Reg)
  /-- R405. Resolves a token position through an extent map. -/
  | xloc (d a b : Reg)
  /-- R324. Row op that commits only its routes and holds. -/
  | nop (w : RowMods)
  /-- R324. Row op that retires the pen after its row commits. -/
  | rowHalt (w : RowMods)
  /-- R324. Row op that faults RUNOFF at its row. -/
  | haltf (w : RowMods)
  /-- R325. Sets the pending schedule select. -/
  | cond (w : RowMods)
  /-- R326. Posts a USER record from a PE after its earlier stores are performed. -/
  | epost (w : RowMods)
  /-- R327. Moves a value per lane. -/
  | mov (w : RowMods)
  /-- R327. Selects per lane under a predicate. -/
  | rowSel (w : RowMods)
  /-- R327. Writes an immediate into the lanes. -/
  | limm (w : RowMods)
  /-- R328. Integer element add. -/
  | vadd (w : RowMods)
  /-- R328. Integer element subtract. -/
  | vsub (w : RowMods)
  /-- R328. Integer element multiply, low half. -/
  | vmul (w : RowMods)
  /-- R328. Integer element multiply, signed high half. -/
  | vmulh (w : RowMods)
  /-- R328. Element bitwise AND. -/
  | vand (w : RowMods)
  /-- R328. Element bitwise OR. -/
  | vor (w : RowMods)
  /-- R328. Element bitwise XOR. -/
  | vxor (w : RowMods)
  /-- R328. Element shift left. -/
  | vshl (w : RowMods)
  /-- R328. Element logical shift right. -/
  | vshr (w : RowMods)
  /-- R328. Element arithmetic shift right. -/
  | vsra (w : RowMods)
  /-- R328. Signed element minimum. -/
  | vmin (w : RowMods)
  /-- R328. Signed element maximum. -/
  | vmax (w : RowMods)
  /-- R328. Signed element absolute value. -/
  | vabs (w : RowMods)
  /-- R329. Integer element compare. -/
  | vcmp (w : RowMods)
  /-- R330. Integer rescale with rounding and clamping. -/
  | vqrs (w : RowMods)
  /-- R331. Floating-point add. -/
  | vfadd (w : RowMods)
  /-- R331. Floating-point subtract. -/
  | vfsub (w : RowMods)
  /-- R331. Floating-point multiply. -/
  | vfmul (w : RowMods)
  /-- R331. Fused multiply-add with one rounding. -/
  | vfma (w : RowMods)
  /-- R331. Floating-point minimum. -/
  | vfmin (w : RowMods)
  /-- R331. Floating-point maximum. -/
  | vfmax (w : RowMods)
  /-- R331. Clears the sign bit. -/
  | vfabs (w : RowMods)
  /-- R331. Flips the sign bit. -/
  | vfneg (w : RowMods)
  /-- R332. Floating-point compare. -/
  | vfcmp (w : RowMods)
  /-- R331. Correctly rounded reciprocal. -/
  | vrcp (w : RowMods)
  /-- R331. Correctly rounded reciprocal square root. -/
  | vrsq (w : RowMods)
  /-- R331. Correctly rounded base-2 exponential. -/
  | vexp2 (w : RowMods)
  /-- R331. Correctly rounded base-2 logarithm. -/
  | vlog2 (w : RowMods)
  /-- R333. Rotary position rotation of lane pairs. -/
  | vrope (w : RowMods)
  /-- R334. Reads NFC and SATC, optionally clearing them. -/
  | vnfc (w : RowMods)
  /-- R335. One AdamW step, updating the moment vectors in the scratchpad. -/
  | vopt (w : RowMods)
  /-- R336. Converts elements between formats of equal width. -/
  | vcvt (w : RowMods)
  /-- R337. Scaled narrowing conversion. -/
  | vpack (w : RowMods)
  /-- R337. Scaled widening conversion. -/
  | vunpk (w : RowMods)
  /-- R338. Butterfly transform and conversion of a 256-element block. -/
  | vbfly (w : RowMods)
  /-- R339. Writes counter-based random values per lane. -/
  | vrng (w : RowMods)
  /-- R340. Lane shuffle by index. -/
  | vshuf (w : RowMods)
  /-- R340. Lane rotation. -/
  | vrotl (w : RowMods)
  /-- R341. Broadcasts a scalar into every lane. -/
  | vbcast (w : RowMods)
  /-- R342. Tree reduction across lanes. -/
  | vred (w : RowMods)
  /-- R342. Sequential scan across lanes. -/
  | vscan (w : RowMods)
  /-- R343. Scratchpad load that ignores full bits. -/
  | lds (w : RowMods)
  /-- R343. Scratchpad load that holds until the full bits are set and may consume them. -/
  | ldss (w : RowMods)
  /-- R343. Scratchpad store that sets full bits. -/
  | sts (w : RowMods)
  /-- R344. Irregular load through the L1 part. -/
  | ldg (w : RowMods)
  /-- R344. Irregular store through the L1 part. -/
  | stg (w : RowMods)
  /-- R345. Per-lane gather of 4-byte elements. -/
  | gath (w : RowMods)
  /-- R345. Per-lane scatter of 4-byte elements. -/
  | scat (w : RowMods)
  /-- R347. Returns or completes a buffer slot of a handle. -/
  | back (w : RowMods)
  /-- R348. Appends one log entry per enabled lane. -/
  | lapr (w : RowMods)
  /-- R350. Writes a stationary weight row. -/
  | mldw (w : RowMods)
  /-- R351. Issues a matrix pass into an accumulator tile. -/
  | mpass (w : RowMods)
  /-- R356. Issues a pass over operand rows fetched directly from memory. -/
  | mpassd (w : RowMods)
  /-- R355. Waits until every pass issued into a tile completes. -/
  | mwait (w : RowMods)
  /-- R356. Reads two tile rows into a vector. -/
  | mrd (w : RowMods)
  /-- R356. Zeroes an accumulator tile. -/
  | mclr (w : RowMods)
  /-- R352. Matrix pass with N-of-32 sparsity. -/
  | msprs (w : RowMods)
  /-- R358. Merges two attention triples. -/
  | tmerge (w : RowMods)
  /-- R357. One node of a reduction tree. -/
  | tred (w : RowMods)
  /-- R346. An irregular load reply arrives and is written to the PE, or raises a late fault. -/
  | loadReply (die pen pe : Nat)
  /-- R356. An MPASSD operand row fetch returns and its adds update PRG. -/
  | mpassdFetch (die pen pe : Nat)
  /-- R39. After its slots, passes and tokens complete, a halted pen retires and posts PEN_HALT. -/
  | penRetire (die pen : Nat)
  /-- R234. The yard controller writes the fault record and the pen state and posts PEN_FAULT and PEN_STOP. -/
  | penFaultSave (die pen : Nat)
  /-- R140. The yard controller places the next task of the head ready job, expands its image and starts it. -/
  | taskPlacement (die : Nat)
  /-- R143. A pen that has run for QUANT with an earlier-deadline job waiting is stopped and saved. -/
  | preemption (die pen : Nat)
  /-- R238. A restore entry is placed again and its saved state reinstated. -/
  | restore (die pen : Nat)
  /-- R150. A waiting poster writes its record into an ostler event queue once there is room. -/
  | eventPost (die n : Nat)
  /-- R158. A record is written to the host event ring, HEAD advances and the MSI-X vector is raised. -/
  | hostRingPost (func : Nat)
  /-- R151. The dispatcher starts the head command of a free port in a free program slot. -/
  | commandDispatch (die pen port : Nat)
  /-- R363. A stream slot's turn moves one tile between memory and a pen port or memory. -/
  | streamTile (die eng slot : Nat)
  /-- R152. Once every token is accepted and every delta applied, the command posts STREAM_DONE. -/
  | streamCommandDone (die eng slot : Nat)
  /-- R372. Stream word that sets the data record and clears the pattern. -/
  | spat (h : BitVec 56)
  /-- R372. Binds a pen port as the destination, once the port is free. -/
  | sdstPort (port : BitVec 6) (pen : BitVec 7) (die : BitVec 3)
  /-- R372. Binds a memory record as the destination and resets the cursor. -/
  | sdstMem (h : BitVec 56)
  /-- R372. Sets START and COUNT of a dimension. -/
  | sgoSet (dim : BitVec 3) (start : BitVec 27) (count : BitVec 26)
  /-- R372. Sets a dimension and runs one transfer. -/
  | sgoSetgo (dim : BitVec 3) (start : BitVec 27) (count : BitVec 26)
  /-- R372. Sets transposed delivery. -/
  | sxpose (on : BitVec 1)
  /-- R372. Sets the scale record. -/
  | scmb (h : BitVec 56)
  /-- R373. Pushes a stream loop entry. -/
  | sloop (dim : BitVec 3) (stp : BitVec 27) (passes : BitVec 28)
  /-- R372. Waits until a port's handle has n slots in a given state. -/
  | swaith (port : BitVec 6) (pen : BitVec 7) (die : BitVec 3) (st : BitVec 2) (nm1 : BitVec 3)
  /-- R372. Posts STREAM_DONE once every earlier transfer is complete. -/
  | sevt (tag : BitVec 56)
  /-- R372. Binds a peer chunk as the destination. -/
  | speer (chunk : BitVec 49) (cidx : BitVec 6)
  /-- R375. An armed chunk publishes PARTIAL when its DEADLINE passes. -/
  | chunkDeadline (chunk : Nat)
  /-- R375. A chunk acknowledgement reaches the sender and completes its transfer. -/
  | chunkAck (die eng slot status : Nat)
  /-- R377. A combine unit reads, combines and writes one packet of the result in DRAM. -/
  | combinePacket (cmd : Nat)
  /-- R413. After every packet is written, the combine unit of the result's first packet posts STREAM_DONE. -/
  | combineDone (cmd : Nat)
  /-- R118. The set home applies one delta batch to every covering region as one step. -/
  | deltaBatch (set : Nat)
  /-- R122. A group rescan finishes reading its base homes, rebuilds the group and counts a step. -/
  | rescanDone (set slot group : Nat)
  /-- R126. A base home that cannot give an old value asks the set home to rescan covering groups. -/
  | rebuildRequest (set line : Nat)
  /-- R112. A build or rebuild completes and posts DERIVED_READY. -/
  | derivedReady (set slot : Nat)
  /-- R128. A DSYNC marker reaches a base home, which replies with its batch number. -/
  | dsyncMarker (set home : Nat)
  /-- R153. An append-log entry enters the log at its home slice, waiting while the log is full. -/
  | logAppend (home : Nat)
  /-- R154. A home sorts and applies its log entries for an LMRG; the last home posts MERGE_DONE. -/
  | logMerge (home : Nat)
  /-- R381. A handover completes and posts HOVER_DONE. -/
  | hoverDone (idx : Nat)
  /-- R398. The bank starts training its next queued sample. -/
  | sampleFeedback (bank : Nat)
  /-- R398. A trained sample commits its include plane and increments KSER. -/
  | sampleCommit (bank : Nat)
  /-- R396. An inference finishes after 4 fc and writes its sums. -/
  | inferenceDone (bank : Nat)
  /-- R397. The bank infers the next sample of a KVOTE batch, posting BANK_DONE after the last. -/
  | kvoteSample (bank : Nat)
  /-- R99. A kick command completes, updating HKSTS and raising the handover vector. -/
  | kickDone (func : Nat)
  /-- R170. The invalidation completes after every access that used a dropped entry is performed. -/
  | htcmdDone (func : Nat)
  /-- R274. An ostler fetches a word of major 0x00, a reserved major, an unassigned fn or an unassigned SYS minor, or major 0x3C, and faults ILLEGAL with TVAL set to the word. -/
  | illegal (w : W32)
  /-- R346. The translation of an STG or SCAT finishes inside its window and releases a row n + 4 that was holding for it. -/
  | storeTranslationDone (die pen pe : Nat)
  /-- R83. An access to a line is performed at its home slice in arrival order. -/
  | homeAccess (agent pa len : Nat) (wr : Option HomeStore)
  /-- R86. The home recalls an owned line, which is written back and dropped. -/
  | lineRecall (line : Nat)
  /-- R90. A releaser receives a drain request and writes back its dirty lines. -/
  | drainRequest (line agent : Nat)
  /-- R90. A drain acknowledgement reaches the home; the last one clears the records and the line is supplied. -/
  | drainAck (line agent : Nat)
  /-- R437. A whole dirty line written back is merged at its home with a new check. -/
  | writeback (agent line : Nat)
  /-- R412. An L2 or private-cache line is evicted, writing it back when dirty. -/
  | eviction (agent : Option Nat) (line : Nat)
  /-- R87. A leased copy invalidates itself when its lease ends. -/
  | leaseExpiry (agent line : Nat)
  /-- R93. A line dirty for 2^16 fc is written back and stays owned and clean. -/
  | backgroundSweep (agent line : Nat)
  /-- R106. HBM patrol scrub reads a line and corrects it at its home. -/
  | patrolScrub (line : Nat) (fixed : Bool)
  /-- R106. L2 scrub reads a slice line in an idle cycle. -/
  | l2Scrub (line : Nat) (fixed : Bool)
  /-- R105. An uncorrectable ECC error marks a line poisoned. -/
  | uncorrectableError (place : ErrorPlace)
  /-- R95. A peer read or write request for a page changes its state at the home module. -/
  | pageRequest (peer page : Nat) (write : Bool)
  /-- R96. A module drains a page's lines and acknowledges an invalidation or hand-over. -/
  | pageHandover (page : Nat) (lines : List (Nat × Line))
  /-- R97. The home merges the masked bytes of a returned SPLITW line. -/
  | splitwMerge (peer line : Nat) (data : Line) (mask : BitVec 128)
  /-- R156. A drive's completion entry is read and NVME_DONE is posted. -/
  | nvmeCompletion (idx status : Nat) (data : List Byte)
  /-- R179. An offload or recall copy completes and changes the entry STATE. -/
  | offloadTransferDone (ctx idx status : Nat) (data : List Byte)
  /-- R98. An HKCMD write with OP 1 starts a TO_DEVICE handover of a host range. -/
  | toDevice (func ctx : Nat)
  /-- R98. An HKCMD write with OP 2 starts a TO_HOST handover of a host range. -/
  | toHost (func ctx : Nat)
  /-- R136. A host write of HLCMD submits a job record to a die. -/
  | hlcmd (func die ctx : Nat)
  /-- R158. The host advances TAIL, freeing host ring entries for waiting posters. -/
  | hetail (func : Nat) (value : W64)
  /-- R170. A host write of HTCMD starts a translation-cache invalidation. -/
  | htcmd (func ctx : Nat)
  /-- R428. A PF write of CWDATA stores the selected context-table or save-pool item. -/
  | cwdata (value : W64)
  /-- R429. CWOST with OP 1 binds an ostler to a context, resets its CSRs and starts it at CWPC. -/
  | cwostStart (die n ctx : Nat)
  /-- R429. CWOST with OP 2 requests that an ostler stop at its next instruction boundary. -/
  | cwostStop (die n : Nat)
  /-- R429. The ostler reaches its instruction boundary and stops. -/
  | cwostStopDone (die n : Nat)
  /-- R435. A PF write of ATADDR requests an attestation report. -/
  | ataddr (value : W64)
  /-- R158. Unmasking a vector with its pending bit set sends one message. -/
  | msixUnmask (func vec : Nat)
  /-- R425. Host write of a BAR0 register that has no behaviour of its own. -/
  | registerWrite (func off : Nat) (value : W64)
  /-- R242. Resets a VF and stops, sweeps and discards every context bound to it. -/
  | functionLevelReset (func : Nat)
  /-- R436. After power-on, runs the firmware check, HBM training, link calibration and state clear, then sets READY. -/
  | bringUp (fw : Firmware)
  /-- R432. Every 1 ms, the power manager steps both clocks by 25 MHz to hold the power limit. -/
  | powerStep (watts : Nat)
  /-- R432. The management controller sets the power limit over I3C. -/
  | powerLimitSet (watts : Nat)
  /-- R432. A current surge stretches both clocks while it lasts. -/
  | currentSurge (on : Bool)
  /-- R430. A failed Utuejo Link port is taken out and traffic moves to the remaining ports. -/
  | linkPortFailure (port : Nat)
  /-- R430. With no path to a peer for 10 ms, accesses fault LINK and LINK_DOWN is posted. -/
  | linkPathTimeout (peer : Nat)
  /-- R244. A peer module's reset makes the accesses outstanding to it take RESET. -/
  | peerReset (peer : Nat)
  /-- R42. PE SRAM in free stalls is scrubbed in the background, and correctable errors are corrected and counted in telemetry. -/
  | peSramScrub (die stall : Nat) (fixed : Bool)
  /-- R435. The device writes the signed 256-byte report into the buffer. -/
  | attestationDone
  /-- R188. Every 1 ms, all telemetry counters of all dies are copied into the snapshot. -/
  | telemetrySnapshot
  /-- R244. Resets every item to its reset value and empties every queue and table. -/
  | moduleReset
  /-- R433. A junction temperature of 100 C steps the clocks down. -/
  | thermalThrottle
  /-- R433. At 110 C all clocks stop and power removal is requested, losing all state. -/
  | thermalTrip
  /-- R275. An ostler fetch from an address that is not mapped executable faults FETCH, with EPC and TVAL set to that address. -/
  | fetch
  /-- R375. A contribution arrives at a chunk's home and is staged; a complete chunk publishes. -/
  | chunkArrival (chunk cidx fmt : Nat) (data : List Byte)
  /-- R30. An fc on which a hold condition holds the timing domain and nothing commits. -/
  | heldFc (die gang : Nat)
  /-- R229. A timing domain that has held for 2^30 fc faults WATCHDOG. -/
  | watchdog (die pen : Nat)
  /-- R353. A matrix pass finishes its occupancy and frees its KIND 1 slot. -/
  | matrixPassComplete (die pen pe : Nat)
  /-- R234. An STG or SCAT translation, permission, poison or check failure found after commit stops the domain. -/
  | deferredStoreFault (die pen pe : Nat)
  /-- R36. A running pen is moved to another place at an iteration boundary. -/
  | compaction (die pen origin : Nat)
  /-- R276. A waiting ostler instruction resumes and completes once its condition or timeout holds. -/
  | ostlerWaitEnd (die n : Nat)
  /-- R372. Runs one transfer of the pattern. -/
  | sgoGo
  /-- R373. Ends a stream loop body, stepping START or popping the entry. -/
  | sendl
  /-- R372. Waits until every earlier transfer is complete. -/
  | sfence
  /-- R371. Ends the stream program and posts STREAM_DONE. -/
  | sdone
  /-- R289. Decrements LDEPTH when it is above zero. -/
  | lpop
  /-- R291. Returns from a trap, restoring LDEPTH and TM; faults ILLEGAL when TM is 0. -/
  | eret
  /-- R295. Stops the ostler's fetch. -/
  | halt
  deriving DecidableEq, Repr

end Sys2Proof
end

