-- ==== Sys2Proof/Machine/RowCheck.lean ====
section
/-! DEFINITION. What a row op reads and writes, its latency and plane, and the load-time checks of R265
that need the row word alone (R259-R264, R316-R358). -/

namespace Sys2Proof.Machine

/-- The row ops in the order of R264, one name each. -/
inductive Op where
  | nop | halt | haltf | cond | epost | mov | sel | limm
  | vadd | vsub | vmul | vmulh | vand | vor | vxor | vshl | vshr | vsra | vmin | vmax | vabs | vcmp | vqrs
  | vfadd | vfsub | vfmul | vfma | vfmin | vfmax | vfabs | vfneg | vfcmp | vrcp | vrsq | vexp2 | vlog2
  | vrope | vnfc | vopt
  | vcvt | vpack | vunpk | vbfly | vrng
  | vshuf | vrotl | vbcast | vred | vscan
  | lds | ldss | sts | ldg | stg | gath | scat | back | lapr
  | mldw | mpass | mpassd | mwait | mrd | mclr | msprs
  | tmerge | tred
  deriving DecidableEq, Repr

/-- AUX as the op reads it: 0 under HOLD 3 (R262). -/
def auxOf (w : RowMods) : Nat := if w.hold == 3 then 0 else w.aux.toNat

/-- Which of DST, SA, SB, SC an op uses (R316 and each op's entry). -/
structure Uses where
  dst : Bool
  sa : Bool
  sb : Bool
  sc : Bool
  deriving DecidableEq, Repr

def opUses (o : Op) (w : RowMods) : Uses :=
  match o with
  | .nop | .halt | .haltf | .back => ⟨false, false, false, false⟩
  | .cond => ⟨false, !(bit (auxOf w) 0), false, false⟩
  | .epost | .mwait => ⟨false, true, false, false⟩
  | .limm | .vnfc | .vrng | .mclr => ⟨true, false, false, false⟩
  | .mov | .vabs | .vfabs | .vfneg | .vrcp | .vrsq | .vexp2 | .vlog2 | .vcvt | .vrotl | .vbcast
  | .vred | .vscan | .lds | .ldss | .ldg | .mrd | .mpassd => ⟨true, true, false, false⟩
  | .vadd | .vsub | .vmul | .vmulh | .vand | .vor | .vxor | .vshl | .vshr | .vsra | .vmin | .vmax
  | .vcmp | .vqrs | .vfadd | .vfsub | .vfmul | .vfmin | .vfmax | .vfcmp | .vopt | .vbfly | .vshuf
  | .mpass | .tred => ⟨true, true, true, false⟩
  | .sel | .vfma | .vrope | .vpack | .msprs | .tmerge => ⟨true, true, true, true⟩
  | .vunpk => ⟨true, true, false, true⟩
  | .sts | .stg | .scat | .lapr | .mldw => ⟨false, true, true, false⟩
  | .gath => ⟨true, true, bit (auxOf w) 0, false⟩

/-- Ops that name an accumulator tile in DST (R351, R352, R356). -/
def tileDst (o : Op) : Bool :=
  match o with
  | .mpass | .mpassd | .msprs | .mclr => true
  | _ => false

/-- Ops that name an accumulator tile in SA (R355, R356). -/
def tileSrc (o : Op) : Bool :=
  match o with
  | .mwait | .mrd => true
  | _ => false

/-- An op that produces a result a code-1 route can carry (R320). -/
def hasResult (o : Op) : Bool :=
  match o with
  | .nop | .halt | .haltf | .cond | .epost | .back | .sts | .stg | .scat | .lapr
  | .mldw | .mpass | .mpassd | .mwait | .mclr | .msprs => false
  | _ => true

/-- Latency in advanced rows; 0 where the op commits with the row (R322). -/
def latency (o : Op) : Nat :=
  match o with
  | .nop | .halt | .haltf | .cond | .epost | .back | .sts | .lapr => 0
  | .mov | .sel | .limm | .vadd | .vsub | .vmul | .vmulh | .vand | .vor | .vxor | .vshl | .vshr
  | .vsra | .vmin | .vmax | .vabs | .vcmp | .vnfc | .mldw | .mclr | .mwait => 1
  | .vqrs | .vcvt | .vpack | .vunpk | .vbfly | .vrng | .vshuf | .vrotl | .vbcast | .vred | .vscan
  | .lds | .ldss | .mrd => 2
  | .vfadd | .vfsub | .vfmul | .vfmin | .vfmax | .vfabs | .vfneg | .vfcmp | .tred => 3
  | .vfma | .ldg | .gath | .stg | .scat => 4
  | .vrcp | .vrsq | .vexp2 | .vlog2 | .vrope | .vopt | .tmerge => 6
  | .mpass | .msprs | .mpassd => 0

/-- Ops that may stand in a narrow row (R322). -/
def narrowOk (o : Op) : Bool :=
  match o with
  | .nop | .halt | .haltf | .cond | .epost | .mov | .sel | .limm
  | .vadd | .vsub | .vmul | .vmulh | .vand | .vor | .vxor | .vshl | .vshr | .vsra | .vmin | .vmax
  | .vabs | .vcmp | .vnfc | .vqrs | .vcvt | .lds | .ldss
  | .vfadd | .vfsub | .vfmul | .vfmin | .vfmax | .vfabs | .vfneg | .vfcmp | .vfma
  | .ldg | .stg | .vrcp | .vrsq | .vexp2 | .vlog2 | .sts => true
  | _ => false

/-- Ops that act once per PE, only when lane 0 of their mask is enabled (R317). -/
def oncePerPE (o : Op) : Bool :=
  match o with
  | .cond | .epost | .halt | .back | .mldw | .mpass | .mpassd | .msprs | .mwait | .mclr => true
  | _ => false

/-- Ops that do not use FMT and so accept a packet of every assigned format (R191). -/
def ignoresFmt (o : Op) : Bool :=
  match o with
  | .mov | .sel | .limm | .cond | .epost | .vnfc | .vrng | .vshuf | .vrotl | .vbcast
  | .sts | .stg | .scat | .lapr => true
  | _ => false

/-- FMT and AUX of VRED, VSCAN and TRED agree (R342, R357). -/
def redOk (f a : Nat) : Bool := (a < 3 && f == 0) || (3 ≤ a && a ≤ 5 && f == 7)

/-- Element width class of a row format: 32, 16 or 8 bits (R318). -/
def fmtWidth (f : Nat) : Nat := if f == 0 || f == 7 then 32 else if f ≤ 2 then 16 else 8

/-- FMT is one the op accepts, and every limit the op's entry puts on AUX and IMM holds (R265). -/
def opLimits (o : Op) (w : RowMods) : Bool :=
  let f := w.fmt.toNat
  let a := auxOf w
  let predDst := 56 ≤ w.dst.toNat
  match o with
  | .vadd | .vsub | .vmul | .vmulh | .vand | .vor | .vxor | .vshl | .vshr | .vsra | .vmin | .vmax
  | .vabs | .vqrs => f == 6 || f == 7
  | .vcmp => (f == 6 || f == 7) && bits a 2 0 ≤ 5 && (!predDst || f == 7)
  | .vfadd | .vfsub | .vfmul | .vfma | .vfmin | .vfmax | .vfabs | .vfneg
  | .vrcp | .vrsq | .vexp2 | .vlog2 => f ≤ 2
  | .vfcmp => f ≤ 2 && bits a 2 0 ≤ 4 && (!predDst || f == 0)
  | .vrope | .tmerge => f == 0
  | .vopt => f == 0 && w.dst.toNat < 52
  | .vcvt => fmtWidth f == fmtWidth (bits a 2 0) && bits a 5 3 ≤ 4
  | .vpack => (bits a 2 0 == 0 || bits a 2 0 == 7) && 1 ≤ f && f ≤ 6 && bits a 5 3 ≤ 4
  | .vunpk => 1 ≤ bits a 2 0 && bits a 2 0 ≤ 6 && (f == 0 || f == 7) && bits a 5 3 ≤ 4 &&
      (fmtWidth (bits a 2 0) == 8 || bits w.imm.toNat 62 61 ≤ 1)
  | .vbfly => (f == 3 || f == 4) && bits a 3 0 ≤ 8 && bits a 5 4 ≠ 3 &&
      w.sa.toNat ≤ 28 && w.sa.toNat % 4 == 0
  | .vred | .vscan | .tred => redOk f (bits a 2 0)
  | .sel => 56 ≤ w.sc.toNat
  | .lds | .ldss | .sts => bits w.imm.toNat 63 32 == 0
  | .scat => !(bit a 0)
  | .lapr => bits a 3 0 ≤ 6 && !(bit a 4)
  | .mldw | .mpass | .mpassd => 1 ≤ f && f ≤ 6
  | .msprs => 3 ≤ f && f ≤ 6
  | .mrd => bits a 5 4 == 0
  | _ => true

/-- A source operand code stands where R260 allows it. -/
def srcOk (tile : Bool) (c : Nat) : Bool :=
  if tile then 40 ≤ c && c ≤ 43 else !(36 ≤ c && c ≤ 43)

def route (w : RowMods) (d : Nat) : Nat :=
  match d with
  | 0 => w.rtn.toNat
  | 1 => w.rte.toNat
  | 2 => w.rts.toNat
  | _ => w.rtw.toNat

/-- A destination operand code stands where R260 allows it, a predicate for every op but VOPT (R335); an out port needs its
code-1 route (R320). [DEDUCED, log 33] -/
def dstOk (o : Op) (w : RowMods) : Bool :=
  let c := w.dst.toNat
  if tileDst o then 40 ≤ c && c ≤ 43
  else c < 32 || c == 48 || (52 ≤ c && c ≤ 55) || 56 ≤ c ||
    (36 ≤ c && c ≤ 39 && route w (c - 36) == 1)

/-- Any of the four routes carries the given code (R261). -/
def anyRoute (w : RowMods) (k : Nat) : Bool :=
  route w 0 == k || route w 1 == k || route w 2 == k || route w 3 == k

/-- A row that would carry a control scalar itself into a wide link (R60). -/
def carriesScalar (o : Op) (w : RowMods) : Bool :=
  let isC (x : Nat) := 52 ≤ x && x ≤ 55
  w.pl == 0 && (
    ((opUses o w).dst && isC w.dst.toNat && anyRoute w 1) ||
    ((o == .mov || o == .sel) && (isC w.sa.toNat || (o == .sel && isC w.sb.toNat)) &&
      (anyRoute w 1 || (36 ≤ w.dst.toNat && w.dst.toNat ≤ 39))))

/-- The checks of R265 on one row word that need no more of the image than the word. -/
def rowWordOk (o : Op) (w : RowMods) : Bool :=
  let u := opUses o w
  (!u.dst || dstOk o w) &&
  (!u.sa || srcOk (tileSrc o) w.sa.toNat) &&
  (!u.sb || srcOk false w.sb.toNat) &&
  (!u.sc || srcOk false w.sc.toNat) &&
  opLimits o w &&
  w.pl != 3 && (w.pl != 1 || narrowOk o) && ((w.pl == 2) == (o == .vbcast)) &&
  !carriesScalar o w &&
  (!anyRoute w 3 || (32 ≤ w.sc.toNat && w.sc.toNat ≤ 35)) &&
  (!anyRoute w 1 || hasResult o) &&
  (w.hold != 3 || w.aux != 0) &&
  (w.hold != 2 || (36 ≤ w.dst.toNat && w.dst.toNat ≤ 39)) &&
  (w.hold != 1 || (32 ≤ w.sa.toNat && w.sa.toNat ≤ 35) || (44 ≤ w.sa.toNat && w.sa.toNat ≤ 47) ||
    o == .lds || o == .ldss)

/-- The op and fields of a row instruction. -/
def opOf : Instr → Option (Op × RowMods)
  | .nop w => some (.nop, w)
  | .rowHalt w => some (.halt, w)
  | .haltf w => some (.haltf, w)
  | .cond w => some (.cond, w)
  | .epost w => some (.epost, w)
  | .mov w => some (.mov, w)
  | .rowSel w => some (.sel, w)
  | .limm w => some (.limm, w)
  | .vadd w => some (.vadd, w)
  | .vsub w => some (.vsub, w)
  | .vmul w => some (.vmul, w)
  | .vmulh w => some (.vmulh, w)
  | .vand w => some (.vand, w)
  | .vor w => some (.vor, w)
  | .vxor w => some (.vxor, w)
  | .vshl w => some (.vshl, w)
  | .vshr w => some (.vshr, w)
  | .vsra w => some (.vsra, w)
  | .vmin w => some (.vmin, w)
  | .vmax w => some (.vmax, w)
  | .vabs w => some (.vabs, w)
  | .vcmp w => some (.vcmp, w)
  | .vqrs w => some (.vqrs, w)
  | .vfadd w => some (.vfadd, w)
  | .vfsub w => some (.vfsub, w)
  | .vfmul w => some (.vfmul, w)
  | .vfma w => some (.vfma, w)
  | .vfmin w => some (.vfmin, w)
  | .vfmax w => some (.vfmax, w)
  | .vfabs w => some (.vfabs, w)
  | .vfneg w => some (.vfneg, w)
  | .vfcmp w => some (.vfcmp, w)
  | .vrcp w => some (.vrcp, w)
  | .vrsq w => some (.vrsq, w)
  | .vexp2 w => some (.vexp2, w)
  | .vlog2 w => some (.vlog2, w)
  | .vrope w => some (.vrope, w)
  | .vnfc w => some (.vnfc, w)
  | .vopt w => some (.vopt, w)
  | .vcvt w => some (.vcvt, w)
  | .vpack w => some (.vpack, w)
  | .vunpk w => some (.vunpk, w)
  | .vbfly w => some (.vbfly, w)
  | .vrng w => some (.vrng, w)
  | .vshuf w => some (.vshuf, w)
  | .vrotl w => some (.vrotl, w)
  | .vbcast w => some (.vbcast, w)
  | .vred w => some (.vred, w)
  | .vscan w => some (.vscan, w)
  | .lds w => some (.lds, w)
  | .ldss w => some (.ldss, w)
  | .sts w => some (.sts, w)
  | .ldg w => some (.ldg, w)
  | .stg w => some (.stg, w)
  | .gath w => some (.gath, w)
  | .scat w => some (.scat, w)
  | .back w => some (.back, w)
  | .lapr w => some (.lapr, w)
  | .mldw w => some (.mldw, w)
  | .mpass w => some (.mpass, w)
  | .mpassd w => some (.mpassd, w)
  | .mwait w => some (.mwait, w)
  | .mrd w => some (.mrd, w)
  | .mclr w => some (.mclr, w)
  | .msprs w => some (.msprs, w)
  | .tmerge w => some (.tmerge, w)
  | .tred w => some (.tred, w)
  | _ => none

end Sys2Proof.Machine
end

