-- ==== Sys2Proof/WellFormed.lean ====
section
/-! DEFINITION. Which terms of the syntax are instructions: the field limits of R253-R258 and R372, the
one-word checks of R265 for row ops, and the ranges of the part numbers for the part's own steps. -/

namespace Sys2Proof

/-- An instruction whose every field holds a value the spec lists. -/
def Instr.wellFormed (i : Instr) : Bool :=
  match Machine.opOf i with
  | some (o, w) => Machine.rowWordOk o w
  | none =>
    match i with
    | .shi _ _ k _ => k != 3
    | .idf _ _ l => l.toNat ≤ 5
    | .ldaq _ _ s => s.toNat ≤ 4
    | .strl _ _ c => c.toNat ≤ 4
    | .fence k s => k != 3 && s.toNat ≤ 4
    | .sgoSet dim _ _ => dim.toNat ≤ 5
    | .sgoSetgo dim _ _ => dim.toNat ≤ 5
    | .sloop dim _ p => dim.toNat ≤ 5 && p != 0
    | .ostlerWaitEnd die n => die < 8 && n < 32
    | .eventPost die n => die < 8 && n < 32
    | .cwostStart die n ctx => die < 8 && n < 32 && ctx < 256
    | .cwostStop die n => die < 8 && n < 32
    | .cwostStopDone die n => die < 8 && n < 32
    | .loadReply die pen _ => die < 8 && pen < 128
    | .penRetire die pen => die < 8 && pen < 128
    | .commandDispatch die pen port => die < 8 && pen < 128 && port < 64
    | .streamTile die e k => die < 8 && e < 16 && k < 16
    | .registerWrite f _ _ => f < 64
    | .functionLevelReset f => f < 64
    | _ => true

end Sys2Proof
end

