-- ==== Sys2Proof/Decode.lean ====
section
/-! DEFINITION. The decoder, total on every word, which refuses each encoding that is no instruction by
name (R252-R258, R264, R270-R274), and after it the encoder written from the same tables. -/

namespace Sys2Proof

/-- Why a word is no instruction (R274). -/
inductive DecodeError where
  /-- Fewer bytes than one word of the kind asked for. -/
  | shortInput
  /-- Ostler major 0x00 or a reserved major (R254, R258). -/
  | reservedMajor
  /-- fn beyond the last of its major (R255). -/
  | unassignedFn
  /-- SYS minor 9..15 (R256). -/
  | unassignedMinor
  /-- SHI kind 3 (R254). -/
  | shiKind
  /-- IDF level 6 or 7 (R254). -/
  | idfLevel
  /-- Scope 5..7 in LDAQ, STRL or FENCE (R219). -/
  | badScope
  /-- FENCE kind 3 (R256). -/
  | fenceKind
  /-- AFADD with a nonzero CTL field (R382). -/
  | afaddCtl
  /-- Unassigned row OPC (R264). -/
  | unassignedOpc
  /-- Unassigned SOP (R271). -/
  | unassignedSop
  /-- A nonzero reserved bit of a stream word (R271). -/
  | streamReserved
  /-- A stream field value that R372 does not list. -/
  | streamField
  deriving DecidableEq, Repr

/-- The six-bit major of an ostler word (R252). -/
def majorOf (w : W32) : BitVec 6 := w.extractLsb' 26 6
def rd (w : W32) : Reg := w.extractLsb' 21 5
def ra (w : W32) : Reg := w.extractLsb' 16 5
def rb (w : W32) : Reg := w.extractLsb' 11 5
def rc (w : W32) : Reg := w.extractLsb' 6 5
def fnOf (w : W32) : BitVec 6 := w.extractLsb' 0 6
def immOf (w : W32) : BitVec 16 := w.extractLsb' 0 16
def csrOf (w : W32) : BitVec 12 := w.extractLsb' 4 12

/-- Whether a scope code names a scope (R219). -/
def scopeOk (s : BitVec 3) : Bool := s.toNat ≤ 4

/-- Major 0x01: fn in the order of R255. -/
def decInt (w : W32) : Except DecodeError Instr :=
  let d := rd w
  let a := ra w
  let b := rb w
  let c := rc w
  match (fnOf w).toNat with
  | 0 => .ok (.add d a b)
  | 1 => .ok (.sub d a b)
  | 2 => .ok (.and d a b)
  | 3 => .ok (.or d a b)
  | 4 => .ok (.xor d a b)
  | 5 => .ok (.sll d a b)
  | 6 => .ok (.srl d a b)
  | 7 => .ok (.sra d a b)
  | 8 => .ok (.mul d a b)
  | 9 => .ok (.mulh d a b)
  | 10 => .ok (.mulhu d a b)
  | 11 => .ok (.div d a b)
  | 12 => .ok (.divu d a b)
  | 13 => .ok (.rem d a b)
  | 14 => .ok (.remu d a b)
  | 15 => .ok (.slt d a b)
  | 16 => .ok (.sltu d a b)
  | 17 => .ok (.min d a b)
  | 18 => .ok (.max d a b)
  | 19 => .ok (.minu d a b)
  | 20 => .ok (.maxu d a b)
  | 21 => .ok (.clz d a)
  | 22 => .ok (.popc d a)
  | 23 => .ok (.bext d a b)
  | 24 => .ok (.bins d a b c)
  | 25 => .ok (.sel d a b c)
  | _ => .error .unassignedFn

/-- Major 0x31: fn in the order of R255. -/
def decEvq (w : W32) : Except DecodeError Instr :=
  let d := rd w
  let a := ra w
  let b := rb w
  let c := rc w
  match (fnOf w).toNat with
  | 0 => .ok (.eqpop d a)
  | 1 => .ok (.eqpeek d a)
  | 2 => .ok (.eqwait d a)
  | 3 => .ok (.eqpost d a b c)
  | _ => .error .unassignedFn

/-- Major 0x32: fn in the order of R255. -/
def decReg (w : W32) : Except DecodeError Instr :=
  let d := rd w
  let a := ra w
  let b := rb w
  let c := rc w
  match (fnOf w).toNat with
  | 0 => .ok (.rplace d a)
  | 1 => .ok (.rload d a b)
  | 2 => .ok (.rcfg d a b c)
  | 3 => .ok (.rstart d a)
  | 4 => .ok (.rstop d a)
  | 5 => .ok (.rstat d a)
  | 6 => .ok (.rrel d a)
  | 7 => .ok (.radj d a b c)
  | 8 => .ok (.jraise d a b)
  | 9 => .ok (.jdone d a b)
  | 10 => .ok (.jwait d a b)
  | 11 => .ok (.launch d a b)
  | _ => .error .unassignedFn

/-- Major 0x33: fn in the order of R255. -/
def decStr (w : W32) : Except DecodeError Instr :=
  let d := rd w
  let a := ra w
  let b := rb w
  let c := rc w
  match (fnOf w).toNat with
  | 0 => .ok (.sq d a b)
  | 1 => .ok (.sprog d a b c)
  | 2 => .ok (.scancel d a)
  | 3 => .ok (.sstat d a)
  | 4 => .ok (.recfl d a)
  | 5 => .ok (.scomb d a)
  | _ => .error .unassignedFn

/-- Major 0x34: fn in the order of R255. -/
def decBuf (w : W32) : Except DecodeError Instr :=
  let d := rd w
  let a := ra w
  let b := rb w
  let c := rc w
  match (fnOf w).toNat with
  | 0 => .ok (.bwait d a b c)
  | 1 => .ok (.bset d a b)
  | _ => .error .unassignedFn

/-- Major 0x35: fn in the order of R255. -/
def decMem (w : W32) : Except DecodeError Instr :=
  let d := rd w
  let a := ra w
  let b := rb w
  let c := rc w
  match (fnOf w).toNat with
  | 0 => .ok (.clean d a b)
  | 1 => .ok (.inval d a b)
  | 2 => .ok (.flush d a b)
  | 3 => .ok (.lock d a b)
  | 4 => .ok (.unlock d a b)
  | 5 => .ok (.hover d a b c)
  | _ => .error .unassignedFn

/-- Major 0x36: fn in the order of R255. -/
def decAmo (w : W32) : Except DecodeError Instr :=
  let d := rd w
  let a := ra w
  let b := rb w
  let c := rc w
  match (fnOf w).toNat with
  | 0 => .ok (.aadd d a b (w.extractLsb' 6 1))
  | 1 => .ok (.aand d a b (w.extractLsb' 6 1))
  | 2 => .ok (.aor d a b (w.extractLsb' 6 1))
  | 3 => .ok (.axor d a b (w.extractLsb' 6 1))
  | 4 => .ok (.amin d a b (w.extractLsb' 7 1) (w.extractLsb' 6 1))
  | 5 => .ok (.amax d a b (w.extractLsb' 7 1) (w.extractLsb' 6 1))
  | 6 => .ok (.axchg d a b (w.extractLsb' 6 1))
  | 7 => .ok (.acas d a b c)
  | 8 => if c = 0 then .ok (.afadd d a b) else .error .afaddCtl
  | 9 => .ok (.arun d a b c)
  | 10 => .ok (.rdef d a b)
  | 11 => .ok (.lapp d a b c)
  | 12 => .ok (.lmrg d a b c)
  | _ => .error .unassignedFn

/-- Major 0x37: fn in the order of R255. -/
def decDrv (w : W32) : Except DecodeError Instr :=
  let d := rd w
  let a := ra w
  let b := rb w
  match (fnOf w).toNat with
  | 0 => .ok (.ddecl d a b)
  | 1 => .ok (.ddrop d a)
  | 2 => .ok (.drd d a b)
  | 3 => .ok (.drds d a b)
  | 4 => .ok (.dsnap d a b)
  | 5 => .ok (.dsync d a)
  | 6 => .ok (.dreb d a)
  | 7 => .ok (.qscale d a b)
  | _ => .error .unassignedFn

/-- Major 0x38: fn in the order of R255. -/
def decAut (w : W32) : Except DecodeError Instr :=
  let d := rd w
  let a := ra w
  let b := rb w
  let c := rc w
  match (fnOf w).toNat with
  | 0 => .ok (.kinf d a b c)
  | 1 => .ok (.kfb d a b c)
  | 2 => .ok (.kseed d a b c)
  | 3 => .ok (.kld d a b c)
  | 4 => .ok (.kst d a b c)
  | 5 => .ok (.kcfg d a b)
  | 6 => .ok (.kvote d a b)
  | 7 => .ok (.ksync d a b)
  | 8 => .ok (.kclr d a)
  | _ => .error .unassignedFn

/-- Major 0x39: fn in the order of R255. -/
def decRng (w : W32) : Except DecodeError Instr :=
  let d := rd w
  let a := ra w
  let b := rb w
  match (fnOf w).toNat with
  | 0 => .ok (.rkey a b)
  | 1 => .ok (.rdraw d)
  | _ => .error .unassignedFn

/-- Major 0x3A: fn in the order of R255. -/
def decNvq (w : W32) : Except DecodeError Instr :=
  let d := rd w
  let a := ra w
  let b := rb w
  let c := rc w
  match (fnOf w).toNat with
  | 0 => .ok (.nvrd d a b c)
  | 1 => .ok (.nvwr d a b c)
  | _ => .error .unassignedFn

/-- Major 0x3B: fn in the order of R255. -/
def decKvt (w : W32) : Except DecodeError Instr :=
  let d := rd w
  let a := ra w
  let b := rb w
  match (fnOf w).toNat with
  | 0 => .ok (.offl d a)
  | 1 => .ok (.recall d a)
  | 2 => .ok (.xloc d a b)
  | _ => .error .unassignedFn

/-- Major 0x3C: fn in the order of R255. -/
def decSlr (w : W32) : Except DecodeError Instr :=
  let d := rd w
  let a := ra w
  let b := rb w
  match (fnOf w).toNat with
  | 0 => .ok (.lld d a)
  | 1 => .ok (.lst a b)
  | 2 => .ok (.ldone a)
  | _ => .error .unassignedFn

/-- SYS, format OS: minor in [3:0] (R256). -/
def decSys (w : W32) : Except DecodeError Instr :=
  match (w.extractLsb' 0 4).toNat with
  | 0 => .ok (.trap (w.extractLsb' 4 16))
  | 1 => .ok .eret
  | 2 => .ok (.csrr (rd w) (csrOf w))
  | 3 => .ok (.csrw (rd w) (ra w) (csrOf w))
  | 4 => .ok (.csrs (rd w) (ra w) (csrOf w))
  | 5 => .ok (.csrc (rd w) (ra w) (csrOf w))
  | 6 =>
    if w.extractLsb' 7 2 = 3 then .error .fenceKind
    else if scopeOk (w.extractLsb' 4 3) then .ok (.fence (w.extractLsb' 7 2) (w.extractLsb' 4 3))
    else .error .badScope
  | 7 => .ok (.wait (ra w))
  | 8 => .ok .halt
  | _ => .error .unassignedMinor

/-- One ostler word (R254). -/
def decodeOstler (w : W32) : Except DecodeError Instr :=
  match (majorOf w).toNat with
  | 0x01 => decInt w
  | 0x02 => .ok (.addi (rd w) (ra w) (immOf w))
  | 0x03 => .ok (.andi (rd w) (ra w) (immOf w))
  | 0x04 => .ok (.ori (rd w) (ra w) (immOf w))
  | 0x05 => .ok (.xori (rd w) (ra w) (immOf w))
  | 0x06 => .ok (.slti (rd w) (ra w) (immOf w))
  | 0x07 =>
    if w.extractLsb' 6 2 = 3 then .error .shiKind
    else .ok (.shi (rd w) (ra w) (w.extractLsb' 6 2) (w.extractLsb' 0 6))
  | 0x08 => .ok (.lui (rd w) (immOf w))
  | 0x09 =>
    if (w.extractLsb' 0 3).toNat ≤ 5 then .ok (.idf (rd w) (ra w) (w.extractLsb' 0 3))
    else .error .idfLevel
  | 0x10 => .ok (.ldb (rd w) (ra w) (immOf w))
  | 0x11 => .ok (.ldbu (rd w) (ra w) (immOf w))
  | 0x12 => .ok (.ldh (rd w) (ra w) (immOf w))
  | 0x13 => .ok (.ldhu (rd w) (ra w) (immOf w))
  | 0x14 => .ok (.ldw (rd w) (ra w) (immOf w))
  | 0x15 => .ok (.ldwu (rd w) (ra w) (immOf w))
  | 0x16 => .ok (.ldd (rd w) (ra w) (immOf w))
  | 0x17 =>
    if scopeOk (w.extractLsb' 0 3) then .ok (.ldaq (rd w) (ra w) (w.extractLsb' 0 3))
    else .error .badScope
  | 0x18 => .ok (.stb (rd w) (ra w) (immOf w))
  | 0x19 => .ok (.sth (rd w) (ra w) (immOf w))
  | 0x1A => .ok (.stw (rd w) (ra w) (immOf w))
  | 0x1B => .ok (.std (rd w) (ra w) (immOf w))
  | 0x1C =>
    if scopeOk (w.extractLsb' 0 3) then .ok (.strl (rd w) (ra w) (w.extractLsb' 0 3))
    else .error .badScope
  | 0x20 => .ok (.beq (rd w) (ra w) (immOf w))
  | 0x21 => .ok (.bne (rd w) (ra w) (immOf w))
  | 0x22 => .ok (.blt (rd w) (ra w) (immOf w))
  | 0x23 => .ok (.bge (rd w) (ra w) (immOf w))
  | 0x24 => .ok (.bltu (rd w) (ra w) (immOf w))
  | 0x25 => .ok (.bgeu (rd w) (ra w) (immOf w))
  | 0x26 => .ok (.jal (w.extractLsb' 25 1) (w.extractLsb' 0 25))
  | 0x27 => .ok (.jalr (rd w) (ra w) (immOf w))
  | 0x28 => .ok (.loop (rd w) (immOf w))
  | 0x29 => .ok (.loopi (w.extractLsb' 16 10) (immOf w))
  | 0x2A => .ok .lpop
  | 0x30 => decSys w
  | 0x31 => decEvq w
  | 0x32 => decReg w
  | 0x33 => decStr w
  | 0x34 => decBuf w
  | 0x35 => decMem w
  | 0x36 => decAmo w
  | 0x37 => decDrv w
  | 0x38 => decAut w
  | 0x39 => decRng w
  | 0x3A => decNvq w
  | 0x3B => decKvt w
  | 0x3C => decSlr w
  | _ => .error .reservedMajor

/-- The op code of a row op (R264). -/
def rowOpc : Instr → Option (Nat × RowMods)
  | .nop w => some (0x00, w)
  | .rowHalt w => some (0x01, w)
  | .haltf w => some (0x02, w)
  | .cond w => some (0x03, w)
  | .epost w => some (0x04, w)
  | .mov w => some (0x05, w)
  | .rowSel w => some (0x06, w)
  | .limm w => some (0x07, w)
  | .vadd w => some (0x10, w)
  | .vsub w => some (0x11, w)
  | .vmul w => some (0x12, w)
  | .vmulh w => some (0x13, w)
  | .vand w => some (0x14, w)
  | .vor w => some (0x15, w)
  | .vxor w => some (0x16, w)
  | .vshl w => some (0x17, w)
  | .vshr w => some (0x18, w)
  | .vsra w => some (0x19, w)
  | .vmin w => some (0x1A, w)
  | .vmax w => some (0x1B, w)
  | .vabs w => some (0x1C, w)
  | .vcmp w => some (0x1D, w)
  | .vqrs w => some (0x1E, w)
  | .vfadd w => some (0x20, w)
  | .vfsub w => some (0x21, w)
  | .vfmul w => some (0x22, w)
  | .vfma w => some (0x23, w)
  | .vfmin w => some (0x24, w)
  | .vfmax w => some (0x25, w)
  | .vfabs w => some (0x26, w)
  | .vfneg w => some (0x27, w)
  | .vfcmp w => some (0x28, w)
  | .vrcp w => some (0x29, w)
  | .vrsq w => some (0x2A, w)
  | .vexp2 w => some (0x2B, w)
  | .vlog2 w => some (0x2C, w)
  | .vrope w => some (0x2D, w)
  | .vnfc w => some (0x2E, w)
  | .vopt w => some (0x2F, w)
  | .vcvt w => some (0x30, w)
  | .vpack w => some (0x31, w)
  | .vunpk w => some (0x32, w)
  | .vbfly w => some (0x33, w)
  | .vrng w => some (0x34, w)
  | .vshuf w => some (0x38, w)
  | .vrotl w => some (0x39, w)
  | .vbcast w => some (0x3A, w)
  | .vred w => some (0x3B, w)
  | .vscan w => some (0x3C, w)
  | .lds w => some (0x40, w)
  | .ldss w => some (0x41, w)
  | .sts w => some (0x42, w)
  | .ldg w => some (0x43, w)
  | .stg w => some (0x44, w)
  | .gath w => some (0x45, w)
  | .scat w => some (0x46, w)
  | .back w => some (0x47, w)
  | .lapr w => some (0x48, w)
  | .mldw w => some (0x50, w)
  | .mpass w => some (0x51, w)
  | .mpassd w => some (0x52, w)
  | .mwait w => some (0x53, w)
  | .mrd w => some (0x54, w)
  | .mclr w => some (0x55, w)
  | .msprs w => some (0x56, w)
  | .tmerge w => some (0x58, w)
  | .tred w => some (0x59, w)
  | _ => none

/-- The row op of an op code (R264); unassigned codes have none. -/
def rowOfOpc (opc : Nat) (w : RowMods) : Option Instr :=
  match opc with
  | 0x00 => some (.nop w)
  | 0x01 => some (.rowHalt w)
  | 0x02 => some (.haltf w)
  | 0x03 => some (.cond w)
  | 0x04 => some (.epost w)
  | 0x05 => some (.mov w)
  | 0x06 => some (.rowSel w)
  | 0x07 => some (.limm w)
  | 0x10 => some (.vadd w)
  | 0x11 => some (.vsub w)
  | 0x12 => some (.vmul w)
  | 0x13 => some (.vmulh w)
  | 0x14 => some (.vand w)
  | 0x15 => some (.vor w)
  | 0x16 => some (.vxor w)
  | 0x17 => some (.vshl w)
  | 0x18 => some (.vshr w)
  | 0x19 => some (.vsra w)
  | 0x1A => some (.vmin w)
  | 0x1B => some (.vmax w)
  | 0x1C => some (.vabs w)
  | 0x1D => some (.vcmp w)
  | 0x1E => some (.vqrs w)
  | 0x20 => some (.vfadd w)
  | 0x21 => some (.vfsub w)
  | 0x22 => some (.vfmul w)
  | 0x23 => some (.vfma w)
  | 0x24 => some (.vfmin w)
  | 0x25 => some (.vfmax w)
  | 0x26 => some (.vfabs w)
  | 0x27 => some (.vfneg w)
  | 0x28 => some (.vfcmp w)
  | 0x29 => some (.vrcp w)
  | 0x2A => some (.vrsq w)
  | 0x2B => some (.vexp2 w)
  | 0x2C => some (.vlog2 w)
  | 0x2D => some (.vrope w)
  | 0x2E => some (.vnfc w)
  | 0x2F => some (.vopt w)
  | 0x30 => some (.vcvt w)
  | 0x31 => some (.vpack w)
  | 0x32 => some (.vunpk w)
  | 0x33 => some (.vbfly w)
  | 0x34 => some (.vrng w)
  | 0x38 => some (.vshuf w)
  | 0x39 => some (.vrotl w)
  | 0x3A => some (.vbcast w)
  | 0x3B => some (.vred w)
  | 0x3C => some (.vscan w)
  | 0x40 => some (.lds w)
  | 0x41 => some (.ldss w)
  | 0x42 => some (.sts w)
  | 0x43 => some (.ldg w)
  | 0x44 => some (.stg w)
  | 0x45 => some (.gath w)
  | 0x46 => some (.scat w)
  | 0x47 => some (.back w)
  | 0x48 => some (.lapr w)
  | 0x50 => some (.mldw w)
  | 0x51 => some (.mpass w)
  | 0x52 => some (.mpassd w)
  | 0x53 => some (.mwait w)
  | 0x54 => some (.mrd w)
  | 0x55 => some (.mclr w)
  | 0x56 => some (.msprs w)
  | 0x58 => some (.tmerge w)
  | 0x59 => some (.tred w)
  | _ => none


/-- The fields of a row word (R259). -/
def rowMods (w : Row) : RowMods where
  fmt := w.extractLsb' 117 3
  dst := w.extractLsb' 111 6
  sa := w.extractLsb' 105 6
  sb := w.extractLsb' 99 6
  sc := w.extractLsb' 93 6
  pr := w.extractLsb' 90 3
  pn := w.extractLsb' 89 1
  stg := w.extractLsb' 86 3
  hold := w.extractLsb' 84 2
  hid := w.extractLsb' 80 4
  rtn := w.extractLsb' 78 2
  rte := w.extractLsb' 76 2
  rts := w.extractLsb' 74 2
  rtw := w.extractLsb' 72 2
  pl := w.extractLsb' 70 2
  aux := w.extractLsb' 64 6
  imm := w.extractLsb' 0 64

/-- One row word (R259, R264). -/
def decodeRow (w : Row) : Except DecodeError Instr :=
  match rowOfOpc (w.extractLsb' 120 8).toNat (rowMods w) with
  | some i => .ok i
  | none => .error .unassignedOpc

/-- One stream word: SOP in [63:58], the fields of R372, every reserved bit zero (R271). Bits [57:56] of SCMB and SPEER, which R372
neither lists nor reserves, are taken as reserved, as R270 has those of SPAT. [DESIGN CHOICE, log 102] -/
def decodeStream (w : W64) : Except DecodeError Instr :=
  let f (lo len : Nat) : BitVec len := w.extractLsb' lo len
  let clear (lo len : Nat) (i : Instr) : Except DecodeError Instr :=
    if f lo len = 0 then .ok i else .error .streamReserved
  let dimOk (i : Instr) : Except DecodeError Instr :=
    if (f 55 3).toNat ≤ 5 then .ok i else .error .streamField
  match (f 58 6).toNat with
  | 0x01 => clear 56 2 (.spat (f 0 56))
  | 0x02 =>
    match (f 56 2).toNat with
    | 0 => clear 16 40 (.sdstPort (f 0 6) (f 6 7) (f 13 3))
    | 1 => .ok (.sdstMem (f 0 56))
    | _ => .error .streamField
  | 0x03 =>
    match (f 53 2).toNat with
    | 0 => dimOk (.sgoSet (f 55 3) (f 26 27) (f 0 26))
    | 1 => dimOk (.sgoSetgo (f 55 3) (f 26 27) (f 0 26))
    | 2 => if f 55 3 = 0 then clear 0 53 .sgoGo else .error .streamReserved
    | _ => .error .streamField
  | 0x04 => clear 1 57 (.sxpose (f 0 1))
  | 0x05 => clear 56 2 (.scmb (f 0 56))
  | 0x06 => if f 0 28 = 0 then .error .streamField else dimOk (.sloop (f 55 3) (f 28 27) (f 0 28))
  | 0x07 => clear 0 58 .sendl
  | 0x08 => clear 21 37 (.swaith (f 0 6) (f 6 7) (f 13 3) (f 16 2) (f 18 3))
  | 0x09 => clear 56 2 (.sevt (f 0 56))
  | 0x0A => clear 0 58 .sfence
  | 0x0B =>
    if f 56 2 = 0 then clear 6 1 (.speer (f 7 49) (f 0 6)) else .error .streamReserved
  | 0x0C => clear 0 58 .sdone
  | _ => .error .unassignedSop

/-- A little-endian number from bytes, lowest address first (R5). -/
def leNat : List Byte → Nat
  | [] => 0
  | b :: bs => b.toNat + 256 * leNat bs

/-- The n low bytes of a number, lowest first (R5). -/
def leBytes : Nat → Nat → List Byte
  | 0, _ => []
  | n + 1, v => BitVec.ofNat 8 v :: leBytes n (v / 256)

/-- The next ostler word of a byte stream, with the bytes that follow it. -/
def decodeBytes (bs : List Byte) : Except DecodeError (Instr × List Byte) :=
  if bs.length < 4 then .error .shortInput
  else (decodeOstler (BitVec.ofNat 32 (leNat (bs.take 4)))).map (·, bs.drop 4)

/-- The next row word of a byte stream. -/
def decodeRowBytes (bs : List Byte) : Except DecodeError (Instr × List Byte) :=
  if bs.length < 16 then .error .shortInput
  else (decodeRow (BitVec.ofNat 128 (leNat (bs.take 16)))).map (·, bs.drop 16)

/-- The next stream word of a byte stream. -/
def decodeStreamBytes (bs : List Byte) : Except DecodeError (Instr × List Byte) :=
  if bs.length < 8 then .error .shortInput
  else (decodeStream (BitVec.ofNat 64 (leNat (bs.take 8)))).map (·, bs.drop 8)

/-- The decoder on the table's numbering of an instruction's bits: an ostler word of 32 bits, a stream
word of 64, a row word of 128. -/
def decodeTableWord (nbits w : Nat) : Option Instr :=
  let r :=
    if nbits ≤ 32 then decodeBytes (leBytes 4 w)
    else if nbits ≤ 64 then decodeStreamBytes (leBytes 8 w)
    else decodeRowBytes (leBytes 16 w)
  match r with
  | .ok (i, _) => some i
  | .error _ => none

/-- Format OR (R252). -/
def orWord (maj : BitVec 6) (d a b c : Reg) (fn : BitVec 6) : W32 := maj ++ d ++ a ++ b ++ c ++ fn
/-- Formats OI and OB (R252). -/
def oiWord (maj : BitVec 6) (d a : Reg) (i : BitVec 16) : W32 := maj ++ d ++ a ++ i
/-- Format OS (R252). -/
def osWord (d a : Reg) (i : BitVec 12) (minor : BitVec 4) : W32 := 0x30#6 ++ d ++ a ++ i ++ minor

/-- The word of an ostler instruction (R252-R256); reserved fields are zero. -/
def encodeOstler : Instr → Option W32
  | .add d a b => some (orWord 0x01 d a b 0 0)
  | .sub d a b => some (orWord 0x01 d a b 0 1)
  | .and d a b => some (orWord 0x01 d a b 0 2)
  | .or d a b => some (orWord 0x01 d a b 0 3)
  | .xor d a b => some (orWord 0x01 d a b 0 4)
  | .sll d a b => some (orWord 0x01 d a b 0 5)
  | .srl d a b => some (orWord 0x01 d a b 0 6)
  | .sra d a b => some (orWord 0x01 d a b 0 7)
  | .mul d a b => some (orWord 0x01 d a b 0 8)
  | .mulh d a b => some (orWord 0x01 d a b 0 9)
  | .mulhu d a b => some (orWord 0x01 d a b 0 10)
  | .div d a b => some (orWord 0x01 d a b 0 11)
  | .divu d a b => some (orWord 0x01 d a b 0 12)
  | .rem d a b => some (orWord 0x01 d a b 0 13)
  | .remu d a b => some (orWord 0x01 d a b 0 14)
  | .slt d a b => some (orWord 0x01 d a b 0 15)
  | .sltu d a b => some (orWord 0x01 d a b 0 16)
  | .min d a b => some (orWord 0x01 d a b 0 17)
  | .max d a b => some (orWord 0x01 d a b 0 18)
  | .minu d a b => some (orWord 0x01 d a b 0 19)
  | .maxu d a b => some (orWord 0x01 d a b 0 20)
  | .clz d a => some (orWord 0x01 d a 0 0 21)
  | .popc d a => some (orWord 0x01 d a 0 0 22)
  | .bext d a b => some (orWord 0x01 d a b 0 23)
  | .bins d a b c => some (orWord 0x01 d a b c 24)
  | .sel d a b c => some (orWord 0x01 d a b c 25)
  | .eqpop d a => some (orWord 0x31 d a 0 0 0)
  | .eqpeek d a => some (orWord 0x31 d a 0 0 1)
  | .eqwait d a => some (orWord 0x31 d a 0 0 2)
  | .eqpost d a b c => some (orWord 0x31 d a b c 3)
  | .rplace d a => some (orWord 0x32 d a 0 0 0)
  | .rload d a b => some (orWord 0x32 d a b 0 1)
  | .rcfg d a b c => some (orWord 0x32 d a b c 2)
  | .rstart d a => some (orWord 0x32 d a 0 0 3)
  | .rstop d a => some (orWord 0x32 d a 0 0 4)
  | .rstat d a => some (orWord 0x32 d a 0 0 5)
  | .rrel d a => some (orWord 0x32 d a 0 0 6)
  | .radj d a b c => some (orWord 0x32 d a b c 7)
  | .jraise d a b => some (orWord 0x32 d a b 0 8)
  | .jdone d a b => some (orWord 0x32 d a b 0 9)
  | .jwait d a b => some (orWord 0x32 d a b 0 10)
  | .launch d a b => some (orWord 0x32 d a b 0 11)
  | .sq d a b => some (orWord 0x33 d a b 0 0)
  | .sprog d a b c => some (orWord 0x33 d a b c 1)
  | .scancel d a => some (orWord 0x33 d a 0 0 2)
  | .sstat d a => some (orWord 0x33 d a 0 0 3)
  | .recfl d a => some (orWord 0x33 d a 0 0 4)
  | .scomb d a => some (orWord 0x33 d a 0 0 5)
  | .bwait d a b c => some (orWord 0x34 d a b c 0)
  | .bset d a b => some (orWord 0x34 d a b 0 1)
  | .clean d a b => some (orWord 0x35 d a b 0 0)
  | .inval d a b => some (orWord 0x35 d a b 0 1)
  | .flush d a b => some (orWord 0x35 d a b 0 2)
  | .lock d a b => some (orWord 0x35 d a b 0 3)
  | .unlock d a b => some (orWord 0x35 d a b 0 4)
  | .hover d a b c => some (orWord 0x35 d a b c 5)
  | .aadd d a b w => some (orWord 0x36 d a b (0#4 ++ w) 0)
  | .aand d a b w => some (orWord 0x36 d a b (0#4 ++ w) 1)
  | .aor d a b w => some (orWord 0x36 d a b (0#4 ++ w) 2)
  | .axor d a b w => some (orWord 0x36 d a b (0#4 ++ w) 3)
  | .amin d a b s w => some (orWord 0x36 d a b ((0#3 ++ s) ++ w) 4)
  | .amax d a b s w => some (orWord 0x36 d a b ((0#3 ++ s) ++ w) 5)
  | .axchg d a b w => some (orWord 0x36 d a b (0#4 ++ w) 6)
  | .acas d a b c => some (orWord 0x36 d a b c 7)
  | .afadd d a b => some (orWord 0x36 d a b 0 8)
  | .arun d a b c => some (orWord 0x36 d a b c 9)
  | .rdef d a b => some (orWord 0x36 d a b 0 10)
  | .lapp d a b c => some (orWord 0x36 d a b c 11)
  | .lmrg d a b c => some (orWord 0x36 d a b c 12)
  | .ddecl d a b => some (orWord 0x37 d a b 0 0)
  | .ddrop d a => some (orWord 0x37 d a 0 0 1)
  | .drd d a b => some (orWord 0x37 d a b 0 2)
  | .drds d a b => some (orWord 0x37 d a b 0 3)
  | .dsnap d a b => some (orWord 0x37 d a b 0 4)
  | .dsync d a => some (orWord 0x37 d a 0 0 5)
  | .dreb d a => some (orWord 0x37 d a 0 0 6)
  | .qscale d a b => some (orWord 0x37 d a b 0 7)
  | .kinf d a b c => some (orWord 0x38 d a b c 0)
  | .kfb d a b c => some (orWord 0x38 d a b c 1)
  | .kseed d a b c => some (orWord 0x38 d a b c 2)
  | .kld d a b c => some (orWord 0x38 d a b c 3)
  | .kst d a b c => some (orWord 0x38 d a b c 4)
  | .kcfg d a b => some (orWord 0x38 d a b 0 5)
  | .kvote d a b => some (orWord 0x38 d a b 0 6)
  | .ksync d a b => some (orWord 0x38 d a b 0 7)
  | .kclr d a => some (orWord 0x38 d a 0 0 8)
  | .rkey a b => some (orWord 0x39 0 a b 0 0)
  | .rdraw d => some (orWord 0x39 d 0 0 0 1)
  | .nvrd d a b c => some (orWord 0x3A d a b c 0)
  | .nvwr d a b c => some (orWord 0x3A d a b c 1)
  | .offl d a => some (orWord 0x3B d a 0 0 0)
  | .recall d a => some (orWord 0x3B d a 0 0 1)
  | .xloc d a b => some (orWord 0x3B d a b 0 2)
  | .lld d a => some (orWord 0x3C d a 0 0 0)
  | .lst a b => some (orWord 0x3C 0 a b 0 1)
  | .ldone a => some (orWord 0x3C 0 a 0 0 2)
  | .addi d a i => some (oiWord 0x02 d a i)
  | .andi d a i => some (oiWord 0x03 d a i)
  | .ori d a i => some (oiWord 0x04 d a i)
  | .xori d a i => some (oiWord 0x05 d a i)
  | .slti d a i => some (oiWord 0x06 d a i)
  | .ldb d a i => some (oiWord 0x10 d a i)
  | .ldbu d a i => some (oiWord 0x11 d a i)
  | .ldh d a i => some (oiWord 0x12 d a i)
  | .ldhu d a i => some (oiWord 0x13 d a i)
  | .ldw d a i => some (oiWord 0x14 d a i)
  | .ldwu d a i => some (oiWord 0x15 d a i)
  | .ldd d a i => some (oiWord 0x16 d a i)
  | .stb s a o => some (oiWord 0x18 s a o)
  | .sth s a o => some (oiWord 0x19 s a o)
  | .stw s a o => some (oiWord 0x1A s a o)
  | .std s a o => some (oiWord 0x1B s a o)
  | .beq a b o => some (oiWord 0x20 a b o)
  | .bne a b o => some (oiWord 0x21 a b o)
  | .blt a b o => some (oiWord 0x22 a b o)
  | .bge a b o => some (oiWord 0x23 a b o)
  | .bltu a b o => some (oiWord 0x24 a b o)
  | .bgeu a b o => some (oiWord 0x25 a b o)
  | .shi d a k n => some (oiWord 0x07 d a (0#8 ++ k ++ n))
  | .lui d i => some (oiWord 0x08 d 0 i)
  | .idf d a l => some (oiWord 0x09 d a (0#13 ++ l))
  | .ldaq d a s => some (oiWord 0x17 d a (0#13 ++ s))
  | .strl s a c => some (oiWord 0x1C s a (0#13 ++ c))
  | .jal l o => some (0x26#6 ++ l ++ o)
  | .jalr d a o => some (oiWord 0x27 d a o)
  | .loop a o => some (oiWord 0x28 a 0 o)
  | .loopi n o => some (0x29#6 ++ n ++ o)
  | .lpop => some (0x2A#6 ++ 0#26)
  | .trap i => some (0x30#6 ++ 0#6 ++ i ++ 0#4)
  | .eret => some (osWord 0 0 0 1)
  | .csrr d c => some (osWord d 0 c 2)
  | .csrw d a c => some (osWord d a c 3)
  | .csrs d a c => some (osWord d a c 4)
  | .csrc d a c => some (osWord d a c 5)
  | .fence k s => some (osWord 0 0 (0#7 ++ k ++ s) 6)
  | .wait a => some (osWord 0 a 0 7)
  | .halt => some (osWord 0 0 0 8)
  | _ => none

/-- The word of a row op (R259, R264). -/
def encodeRow (i : Instr) : Option Row :=
  match rowOpc i with
  | some (opc, w) =>
    some (BitVec.ofNat 8 opc ++ w.fmt ++ w.dst ++ w.sa ++ w.sb ++ w.sc ++ w.pr ++ w.pn ++ w.stg ++
      w.hold ++ w.hid ++ w.rtn ++ w.rte ++ w.rts ++ w.rtw ++ w.pl ++ w.aux ++ w.imm)
  | none => none

/-- The word of a stream command (R270, R372). -/
def encodeStream : Instr → Option W64
  | .spat h => some (0x01#6 ++ 0#2 ++ h)
  | .sdstPort p n d => some (0x02#6 ++ 0#2 ++ 0#40 ++ d ++ n ++ p)
  | .sdstMem h => some (0x02#6 ++ 1#2 ++ h)
  | .sgoSet dim s c => some (0x03#6 ++ dim ++ 0#2 ++ s ++ c)
  | .sgoSetgo dim s c => some (0x03#6 ++ dim ++ 1#2 ++ s ++ c)
  | .sgoGo => some (0x03#6 ++ 0#3 ++ 2#2 ++ 0#53)
  | .sxpose on => some (0x04#6 ++ 0#57 ++ on)
  | .scmb h => some (0x05#6 ++ 0#2 ++ h)
  | .sloop dim s p => some (0x06#6 ++ dim ++ s ++ p)
  | .sendl => some (0x07#6 ++ 0#58)
  | .swaith p n d st k => some (0x08#6 ++ 0#37 ++ k ++ st ++ d ++ n ++ p)
  | .sevt t => some (0x09#6 ++ 0#2 ++ t)
  | .sfence => some (0x0A#6 ++ 0#58)
  | .speer c x => some (0x0B#6 ++ 0#2 ++ c ++ 0#1 ++ x)
  | .sdone => some (0x0C#6 ++ 0#58)
  | _ => none

/-- The bytes of an instruction as memory holds them (R5); the part's own steps have no word. -/
def encode (i : Instr) : List Byte :=
  match encodeOstler i, encodeStream i, encodeRow i with
  | some w, _, _ => leBytes 4 w.toNat
  | _, some w, _ => leBytes 8 w.toNat
  | _, _, some w => leBytes 16 w.toNat
  | _, _, _ => []

end Sys2Proof
end

