-- ==== Sys2Proof/Machine/Num.lean ====
section
/-! DEFINITION. Number formats and arithmetic (R190-R203, R207, R211, R214-R217, R331): values are exact, an
operation forms its exact result, and one rounding narrows it. -/

namespace Sys2Proof.Machine

/-- An exact value: (-1)^neg * m * 2^e, an infinity, or NaN. -/
inductive Val where
  | nan
  | inf (neg : Bool)
  | fin (neg : Bool) (m : Nat) (e : Int)
  deriving DecidableEq, Repr

namespace Val

def isNan : Val → Bool
  | .nan => true
  | _ => false

def isInf : Val → Bool
  | .inf _ => true
  | _ => false

def isZero : Val → Bool
  | .fin _ 0 _ => true
  | _ => false

def neg : Val → Val
  | .nan => .nan
  | .inf n => .inf (!n)
  | .fin n m e => .fin (!n) m e

def abs : Val → Val
  | .nan => .nan
  | .inf _ => .inf false
  | .fin _ m e => .fin false m e

/-- The signed multiple of 2^lo, for lo at or below e. -/
def scaled (lo : Int) (n : Bool) (m : Nat) (e : Int) : Int :=
  let v : Int := ((m <<< (e - lo).toNat : Nat) : Int)
  if n then -v else v

def ofInt (v : Int) (e : Int) : Val := .fin (decide (v < 0)) v.natAbs e

/-- Exact sum; an exact zero of unlike signs is +0 (R193). -/
def add : Val → Val → Val
  | .nan, _ => .nan
  | _, .nan => .nan
  | .inf a, .inf b => if a == b then .inf a else .nan
  | .inf a, _ => .inf a
  | _, .inf b => .inf b
  | .fin na ma ea, .fin nb mb eb =>
    if ma = 0 ∧ mb = 0 then .fin (na && nb) 0 0
    else
      let lo := min ea eb
      ofInt (scaled lo na ma ea + scaled lo nb mb eb) lo

/-- Exact product (R193). -/
def mul : Val → Val → Val
  | .nan, _ => .nan
  | _, .nan => .nan
  | .inf a, .inf b => .inf (a != b)
  | .inf a, .fin nb mb _ => if mb = 0 then .nan else .inf (a != nb)
  | .fin na ma _, .inf b => if ma = 0 then .nan else .inf (na != b)
  | .fin na ma ea, .fin nb mb eb => .fin (na != nb) (ma * mb) (ea + eb)

/-- Numeric comparison of two values that are not NaN: a < b. -/
def lt : Val → Val → Bool
  | .nan, _ => false
  | _, .nan => false
  | .inf a, .inf b => a && !b
  | .inf a, _ => a
  | _, .inf b => !b
  | .fin na ma ea, .fin nb mb eb =>
    let lo := min ea eb
    decide (scaled lo na ma ea < scaled lo nb mb eb)

/-- Numeric equality; -0 equals +0. -/
def eq (a b : Val) : Bool := !a.isNan && !b.isNan && !lt a b && !lt b a

/-- Times a power of two, exactly. -/
def shift (k : Int) : Val → Val
  | .fin n m e => .fin n m (e + k)
  | v => v

/-- Sign with -0 below +0. -/
def negBit : Val → Bool
  | .nan => false
  | .inf n => n
  | .fin n _ _ => n

/-- Smaller or larger with -0 < +0; NaN if either is NaN (R331). -/
def minMax (max_ : Bool) (a b : Val) : Val :=
  if a.isNan || b.isNan then .nan
  else
    let less := lt a b || (eq a b && a.negBit && !b.negBit)
    if less then (if max_ then b else a) else (if max_ then a else b)

end Val

/-- Properties of a floating-point format (R192, R195, R196). -/
structure FF where
  g8 : Bool
  width : Nat
  p : Nat
  emin : Int
  maxCode : Nat
  hasInf : Bool
  nanCode : Nat
  deriving DecidableEq, Repr

/-- The floating-point formats by code of R190; block formats share the elements of 3 and 5. -/
def ffOf (c : Nat) : Option FF :=
  match c with
  | 0 => some ⟨false, 32, 24, -126, 0x7F7FFFFF, true, 0x7FC00000⟩
  | 1 => some ⟨false, 16, 8, -126, 0x7F7F, true, 0x7FC0⟩
  | 2 => some ⟨false, 16, 11, -14, 0x7BFF, true, 0x7E00⟩
  | 3 => some ⟨true, 8, 5, -19, 0x7F, false, 0x80⟩
  | 4 => some ⟨true, 8, 5, -19, 0x7F, false, 0x80⟩
  | 5 => some ⟨false, 8, 4, -6, 0x7E, false, 0x7F⟩
  | 6 => some ⟨false, 8, 3, -14, 0x7B, true, 0x7E⟩
  | 7 => some ⟨false, 8, 4, -6, 0x7E, false, 0x7F⟩
  | _ => none

/-- Fraction bits of G8 in a binade (R196). -/
def g8Frac (e : Int) : Nat :=
  if 0 ≤ e then 4 else if -4 ≤ e then 3 else if -8 ≤ e then 2 else if -12 ≤ e then 1 else 0

/-- The value of a G8 magnitude code above 0 (R195). -/
def g8Mag (m : Nat) : Nat × Int :=
  let k := m.log2
  let r := m - 2 ^ k
  if 2 ≤ k then
    let x := r >>> (k - 2)
    let f := r % 2 ^ (k - 2)
    (2 ^ (k - 2) + f, 4 * (k : Int) - 24 + x - ((k - 2 : Nat) : Int))
  else if k = 1 then (1, -18 + (r : Int))
  else (1, -19)

/-- The exact value of an encoded element of a floating-point format. -/
def decodeFF (f : FF) (x : Nat) : Val :=
  let neg := bit x (f.width - 1)
  let c := x % 2 ^ (f.width - 1)
  if f.g8 then
    if c = 0 then (if neg then .nan else .fin false 0 0)
    else .fin neg (g8Mag c).1 (g8Mag c).2
  else if c > f.maxCode then
    (if f.hasInf && c == f.maxCode + 1 then .inf neg else .nan)
  else
    let q := c % 2 ^ (f.p - 1)
    let ex := c >>> (f.p - 1)
    if ex = 0 then .fin neg q (f.emin - ((f.p - 1 : Nat) : Int))
    else .fin neg (q + 2 ^ (f.p - 1)) (f.emin - ((f.p - 1 : Nat) : Int) + ((ex - 1 : Nat) : Int))

/-- The exact value of an element by format code (R190, R194, R195). -/
def decodeElem (code x : Nat) : Val :=
  match ffOf code with
  | some f => decodeFF f x
  | none =>
    match code with
    | 8 => Val.ofInt (sgn 8 x) 0
    | 9 => Val.ofInt (sgn 16 x) 0
    | 10 => Val.ofInt (sgn 32 x) 0
    | _ => .fin false (if x % 256 = 0 then 0 else 1) 0

/-- The truncated magnitude code of m * 2^e, and the discarded part as r / 2^k of a spacing. -/
def truncCode (f : FF) (m : Nat) (e : Int) : Nat × Nat × Nat :=
  if m = 0 then (0, 0, 0)
  else
    let ex : Int := (m.log2 : Int) + e
    let fb : Int := if f.g8 then (g8Frac ex : Int) else ((f.p - 1 : Nat) : Int)
    let lsb : Int := if f.g8 then max (ex - fb) (-19) else max (ex - fb) (f.emin - fb)
    let k := (lsb - e).toNat
    let q := if lsb ≤ e then m <<< (e - lsb).toNat else m >>> k
    let r := if lsb ≤ e then 0 else m % 2 ^ k
    let code : Nat :=
      if f.g8 then
        if ex < -19 then 0
        else if ex < -16 then (ex + 20).toNat
        else
          let kk := g8Frac ex + 2
          let x := (ex - (4 * (kk : Int) - 24)).toNat
          2 ^ kk + x * 2 ^ (kk - 2) + (q - 2 ^ (kk - 2))
      else if q < 2 ^ (f.p - 1) then q
      else (ex - f.emin + 1).toNat * 2 ^ (f.p - 1) + (q - 2 ^ (f.p - 1))
    (code, r, k)

/-- Whether a discarded part r / 2^k moves the magnitude up by one code under a mode of R199. -/
def roundUp (mode : Nat) (neg : Bool) (code r k draw : Nat) : Bool :=
  if r = 0 then false
  else match mode with
    | 0 => decide (2 ^ k < 2 * r) || (2 * r == 2 ^ k && code % 2 == 1)
    | 1 => false
    | 2 => !neg
    | 3 => neg
    | _ =>
      let w := (r * 65536) >>> k
      let w' := if (r * 65536) % 2 ^ k = 0 then w else w ||| 1
      decide (65536 ≤ w' + draw)

/-- A result of a conversion: the encoding and what it counts (R203). -/
structure Cvt where
  bits : Nat
  nfc : Nat
  satc : Nat
  deriving DecidableEq, Repr

/-- Conversion of an exact value to a floating-point format (R199-R203). -/
def cvtFF (f : FF) (mode : Nat) (sat : Bool) (draw : Nat) (v : Val) : Cvt :=
  let top := 2 ^ (f.width - 1)
  let sg (n : Bool) (c : Nat) : Nat := if n then c + top else c
  match v with
  | .nan => ⟨f.nanCode, 1, 0⟩
  | .inf n => if f.hasInf && !sat then ⟨sg n (f.maxCode + 1), 1, 0⟩ else ⟨sg n f.maxCode, 0, 1⟩
  | .fin n 0 _ => ⟨if n && !f.g8 then top else 0, 0, 0⟩
  | .fin n m e =>
    let (c, r, k) := truncCode f m e
    let c' := if roundUp mode n c r k draw then c + 1 else c
    if c' > f.maxCode then
      let toInf := f.hasInf && !sat && (mode == 0 || mode == 4 || (mode == 2 && !n) || (mode == 3 && n))
      if toInf then ⟨sg n (f.maxCode + 1), 1, 0⟩ else ⟨sg n f.maxCode, 0, 1⟩
    else if c' = 0 then ⟨if n && !f.g8 then top else 0, 0, 1⟩
    else ⟨sg n c', 0, 0⟩

/-- The rounded integer of an exact value under a mode. -/
def roundInt (mode draw : Nat) (n : Bool) (m : Nat) (e : Int) : Int :=
  let k := (-e).toNat
  let q := if 0 ≤ e then m <<< e.toNat else m >>> k
  let r := if 0 ≤ e then 0 else m % 2 ^ k
  let q' := if roundUp mode n q r k draw then q + 1 else q
  if n then -(q' : Int) else (q' : Int)

/-- Conversion to an integer format of w bits: round, then clamp (R202). -/
def cvtInt (w mode draw : Nat) (v : Val) : Cvt :=
  let hi : Int := ((2 ^ (w - 1) - 1 : Nat) : Int)
  let lo : Int := -((2 ^ (w - 1) : Nat) : Int)
  match v with
  | .nan => ⟨0, 1, 0⟩
  | .inf n => ⟨umod w (if n then lo else hi), 0, 1⟩
  | .fin n m e =>
    let x := roundInt mode draw n m e
    if x > hi then ⟨umod w hi, 0, 1⟩
    else if x < lo then ⟨umod w lo, 0, 1⟩
    else ⟨umod w x, 0, if x = 0 ∧ m ≠ 0 then 1 else 0⟩

/-- Conversion to the format of a code (R202, R203). -/
def cvt (code mode : Nat) (sat : Bool) (draw : Nat) (v : Val) : Cvt :=
  match ffOf code with
  | some f => cvtFF f mode sat draw v
  | none =>
    match code with
    | 8 => cvtInt 8 mode draw v
    | 9 => cvtInt 16 mode draw v
    | 10 => cvtInt 32 mode draw v
    | _ => if v.isNan then ⟨1, 1, 0⟩ else ⟨if v.isZero then 0 else 1, 0, 0⟩

/-- One RNE rounding to a floating-point format, counting nothing (R193). -/
def rne (code : Nat) (v : Val) : Nat := (cvt code 0 false 0 v).bits

/-- FP32 value of a lane, and FP32 rounding. -/
def fp (x : W32) : Val := decodeElem 0 x.toNat
def r32 (v : Val) : W32 := BitVec.ofNat 32 (rne 0 v)

/-! ### Division, roots, exponential, logarithm and angles: an approximation below one unit of 2^-300 with its
last bit set when it is not exact, then one rounding (R193, R215) -/

/-- floor of a square root, bit by bit. -/
def isqrt (n : Nat) : Nat → Nat → Nat
  | 0, acc => acc
  | i + 1, acc => isqrt n i (if (acc + 2 ^ i) * (acc + 2 ^ i) ≤ n then acc + 2 ^ i else acc)

def bitLen (n : Nat) : Nat := if n = 0 then 0 else n.log2 + 1

def vdiv : Val → Val → Val
  | .nan, _ => .nan
  | _, .nan => .nan
  | .inf _, .inf _ => .nan
  | .inf a, .fin nb _ _ => .inf (a != nb)
  | .fin na _ _, .inf b => .fin (na != b) 0 0
  | .fin na ma ea, .fin nb mb eb =>
    if mb = 0 then (if ma = 0 then .nan else .inf (na != nb))
    else if ma = 0 then .fin (na != nb) 0 0
    else
      let k := bitLen mb + 64
      let q := (ma <<< k) / mb
      let st := if (ma <<< k) % mb = 0 then 0 else 1
      .fin (na != nb) (2 * q + st) (ea - eb - (k : Int) - 1)

def vsqrt : Val → Val
  | .nan => .nan
  | .inf n => if n then .nan else .inf false
  | .fin n m e =>
    if m = 0 then .fin n 0 0
    else if n then .nan
    else
      let odd := e % 2 != 0
      let m1 := if odd then 2 * m else m
      let e1 := if odd then e - 1 else e
      let x := m1 <<< 128
      let q := isqrt x (bitLen x / 2 + 1) 0
      .fin false (2 * q + (if q * q = x then 0 else 1)) (e1 / 2 - 65)

def vrcp (v : Val) : Val := vdiv (.fin false 1 0) v

/-- 1 / square root; of a signed zero, that infinity. -/
def vrsq : Val → Val
  | .nan => .nan
  | .inf n => if n then .nan else .fin false 0 0
  | .fin n m e =>
    if m = 0 then .inf n
    else if n then .nan
    else
      let odd := e % 2 != 0
      let m1 := if odd then 2 * m else m
      let e1 := if odd then e - 1 else e
      let k := bitLen m1 + 64
      let q := isqrt (2 ^ (2 * k) / m1) (k + 1) 0
      .fin false (2 * q + (if q * q * m1 = 2 ^ (2 * k) then 0 else 1)) (-(k : Int) - 1 - e1 / 2)

/-- Working precision of the series. -/
def wp : Nat := 340
/-- ln 2 in units of 2^-340. -/
def ln2 : Nat := 0xb17217f7d1cf79abc9e3b39803f2f6af40f343267298b62d8a0d175b8baafa2be7b876206debac9855955

/-- sum of y^k / k! from a term on, in units of 2^-340. [DEDUCED, log 12] -/
def expSeries (y : Nat) : Nat → Nat → Nat → Nat → Nat
  | 0, _, _, acc => acc
  | n + 1, k, term, acc =>
    let t := (term * y) >>> wp
    expSeries y n (k + 1) (t / (k + 1)) (acc + t / (k + 1))

/-- 2^f for a fraction of n / 2^k below 1, in units of 2^-340. -/
def exp2Frac (n k : Nat) : Nat :=
  let y := (n * ln2) >>> k
  expSeries y 80 0 (2 ^ wp) (2 ^ wp)

/-- [DEDUCED, log 12] -/
def vexp2 : Val → Val
  | .nan => .nan
  | .inf n => if n then .fin false 0 0 else .inf false
  | .fin n m e =>
    if m = 0 then .fin false 1 0
    else if 20 ≤ (m.log2 : Int) + e then .fin false 1 (if n then -1048576 else 1048576)
    else if 0 ≤ e then
      let x : Int := ((m <<< e.toNat : Nat) : Int)
      .fin false 1 (if n then -x else x)
    else
      let k := (-e).toNat
      let x : Int := if n then -(m : Int) else (m : Int)
      let i := x / ((2 ^ k : Nat) : Int)
      let f := (x % ((2 ^ k : Nat) : Int)).toNat
      if f = 0 then .fin false 1 i
      else .fin false (2 * exp2Frac f k + 1) (i - (wp : Int) - 1)

/-- sum of z^(2k+1) / (2k+1), in units of 2^-340; z2 is z squared. -/
def atanhSeries (z2 : Nat) : Nat → Nat → Nat → Nat → Nat
  | 0, _, _, acc => acc
  | n + 1, k, zp, acc => atanhSeries z2 n (k + 1) ((zp * z2) >>> wp) (acc + zp / (2 * k + 1))

/-- [DEDUCED, log 12] -/
def vlog2 : Val → Val
  | .nan => .nan
  | .inf n => if n then .nan else .inf false
  | .fin n m e =>
    if m = 0 then .inf true
    else if n then .nan
    else
      let l := m.log2
      let ex : Int := (l : Int) + e
      if m = 2 ^ l then Val.ofInt ex 0
      else
        let z := ((m - 2 ^ l) <<< wp) / (m + 2 ^ l)
        let s := atanhSeries ((z * z) >>> wp) 110 0 z 0
        let fr := (2 * s) <<< wp / ln2
        let t : Int := ex * ((2 ^ wp : Nat) : Int) + (fr : Int)
        .fin (decide (t < 0)) (2 * t.natAbs + 1) (-(wp : Int) - 1)

/-- Working precision of the trigonometric series. -/
def tp : Nat := 640

/-- sum of (-1)^k x^(2k+i) / (2k+i)!, from a term on; units of 2^-640. -/
def trigSeries (x2 : Nat) : Nat → Nat → Int → Int → Int
  | 0, _, _, acc => acc
  | n + 1, k, term, acc =>
    let t := -((term * (x2 : Int)) / ((2 ^ tp * ((k + 1) * (k + 2)) : Nat) : Int))
    trigSeries x2 n (k + 2) t (acc + t)

/-- 2 pi in units of 2^-92 (R215). -/
def twoPi92 : Nat := 0x6487ED5110B4611A62633146

/-- cos and sin of rho = r / 2^k, exactly rounded values of R215. Below 2^-60 the cosine rounds to 1, and the sine lies below
rho by less than any distance from rho to a rounding boundary. [DEDUCED, log 12] -/
def cosSin (r k : Nat) : W32 × W32 :=
  if r = 0 then (0x3F800000, 0)
  else if r <<< 60 < 2 ^ k then (0x3F800000, r32 (.fin false ((r <<< 200) - 1) (-(k : Int) - 200)))
  else
    let x := if k ≤ tp then r <<< (tp - k) else r >>> (k - tp)
    let x2 := (x * x) >>> tp
    let c := trigSeries x2 100 0 ((2 ^ tp : Nat) : Int) ((2 ^ tp : Nat) : Int)
    let s := trigSeries x2 100 1 (x : Int) (x : Int)
    let val (t : Int) : Val := .fin (decide (t < 0)) (2 * t.natAbs + 1) (-(tp : Int) - 1)
    (r32 (val c), r32 (val s))

/-- The angle of R215: none when f is invalid, else (cs, sn). -/
def ropeAngle (p : Nat) (f : W32) : Option (W32 × W32) :=
  match fp f with
  | .fin n m e =>
    if (n && m != 0) || Val.lt (.fin false 1 0) (.fin false m e) then none
    else
      let k := max (-e).toNat 92
      let theta := p * (m <<< (e + (k : Int)).toNat)
      let per := twoPi92 <<< (k - 92)
      some (cosSin (theta % per) k)
  | _ => none

/-! ### The group sum of a matrix pass (R211) -/

/-- Exact sum of finite products, NaN and infinity as R211 says. -/
def groupSum (ps : List Val) : Val :=
  if ps.any Val.isNan then .nan
  else
    let pi := ps.any fun v => v == .inf false
    let ni := ps.any fun v => v == .inf true
    if pi && ni then .nan
    else if pi then .inf false
    else if ni then .inf true
    else match ps.foldl Val.add (.fin false 0 0) with
      | .fin _ 0 _ => .fin false 0 0
      | v => v

/-- rescale of R214: result and whether it clamped. -/
def rescale (x m : Int) (s : Nat) (lo hi : Int) : Int × Bool :=
  let p := x * m + (if s > 0 then ((2 ^ (s - 1) : Nat) : Int) else 0)
  let y := p / ((2 ^ s : Nat) : Int)
  if y < lo then (lo, true) else if y > hi then (hi, true) else (y, false)

/-- The generator of R184. -/
def rng (k c : W64) : W32 :=
  let khi : W32 := k.extractLsb' 32 32
  let klo : W32 := k.extractLsb' 0 32
  let chi : W32 := c.extractLsb' 32 32
  let clo : W32 := c.extractLsb' 0 32
  let x := clo ^^^ klo ^^^ (chi * 0x9E3779B9)
  let x := (x ^^^ (x >>> 16)) * 0x6C8E9CF5
  let x := (x ^^^ (x >>> 15)) * 0x2F0B4A67
  x ^^^ (x >>> 16) ^^^ khi

/-- One bit of the CRC of R102. -/
def crcBit (c : BitVec 16) (b : Bool) : BitVec 16 :=
  let t := c.getLsbD 15 != b
  if t then (c <<< 1) ^^^ 0x1021 else c <<< 1

def crcByte (c : BitVec 16) (b : Byte) : BitVec 16 :=
  [7, 6, 5, 4, 3, 2, 1, 0].foldl (fun c i => crcBit c (b.getLsbD i)) c

/-- The CRC of R102 over bytes in ascending order. -/
def crc16 (l : List Byte) : BitVec 16 := l.foldl crcByte 0xFFFF

end Sys2Proof.Machine
end

