-- ==== Sys2Proof/Config.lean ====
section
/-! DEFINITION. Figures the D9 fixes, and the free values of this model: opaque constants with no body, so that
no proof can know them. A free value drawn by a step is one of these applied to the counter freeCtr of the state. -/

namespace Sys2Proof.Config

/-- A 64-bit value the spec leaves undefined (x1..x31 after a start, R429; R6 unpredictable items). [DESIGN CHOICE, log 8] -/
opaque freeReg : Nat → W64
/-- A 32-bit value the spec leaves undefined; its low byte for HBM after a module reset (R244). [DESIGN CHOICE, log 27] -/
opaque freeWord : Nat → W32
/-- A vector the spec leaves undefined (an MRD before its MWAIT, R61; items restored from a written save area, R232; bytes of a shadow area, R112).
[DESIGN CHOICE, log 9] -/
opaque freeVec : Nat → Vec
/-- 64 bytes read from a shadow area (R112), by a load or by a fetch. [DESIGN CHOICE, log 17] -/
opaque freeBits : Nat → BitVec 512
/-- The L2 set of a line within its slice (R83, R84 give 16 ways and no index function). [DESIGN CHOICE, log 35] -/
opaque l2Set : Nat → Nat
/-- The set of a line within a private data cache (R81 gives 4 ways and no index function). [DESIGN CHOICE, log 84] -/
opaque l1Set : Nat → Nat
/-- Which line leaves a full set or cache; the spec names no replacement rule. [DESIGN CHOICE, log 84] -/
opaque victim : Nat → Nat
/-- SHA-384 of the running firmware, of the identity key, and the module serial (R435). [DESIGN CHOICE, log 22] -/
opaque fwHash : BitVec 384
opaque idHash : BitVec 384
opaque serial : W64
/-- The identity key's ECDSA signature over 160 bytes (R434, R435). [DESIGN CHOICE, log 22] -/
opaque sign : BitVec 1280 → BitVec 768
/-- SHA-384 of some bytes, ECDSA verification on brainpoolP384r1 of a signature over a digest by a public key, and the SHA-384 of the
signing key that is fused at manufacture (R434). [DESIGN CHOICE, log 23] -/
opaque sha384 : List Byte → BitVec 384
opaque ecdsaOk : BitVec 768 → BitVec 384 → BitVec 768 → Bool
opaque fusedKey : BitVec 384

/-- Whether a queue pair's drive has 4 KiB blocks rather than 512-byte ones, as its host driver set it (R155, R403).
[DESIGN CHOICE, log 19] -/
opaque lba4k : Nat → Bool

/-- QUANT in fc (R143). -/
def quant : Nat := 2 ^ 20
/-- The lease of a copy in oc: 4096 for an ostler, and for a PE the same time as 2048 fc (R87). -/
def leaseOst : Nat := 4096
/-- The background sweep interval in fc (R93). -/
def sweep : Nat := 2 ^ 16
/-- Held fc at which a domain faults WATCHDOG (R229). -/
def watchdog : Nat := 2 ^ 30
/-- Depths of the queues of R133 and R107. -/
def eventDepth : Nat := 256
def launchDepth : Nat := 256
def portDepth : Nat := 8
def deltaDepth : Nat := 256
def logDepth : Nat := 32768
/-- Ways and sets of an L2 slice of 4 MiB, and the lines of a 16 KiB cache of an ostler (R69, R83). -/
def l2Ways : Nat := 16
def l2Sets : Nat := 2048
def ostLines : Nat := 128
/-- Entries of the translation and record caches (R160). -/
def tlbEng : Nat := 256
def tlbOst : Nat := 64
def tlbPen : Nat := 32
def tlbDie : Nat := 16384
def recEntries : Nat := 512

end Sys2Proof.Config
end

