-- ==== Sys2Proof/Machine/State.lean ====
section
/-! DEFINITION. The state of the D9 as plain data, the reasons a step can stop, and the state after reset.
Sparse tables (SMap) hold the parts that exist in numbers; the key of each table and the value an unlisted
key reads as stand beside the field. Keys: a die's ostler is die*32+n, a pen die*128+id, a PE pen*2048+64i+j,
an agent die*4096+number of R83, a home slice die*64+slice, a derived set die*4096+set. -/

namespace Sys2Proof.Machine

/-- Why the machine as a whole takes no step. No instruction of the spec raises either reason: traps, pen
faults and command faults are next states. -/
inductive Fault where
  /-- Raised by step alone, after a thermal trip stopped every clock (R433); safe: nothing runs until power returns. -/
  | clocksStopped
  deriving DecidableEq, Repr

/-- Why an instruction has no meaning in this model. -/
inductive Refusal where
  /-- Raised by an arm of exec whose instruction is not modelled; safe: the run ends there. -/
  | notModelled (mnemonic : String)
  deriving DecidableEq, Repr

/-- A 32-byte event record (R148). -/
abbrev EvRec := BitVec 256

/-- Who acts in a step of the model. [DESIGN CHOICE, log 5] -/
inductive Turn where
  /-- Ostler n of a die executes its next word, or leaves its wait (R275, R276). -/
  | ostler (die n : Nat)
  /-- The timing domain whose lowest pen id is gang takes one fabric cycle (R25, R30). -/
  | domain (die gang : Nat)
  /-- A stream program slot executes its next command word (R371). -/
  | slot (die eng k : Nat)
  /-- The engine of a stream program fetches one word ahead (R272). -/
  | ahead (die eng k : Nat)
  /-- A step of the part, or an input from outside it. -/
  | event (i : Instr)
  /-- An NVMe command whose completion entry has come goes on (R117, R156). -/
  | nvme (idx : Nat)
  /-- A copy of the offload table that waits for no drive goes on (R179). -/
  | copy (ctx idx : Nat)
  /-- A drained releaser's acknowledgement reaches the home (R90). -/
  | ack (line agent : Nat)
  /-- The oldest pending CLEAN or INVAL of an ostler is performed (R380). -/
  | maint (die n : Nat)
  /-- The requests for a page that is back from another module are served (R95). -/
  | page (p : Nat)
  /-- A contribution that has come to a chunk's home goes on (R375). -/
  | arrive (pa : Nat)
  /-- A record that EPOST of a PE posts reaches its target: an ostler, or the host ring (R150, R326). -/
  | post (die pe : Nat) (target : Option (Nat × Nat)) (ctx : Nat) (r : EvRec)
  /-- The host writes bytes of its own memory (R98, R100). -/
  | hostStore (bus : Nat) (data : List Byte)
  /-- One ostler cycle passes (R4, R50). -/
  | tick
  deriving DecidableEq, Repr

/-- The ostler, pen and PE that the executing word belongs to. -/
structure Who where
  die : Nat
  n : Nat
  pen : Nat
  pe : Nat
  eng : Nat
  slot : Nat
  deriving DecidableEq, Repr

/-- A slice routine in progress (R384): its issuer, its line and whether that lies in an SPLITW page, its own registers, the doublewords it has
buffered, the words of the routine and the index of the next one. -/
structure Routine where
  die : Nat
  n : Nat
  dst : Reg
  line : Nat
  split : Bool
  x : SMap W64
  buf : SMap (Option W64)
  words : List W32
  at_ : Nat
  deriving DecidableEq, Repr

/-- Whether an ostler fetches (R231, R295, R429). -/
inductive RunState where
  | neverRun | running | halted | stopped
  deriving DecidableEq, Repr

/-- Bytes still to be written at home, packet by packet: physical address, whether the page is an SPLITW page, bytes. -/
abbrev Pieces := List (Nat × Bool × List Byte)

/-- An instruction that keeps its ostler waiting (R276): the word, how far it has come, the delta batch numbers or table entries
it waits for, and what it has still to write (R117). -/
structure Wait where
  instr : Instr
  phase : Nat
  marks : List (Nat × Nat)
  todo : Pieces
  deriving DecidableEq, Repr

/-- A record that waits for space, with the context it reports. -/
structure Post where
  ev : EvRec
  ctx : Nat
  deriving DecidableEq, Repr

/-- One ostler (R44..R56, R275). x is keyed by register number, unlisted 0; the loop entries by level. -/
structure Ostler where
  x : SMap W64
  pc : W64
  run : RunState
  stopReq : Bool
  ctx : Option Nat
  status : W64
  tvec : W64
  epc : W64
  cause : W64
  tval : W64
  rngkey : W64
  rngctr : W64
  lstart : SMap W64
  lend : SMap W64
  lcount : SMap W64
  ldepth : Nat
  eqhead : Nat
  eqcount : Nat
  queue : SMap EvRec
  posters : List Post
  wid : W64
  widw : W64
  nfcnt : W64
  satcnt : W64
  tier : W64
  dline : W64
  wait : Option Wait
  pens : SMap (Option Nat)
  logSeq : W32
  deriving DecidableEq, Repr

/-- One line of a private data cache (R82, R81): owned or leased, dirty bytes, the oc at which it was filled or became
dirty, whether its page is an SPLITW page of a peer (R97), and whether an uncorrectable error struck it (R105). -/
structure CLine where
  data : Line
  owned : Bool
  mask : BitVec 128
  since : W64
  sp : Bool
  bad : Bool
  deriving DecidableEq, Repr

/-- A line copy in its L2 slice (R83, R412): its dirty bytes, all 128 of them but for an SPLITW page of a peer (R97), whether
the copy is poisoned (R105), whether its packet failed the check it came with (R102), and whether L2 holds a new check of
the packet that memory has not yet. -/
structure L2Line where
  data : Line
  mask : BitVec 128
  sp : Bool
  pois : Bool
  mis : Bool
  fresh : Bool
  deriving DecidableEq, Repr

/-- A release record (R86, R89): the releaser and the lines dirty in its cache at its release. -/
structure Release where
  agent : Nat
  lines : List Nat
  drained : Bool
  deriving DecidableEq, Repr

/-- A directory entry (R86); dead marks the line of a chunk record whose owner was reset after it was written (R376). -/
structure Dir where
  owner : Option Nat
  releases : List Release
  dead : Bool
  deriving DecidableEq, Repr

/-- A request for a page that another module holds (R95): of the peer who, or an access of this module's own ostler who. -/
structure PageReq where
  page : Nat
  own : Bool
  who : Nat
  write : Bool
  deriving DecidableEq, Repr

/-- The state of an HBM page of 64 KiB toward the other modules (R95). [DESIGN CHOICE, log 18] -/
inductive PageState where
  | home
  | shared (s : List Nat)
  | excl (n : Nat)
  deriving DecidableEq, Repr

/-- A cached translation (R160, R169): page base and size, physical base, attribute bits [6:0] of the entry. -/
structure Tlb where
  ctx : Nat
  va : Nat
  size : Nat
  pa : Nat
  attr : BitVec 7
  deriving DecidableEq, Repr

/-- A pending CLEAN or INVAL (R380). -/
structure Maint where
  agent : Nat
  inval : Bool
  lines : List Nat
  deriving DecidableEq, Repr

/-- One context (R181, R232, R428). root is the value written, live the one walks use: the value root had at the last
invalidation of the whole context (R170, R181). -/
structure Ctx where
  valid : Bool
  func : Nat
  tcap : Nat
  age : SMap Nat
  quota : Nat
  root : Nat
  live : Nat
  otbase : Nat
  otn : Nat
  msix : SMap Nat
  nvqp : W64
  qosw : W32
  poolBase : Nat
  poolLen : Nat
  deriving DecidableEq, Repr

/-- A routine-table slot (R180). -/
structure RSlot where
  ctx : Nat
  words : List W32
  deriving DecidableEq, Repr

/-- A token on a link: its bits and its plane (R319, R321). -/
structure Tok where
  val : Vec
  pl : Nat
  deriving DecidableEq, Repr

/-- An input queue, its last consumed token, and the tokens in the latch before it (R319, R320). -/
structure InQ where
  toks : List Tok
  last : Vec
  deriving DecidableEq, Repr

/-- A buffer-table entry (R161); st holds two bits a slot, resSlots marks slots filled from RESIDENT pages (R76), freed is the
slot that BACK freed last, with its fc (R164). -/
structure Handle where
  base : Nat
  svm1 : Nat
  nsm1 : Nat
  head : Nat
  fill : Nat
  st : BitVec 16
  res : Bool
  en : Bool
  dirn : Bool
  resSlots : BitVec 8
  freed : Option (Nat × Nat)
  deriving DecidableEq, Repr

/-- A stationary weight row (R350); set once an MLDW has written it. -/
structure WRow where
  set : Bool
  lo : Vec
  hi : Vec
  fmt : Nat
  scLo : Nat
  scHi : Nat
  bfLo : Nat
  bfHi : Nat
  deriving DecidableEq, Repr

/-- An in-flight slot of KIND 0 (R65); left counts the row that issues it until that row's end. pending marks the slot of
a load whose reply has not arrived (R346): it does not land before the reply, nor does a slot issued after it with the same DST. -/
structure Slot where
  dst : Nat
  lanes : W64
  left : Nat
  route : Nat
  pl : Nat
  value : Vec
  pending : Bool
  deriving DecidableEq, Repr

/-- An outstanding matrix pass (R353): tile, row, exact operand halves with their formats and scales, the
weights taken at its commit, and its occupancy. -/
structure Pass where
  tile : Nat
  row : Nat
  fmt : Nat
  lo : Vec
  hi : Vec
  scLo : Nat
  scHi : Nat
  mask : BitVec 512
  w : SMap WRow
  left : Nat
  tail : Nat
  clears : Bool
  systolic : Bool
  deriving DecidableEq, Repr

/-- An operand row an MPASSD has fetched: its halves, the rows of array time it still takes, and those it then runs through a systolic
array (R353). -/
structure MRow where
  lo : Vec
  hi : Vec
  left : Nat
  tail : Nat
  deriving DecidableEq, Repr

/-- A running MPASSD (R356, R63): its row, schedule, iteration and mask (R65, R235), how many passes stand before it in the
array, whether an MCLR follows it, and whether an MCLR that acted at a stop has already zeroed what it still adds
(R61, R438); flight holds the operand rows in the array, oldest first. -/
structure MPD where
  word : Row
  row : Nat
  sel : Bool
  iter : Nat
  lanes : W64
  stride : Nat
  base : Nat
  last : Nat
  w : SMap WRow
  before : Nat
  clears : Bool
  void : Bool
  fault : Option (Nat × Nat)
  flight : List MRow
  deriving DecidableEq, Repr

/-- An irregular access that has committed and is not yet complete (R346); offs keeps the lane offsets of SCAT. -/
structure Irr where
  load : Bool
  word : Row
  row : Nat
  sel : Bool
  iter : Nat
  lanes : W64
  addrs : List (Nat × Nat)
  data : Vec
  offs : Vec
  left : Nat
  ready : Bool
  cause : Nat
  faddr : Nat
  resumed : Bool
  deriving DecidableEq, Repr

/-- One PE of a pen (R57..R65, R77..R80, R161, R174, R319). Keys: v, p, c, spw, w by number; a by
tile*1024+row*32+column; spad, hdr and bad by 256-byte vector; ecc marks poisoned SRAM (R105), a vector of the scratchpad, or
384 + a row of the weight store; mopen marks the tiles passed into since their last MWAIT (R61); queues and latches by direction
n e s w. -/
structure PE where
  v : SMap Vec
  a : SMap W32
  p : SMap W64
  c : SMap W32
  spw : SMap W32
  prg : W32
  nfc : W32
  satc : W32
  slots : List Slot
  passes : List Pass
  mpd : Option MPD
  mopen : BitVec 4
  irr : List Irr
  handles : SMap Handle
  spad : SMap Vec
  hdr : SMap W64
  bad : SMap Bool
  ecc : SMap Bool
  full : BitVec 3072
  w : SMap WRow
  q : SMap InQ
  lat : SMap (List Tok)
  rowA : SMap Row
  rowB : SMap Row
  adj : SMap (BitVec 512)
  logSeq : W32
  deriving DecidableEq, Repr

/-- A level of the loop nest (R67, R266). -/
structure Level where
  csrc : Nat
  cimm : Nat
  sqs : Nat
  sqe : Nat
  sqn : Nat
  sqi : Nat
  deriving DecidableEq, Repr

/-- What a pen's fault record holds (R235), and the lane offsets and the mask of a deferred SCAT (R346). -/
structure FaultRec where
  cause : Nat
  row : Nat
  sel : Bool
  pe : Nat
  defer_ : Bool
  iter : Nat
  addr : Nat
  word : Row
  size : Nat
  data : Vec
  offs : Vec
  lanes : W64
  deriving DecidableEq, Repr

/-- Why a pen with RUN 3 stopped (R304, R307, R234). -/
inductive Stop where
  | none
  | rstop
  | loadFail
  | fault (r : FaultRec)
  | stopped (by_ : Nat) (cause : Nat)
  deriving DecidableEq, Repr

/-- A port-map entry (R267): pen-local PE index 64i+j and handle. -/
structure PortMap where
  pe : Nat
  h : Nat
  deriving DecidableEq, Repr

/-- One pen id (R173, R66, R67, R144, R266, R302). held counts the fc held without a break (R229), halting marks a
committed HALT (R39), boundary an iteration boundary (R36), cond a COND of the row being committed (R32). -/
structure Pen where
  valid : Bool
  run : Nat
  origin : Nat
  hm1 : Nat
  wm1 : Nat
  owner : Nat
  ctx : Nat
  tier : Nat
  eff : Nat
  gang : Nat
  start : Nat
  accNo : Nat
  slot : Nat
  saveOff : Nat
  pre : Bool
  savedSpad : Bool
  job : Option (Line × Nat)
  rc : Nat
  ii : Nat
  sel : Bool
  psel : Bool
  pval : Bool
  swr : Nat
  sys : Bool
  nft : Bool
  lv : SMap Level
  g : Nat
  lena : Nat
  lenb : Nat
  split : Nat
  adj : Bool
  tape : Nat
  rmask : Row
  ports : SMap (Option PortMap)
  hasImage : Bool
  image : Nat
  wid : W64
  first : W64
  idCount : Nat
  stop : Stop
  held : Nat
  halting : Bool
  boundary : Bool
  cond : Bool
  deriving DecidableEq, Repr

/-- State of a stall (R173). -/
inductive Stall where
  | free | absent
  | held (pen : Nat)
  | parked (pen : Nat)
  deriving DecidableEq, Repr

/-- A job in a launch queue or with tasks still running (R134..R141); jcbPa is the translation of its JCB made at acceptance, none
once it has been dropped (R170). -/
structure Job where
  die : Nat
  jr : Line
  enq : Nat
  eff : Nat
  tier : Nat
  seq : Nat
  jcbPa : Option Nat
  tasks : Nat
  issued : Nat
  running : Nat
  failed : Option Nat
  dropped : Nat
  deriving DecidableEq, Repr

/-- A layout record held in a die's record cache with its extent map (R167). -/
structure RecEnt where
  ctx : Nat
  handle : Nat
  lay : BitVec 1536
  emap : BitVec 2176
  deriving DecidableEq, Repr

/-- A command in a port queue (R365). -/
structure SCmd where
  block : Line
  va : Nat
  eng : Nat
  ctx : Nat
  die : Nat
  n : Nat
  deriving DecidableEq, Repr

/-- Destination of a stream program (R370). -/
inductive Dest where
  | none
  | port (die pen port : Nat)
  | mem (handle cursor : Nat)
  | chunk (va cidx : Nat)
  deriving DecidableEq, Repr

/-- A tile whose writes go on (R117): its elements, its bytes, its first address, and what is still to be written. -/
structure Tile where
  m : Nat
  n : Nat
  va : Nat
  todo : Pieces
  deriving DecidableEq, Repr

/-- A running transfer (R361..R364): the records it read at its start, its pattern, the elements moved so far, the data
blocks met so far and the last of them, the bytes for a peer chunk, the offload entries whose ranges it reads and those it
counts in (R179), the acknowledgement of a local chunk, and a tile whose writes go on. -/
structure Xfer where
  src : RecEnt
  scl : RecEnt
  dst : RecEnt
  starts : SMap Nat
  counts : SMap Nat
  xpose : Bool
  pos : Nat
  blocks : Nat
  lastBlk : Option Nat
  sent : List Byte
  entries : List Nat
  readers : List Nat
  acked : Option Nat
  pend : Option Tile
  deriving DecidableEq, Repr

/-- A stream loop entry (R373). -/
structure SLoop where
  dim : Nat
  stp : BitVec 27
  passes : Nat
  first : Nat
  saved : Nat
  deriving DecidableEq, Repr

/-- A program slot of a stream engine (R366, R370): vec vectors stand in the slot it is part of the way through, resv
while they all come from RESIDENT pages, with the format and BFLY of the last packet; code holds the words fetched so far by
address (R272); done is the status it ends with, 256 more than the cause for a fault, faddr the faulting address and recd
whether the fault record is written (R241); swept holds the stalls, die*128+stall, of the pen whose sweep ended it (R35). -/
structure Prog where
  busy : Bool
  sq : Bool
  ctx : Nat
  die : Nat
  n : Nat
  tag : W64
  blockVa : Nat
  next : Nat
  pat : Nat
  srec : Nat
  starts : SMap Nat
  counts : SMap Nat
  xpose : Bool
  dest : Dest
  loops : List SLoop
  bytes : Nat
  peers : W64
  tiles : Nat
  word : W64
  vec : Nat
  resv : Bool
  lastFmt : Nat
  lastBfly : Nat
  xfer : Option Xfer
  code : SMap (Option W64)
  done : Option Nat
  faddr : Nat
  recd : Bool
  swept : List Nat
  deriving DecidableEq, Repr

/-- An exact value of a derived group (R115, R121): m * 2^(-160), or an infinity, or NaN; neg marks -0. -/
inductive DVal where
  | nan
  | inf (neg : Bool)
  | fin (neg : Bool) (m : Nat)
  deriving DecidableEq, Repr

/-- An element change in a delta batch (R117): region slot and its declaration number, element, old and new value. -/
structure Delta where
  slot : Nat
  gen : Nat
  elem : Nat
  old : DVal
  new : DVal
  deriving DecidableEq, Repr

/-- A numbered batch (R117), or a rebuild request for a line (R126). -/
structure Batch where
  src : Nat
  seq : Nat
  writer : Nat
  entries : List Delta
  rebuild : Option Nat
  deriving DecidableEq, Repr

/-- An entry held back while its group is rescanned (R122). -/
structure QDelta where
  src : Nat
  seq : Nat
  old : DVal
  new : DVal
  deriving DecidableEq, Repr

/-- What a group publishes (R120, R121, R125): VAL, AUX, counts and bins. -/
structure Pub where
  val : W32
  aux : W32
  nan : Nat
  pinf : Nat
  ninf : Nat
  bins : SMap Nat
  deriving DecidableEq, Repr

/-- State of one group (R116, R122, R126). last is what the group published before it became PENDING; unpred marks one that
nothing fixes until DREB (R126). -/
structure Group where
  acc : Int
  pinf : Nat
  ninf : Nat
  nan : Nat
  val : DVal
  mult : Nat
  bins : SMap Nat
  pend : Bool
  pois : Bool
  rseq : SMap Nat
  queued : List QDelta
  last : Option Pub
  unpred : Bool
  deriving DecidableEq, Repr

/-- A derived region (R107, R110): its declaration block, its base layout record, the virtual and the physical address of
each element in layout order, the physical ranges of its shadow area, HIST edges, groups, and the ostler its build or rebuild reports to.
born is its declaration's number in the set, gen that of its last translation (R113). -/
structure Region where
  born : Nat
  gen : Nat
  decl : BitVec 512
  lay : BitVec 1536
  vas : List Nat
  elems : List Nat
  shadow : List (Nat × Nat)
  edges : List W32
  groups : SMap Group
  building : Bool
  die : Nat
  n : Nat
  deriving DecidableEq, Repr

/-- A derived set (R107, R108). -/
structure DSet where
  ctx : Option Nat
  step : W64
  regions : SMap (Option Region)
  queue : List Batch
  rebuild : Option (Nat × Nat)
  unpred : Bool
  gens : Nat
  deriving DecidableEq, Repr

/-- An append-log entry (R153); split tells whether its destination lies in an SPLITW page (R97). -/
structure LogEnt where
  pa : Nat
  op : Nat
  w8 : Bool
  value : W64
  split : Bool
  sdie : Nat
  src : Nat
  spe : Nat
  seq : Nat
  ctx : Nat
  deriving DecidableEq, Repr

/-- A merge in progress (R154): a number that tells it from the others, and for each home still to apply, how many entries its
log held. -/
structure Merge where
  id : Nat
  ctx : Nat
  die : Nat
  n : Nat
  tag : W64
  ranges : List (Nat × Nat)
  homes : List (Nat × Nat)
  applied : Nat
  left : Nat
  deriving DecidableEq, Repr

/-- A combine command in progress (R377): packets of A, B and C by physical address and the virtual bases. -/
structure Comb where
  ctx : Nat
  die : Nat
  n : Nat
  tag : W64
  fmt : Nat
  op : Nat
  va : Nat
  vb : Nat
  vc : Nat
  a : List Nat
  b : List Nat
  c : List Nat
  done : Nat
  deriving DecidableEq, Repr

/-- A training sample (R398). -/
structure Sample where
  x : Line
  ctl : W64
  die : Nat
  n : Nat
  deriving DecidableEq, Repr

/-- An inference in progress (R396): the sample, the plane and serial it reads, when it started, and whether a
KVOTE batch or the waiting KINF of ostler (die, n) receives it. -/
structure Infer where
  x : Line
  plane : SMap Bool
  ser : Nat
  start : W64
  vote : Bool
  die : Nat
  n : Nat
  deriving DecidableEq, Repr

/-- A KVOTE batch in progress (R397); bad is the cause that ended it. -/
structure Vote where
  samples : Nat
  total : Nat
  out : Nat
  tag : W64
  done : Nat
  bad : Option Nat
  die : Nat
  n : Nat
  ctx : Nat
  deriving DecidableEq, Repr

/-- A clause bank (R68, R176, R392). Counters and plane are keyed by clause*2048+literal, nudge by set*16+index; an
unlisted counter holds cbase. fb is KSTATE.FB; training holds the sample in training and the fc of its commit. -/
structure Bank where
  ctx : Option Nat
  kcfgr : W64
  kseed : W64
  kser : Nat
  cfgd : Bool
  fb : Bool
  cbase : Byte
  counters : SMap Byte
  plane : SMap Bool
  planeSer : Nat
  nudge : SMap W32
  fbq : List Sample
  training : Option (Sample × Nat)
  inf : Option Infer
  vote : Option Vote
  deriving DecidableEq, Repr

/-- An NVMe command outstanding (R155): its pair, the physical ranges of its buffer with their SPLITW bits, who waits for it,
the status of its completion entry once the drive has posted one, the data of a read still to be written (R117), and for a
command of an offload copy the entry it serves (R404). -/
structure NvCmd where
  pair : Nat
  write : Bool
  ctx : Nat
  die : Nat
  n : Nat
  va : Nat
  lba : Nat
  nlb : Nat
  pas : List (Nat × Nat × Bool)
  tag : W64
  failed : Nat
  entry : Option Nat
  todo : Pieces
  copy : Option Nat
  deriving DecidableEq, Repr

/-- An offload or recall copy in progress (R179, R404): filled once its data have been read, of which todo is still to be
written, copied once it only waits for readers; with the issuers of the RECALLs accepted while OUTBOUND, the bytes for which
commands to a drive have been issued, and the status with which it will end once it has failed. -/
structure OfXfer where
  ctx : Nat
  idx : Nat
  outbound : Bool
  die : Nat
  n : Nat
  filled : Bool
  todo : Pieces
  copied : Bool
  recalls : List (Nat × Nat)
  sent : Nat
  failed : Option Nat
  deriving DecidableEq, Repr

/-- A chunk publication in progress (R375): the chunk record, the status, what its owner's record will say, once the staged
contributions have been read what is still to be written of the result, the cause and address of a fault it met, and whether DONE is
set. -/
structure Publ where
  pa : Nat
  st : Nat
  die : Nat
  n : Nat
  ctx : Nat
  tag : W64
  got : W64
  len : Nat
  todo : Option Pieces
  failed : Option (Nat × Nat)
  marked : Bool
  deriving DecidableEq, Repr

/-- A contribution at its chunk's home (R375): the chunk record, contributor, format and data, the program slot of this module that
sent it; what is still to be staged once that has begun, and the status of its acknowledgement once that is known. -/
structure Arrival where
  pa : Nat
  ci : Nat
  fmt : Nat
  data : List Byte
  slot : Option Nat
  todo : Option Pieces
  st : Option Nat
  deriving DecidableEq, Repr

/-- A handover in progress (R98, R381). -/
structure Hover where
  ctx : Nat
  die : Nat
  n : Nat
  op : Nat
  va : Nat
  len : Nat
  pas : List (Nat × Nat)
  tag : W64
  deriving DecidableEq, Repr

/-- The BAR0 blocks and the MSI-X table of one function (R99, R136, R158, R170, R425); an unlisted vector is masked.
hlwait holds the die, context and record address of a submission being checked, hkwant the range of a kick command whose tables
are awaited (R95). -/
structure Fn where
  hkaddr : W64
  hklen : W64
  hkbusy : Bool
  hklast : Nat
  hkpas : List (Nat × Nat)
  hkwant : Option (Nat × Nat)
  hkop : Nat
  hkctx : Nat
  hladdr : W64
  hlbusy : Bool
  hllast : Nat
  hlwait : Option (Nat × Nat × Nat)
  hebase : W64
  hesize : Nat
  hehead : Nat
  hetail : Nat
  htaddr : W64
  htlen : W64
  htbusy : Bool
  htctx : Nat
  htlast : Nat
  posts : List Post
  mask : SMap Bool
  pend : SMap Bool
  deriving DecidableEq, Repr

/-- The registers that act only in the physical function (R189, R426, R427, R435). -/
structure Pf where
  ready : Bool
  fwfail : Bool
  stage : Nat
  tmsel : W64
  cwsel : W64
  cwost : W64
  cwpc : W64
  cwbusy : Bool
  cwlast : Nat
  ataddr : W64
  atbusy : Bool
  atlast : Nat
  deriving DecidableEq, Repr

/-- The state of the module. -/
structure State where
  /-- FCYCLE and the oc phase; CYCLE is 2*FCYCLE + phase (R50). -/
  fcycle : W64
  phase : Bool
  /-- The model's own: the turns to come, who acts, the word fetched, and the count of free values drawn. -/
  agenda : List Turn
  who : Who
  ir : W32
  freeCtr : Nat
  routine : Option Routine
  /-- DRAM, host memory and peer memory by physical address (R72); an unlisted byte reads 0. -/
  mem : List Host.Cell
  /-- Syndrome of each 256-byte packet's check value in memory: stored check XOR the CRC of its bytes (R102); by packet, 0. -/
  chk : SMap (BitVec 16)
  /-- Lines poisoned in memory (R105); by line, false. -/
  poison : SMap Bool
  l2 : SMap (Option L2Line)
  dir : SMap Dir
  /-- Pinning context of each line (R84). -/
  pins : SMap (Option Nat)
  pages : SMap PageState
  /-- Requests for a page that another module holds, oldest first (R95). -/
  pageReqs : List PageReq
  /-- Private data cache and L1 lines: key agent*2^46+line. -/
  caches : SMap (Option CLine)
  /-- Instruction cache lines: key agent*2^46+line. -/
  icache : SMap (Option Line)
  /-- Translation caches: key the agent, and die*4096+4095 for a die's shared cache. -/
  tlb : SMap (List Tlb)
  maint : List Maint
  ctxs : SMap Ctx
  routines : SMap (Option RSlot)
  /-- Telemetry: key die*16+counter. -/
  tele : SMap W64
  teleSnap : SMap W64
  teleStamp : W64
  ost : SMap Ostler
  pens : SMap Pen
  pes : SMap PE
  stalls : SMap Stall
  jobs : List Job
  /-- Active slots: key die*64+slot. -/
  active : SMap (Option Nat)
  accSeq : SMap Nat
  /-- Record caches by die. -/
  recs : SMap (List RecEnt)
  /-- Port queues and bindings: key pen*64+port. -/
  portQ : SMap (List SCmd)
  portBind : SMap (Option Nat)
  /-- Program slots: key (die*16+engine)*16+slot. -/
  progs : SMap Prog
  /-- The slot each stream engine serves next: key die*16+engine (R152). -/
  rr : SMap Nat
  dsets : SMap DSet
  /-- Number of the last batch a base home sent to a set: key set*512+home (R107). -/
  dseq : SMap W32
  /-- Groups to be rescanned, by set, slot and group, oldest first (R122). -/
  rescans : List (Nat × Nat × Nat)
  logs : SMap (List LogEnt)
  merges : List Merge
  combs : List Comb
  /-- Chunk records with an armed timer, by physical address, the publications in progress, and the contributions that have come,
  oldest first (R375). -/
  timers : List (Nat × Nat)
  pubs : List Publ
  arrs : List Arrival
  banks : SMap Bank
  nvme : List NvCmd
  offl : List OfXfer
  /-- Entries, by context and index, that a function-level reset makes RESIDENT once their page is back (R179, R95). -/
  offlClear : List (Nat × Nat)
  hovers : List Hover
  fns : SMap Fn
  pf : Pf
  /-- MSI-X messages sent, oldest first: function, vector, KIND. -/
  msgs : List (Nat × Nat × Nat)
  /-- Links: ports that failed, peers with no path, and the power and clock figures of R432. -/
  portDown : List Nat
  peerDown : List Nat
  limit : Nat
  clock : Nat
  surge : Bool
  tripped : Bool
  deriving DecidableEq, Repr

/-- An ostler after reset; TIER takes the context's cap when one is bound (R46). [DESIGN CHOICE, log 1, 2] -/
def Ostler.reset : Ostler :=
  { x := [], pc := 0, run := .neverRun, stopReq := false, ctx := none, status := 0, tvec := 0, epc := 0,
    cause := 0, tval := 0, rngkey := 0, rngctr := 0, lstart := [], lend := [], lcount := [], ldepth := 0,
    eqhead := 0, eqcount := 0, queue := [], posters := [], wid := 0, widw := 0, nfcnt := 0, satcnt := 0,
    tier := 0, dline := BitVec.allOnes 64, wait := none, pens := [], logSeq := 0 }

/-- A context-table entry after reset: AGE holds the defaults R138 names; the other fields, for which R8 and R181 state no value,
read 0, and walks use that ROOT. [DESIGN CHOICE, log 94] -/
def Ctx.reset : Ctx :=
  { valid := false, func := 0, tcap := 0, age := [(0, 300000), (1, 3000000), (2, 30000000), (3, 300000000)], quota := 0,
    root := 0, live := 0, otbase := 0,
    otn := 0, msix := [], nvqp := 0, qosw := 0, poolBase := 0, poolLen := 0 }

def Handle.reset : Handle :=
  { base := 0, svm1 := 0, nsm1 := 0, head := 0, fill := 0, st := 0, res := false, en := false,
    dirn := false, resSlots := 0, freed := none }

/-- [DESIGN CHOICE, log 4] -/
def WRow.reset : WRow := { set := false, lo := 0, hi := 0, fmt := 3, scLo := 127, scHi := 127, bfLo := 0, bfHi := 0 }

def InQ.reset : InQ := { toks := [], last := 0 }

/-- [DESIGN CHOICE, log 4] -/
def PE.reset : PE :=
  { v := [], a := [], p := [], c := [], spw := [], prg := 0, nfc := 0, satc := 0, slots := [], passes := [],
    mpd := none, mopen := 0, irr := [], handles := [], spad := [], hdr := [], bad := [], ecc := [], full := 0, w := [], q := [],
    lat := [], rowA := [], rowB := [], adj := [], logSeq := 0 }

def Level.reset : Level := { csrc := 0, cimm := 0, sqs := 0, sqe := 0, sqn := 0, sqi := 0 }

def Pen.reset : Pen :=
  { valid := false, run := 0, origin := 0, hm1 := 0, wm1 := 0, owner := 0, ctx := 0, tier := 0, eff := 0,
    gang := 0, start := 0, accNo := 0, slot := 0, saveOff := 0, pre := false, savedSpad := false, job := none,
    rc := 0, ii := 0, sel := false, psel := false, pval := false, swr := 0, sys := false, nft := false,
    lv := [], g := 0, lena := 0, lenb := 0, split := 0, adj := false, tape := 0, rmask := 0, ports := [],
    hasImage := false, image := 0, wid := 0, first := 0, idCount := 1, stop := .none, held := 0,
    halting := false, boundary := false, cond := false }

def RecEnt.reset : RecEnt := { ctx := 0, handle := 0, lay := 0, emap := 0 }

def Prog.reset : Prog :=
  { busy := false, sq := false, ctx := 0, die := 0, n := 0, tag := 0, blockVa := 0, next := 0, pat := 0,
    srec := 0, starts := [], counts := [], xpose := false, dest := .none, loops := [], bytes := 0, peers := 0,
    tiles := 0, word := 0, vec := 0, resv := true, lastFmt := 0, lastBfly := 0, xfer := none, code := [],
    done := none, faddr := 0, recd := false, swept := [] }

def Group.reset : Group :=
  { acc := 0, pinf := 0, ninf := 0, nan := 0, val := .fin false 0, mult := 0, bins := [], pend := false,
    pois := false, rseq := [], queued := [], last := none, unpred := false }

def DSet.reset : DSet :=
  { ctx := none, step := 0, regions := [], queue := [], rebuild := none, unpred := false, gens := 0 }

def Bank.reset : Bank :=
  { ctx := none, kcfgr := 0, kseed := 0, kser := 0, cfgd := false, fb := false, cbase := 0, counters := [], plane := [],
    planeSer := 0, nudge := [], fbq := [], training := none, inf := none, vote := none }

def Dir.reset : Dir := { owner := none, releases := [], dead := false }

def Fn.reset : Fn :=
  { hkaddr := 0, hklen := 0, hkbusy := false, hklast := 0, hkpas := [], hkwant := none, hkop := 0, hkctx := 0, hladdr := 0,
    hlbusy := false, hllast := 0, hlwait := none, hebase := 0, hesize := 6, hehead := 0, hetail := 0, htaddr := 0,
    htlen := 0, htbusy := false, htctx := 0, htlast := 0, posts := [], mask := [], pend := [] }

def Pf.reset : Pf :=
  { ready := false, fwfail := false, stage := 0, tmsel := 0, cwsel := 0, cwost := 0, cwpc := 0,
    cwbusy := false, cwlast := 0, ataddr := 0, atbusy := false, atlast := 0 }

def Who.reset : Who := { die := 0, n := 0, pen := 0, pe := 0, eng := 0, slot := 0 }

/-- The module right after reset (R8, R244): every queue and table empty, no ostler run. No stall
is absent: which stalls of a die fail manufacturing test is the part's own (R13). [DESIGN CHOICE, log 95] -/
def State.reset : State :=
  { fcycle := 0, phase := false, agenda := [], who := Who.reset, ir := 0, freeCtr := 0, routine := none,
    mem := [], chk := [], poison := [], l2 := [], dir := [], pins := [], pages := [], pageReqs := [], caches := [],
    icache := [], tlb := [], maint := [], ctxs := [], routines := [], tele := [], teleSnap := [],
    teleStamp := 0, ost := [], pens := [], pes := [], stalls := [], jobs := [], active := [], accSeq := [],
    recs := [], portQ := [], portBind := [], progs := [], rr := [], dsets := [], dseq := [], rescans := [], logs := [], merges := [],
    combs := [], timers := [], pubs := [], arrs := [], banks := [], nvme := [], offl := [], offlClear := [], hovers := [], fns := [], pf := Pf.reset,
    msgs := [], portDown := [], peerDown := [], limit := 4500, clock := 600, surge := false, tripped := false }

end Sys2Proof.Machine
end

