-- ==== Sys2Proof/Machine/Ops.lean ====
section
/-! DEFINITION. The named operations over registers, the pc and the loop stack, taking an ostler trap and
returning from one (R48, R230), event records and their posting (R148..R150, R158), time, and raw memory. -/

namespace Sys2Proof.Machine

/-- The outcome type of every meaning. -/
abbrev Out := Host.Outcome State Fault Refusal

/-! ### Raw memory (R72) -/

/-- The canonical form of memory: addresses rise strictly and no listed byte is 0. -/
def Memory.wf (m : List Host.Cell) : Bool := mwf (0 : BitVec 8) m

/-- One byte of memory; an unlisted byte reads 0. [DESIGN CHOICE, log 3] -/
def Memory.byte (m : List Host.Cell) (a : Nat) : Byte := mget 0 m a

/-- One byte written. -/
def Memory.set (m : List Host.Cell) (a : Nat) (b : Byte) : List Host.Cell := mset 0 m a b

/-- Bytes written from an address upwards. -/
def Memory.write (m : List Host.Cell) (a : Nat) : List Byte → List Host.Cell
  | [] => m
  | b :: t => Memory.write (Memory.set m a b) (a + 1) t

/-- n bytes from an address upwards, in one pass over memory in its canonical form. -/
def Memory.read : List Host.Cell → Nat → Nat → List Byte
  | [], _, n => List.replicate n 0
  | (k, v) :: t, a, n =>
    if k < a then Memory.read t a n
    else if a + n ≤ k then List.replicate n 0
    else List.replicate (k - a) 0 ++ v :: Memory.read t (k + 1) (a + n - (k + 1))

/-! ### Ostlers, pens and PEs by key -/

def ostKey (die n : Nat) : Nat := die * 32 + n
def penKey (die pen : Nat) : Nat := die * 128 + pen
def peKey (k pe : Nat) : Nat := k * 2048 + pe
/-- Agent number of an ostler (R83). -/
def agentOst (die n : Nat) : Nat := die * 4096 + n

def State.ostler (s : State) (k : Nat) : Ostler := mget Ostler.reset s.ost k
def State.setOstler (s : State) (k : Nat) (o : Ostler) : State := { s with ost := mset Ostler.reset s.ost k o }
def State.pen (s : State) (k : Nat) : Pen := mget Pen.reset s.pens k
def State.setPen (s : State) (k : Nat) (p : Pen) : State := { s with pens := mset Pen.reset s.pens k p }
def State.pe (s : State) (k i : Nat) : PE := mget PE.reset s.pes (peKey k i)
def State.setPe (s : State) (k i : Nat) (p : PE) : State := { s with pes := mset PE.reset s.pes (peKey k i) p }
def State.fn (s : State) (f : Nat) : Fn := mget Fn.reset s.fns f
def State.setFn (s : State) (f : Nat) (x : Fn) : State := { s with fns := mset Fn.reset s.fns f x }
def State.ctx (s : State) (c : Nat) : Ctx := mget Ctx.reset s.ctxs c

/-- The executing ostler's key, its state, and its agent number. -/
def State.me (s : State) : Nat := ostKey s.who.die s.who.n
def State.cur (s : State) : Ostler := s.ostler s.me
def State.setCur (s : State) (o : Ostler) : State := s.setOstler s.me o
def State.agent (s : State) : Nat := agentOst s.who.die s.who.n
/-- The executing ostler's context (R46 CTXID; 0 when unbound). -/
def State.ctxId (s : State) : Nat := s.cur.ctx.getD 0

/-! ### Integer registers (R44, R384) -/

/-- Register r of the executing core: x0 reads 0; a slice routine reads its own registers. -/
def State.rx (s : State) (r : Reg) : W64 :=
  if r = 0 then 0
  else match s.routine with
    | some rt => mget 0 rt.x r.toNat
    | none => mget 0 s.cur.x r.toNat

/-- Register r := v; a write of x0 is discarded. -/
def State.wx (s : State) (r : Reg) (v : W64) : State :=
  if r = 0 then s
  else match s.routine with
    | some rt => { s with routine := some { rt with x := mset 0 rt.x r.toNat v } }
    | none => s.setCur { s.cur with x := mset 0 s.cur.x r.toNat v }

/-! ### The pc and the loop stack (R275, R288) -/

/-- The depth the unwind rule leaves for a target. -/
def Ostler.unwindTo (o : Ostler) (t : W64) : Nat → Nat
  | 0 => 0
  | n + 1 => if mget 0 o.lstart n ≤ t ∧ t ≤ mget 0 o.lend n then n + 1 else Ostler.unwindTo o t n

/-- The count-and-repeat rule at address a, from a depth downwards. -/
def Ostler.loopEnd (o : Ostler) (a : W64) : Nat → Ostler
  | 0 => { o with ldepth := 0, pc := a + 4 }
  | t + 1 =>
    if mget 0 o.lend t = a then
      let c := mget 0 o.lcount t - 1
      let o' := { o with lcount := mset 0 o.lcount t c }
      if c ≠ 0 then { o' with ldepth := t + 1, pc := mget 0 o.lstart t } else Ostler.loopEnd o' a t
    else { o with ldepth := t + 1, pc := a + 4 }

/-- after_commit of a word that does not redirect. -/
def Ostler.commit (o : Ostler) : Ostler := { o.loopEnd o.pc o.ldepth with wait := none }

/-- after_commit of a taken branch or jump. -/
def Ostler.redirect (o : Ostler) (t : W64) : Ostler :=
  { o with ldepth := o.unwindTo t o.ldepth, pc := t, wait := none }

/-- The executing word has committed: on an ostler, after_commit; in a routine, the next word. -/
def State.commit (s : State) : State :=
  match s.routine with
  | some rt => { s with routine := some { rt with at_ := rt.at_ + 1 } }
  | none => s.setCur s.cur.commit

/-- The executing word branches by a number of words (R285, R257). -/
def State.branchBy (s : State) (off : BitVec 64) : State :=
  match s.routine with
  | some rt => { s with routine := some { rt with at_ := rt.at_ + off.toNat } }
  | none => s.setCur (s.cur.redirect (s.cur.pc + 4 * off))

/-- xd := v and the word commits. -/
def State.ret (s : State) (d : Reg) (v : W64) : State := (s.wx d v).commit

/-- A record of the module's own that is still to reach its target. -/
def Turn.posts : Turn → Bool
  | .post _ _ _ _ _ => true
  | _ => false

/-- The executing ostler keeps waiting on a word (R276). [DEDUCED, log 76] -/
def State.waitOn (s : State) (i : Instr) (phase : Nat) (marks : List (Nat × Nat)) : State :=
  s.setCur { s.cur with wait := some { instr := i, phase := phase, marks := marks, todo := [] } }

/-- How far the waiting word has come, 0 when it issues now. -/
def State.phaseOf (s : State) : Nat :=
  match s.cur.wait with
  | some w => w.phase
  | none => 0

/-! ### Time and free values -/

/-- CYCLE (R50). [DESIGN CHOICE, log 7] -/
def State.cycle (s : State) : W64 := 2 * s.fcycle + (if s.phase then 1 else 0)

/-- One oc passes (R4, R50). [DESIGN CHOICE, log 7] -/
def State.tickOc (s : State) : State :=
  if s.phase then { s with phase := false, fcycle := s.fcycle + 1 } else { s with phase := true }

/-- The counter value of the next free value, and the state that has drawn it. -/
def State.draw (s : State) : Nat × State := (s.freeCtr, { s with freeCtr := s.freeCtr + 1 })

/-- Telemetry counter of a die counts n more (R188). [DEDUCED, log 78] -/
def State.count (s : State) (die cnt n : Nat) : State :=
  { s with tele := mset 0 s.tele (die * 16 + cnt) (mget 0 s.tele (die * 16 + cnt) + BitVec.ofNat 64 n) }

/-! ### Fault causes (R229) and status codes (R247) -/

def cILLEGAL : Nat := 0x01
def cFETCH : Nat := 0x02
def cTRANSL : Nat := 0x03
def cPERM : Nat := 0x04
def cALIGN : Nat := 0x05
def cRUNOFF : Nat := 0x06
def cSCALESTEP : Nat := 0x07
def cCHECK : Nat := 0x08
def cECC : Nat := 0x09
def cJCBLATE : Nat := 0x0A
def cPOSRANGE : Nat := 0x0B
def cSTREAM : Nat := 0x0C
def cLINK : Nat := 0x0D
def cWATCHDOG : Nat := 0x0E
def cNONFINITE : Nat := 0x0F
def cTRAP : Nat := 0x12
def cRESET : Nat := 0x14

/-- Causes a pen may resume from (R229). -/
def resumable (c : Nat) : Bool := c == 3 || c == 4 || c == 0x0D || c == 0x0E || c == 0x0F

def stOK : Nat := 0
def stBUSY : Nat := 1
def stQUOTA : Nat := 2
def stNOSPACE : Nat := 3
def stBADARG : Nat := 4
def stTRUNCATED : Nat := 5
def stPARTIAL : Nat := 6
def stRANGE : Nat := 7
def stNOTADJ : Nat := 8
def stEXISTS : Nat := 9
def stPENDING : Nat := 10
def stBADCFG : Nat := 11

/-- xd := status and the instruction completes (R246 status). -/
def State.status (s : State) (d : Reg) (st : Nat) : State := s.ret d (BitVec.ofNat 64 st)

/-! ### Event records (R148, R149) -/

def mkRec (kind status sdie scls sid ssub : Nat) (tag aux0 aux1 : W64) : EvRec :=
  BitVec.ofNat 256 (kind % 256 + (status % 256) * 2 ^ 8 + (sdie % 8) * 2 ^ 16 + (scls % 16) * 2 ^ 20 +
    (sid % 256) * 2 ^ 24 + (ssub % 256) * 2 ^ 32 + tag.toNat * 2 ^ 64 + aux0.toNat * 2 ^ 128 +
    aux1.toNat * 2 ^ 192)

def evKind (r : EvRec) : Nat := (r.extractLsb' 0 8).toNat
def evStatus (r : EvRec) : Nat := (r.extractLsb' 8 8).toNat

/-- A record enters an ostler's queue (R150). -/
def Ostler.enqueue (o : Ostler) (r : EvRec) : Ostler :=
  { o with queue := mset 0 o.queue ((o.eqhead + o.eqcount) % 256) r, eqcount := o.eqcount + 1 }

/-- Post to an ostler's queue; a poster that finds it full waits behind the posters before it (R150).
[DESIGN CHOICE, log 81] -/
def Ostler.post (o : Ostler) (p : Post) : Ostler :=
  if o.eqcount < Config.eventDepth ∧ o.posters = [] then o.enqueue p.ev
  else { o with posters := o.posters ++ [p] }

def State.postOst (s : State) (die n ctx : Nat) (r : EvRec) : State :=
  s.setOstler (ostKey die n) ((s.ostler (ostKey die n)).post { ev := r, ctx := ctx })

/-- The head waiting poster is served once an entry is free (R150). [DESIGN CHOICE, log 81] -/
def Ostler.servePost (o : Ostler) : Ostler :=
  match o.posters with
  | [] => o
  | p :: t => if o.eqcount < Config.eventDepth then { o.enqueue p.ev with posters := t } else o

/-! ### Host event rings and MSI-X (R158) -/

/-- Host memory stands at this physical address (R72). [DESIGN CHOICE, log 20] -/
def hostBase : Nat := 0x8000000000000
def peerBase : Nat := 0x4000000000000

/-- The vector of a record's context and KIND: none when its map entry is disabled. -/
def State.vector (s : State) (ctx kind : Nat) : Option Nat :=
  let e := mget 0 (s.ctx ctx).msix (kind / 16)
  if bit e 11 then some (e % 2048) else none

/-- Raise a vector: one message, or the pending bit of a masked vector. [PRESUMED, log 21] -/
def State.raise (s : State) (f kind : Nat) : Option Nat → State
  | none => s
  | some v =>
    let x := s.fn f
    if mget true x.mask v then s.setFn f { x with pend := mset false x.pend v true }
    else { s with msgs := s.msgs ++ [(f, v, kind)] }

/-- Whether HEAD + 1 equals TAIL modulo the ring size. -/
def Fn.ringFull (x : Fn) : Bool := (x.hehead + 1) % 2 ^ x.hesize == x.hetail % 2 ^ x.hesize

/-- The record is written at HEAD, HEAD advances, and the vector is raised, in that order. -/
def State.ringWrite (s : State) (f : Nat) (p : Post) : State :=
  let x := s.fn f
  let s1 := { s with mem := Memory.write s.mem (hostBase + x.hebase.toNat + 32 * x.hehead) (toBytes 32 p.ev.toNat) }
  let s2 := s1.setFn f { x with hehead := (x.hehead + 1) % 2 ^ x.hesize }
  s2.raise f (evKind p.ev) (s2.vector p.ctx (evKind p.ev))

/-- Post to a function's host event ring; a poster that finds it full waits (R158). [DESIGN CHOICE, log 81] -/
def State.postHost (s : State) (f ctx : Nat) (r : EvRec) : State :=
  let x := s.fn f
  if x.ringFull ∨ x.posts ≠ [] then s.setFn f { x with posts := x.posts ++ [{ ev := r, ctx := ctx }] }
  else s.ringWrite f { ev := r, ctx := ctx }

/-! ### Taking a trap and returning from one (R48, R230, R231) -/

def Ostler.tm (o : Ostler) : Bool := o.status.getLsbD 0

/-- Trap entry outside a handler. -/
def Ostler.trapEntry (o : Ostler) (cause tval epc : W64) : Ostler :=
  { o with epc := epc, cause := cause, tval := tval,
           status := BitVec.ofNat 64 (1 + 2 * b2n o.tm + 16 * o.ldepth),
           ldepth := 0, pc := o.tvec &&& ~~~3, wait := none }

/-- A fault or TRAP of the executing ostler: trap entry, or, inside a handler, the double trap that stops it
and posts OSTLER_STOP to its function's host event ring (R231, R149). [DESIGN CHOICE, log 96] -/
def State.trapWith (s : State) (cause tval epc : W64) : State :=
  let o := s.cur
  if o.tm then
    let c := o.ctx.getD 0
    (s.setCur { o with run := .stopped, wait := none }).postHost (s.ctx c).func c
      (mkRec 0x70 (cause.toNat % 256) s.who.die 6 s.who.n 0 0 o.epc o.cause)
  else s.setCur (o.trapEntry cause tval epc)

/-- A precise fault: EPC is the faulting word (R230). -/
def State.trap (s : State) (cause : Nat) (tval : W64) : State :=
  s.trapWith (BitVec.ofNat 64 cause) tval s.cur.pc

/-- ILLEGAL, with the word in TVAL (R230). [DESIGN CHOICE, log 25] -/
def State.illegal (s : State) : State := s.trap cILLEGAL (s.ir.setWidth 64)

/-- ERET's changes (R48): LDEPTH from PLD, held to 4, TM from PTM, pc from EPC. [DEDUCED, log 15] -/
def Ostler.eret (o : Ostler) : Ostler :=
  { o with ldepth := min 4 (o.status.extractLsb' 4 3).toNat,
           status := (o.status &&& ~~~1) ||| (if o.status.getLsbD 1 then 1 else 0),
           pc := o.epc, wait := none }

end Sys2Proof.Machine
end

