-- ==== Sys2Proof/Machine/Mem.lean ====
section
/-! DEFINITION. Translation (R70, R71, R168-R170), the lines of memory at their homes (R83, R102-R105, R412, R437),
private caches, recalls, drains and acquires (R86-R93), and the deltas a write sends (R74, R117, R126). -/

namespace Sys2Proof.Machine

/-! ### Lines -/

def lineByte (l : Line) (i : Nat) : Byte := l.extractLsb' (8 * i) 8

/-- n bytes of a line from an offset, as a number. -/
def lineGet (l : Line) (off n : Nat) : Nat := (l.toNat >>> (8 * off)) % 2 ^ (8 * n)

/-- Bytes put into a line from an offset. -/
def linePut (l : Line) (off : Nat) (b : List Byte) : Line :=
  BitVec.ofNat 1024 (insBits l.toNat (8 * off) (8 * b.length) (ofBytes b))

/-- The bytes of new where the mask is 1, of old elsewhere. -/
def lineMerge (old new : Line) (mask : BitVec 128) : Line :=
  let m := BitVec.ofNat 1024 (iter (fun i (a : Nat) => if mask.getLsbD i then a + 255 * 2 ^ (8 * i) else a) 128 0)
  (old &&& ~~~m) ||| (new &&& m)

/-- The top of this module's HBM (R72). -/
def hbmTop : Nat := 0xC000000000

/-- A physical address names a range that exists (R72). -/
def physOk (pa : Nat) : Bool :=
  decide (pa < hbmTop) || (decide (peerBase ≤ pa) && decide (pa < hostBase) && !(bit pa 49)) ||
    (decide (hostBase ≤ pa) && decide (pa < 2 * hostBase))

def isHbm (pa : Nat) : Bool := decide (pa < hbmTop)
def isPeer (pa : Nat) : Bool := decide (peerBase ≤ pa) && decide (pa < hostBase)
def isHost (pa : Nat) : Bool := decide (hostBase ≤ pa)
/-- The module a peer-window address names (R72). -/
def peerOf (pa : Nat) : Nat := bits pa 48 40

/-- The home of an address: die*64 + slice (R73). -/
def homeOf (pa : Nat) : Nat :=
  let s := bits pa 16 13 ^^^ bits pa 20 17 ^^^ bits pa 24 21 ^^^ bits pa 28 25 ^^^ bits pa 32 29 ^^^ bits pa 36 33
  (s >>> 1) * 64 + ((s % 2) * 32 + bits pa 12 8)

/-- A line as DRAM, host memory or peer memory holds it. [DESIGN CHOICE, log 3] -/
def State.dramLine (s : State) (l : Nat) : Line :=
  BitVec.ofNat 1024 (ofBytes (Memory.read s.mem (128 * l) 128))

def State.l2Of (s : State) (l : Nat) : Option L2Line := mget none s.l2 l
def State.setL2 (s : State) (l : Nat) (c : Option L2Line) : State := { s with l2 := mset none s.l2 l c }

/-- A line as its home holds it (R83). -/
def State.homeData (s : State) (l : Nat) : Line :=
  match s.l2Of l with
  | some c => c.data
  | none => s.dramLine l

/-- The packet of a line failed the check memory holds of it, and L2 holds no new one (R102). -/
def State.misOf (s : State) (l : Nat) : Bool :=
  mget 0 s.chk (l / 2) != 0 && !(((s.l2Of (l ^^^ 1)).map L2Line.fresh).getD false)

/-- A line as it comes from memory, with its check and its poison (R102, R105). -/
def State.l2Fill (s : State) (l : Nat) : L2Line :=
  { data := s.dramLine l, mask := 0, sp := false, pois := mget false s.poison l, mis := s.misOf l,
    fresh := ((s.l2Of (l ^^^ 1)).map L2Line.fresh).getD false }

/-- A line at its home, as L2 holds it or as it would come from memory (R83). -/
def State.homeLine (s : State) (l : Nat) : L2Line := (s.l2Of l).getD (s.l2Fill l)

/-- A change of an L2 copy, where there is one. -/
def State.l2Mark (s : State) (l : Nat) (f : L2Line → L2Line) : State :=
  match s.l2Of l with
  | some c => s.setL2 l (some (f c))
  | none => s

/-- An access at the home brings the line into its slice and counts a hit or a miss (R188). [DEDUCED, log 78] -/
def State.enterL2 (s : State) (l : Nat) : State :=
  let die := homeOf (128 * l) / 64
  match s.l2Of l with
  | some _ => s.count die 8 1
  | none => (s.setL2 l (some (s.l2Fill l))).count die 9 1

/-- A line written to DRAM beneath L2, whole. -/
def State.dramWrite (s : State) (l : Nat) (d : Line) : State :=
  { s with mem := Memory.write s.mem (128 * l) (toBytes 128 d.toNat) }

/-- The mismatch that a writeback of a line meets (R437): the packet's other line is poisoned, in memory and in a clean L2
copy, and the mismatch is counted. -/
def State.poisonOther (s : State) (l : Nat) : State :=
  let die := homeOf (128 * l) / 64
  let t : State := { s with poison := mset false s.poison (l ^^^ 1) true }
  ((t.l2Mark (l ^^^ 1) fun c => if c.mask = 0 then { c with pois := true, mis := false, fresh := true } else c).count die 10 1).count
    die 3 1

/-- A line written to memory with its packet's check (R412): where the old check in memory fails and the packet has no newer one,
the writeback settles it (R437). -/
def State.settleCheck (s : State) (l : Nat) (fresh : Bool) : State :=
  if mget 0 s.chk (l / 2) ≠ 0 then
    let t : State := { s with chk := mset 0 s.chk (l / 2) 0 }
    if fresh then t else t.poisonOther l
  else s

/-- L2 writes a dirty line to memory with its own poison, and keeps it clean: whole, or the bytes of its mask for an SPLITW page
of a peer (R412, R97, R105, R437). -/
def State.l2Clean (s : State) (l : Nat) : State :=
  match s.l2Of l with
  | some c =>
    if c.mask = 0 then s
    else
      let t := (s.dramWrite l (lineMerge (s.dramLine l) c.data c.mask)).setL2 l (some { c with mask := 0, mis := false })
      let t := if c.mask = BitVec.allOnes 128 then { t with poison := mset false t.poison l c.pois } else t
      t.settleCheck l c.fresh
  | none => s

/-- What a reader of a line in some state of check and poison meets: 0, ECC for poison, CHECK for a check mismatch (R103, R105). -/
def L2Line.bad (c : L2Line) : Nat := if c.pois then cECC else if c.mis then cCHECK else 0

/-- What a reader of a line meets at its home. [DESIGN CHOICE, log 3; DEDUCED, log 11] -/
def State.lineBad (s : State) (l : Nat) : Nat := (s.homeLine l).bad

/-- What a reader of a line meets in memory beneath L2 (R412). -/
def State.dramBad (s : State) (l : Nat) : Nat :=
  if mget false s.poison l then cECC else if mget 0 s.chk (l / 2) ≠ 0 then cCHECK else 0

/-- A mismatch counts in telemetry counter 10 of the home's die (R103). -/
def State.noteBad (s : State) (l cause : Nat) : State :=
  if cause = cCHECK then s.count (homeOf (128 * l) / 64) 10 1 else s

/-- The TVAL of a bad line: the packet for CHECK, the address for ECC (R230). [DEDUCED, log 36] -/
def badAddr (cause va : Nat) : Nat := if cause = cCHECK then va - va % 256 else va

/-! ### Deltas (R115, R117, R126) -/

/-- Format code, element size and kind of a region. -/
def Region.fmt (r : Region) : Nat := (r.lay.extractLsb' 128 4).toNat
def Region.kind (r : Region) : Nat := (r.decl.extractLsb' 128 3).toNat
def Region.grp (r : Region) : Nat := (r.decl.extractLsb' 131 2).toNat
def elemSize (code : Nat) : Nat :=
  match code with
  | 0 => 4
  | 10 => 4
  | 1 => 2
  | 2 => 2
  | 9 => 2
  | _ => 1

/-- An element's exact value in units of 2^-160. -/
def toDVal : Val → DVal
  | .nan => .nan
  | .inf n => .inf n
  | .fin n m e => .fin n (if 0 ≤ e + 160 then m <<< (e + 160).toNat else 0)

/-- The elements of a region in a line, with their index. -/
def elemsIn (line : Nat) : List Nat → Nat → List (Nat × Nat)
  | [], _ => []
  | p :: t, i => if p / 128 = line then (p, i) :: elemsIn line t (i + 1) else elemsIn line t (i + 1)

/-- Insert by ascending address. -/
def insertPa (e : Nat × Nat) : List (Nat × Nat) → List (Nat × Nat)
  | [] => [e]
  | x :: t => if e.1 ≤ x.1 then e :: x :: t else x :: insertPa e t

/-- The change of one element between two contents of its line (R117). -/
def Region.delta (r : Region) (slot : Nat) (old new : Line) (p i : Nat) : Option (Nat × Delta) :=
  let n := elemSize r.fmt
  let a := lineGet old (p % 128) n
  let b := lineGet new (p % 128) n
  if a = b then none
  else
    let d : Delta := { slot := slot, gen := r.gen, elem := i, old := toDVal (decodeElem r.fmt a),
                       new := toDVal (decodeElem r.fmt b) }
    some (p, d)

/-- The changed elements of one region between two contents of a line, by ascending address (R117). -/
def Region.deltas (r : Region) (slot line : Nat) (old new : Line) : List (Nat × Delta) :=
  ((elemsIn line r.elems 0).foldr insertPa []).filterMap fun e => r.delta slot old new e.1 e.2

/-- The regions of a set that are declared, by slot. -/
def DSet.list (d : DSet) : List (Nat × Region) :=
  d.regions.filterMap fun e => e.2.map fun x => (e.1, x)

/-- Whether a set covers a line. -/
def DSet.covers (d : DSet) (line : Nat) : Bool :=
  d.ctx.isSome && d.list.any fun (_, r) => r.elems.any fun p => p / 128 == line

/-- The keys of the sets that cover a line. -/
def State.covering (s : State) (line : Nat) : List Nat :=
  (s.dsets.filter fun (_, d) => d.covers line).map Prod.fst

def State.dset (s : State) (k : Nat) : DSet := mget DSet.reset s.dsets k
def State.setDset (s : State) (k : Nat) (d : DSet) : State := { s with dsets := mset DSet.reset s.dsets k d }

/-- The home slice of a set (R108): slice SET mod 64 of its die, as die*64 + slice. -/
def setHome (k : Nat) : Nat := k / 4096 * 64 + k % 64

/-- Batches that wait at a set home slice (R107). -/
def State.deltaUsed (s : State) (h : Nat) : Nat :=
  s.dsets.foldl (fun n (k, d) => if setHome k = h then n + d.queue.length else n) 0

/-- Some set home slice has no space for the batches that writes of these lines send (R117). -/
def State.deltaLacks (s : State) (ls : List Nat) : Bool :=
  let ks := ls.flatMap s.covering
  ks.any fun k => Config.deltaDepth < s.deltaUsed (setHome k) + (ks.filter fun j => setHome j == setHome k).length

/-- A write of a line waits for space at the homes of its covering sets (R117). -/
def State.deltaFull (s : State) (line : Nat) : Bool := s.deltaLacks [line]

/-- A numbered batch leaves a base home for a set (R117); a rebuild request takes a number as a batch does.
[DESIGN CHOICE, log 85] -/
def State.sendBatch (s : State) (k writer home : Nat) (es : List Delta) (rb : Option Nat) : State :=
  let q := mget 0 s.dseq (k * 512 + home) + 1
  let d := s.dset k
  ({ s with dseq := mset 0 s.dseq (k * 512 + home) q } : State).setDset k
    { d with queue := d.queue ++ [{ src := home, seq := q.toNat, writer := writer, entries := es, rebuild := rb }] }

/-- The batches of one write, one for each covering set with a changed element. -/
def State.sendDeltas (s : State) (writer line : Nat) (old new : Line) : State :=
  (s.covering line).foldl (fun s k =>
    let es := ((s.dset k).list.flatMap fun (slot, r) => r.deltas slot line old new)
    let es := es.foldr (fun e acc => if acc.all fun x => e.1 ≤ x.1 then e :: acc else
      acc.takeWhile (fun x => x.1 < e.1) ++ e :: acc.dropWhile (fun x => x.1 < e.1)) []
    if es = [] then s else s.sendBatch k writer (homeOf (128 * line)) (es.map Prod.snd) none) s

/-- A rebuild request to every covering set (R126). [DESIGN CHOICE, log 85] -/
def State.sendRebuild (s : State) (writer line : Nat) : State :=
  (s.covering line).foldl (fun s k => s.sendBatch k writer (homeOf (128 * line)) [] (some line)) s

/-- Elements of a group (R115). -/
def Region.per (r : Region) : Nat :=
  match r.grp with
  | 0 => (r.lay.extractLsb' 256 32).toNat
  | 1 => 256
  | _ => r.elems.length

def Region.groupOf (r : Region) (e : Nat) : Nat := e / r.per
def Region.group (r : Region) (g : Nat) : Group := mget Group.reset r.groups g
def Region.setGroup (r : Region) (g : Nat) (x : Group) : Region := { r with groups := mset Group.reset r.groups g x }

/-- The groups of a region with an element in a line. -/
def Region.lineGroups (r : Region) (line : Nat) : List Nat := ((elemsIn line r.elems 0).map fun e => r.groupOf e.2).eraseDups

/-- The groups of a region with an element that some bytes of a line touch. -/
def Region.byteGroups (r : Region) (line : Nat) (m : BitVec 128) : List Nat :=
  (((elemsIn line r.elems 0).filter fun e => m.extractLsb' (e.1 % 128) (elemSize r.fmt) != 0).map fun e => r.groupOf e.2).eraseDups

/-- The groups of a region that cover bytes of a line become unpredictable until DREB (R126). -/
def Region.markLine (r : Region) (line : Nat) (m : BitVec 128) : Region :=
  (r.byteGroups line m).foldl (fun r g => r.setGroup g { r.group g with unpred := true }) r

/-- The groups that cover the bytes of a mask of a line become unpredictable until DREB (R126). [DEDUCED, log 38] -/
def State.markUnpred (s : State) (line : Nat) (m : BitVec 128) : State :=
  (s.covering line).foldl (fun s k =>
    s.setDset k { s.dset k with regions := (s.dset k).regions.map fun (i, r) => (i, r.map fun r => r.markLine line m) }) s

/-- A physical address lies in the shadow area of a declared region (R112). -/
def Region.inShadow (r : Region) (pa : Nat) : Bool := r.shadow.any fun (a, n) => a ≤ pa && pa < a + n

/-- A write by an agent of bytes of a line in a shadow area makes that set's values unpredictable (R112).
[DESIGN CHOICE, log 17] -/
def State.noteShadow (s : State) (l : Nat) (m : BitVec 128) : State :=
  { s with dsets := s.dsets.map fun (k, d) =>
      if d.list.any fun (_, r) => r.shadow != [] && (List.range 128).any fun i => m.getLsbD i && r.inShadow (128 * l + i)
      then (k, { d with unpred := true }) else (k, d) }

/-- [DESIGN CHOICE, log 17] -/
def State.isShadow (s : State) (pa : Nat) : Bool :=
  s.dsets.any fun (_, d) => d.list.any fun (_, r) => r.inShadow pa

/-- Bytes read from a range, those of shadow areas free (R112). [DESIGN CHOICE, log 17] -/
def State.hideShadow (s : State) (pa : Nat) (b : List Byte) : List Byte × State :=
  if (List.range b.length).any fun i => s.isShadow (pa + i) then
    let free := b.zipIdx.map fun (x, i) =>
      if s.isShadow (pa + i) then (Config.freeVec (s.freeCtr + i / 256)).extractLsb' (8 * (i % 256)) 8 else x
    (free, { s with freeCtr := s.freeCtr + b.length / 256 + 1 })
  else (b, s)

/-- Every delta of an agent's writes is applied (R119, R129). -/
def State.deltasDone (s : State) (writer : Nat) : Bool :=
  s.dsets.all fun (_, d) => d.queue.all fun b => b.writer != writer

/-- The writer of a batch that no agent waits for. -/
def noAgent : Nat := 4094

/-! ### Writes at the home -/

/-- The mask of n bytes from an offset. -/
def byteMask (off n : Nat) : BitVec 128 := BitVec.ofNat 128 ((2 ^ n - 1) * 2 ^ off)

/-- A line's L2 copy takes the bytes of a mask; sp marks an SPLITW page, of which a peer's line returns only those bytes
(R97). -/
def State.l2Put (s : State) (l : Nat) (data : Line) (mask : BitVec 128) (sp : Bool) : State :=
  let c := s.homeLine l
  let part := sp && isPeer (128 * l)
  s.setL2 l (some { c with data := lineMerge c.data data mask,
                           mask := if part then c.mask ||| mask else BitVec.allOnes 128, sp := part })

/-- The bytes of a mask written by an agent at a line's home, which has been reached, as one write with a new check and its
deltas (R83, R102, R104). A whole-line write clears poison, and then covered elements have no old value to send (R105,
R126). [DEDUCED, log 11] -/
def State.homePutMask (s : State) (writer l : Nat) (data : Line) (mask : BitVec 128) (sp : Bool) : State :=
  let old := s.homeData l
  let new := lineMerge old data mask
  let pois := (s.homeLine l).pois
  let s := s.l2Put l data mask sp
  if pois && mask == BitVec.allOnes 128 then (s.l2Mark l fun c => { c with pois := false }).sendRebuild writer l
  else s.sendDeltas writer l old new

/-- Bytes written at a line's home. -/
def State.homePut (s : State) (writer l off : Nat) (b : List Byte) (sp : Bool) : State :=
  s.homePutMask writer l (linePut 0 off b) (byteMask off b.length) sp

/-- A line written back from a cache is merged at its home (R437): never refused; a whole line clears poison, and a packet whose
check fails takes a new one there. -/
def State.homeMerge (s : State) (l : Nat) (d : Line) (mask : BitVec 128) (sp : Bool) : State :=
  let s := s.enterL2 l
  let c := s.homeLine l
  let s := s.l2Put l d mask sp
  let s := if mask = BitVec.allOnes 128 && c.pois then
      (s.l2Mark l fun c => { c with pois := false }).sendRebuild noAgent l else s
  if c.mis then (s.l2Mark l fun c => { c with mis := false, fresh := true }).poisonOther l else s

/-! ### Private caches and the directory -/

def ckey (a l : Nat) : Nat := a * 2 ^ 46 + l

def State.cacheOf (s : State) (a l : Nat) : Option CLine := mget none s.caches (ckey a l)
def State.setCache (s : State) (a l : Nat) (c : Option CLine) : State :=
  { s with caches := mset none s.caches (ckey a l) c }
def State.dirOf (s : State) (l : Nat) : Dir := mget Dir.reset s.dir l
def State.setDir (s : State) (l : Nat) (d : Dir) : State := { s with dir := mset Dir.reset s.dir l d }

/-- An agent writes back its dirty copy of a line, which stays owned and clean; poison travels with it (R105). -/
def State.writeback (s : State) (a l : Nat) : State :=
  match s.cacheOf a l with
  | some c =>
    if c.mask = 0 then s
    else
      let s := (s.homeMerge l c.data c.mask c.sp).setCache a l (some { c with mask := 0 })
      if c.bad then s.l2Mark l fun c => { c with pois := true } else s
  | none => s

/-- An agent's copy is dropped; it owns the line no more. -/
def State.dropCopy (s : State) (a l : Nat) : State :=
  let s := s.setCache a l none
  if (s.dirOf l).owner = some a then s.setDir l { s.dirOf l with owner := none } else s

/-- The home recalls an owned copy (R86). -/
def State.recall (s : State) (l : Nat) : State :=
  match (s.dirOf l).owner with
  | some a => (s.writeback a l).dropCopy a l
  | none => s

/-- The releaser of a record writes back every line that was dirty at its release (R90). [DESIGN CHOICE, log 13] -/
def State.drainOne (s : State) (r : Release) : State := r.lines.foldl (fun s l => s.writeback r.agent l) s

/-- Before a line is supplied to an agent, every other releaser on it is drained and its record cleared (R90).
[DESIGN CHOICE, log 13] -/
def State.drain (s : State) (l : Nat) (a : Option Nat) : State :=
  let rs := (s.dirOf l).releases
  let other (r : Release) : Bool := some r.agent != a
  if rs.any other then
    let s := (rs.filter other).foldl State.drainOne s
    s.setDir l { s.dirOf l with releases := (s.dirOf l).releases.filter fun r => !(other r) }
  else s

/-- A line as its home would supply it to an engine: releasers drained, an owner recalled (R88, R90). -/
def State.seen (s : State) (l : Nat) : State := (s.drain l none).recall l

/-- The lines dirty in an agent's cache. -/
def State.dirtyLines (s : State) (a : Nat) : List Nat :=
  s.caches.filterMap fun (k, c) =>
    match c with
    | some x => if k / 2 ^ 46 = a ∧ x.mask ≠ 0 then some (k % 2 ^ 46) else none
    | none => none

/-- Every dirty line of an agent is written back to its home (R92). -/
def State.writebackAll (s : State) (a : Nat) : State := (s.dirtyLines a).foldl (fun s l => s.writeback a l) s

/-- The peer-window lines that are dirty in L2. -/
def State.peerDirty (s : State) : List Nat :=
  s.l2.filterMap fun (l, c) =>
    match c with
    | some x => if isPeer (128 * l) && x.mask != 0 then some l else none
    | none => none

/-- An agent's peer-window lines return to their home modules: those dirty in its cache, and those that earlier writebacks
left dirty at their proxy homes (R92, R97). [DESIGN CHOICE, log 83] -/
def State.returnPeer (s : State) (a : Nat) : State :=
  let s := ((s.dirtyLines a).filter fun l => isPeer (128 * l)).foldl (fun s l => s.writeback a l) s
  s.peerDirty.foldl State.l2Clean s

/-- A private cache's writeback of a line of a peer's SPLITW page goes on to the peer (R97: at eviction and at the sweep). -/
def State.splitReturn (s : State) (l : Nat) : State :=
  match s.l2Of l with
  | some c => if c.sp then s.l2Clean l else s
  | none => s

/-- An acquire drops every leased copy of an agent (R91). -/
def State.dropLeased (s : State) (a : Nat) : State :=
  { s with caches := s.caches.filter fun (k, c) =>
      match c with
      | some x => !(k / 2 ^ 46 == a) || x.owned
      | none => true }

/-- Every copy of an agent is written back and dropped. -/
def State.flushAgent (s : State) (a : Nat) : State :=
  let ls := s.caches.filterMap fun (k, _) => if k / 2 ^ 46 = a then some (k % 2 ^ 46) else none
  ls.foldl (fun s l => (s.writeback a l).dropCopy a l) s

/-- A copy an agent may read: owned, or leased and not expired (R87; both leases are 4096 oc). -/
def State.liveCopy (s : State) (a l : Nat) : Option CLine :=
  match s.cacheOf a l with
  | some c => if c.owned || (s.cycle - c.since).toNat < Config.leaseOst then some c else none
  | none => none

/-! ### Capacity (R69, R81, R83) -/

/-- The L2 set of a line among all sets of all slices. -/
def l2SetOf (l : Nat) : Nat × Nat := (homeOf (128 * l), Config.l2Set l % Config.l2Sets)

/-- An L2 copy leaves its slice (R412): drained, recalled, written if dirty. -/
def State.evictL2 (s : State) (l : Nat) : State :=
  let t := (s.drain l none).recall l
  (t.l2Clean l).setL2 l none

/-- One of some lines, the model's free choice of a victim. [DESIGN CHOICE, log 84] -/
def State.pickLine (s : State) (ls : List Nat) : Option Nat × State :=
  (ls[Config.victim s.freeCtr % ls.length]?, { s with freeCtr := s.freeCtr + 1 })

/-- Room for a line in its 16-way set: a line that is not pinned leaves a full set (R83, R84). [DESIGN CHOICE, log 84] -/
def State.l2Room (s : State) (l : Nat) : State :=
  if s.l2.length < Config.l2Ways ∨ (s.l2Of l).isSome then s
  else
    let set := (s.l2.filter fun e => l2SetOf e.1 == l2SetOf l).map Prod.fst
    if set.length < Config.l2Ways then s
    else match s.pickLine (set.filter fun x => (mget none s.pins x).isNone) with
      | (some v, t) => t.evictL2 v
      | (none, t) => t

/-- An access reaches a line's home, which holds the line from then on (R83). -/
def State.touch (s : State) (l : Nat) : State := (s.l2Room l).enterL2 l

/-- The running pen whose rectangle holds the PE with an agent number (R12, R83). -/
def State.penAt (s : State) (a : Nat) : Option Pen :=
  let row := (a % 4096 - 256) / 64
  let col := (a % 4096 - 256) % 64
  (s.pens.find? fun (k, p) => k / 128 == a / 4096 && p.valid && !p.pre &&
    4 * (p.origin / 16) ≤ row && row < 4 * (p.origin / 16 + p.hm1 + 1) &&
    4 * (p.origin % 16) ≤ col && col < 4 * (p.origin % 16 + p.wm1 + 1)).map Prod.snd

/-- Lines of an agent's private data cache, and its ways: 16 KiB of an ostler; 96 KiB less the split of a PE, 4-way (R69,
R77, R81). [DESIGN CHOICE, log 84] -/
def State.cacheSize (s : State) (a : Nat) : Nat × Nat :=
  if a % 4096 < 32 then (Config.ostLines, Config.ostLines)
  else match s.penAt a with
    | some p => let n := 128 * p.split; (n, if n = 0 then 0 else 4)
    | none => (0, 0)

/-- The lines an agent's private cache holds. -/
def State.linesOf (s : State) (a : Nat) : List Nat :=
  s.caches.filterMap fun (k, _) => if k / 2 ^ 46 = a then some (k % 2 ^ 46) else none

/-- Room for a line in an agent's private cache: a line of its set leaves a full set. [DESIGN CHOICE, log 84] -/
def State.cacheRoom (s : State) (a l : Nat) : State :=
  let ls := (s.linesOf a).filter (· != l)
  let z := s.cacheSize a
  if ls.length < z.2 then s
  else
    let sets := z.1 / z.2
    let set := ls.filter fun x => Config.l1Set x % sets == Config.l1Set l % sets
    if set.length < z.2 then s
    else match s.pickLine set with
      | (some v, t) => ((t.writeback a v).dropCopy a v).splitReturn v
      | (none, t) => t

/-- A cache without a line to hold it keeps no copy once the access is over (R77: a split of 96/0). -/
def State.cacheFit (s : State) (a l : Nat) : State :=
  if (s.cacheSize a).2 = 0 then ((s.writeback a l).dropCopy a l).splitReturn l else s

/-- A leased copy is filled from the home, after a drain of other releasers (R86, R87, R90). -/
def State.fillLeased (s : State) (a l : Nat) : State :=
  let s := ((s.cacheRoom a l).drain l (some a)).touch l
  s.setCache a l (some { data := s.homeData l, owned := false, mask := 0, since := s.cycle, sp := false, bad := false })

/-- An agent takes a line owned (R86): drain, recall of another owner, grant. -/
def State.takeOwned (s : State) (a l : Nat) : State :=
  if ((s.cacheOf a l).map CLine.owned).getD false then s
  else
    let s := (((s.cacheRoom a l).drain l (some a)).recall l).touch l
    (s.setCache a l (some { data := s.homeData l, owned := true, mask := 0, since := s.cycle, sp := false, bad := false })).setDir l
      { s.dirOf l with owner := some a, dead := false }

/-- The bytes of a mask written into an owned copy; a line of a page without SPLITW is dirty whole (R97). A write of the
whole line clears its poison (R105). -/
def State.writeOwned (s : State) (a l : Nat) (data : Line) (mask : BitVec 128) (splitw : Bool) : State :=
  match s.cacheOf a l with
  | some c =>
    s.setCache a l (some { c with data := lineMerge c.data data mask,
                                  mask := if splitw then c.mask ||| mask else BitVec.allOnes 128,
                                  since := if c.mask = 0 then s.cycle else c.since, sp := splitw,
                                  bad := c.bad && mask != BitVec.allOnes 128 })
  | none => s

/-- Before an engine, an atomic or a routine acts on a line: drain, and recall of any owner (R88, R382). -/
def State.engineLine (s : State) (l : Nat) : State := (s.seen l).touch l

/-- An access to some lines stops at one that is bad: the lines up to it have been reached at their homes (R188), and a mismatch is
counted (R103). -/
def State.metBad (s : State) (ls : List Nat) (l cause : Nat) : State :=
  (((ls.takeWhile (· != l)) ++ [l]).foldl State.touch s).noteBad l cause

/-- A store at its home writes a line anew: a chunk record there is a new one (R374, R376). -/
def State.alive (s : State) (l : Nat) : State :=
  if (s.dirOf l).dead then s.setDir l { s.dirOf l with dead := false } else s

/-- The coherent value of a line: its owner's copy, else its home's. -/
def State.coherent (s : State) (l : Nat) : Line :=
  match (s.dirOf l).owner.bind fun a => s.cacheOf a l with
  | some c => c.data
  | none => s.homeData l

/-! ### Pending CLEAN and INVAL (R380) -/

/-- CLEAN of one line: drain, write back every private dirty copy and the L2 copy to memory. -/
def State.cleanLine (s : State) (l : Nat) : State :=
  let s := s.drain l none
  let s := match (s.dirOf l).owner with
    | some a => s.writeback a l
    | none => s
  s.l2Clean l

/-- INVAL of one line: L2's copy, the issuer's, and any owned copy are discarded without writeback. -/
def State.invalLine (s : State) (a l : Nat) : State :=
  let s := match s.l2Of l with
    | some c => s.markUnpred l c.mask
    | none => s
  let s := (s.setL2 l none).dropCopy a l
  let s := match (s.dirOf l).owner with
    | some o => s.dropCopy o l
    | none => s
  s.setDir l { s.dirOf l with releases := [] }

def State.doMaint (s : State) (m : Maint) : State :=
  if m.inval then m.lines.foldl (fun s l => s.invalLine m.agent l) s else m.lines.foldl State.cleanLine s

/-- Every pending CLEAN and INVAL of an agent is performed, in issue order. -/
def State.maintAll (s : State) (a : Nat) : State :=
  let ms := s.maint.filter fun m => m.agent == a
  if ms = [] then s
  else { ms.foldl State.doMaint s with maint := s.maint.filter fun m => m.agent != a }

/-- The oldest pending one is performed. [DESIGN CHOICE, log 80] -/
def State.maintOne (s : State) (a : Nat) : State :=
  match s.maint.find? fun m => m.agent == a with
  | some m => { s.doMaint m with maint := s.maint.erase m }
  | none => s

/-- An access of the issuer to a line waits for its pending maintenance of that line. -/
def State.maintFor (s : State) (a l : Nat) : State :=
  if s.maint.any fun m => m.agent == a && m.lines.contains l then s.maintAll a else s

/-! ### Pages shared with other modules (R95, R96) -/

/-- [DESIGN CHOICE, log 18] -/
def State.page (s : State) (p : Nat) : PageState := mget .home s.pages p

/-- An access of this module to an HBM page waits while another module holds it (R95, EXCL). [DESIGN CHOICE, log 18] -/
def State.pageAway (s : State) (pa : Nat) : Bool :=
  isHbm pa && match s.page (pa / 65536) with
    | .excl _ => true
    | _ => false

/-- A write by this module takes a shared page HOME (R95); an SPLITW page stays shared (R97). [DESIGN CHOICE, log 18] -/
def State.pageWrite (s : State) (pa : Nat) (splitw : Bool) : State :=
  if isHbm pa && !splitw then
    match s.page (pa / 65536) with
    | .shared _ => { s with pages := mset .home s.pages (pa / 65536) .home }
    | _ => s
  else s

/-- A page of this module's HBM takes a state toward the other modules. -/
def State.setPage (s : State) (page : Nat) (x : PageState) : State := { s with pages := mset .home s.pages page x }

/-- The lines of a page with a private copy or a release record. -/
def State.pageLines (s : State) (page : Nat) : List Nat :=
  (s.caches.filterMap fun (k, c) => if k % 2 ^ 46 / 512 = page ∧ c.isSome then some (k % 2 ^ 46) else none) ++
    (s.dir.filterMap fun (l, _) => if l / 512 = page then some l else none)

/-- The private copies of a line, by agent. -/
def State.holders (s : State) (l : Nat) : List Nat :=
  s.caches.filterMap fun (k, c) => if k % 2 ^ 46 = l ∧ c.isSome then some (k / 2 ^ 46) else none

/-- Every line of a page is drained, recalled, and its leased copies are dropped (R96). -/
def State.drainPage (s : State) (page : Nat) : State :=
  (s.pageLines page).foldl (fun s l =>
    let s := s.seen l
    (s.holders l).foldl (fun s a => s.dropCopy a l) s) s

/-- A module joins the sharers. -/
def joinSharers (l : List Nat) (m : Nat) : List Nat := if l.contains m then l else l ++ [m]

/-- A request that finds a page not held by another module is served (R95): before a write the page is drained here (R96). -/
def State.servePage (s : State) (peer page : Nat) (write : Bool) : State :=
  let t := if write then s.drainPage page else s
  match s.page page with
  | .home => t.setPage page (if write then .excl peer else .shared [peer])
  | .shared l => t.setPage page (if write then .excl peer else .shared (joinSharers l peer))
  | .excl _ => s

/-- A request still stands: a peer's, or that of an ostler that waits. -/
def State.stands (s : State) (r : PageReq) : Bool := !r.own || (mget Ostler.reset s.ost r.who).wait.isSome

/-- The requests for a page, oldest first, as far as they can be served now (R95): one of an ostler of this module is served when
that ostler's access is performed. -/
def State.serveWaiting (s : State) (page : Nat) : List PageReq → State
  | [] => s
  | r :: t =>
    if r.page ≠ page then s.serveWaiting page t
    else if !s.stands r then State.serveWaiting { s with pageReqs := s.pageReqs.erase r } page t
    else if r.own then s
    else
      match s.page page with
      | .excl n => if n = r.who then State.serveWaiting { s with pageReqs := s.pageReqs.erase r } page t else s
      | _ => State.serveWaiting ({ s with pageReqs := s.pageReqs.erase r }.servePage r.who page r.write) page t

/-- An access of ostler k to a page has been performed: its place among the requests is free, and the next are served (R95). -/
def State.leaveQueue (s : State) (k pa : Nat) : State :=
  let p := pa / 65536
  if s.pageReqs.any fun r => r.page == p && r.own && r.who == k then
    let t : State := { s with pageReqs := s.pageReqs.filter fun r => !(r.page == p && r.own && r.who == k) }
    t.serveWaiting p t.pageReqs
  else s

/-- A request that came earlier is still to be served before ostler k's access to a page (R95). -/
def State.queuedBefore (s : State) (k pa : Nat) : Bool :=
  let rs := s.pageReqs.filter fun r => r.page == pa / 65536 && s.stands r
  match rs with
  | [] => false
  | r :: _ => !(r.own && r.who == k)

/-- An access of this module's ostler k to a page that another module holds takes its place among the requests for the page
(R95). [DESIGN CHOICE, log 18] -/
def State.joinQueue (s : State) (k pa : Nat) (write : Bool) : State :=
  let p := pa / 65536
  if !(s.pageAway pa || s.queuedBefore k pa) || s.pageReqs.any fun r => r.page == p && r.own && r.who == k then s
  else { s with pageReqs := s.pageReqs ++ [{ page := p, own := true, who := k, write := write }] }

/-- No path leads to the module a peer-window address names (R229, R430). -/
def State.linkDown (s : State) (pa : Nat) : Bool := isPeer pa && s.peerDown.contains (peerOf pa)

/-! ### Translation (R70, R71, R168, R169) -/

def aW (t : BitVec 7) : Bool := t.getLsbD 1
def aX (t : BitVec 7) : Bool := t.getLsbD 2
def aDER (t : BitVec 7) : Bool := t.getLsbD 3
def aSPLITW (t : BitVec 7) : Bool := t.getLsbD 4
def aRES (t : BitVec 7) : Bool := t.getLsbD 5

/-- Index of a level's table. -/
def ptIndex (lvl va : Nat) : Nat :=
  match lvl with
  | 3 => bits va 55 39
  | 2 => bits va 38 30
  | 1 => bits va 29 21
  | _ => bits va 20 16

def pageSize (lvl : Nat) : Nat :=
  match lvl with
  | 2 => 2 ^ 30
  | 1 => 2 ^ 21
  | _ => 2 ^ 16

/-- A leaf entry's checks (R169, R71). -/
def leafOk (lvl e : Nat) : Bool :=
  let pa := (bits e 51 8) * 256
  lvl ≤ 2 && pa % pageSize lvl == 0 && physOk pa && !(bit e 3 && (bit e 4 || !(isHbm pa)))

/-- The lines of table entries that a walk reads, from a table at a level downwards, as far as it gets (R169). -/
def State.pathFrom (s : State) (va : Nat) : Nat → Nat → List Nat
  | lvl, t =>
    let a := t + 8 * ptIndex lvl va
    let u := s.seen (a / 128)
    if u.lineBad (a / 128) ≠ 0 then [a / 128]
    else
      let e := lineGet (u.homeData (a / 128)) (a % 128) 8
      if !(bit e 0) || bit e 7 || bits e 63 52 ≠ 0 || bit e 6 || bits e 5 1 ≠ 0 then [a / 128]
      else match lvl with
        | 0 => [a / 128]
        | lvl' + 1 => a / 128 :: State.pathFrom s va lvl' ((bits e 51 8) * 256)

/-- The walk of R169 from a table, at a level downwards; each entry is read at its home (R88, R90). [DEDUCED, log 36] -/
def State.walkFrom (s : State) (c va : Nat) : Nat → Nat → Except Nat Tlb
  | lvl, t =>
    let a := t + 8 * ptIndex lvl va
    let u := s.seen (a / 128)
    let bad := u.lineBad (a / 128)
    if bad ≠ 0 then .error bad
    else
      let e := lineGet (u.homeData (a / 128)) (a % 128) 8
      if !(bit e 0) || bit e 7 || bits e 63 52 ≠ 0 then .error cTRANSL
      else if bit e 6 then
        if leafOk lvl e then
          .ok { ctx := c, va := va - va % pageSize lvl, size := pageSize lvl, pa := (bits e 51 8) * 256,
                attr := BitVec.ofNat 7 (e % 128) }
        else .error cTRANSL
      else if bits e 5 1 ≠ 0 then .error cTRANSL
      else match lvl with
        | 0 => .error cTRANSL
        | lvl' + 1 => State.walkFrom s c va lvl' ((bits e 51 8) * 256)

/-- The walk of a context, from its live root. [DEDUCED, log 37] -/
def State.walk (s : State) (c va : Nat) : Except Nat Tlb := s.walkFrom c va 3 (s.ctx c).live

/-- The lines a walk of a context reads. -/
def State.walkPath (s : State) (c va : Nat) : List Nat :=
  if va < 2 ^ 56 then s.pathFrom va 3 (s.ctx c).live else []

def Tlb.hits (t : Tlb) (c va : Nat) : Bool := t.ctx == c && t.va ≤ va && va < t.va + t.size

/-- The translation an agent uses: its own cache, its die's shared cache, else a walk (R160, R170). [DESIGN CHOICE, log 10] -/
def State.lookup (s : State) (a c va : Nat) : Except Nat Tlb :=
  if 2 ^ 56 ≤ va then .error cTRANSL
  else
    match (mget [] s.tlb a).find? (·.hits c va) with
    | some t => .ok t
    | none =>
      match (mget [] s.tlb (a / 4096 * 4096 + 4095)).find? (·.hits c va) with
      | some t => .ok t
      | none => s.walk c va

/-- A translation cache an agent uses holds the translation of an address: its own, or its die's. -/
def State.tlbHolds (s : State) (a c va : Nat) : Bool :=
  (mget [] s.tlb a).any (·.hits c va) || (mget [] s.tlb (a / 4096 * 4096 + 4095)).any (·.hits c va)

/-- A walk reads its entries at their homes (R169, R188), and a mismatch it meets is counted (R103). [DEDUCED, log 78] -/
def State.walked (s : State) (a c va : Nat) : State :=
  if s.tlbHolds a c va then s
  else (s.walkPath c va).foldl (fun s l => let t := s.engineLine l
                                           t.noteBad l (t.lineBad l)) s

/-- Another module holds a page that the walk of an address needs, which waits for its return (R95). -/
def State.walkAway (s : State) (a c va : Nat) : Bool :=
  !(s.tlbHolds a c va) && (s.walkPath c va).any fun l => s.pageAway (128 * l)

/-- The caches keep a translation that an access has used; the oldest entry leaves a full cache. [DESIGN CHOICE, log 10] -/
def State.keepTlb (s : State) (a cap : Nat) (t : Tlb) : State :=
  let s := s.walked a t.ctx t.va
  let put (l : List Tlb) (n : Nat) : List Tlb := if l.contains t || n == 0 then l else (t :: l).take n
  let s := { s with tlb := mset [] s.tlb a (put (mget [] s.tlb a) cap) }
  let d := a / 4096 * 4096 + 4095
  { s with tlb := mset [] s.tlb d (put (mget [] s.tlb d) Config.tlbDie) }

def Tlb.addr (t : Tlb) (va : Nat) : Nat := t.pa + va % t.size

/-- Translations an agent keeps of its own (R160): an ostler 64, a stream engine 256, a pen's edge 32, the others none.
[DESIGN CHOICE, log 10] -/
def engTlb (ag : Nat) : Nat :=
  if ag % 4096 < 32 then Config.tlbOst else if ag % 4096 < 48 then Config.tlbEng else if 2304 ≤ ag % 4096 then Config.tlbPen else 0

/-- The translation of an address is kept, and a walk that fails has read its entries (R160, R169, R170). -/
def State.walkOne (s : State) (ag c va : Nat) : State :=
  match s.lookup ag c va with
  | .ok t => s.keepTlb ag (engTlb ag) t
  | .error _ => s.walked ag c va

/-- The translations of the pages of a range are kept, up to the first that fails (R160, R169, R170). -/
def State.walkRange (s : State) (ag c va n : Nat) : State :=
  ((List.range (n / 65536 + 2)).foldl (fun (s, go) i =>
    let v := if i = 0 then va else (va / 65536 + i) * 65536
    if go && v < va + n then (s.walkOne ag c v, (s.lookup ag c v).toBool) else (s, go)) (s, true)).1

/-- Every 64 KiB page of a range of a context, as physical ranges; none if one is unmapped or fails a test. -/
def State.ranges (s : State) (a c : Nat) (test : Tlb → Bool) : Nat → Nat → Nat → Option (List (Nat × Nat))
  | 0, _, n => if n = 0 then some [] else none
  | fuel + 1, va, n =>
    if n = 0 then some []
    else
      match s.lookup a c va with
      | .error _ => none
      | .ok t =>
        if test t then
          let k := min n (65536 - va % 65536)
          (State.ranges s a c test fuel (va + k) (n - k)).map fun r => (t.addr va, k) :: r
        else none

def State.rangesOf (s : State) (a c : Nat) (test : Tlb → Bool) (va n : Nat) : Option (List (Nat × Nat)) :=
  s.ranges a c test (n / 65536 + 2) va n

/-- The 128-byte lines a list of physical ranges touches. -/
def rangeLines (rs : List (Nat × Nat)) : List Nat :=
  rs.flatMap fun (a, n) => if n = 0 then [] else (List.range ((a + n - 1) / 128 + 1 - a / 128)).map (· + a / 128)

/-! ### Reads and writes of engines and the yard controller, at home (R88) -/

/-- Bytes read at home from physical ranges, or the cause and address of the first bad line. -/
def State.engineRead (s : State) (pa n : Nat) : Except (Nat × Nat) (List Byte) × State :=
  let ls := rangeLines [(pa, n)]
  let s := ls.foldl State.engineLine s
  match ls.find? fun l => s.lineBad l ≠ 0 with
  | some l => (.error (s.lineBad l, 128 * l), s.noteBad l (s.lineBad l))
  | none => (.ok (toBytes n (ofBytes (ls.flatMap fun l => toBytes 128 (s.homeData l).toNat) / 256 ^ (pa % 128))), s)

/-- Bytes cut at line boundaries: line, offset, bytes. -/
def cutLines : Nat → Nat → List Byte → List (Nat × Nat × List Byte)
  | 0, _, _ => []
  | fuel + 1, pa, b =>
    if b = [] then []
    else
      let k := 128 - pa % 128
      (pa / 128, pa % 128, b.take k) :: cutLines fuel (pa + k) (b.drop k)

def cuts (pa : Nat) (b : List Byte) : List (Nat × Nat × List Byte) := cutLines (b.length / 128 + 2) pa b

/-- A write of n bytes covers the packet of a line whole, which takes a new check whatever the old one was (R102, R104).
[DEDUCED, log 11] -/
def wholePacket (pa n l : Nat) : Bool := pa ≤ 256 * (l / 2) && 256 * (l / 2 + 1) ≤ pa + n

/-- What a write of a mask of a line meets at its home: a whole-line write is not stopped by poison (R104, R105). -/
def State.writeBad (s : State) (l : Nat) (m : BitVec 128) : Nat :=
  if m = BitVec.allOnes 128 then (if (s.homeLine l).mis then cCHECK else 0) else s.lineBad l

/-- Bytes written at home by an engine; a partial write of a bad packet is not performed (R104, R105). -/
def State.engineWrite (s : State) (writer pa : Nat) (b : List Byte) (sp : Bool) : Except (Nat × Nat) State :=
  (cuts pa b).foldl (fun r (l, off, bs) =>
    match r with
    | .error e => .error e
    | .ok s =>
      let s := s.engineLine l
      let s := if wholePacket pa b.length l then s.l2Mark l fun c => { c with mis := false, fresh := true } else s
      let bad := s.writeBad l (byteMask off bs.length)
      if bad ≠ 0 then .error (bad, 128 * l)
      else .ok (((s.homePut writer l off bs sp).noteShadow l (byteMask off bs.length)).pageWrite (128 * l) sp)) (.ok s)

end Sys2Proof.Machine
end

