-- ==== Sys2Proof/Machine/Access.lean ====
section
/-! DEFINITION. The memory accesses of an ostler (R282-R284, R382), with their checks in the order of R282, and the
accesses that report a status in place of a fault (R277, R359). -/

namespace Sys2Proof.Machine

/-- How an access ends: with a value, keeping the ostler waiting, or with a precise fault. -/
inductive Acc where
  | ok (v : Nat) (s : State)
  | wait (s : State)
  | trap (cause : Nat) (tval : Nat) (s : State)
  deriving DecidableEq, Repr

/-- Once an access has succeeded, f of its state. -/
def Acc.after (a : Acc) (f : State → State) : Acc :=
  match a with
  | .ok v s => .ok v (f s)
  | .wait s => .wait s
  | .trap c t s => .trap c t s

/-- TRANSL, PERM, then ALIGN, in that order (R282). -/
def State.checkAcc (s : State) (va n : Nat) (store : Bool) : Except (Nat × Nat) Tlb :=
  match s.lookup s.agent s.ctxId va with
  | .error c => .error (c, badAddr c va)
  | .ok t =>
    if store && !(aW t.attr) then .error (cPERM, va)
    else if va % n ≠ 0 then .error (cALIGN, va)
    else .ok t

/-- An access to a peer-window line issues, then completes (R229, R276): phase 1 outstanding, 2 met by a reset. -/
inductive Gate where
  | go | wait | link | reset
  deriving DecidableEq, Repr

/-- [DEDUCED, log 76] -/
def State.gate (s : State) (pa : Nat) : Gate :=
  if isPeer pa then
    if s.linkDown pa then .link
    else if s.phaseOf = 2 then .reset
    else if s.phaseOf = 0 then .wait
    else .go
  else if s.pageAway pa || s.queuedBefore s.me pa then .wait
  else .go

/-- The executing ostler keeps the translation it used, and its pending maintenance of the line is performed first
(R170, R380). -/
def State.reach (s : State) (t : Tlb) (pa : Nat) : State :=
  (s.keepTlb s.agent Config.tlbOst t).maintFor s.agent (pa / 128)

/-- What every access of an ostler does before its own part k: the checks, the waits for pages, the failures of links
(R282, R95, R229). -/
def State.access (s : State) (va n : Nat) (store : Bool) (k : Tlb → State → Acc) : Acc :=
  if s.walkAway s.agent s.ctxId va then .wait s
  else
    match s.checkAcc va n store with
    | .error (c, t) => .trap c t (s.walked s.agent s.ctxId va)
    | .ok t =>
      match s.gate (t.addr va) with
      | .link => .trap cLINK va (s.walked s.agent s.ctxId va)
      | .reset => .trap cRESET va (s.walked s.agent s.ctxId va)
      | .wait => .wait (s.joinQueue s.me (t.addr va) store)
      | .go => (k t (s.reach t (t.addr va))).after fun u => u.leaveQueue s.me (t.addr va)

/-- A line as agent ag reads it through its cache: a live copy, which was checked when it was filled and carries its own
poison, or a leased fill, which is kept when it is sound (R86, R87, R103, R105): the cause it meets or 0, the line. -/
def State.cacheRead (s : State) (ag l : Nat) : Nat × Line × State :=
  match s.liveCopy ag l with
  | some c => (if c.bad then cECC else 0, c.data, s)
  | none =>
    let t := s.fillLeased ag l
    let bad := t.lineBad l
    if bad ≠ 0 then (bad, 0, (t.setCache ag l none).noteBad l bad) else (0, t.homeData l, t.cacheFit ag l)

/-- A load of n bytes by the executing ostler (R282): from a live copy, or through a leased fill. -/
def State.loadAt (s : State) (va n : Nat) : Acc :=
  s.access va n false fun t s1 =>
    let pa := t.addr va
    let l := pa / 128
    if s1.isShadow pa then
      let (k, s2) := s1.draw
      .ok ((Config.freeBits k).toNat % 2 ^ (8 * n)) s2
    else
      let r := s1.cacheRead s.agent l
      if r.1 ≠ 0 then .trap r.1 (badAddr r.1 va) r.2.2 else .ok (lineGet r.2.1 (pa % 128) n) r.2.2

/-- A store of agent ag, the bytes of a mask of one line, performed at the home, with its deltas (R74, R104). -/
def State.storeHome (s : State) (ag va pa : Nat) (d : Line) (m : BitVec 128) (sp : Bool) : Acc :=
  let l := pa / 128
  if s.deltaFull l then .wait s
  else
    let s1 := ((s.writeback ag l).dropCopy ag l).engineLine l
    let bad := s1.writeBad l m
    if bad ≠ 0 then .trap bad (badAddr bad va) (s.metBad [] l bad)
    else .ok 0 ((s1.homePutMask ag l d m sp).alive l)

/-- What a store into an agent's private cache meets: the home's answer when it grants the line, or the poison of an owned
copy that it does not overwrite whole (R104, R105). -/
def State.ownBad (s s1 : State) (ag l : Nat) (m : BitVec 128) : Nat :=
  match s.cacheOf ag l with
  | some c => if c.owned then (if c.bad && m != BitVec.allOnes 128 then cECC else 0) else s1.writeBad l m
  | none => s1.writeBad l m

/-- A store of agent ag into the owned line of its private cache (R86). -/
def State.storeOwned (s : State) (ag va pa : Nat) (d : Line) (m : BitVec 128) (sp : Bool) : Acc :=
  let l := pa / 128
  let s1 := s.takeOwned ag l
  let bad := s.ownBad s1 ag l m
  if bad ≠ 0 then .trap bad (badAddr bad va) (s.metBad [] l bad)
  else
    let s2 := if s1.covering l = [] then s1 else s1.markUnpred l m
    .ok 0 ((s2.writeOwned ag l d m (sp && isPeer pa)).cacheFit ag l)

/-- A store of the bytes of a mask of one line by agent ag: through to the home on a DER page, else into the owned line
(R74, R81, R86); it takes a shared page HOME (R95), and in a shadow area it makes the set unpredictable (R112). -/
def State.storeLine (s : State) (ag va pa : Nat) (d : Line) (m : BitVec 128) (attr : BitVec 7) : Acc :=
  (if aDER attr then s.storeHome ag va pa d m false else s.storeOwned ag va pa d m (aSPLITW attr)).after fun t =>
    (t.noteShadow (pa / 128) m).pageWrite pa (aSPLITW attr)

/-- A store of bytes that stay inside one line, by the executing ostler (R282). -/
def State.storeAt (s : State) (va : Nat) (b : List Byte) : Acc :=
  s.access va b.length true fun t s1 =>
    let pa := t.addr va
    s1.storeLine s1.agent va pa (linePut 0 (pa % 128) b) (byteMask (pa % 128) b.length) t.attr

/-- Finish an access: continue with its value, wait on the word, or trap. -/
def Acc.then_ (a : Acc) (i : Instr) (f : Nat → State → State) : State :=
  match a with
  | .ok v s => f v s
  | .wait s => s.waitOn i 1 []
  | .trap c t s => s.trap c (BitVec.ofNat 64 t)

/-- The same, with every fault reported as BADARG (R277). -/
def Acc.orBad (a : Acc) (i : Instr) (d : Reg) (f : Nat → State → State) : State :=
  match a with
  | .ok v s => f v s
  | .wait s => s.waitOn i 1 []
  | .trap _ _ s => s.status d stBADARG

/-! ### Blocks read by a status-returning instruction (R277, R359) -/

/-- Another module holds a page of a range, or of the tables that map it. -/
def State.rangeAway (s : State) (a c va n : Nat) : Bool :=
  (List.range (n / 65536 + 2)).any fun i =>
    let v := if i = 0 then va else (va / 65536 + i) * 65536
    v < va + n && (s.walkAway a c v || (match s.lookup a c v with
      | .ok t => s.pageAway (t.addr v)
      | .error _ => false))

/-- Another module holds a page of the tables that map a range: what needs the translations alone waits for it (R95). -/
def State.tablesAway (s : State) (a c va n : Nat) : Bool :=
  (List.range (n / 65536 + 2)).any fun i =>
    let v := if i = 0 then va else (va / 65536 + i) * 65536
    v < va + n && s.walkAway a c v

/-- An instruction that needs the translations of a range waits while a table of them is away (R95). [DEDUCED, log 76] -/
def State.whenMapped (s : State) (i : Instr) (va n : Nat) (f : State → State) : State :=
  if s.tablesAway s.agent s.ctxId va n then s.waitOn i 1 [] else f (s.walkRange s.agent s.ctxId va n)

/-- The bytes of physical ranges as the executing ostler's cache and the homes hold them. -/
def State.blockValue (s : State) (rs : List (Nat × Nat)) : Nat :=
  let lineOf (l : Nat) : Line := match s.cacheOf s.agent l with
    | some c => c.data
    | none => s.homeData l
  rs.foldr (fun (a, k) acc =>
    (ofBytes ((rangeLines [(a, k)]).flatMap fun l => toBytes 128 (lineOf l).toNat) / 256 ^ (a % 128)) % 256 ^ k + 256 ^ k * acc) 0

/-- An aligned block of the context, read with plain loads: its bytes as a number; a block that is misaligned, unmapped or
bad is not read, a mismatch it meets is counted (R103), and a page another module holds is awaited (R95). -/
def State.readBlock (s : State) (va n align : Nat) : Acc :=
  if va % align ≠ 0 then .trap cALIGN va s
  else if s.rangeAway s.agent s.ctxId va n then .wait s
  else
    let t := s.walkRange s.agent s.ctxId va n
    match s.rangesOf s.agent s.ctxId (fun _ => true) va n with
    | none => .trap cTRANSL va t
    | some rs =>
      let ls := rangeLines rs
      let s1 := ls.foldl (fun s l => s.maintFor s.agent l) t
      let (bad, s2) := ls.foldl (fun (bad, s) l =>
        let r := s.cacheRead s.agent l
        (if bad = 0 then r.1 else bad, r.2.2)) (0, s1)
      if bad ≠ 0 then .trap bad va s2
      else
        let b := rs.foldl (fun (r : List Byte × State) (a, k) =>
          let h := r.2.hideShadow a (toBytes k (s2.blockValue [(a, k)]))
          (r.1 ++ h.1, h.2)) ([], s2)
        .ok (ofBytes b.1) b.2

/-- Whether a range is mapped writable in the context. -/
def State.writable (s : State) (va n : Nat) : Bool := (s.rangesOf s.agent s.ctxId (fun t => aW t.attr) va n).isSome

end Sys2Proof.Machine
end

