-- ==== Sys2Proof/Machine/Operands.lean ====
section
/-! DEFINITION. Operands of row words: lanes and elements of a vector (R318), the window on a buffer handle (R62, R161,
R163), the input queues (R319), every source code of R260, and the loop nest a row word stands in (R27, R67, R19). -/

namespace Sys2Proof.Machine

/-! ### Lanes and elements (R58, R318) -/

/-- Element n of a vector of w-bit elements. -/
def elem (w : Nat) (v : Vec) (n : Nat) : Nat := (v.toNat >>> (w * n)) % 2 ^ w

/-- The vector whose w-bit element n is f n. -/
def mkElems (w : Nat) (f : Nat → Nat) : Vec :=
  BitVec.ofNat 2048 (iter (fun n a => a + (f n % 2 ^ w) <<< (w * n)) (2048 / w) 0)

/-- Lane k (R58). -/
def lane (v : Vec) (k : Nat) : W32 := BitVec.ofNat 32 (elem 32 v k)

/-- The vector whose lane k is f k. -/
def mkLanes (f : Nat → W32) : Vec := mkElems 32 fun k => (f k).toNat

/-- Lane k of new where bit k of the mask is 1, of old elsewhere (R58). -/
def mergeLanes (m : W64) (new old : Vec) : Vec := mkLanes fun k => if m.getLsbD k then lane new k else lane old k

/-- The same word in every lane. -/
def splat (x : W32) : Vec := mkLanes fun _ => x

/-- Bytes of a vector, lowest first, and back. -/
def vecBytes (v : Vec) (n : Nat) : List Byte := toBytes n v.toNat
def vecOf (b : List Byte) : Vec := BitVec.ofNat 2048 (ofBytes b)

/-! ### Format codes (R190, R191) -/

/-- The code of R190 of a row format. -/
def fmtCode (f : Nat) : Nat :=
  match f with
  | 0 => 0
  | 1 => 1
  | 2 => 2
  | 3 => 3
  | 4 => 5
  | 5 => 6
  | 6 => 8
  | _ => 10

/-- The packet codes a row format accepts (R191). -/
def accepts (f code : Nat) : Bool :=
  match f with
  | 3 => code == 3 || code == 4
  | 4 => code == 5 || code == 7
  | 6 => code == 8 || code == 11
  | 7 => code == 9 || code == 10 || code == 11
  | _ => code == fmtCode f

/-- The format whose packets a row accepts, and into which the decoder widens them: the row's FMT for every op that uses it,
a conversion too, none for the others (R191, R205). [DEDUCED, log 46] -/
def srcFmt (o : Op) (w : RowMods) : Option Nat := if ignoresFmt o then none else some w.fmt.toNat

/-! ### Buffer handles and windows (R62, R161, R163) -/

def Handle.slots (h : Handle) : Nat := h.nsm1 + 1
def Handle.vecs (h : Handle) : Nat := h.svm1 + 1
def Handle.state (h : Handle) (k : Nat) : Nat := (h.st.extractLsb' (2 * k) 2).toNat
def Handle.setState (h : Handle) (k v : Nat) : Handle :=
  { h with st := BitVec.ofNat 16 (insBits h.st.toNat (2 * k) 2 v) }

def slotFREE : Nat := 0
def slotFILLING : Nat := 1
def slotFULL : Nat := 2
def slotDRAINING : Nat := 3

/-- Slots of a handle in state FULL (R29). -/
def Handle.fullCount (h : Handle) : Nat := ((List.range h.slots).filter fun k => h.state k == slotFULL).length

/-- The first slot in ring order from k that is not DRAINING. [DEDUCED, log 44] -/
def Handle.viewFrom (h : Handle) (k : Nat) : Nat → Option Nat
  | 0 => none
  | n + 1 => if h.state k = slotDRAINING then Handle.viewFrom h ((k + 1) % h.slots) n else some k

/-- The slot a window on the handle views, when it is FULL (R62). [DEDUCED, log 44] -/
def Handle.view (h : Handle) : Option Nat :=
  match h.viewFrom h.head h.slots with
  | some k => if h.state k = slotFULL then some k else none
  | none => none

/-- Scratchpad vector i of slot k. -/
def Handle.vecAt (h : Handle) (k i : Nat) : Nat := h.base + k * h.vecs + i

def PE.handle (p : PE) (h : Nat) : Handle := mget Handle.reset p.handles h
def PE.setHandle (p : PE) (h : Nat) (x : Handle) : PE := { p with handles := mset Handle.reset p.handles h x }

/-- A window register SPW (R62). -/
structure Window where
  hid : Nat
  en : Bool
  adv : Bool
  pos : Nat
  deriving DecidableEq, Repr

def winOf (x : W32) : Window :=
  { hid := bits x.toNat 3 0, en := bit x.toNat 4, adv := bit x.toNat 5, pos := bits x.toNat 15 8 }

def Window.toReg (w : Window) : W32 :=
  BitVec.ofNat 32 (w.hid % 16 + 16 * b2n w.en + 32 * b2n w.adv + 256 * (w.pos % 256))

def PE.window (p : PE) (k : Nat) : Window := winOf (mget 0 p.spw k)
def PE.setWindow (p : PE) (k : Nat) (w : Window) : PE := { p with spw := mset 0 p.spw k w.toReg }

/-- A scratchpad vector of 256 bytes. -/
def PE.pad (p : PE) (v : Nat) : Vec := mget 0 p.spad v

/-- The scratchpad vector a window views; none while it is disabled or its head slot is not FULL. -/
def PE.winVec (p : PE) (k : Nat) : Option Nat :=
  let w := p.window k
  if w.en then
    match (p.handle w.hid).view with
    | some s => some ((p.handle w.hid).vecAt s w.pos)
    | none => none
  else none

/-- A read of the window holds its row (R62). -/
def PE.winHolds (p : PE) (k : Nat) : Bool := (p.window k).en && (p.winVec k).isNone

/-- The header of the packet a window views; 0 when there is none. -/
def PE.winHdr (p : PE) (k : Nat) : Nat :=
  match p.winVec k with
  | some v => (mget 0 p.hdr v).toNat
  | none => 0

def hdrFormat (h : Nat) : Nat := bits h 63 60
def hdrScale (h : Nat) : Nat := bits h 59 52
def hdrBfly (h : Nat) : Nat := bits h 43 40
def hdrCount (h : Nat) : Nat := bits h 39 32 + 1
def hdrCheck (h : Nat) : Nat := bits h 31 16

/-- The block scale a packet carries: only codes 4 and 7 have one (R204). -/
def packetScale (h : Nat) : Nat := if h ≠ 0 ∧ (hdrFormat h = 4 ∨ hdrFormat h = 7) then hdrScale h else 127
def packetBfly (h : Nat) : Nat := if h = 0 then 0 else hdrBfly h

/-- The check field of a packet does not match its element bytes (R205). -/
def PE.mismatch (p : PE) (v h : Nat) : Bool :=
  (crc16 (vecBytes (p.pad v) (hdrCount h * elemSize (hdrFormat h)))).toNat != hdrCheck h

/-- What a row meets when it consumes a window: ECC (R105), SCALESTEP (R206), CHECK (R205), or nothing. The tile address is the
scratchpad byte address. [DEDUCED, log 48] -/
def PE.winFault (p : PE) (k : Nat) (f : Option Nat) : Option (Nat × Nat) :=
  match p.winVec k with
  | none => none
  | some v =>
    let h := p.winHdr k
    if mget false p.ecc v then some (cECC, 256 * v)
    else if mget false p.bad v then some (cSCALESTEP, 256 * v)
    else if h = 0 then none
    else
      let c := hdrFormat h
      let rejected : Bool := match f with
        | some f => !accepts f c
        | none => false
      if rejected || 12 ≤ c || 9 ≤ hdrBfly h || p.mismatch v h then some (cCHECK, 256 * v)
      else none

/-- INT16 and BOOL packets widened into the integer row formats, a NaN scale decoded (R191, R194, R197).
[DEDUCED, log 47, 50] -/
def widen (f : Option Nat) (h : Nat) (v : Vec) : Vec :=
  let c := hdrFormat h
  match f with
  | none => v
  | some f =>
    if h = 0 then v
    else if c = 9 ∧ f = 7 then mkLanes fun k => BitVec.ofNat 32 (umod 32 (sgn 16 (elem 16 v k)))
    else if c = 11 ∧ f = 7 then mkLanes fun k => if elem 8 v k = 0 then 0 else 1
    else if c = 11 ∧ f = 6 then mkElems 8 fun n => if elem 8 v n = 0 then 0 else 1
    else if packetScale h = 0xFF then
      mkElems 8 fun n => if n < hdrCount h then (if c = 4 then 0x80 else 0x7F) else elem 8 v n
    else v

/-- Elements on enabled lanes that a NaN scale makes NaN (R64). [DEDUCED, log 47] -/
def nanScaled (f : Option Nat) (h : Nat) (m : W64) : Nat :=
  if f.isSome && packetScale h == 0xFF then ((List.range (hdrCount h)).filter fun n => m.getLsbD (n / 4)).length else 0

/-! ### The loop nest a row stands in (R25-R27, R67) -/

def Pen.level (p : Pen) (l : Nat) : Level := mget Level.reset p.lv l
def Pen.setLevel (p : Pen) (l : Nat) (x : Level) : Pen := { p with lv := mset Level.reset p.lv l x }
def Pen.present (p : Pen) (l : Nat) : Bool := (p.level l).csrc != 0
/-- Present levels form a range 0..k (R266). -/
def Pen.levels (p : Pen) : Nat := ((List.range 4).filter p.present).length
def Pen.inLevel (p : Pen) (l : Nat) : Bool :=
  p.present l && (p.level l).sqs ≤ p.rc && p.rc ≤ (p.level l).sqe

/-- ITER (R24). -/
def Pen.iter0 (p : Pen) : Nat := (p.level 0).sqi

/-- A row word of stage g is squashed (R27). -/
def Pen.squashed (p : Pen) (g : Nat) : Bool :=
  p.inLevel 0 && (p.iter0 < g || (p.level 0).sqn ≤ p.iter0 - g)

/-- The iteration a row of stage g acts for (R27, R67). -/
def Pen.q (p : Pen) (g : Nat) : Nat := (p.iter0 + 2 ^ 32 - g) % 2 ^ 32

/-! ### Work identifiers (R17, R19, R135) -/

/-- Width of field L and its count in a job record. -/
def jrWidth (r : Line) (l : Nat) : Nat := (r.extractLsb' (84 + 7 * l) 7).toNat
def jrCount (r : Line) (l : Nat) : Nat := (r.extractLsb' (256 + 64 * l) 64).toNat
def jrT (r : Line) : Nat := (r.extractLsb' 81 3).toNat

/-- Existing fields: those before the first width of 0. -/
def jrFields (r : Line) : Nat := ((List.range 6).takeWhile fun l => jrWidth r l != 0).length

/-- Fields that step within a task: those below T that exist. -/
def jrSteps (r : Line) : Nat := min (jrT r) (jrFields r)

/-- Lowest bit of field L. -/
def jrBase (r : Line) : Nat → Nat
  | 0 => 0
  | l + 1 => jrBase r l + jrWidth r l

/-- Identifiers of one task. -/
def jrTaskLen (r : Line) : Nat := iter (fun l a => a * jrCount r l) (jrSteps r) 1

/-- The identifier q steps after another, through fields 0..n-1 (R19). -/
def stepFields (r : Line) : Nat → Nat → Nat → Nat → Nat
  | 0, _, _, v => v
  | n + 1, l, q, v =>
    let w := jrWidth r l
    let c := jrCount r l
    let x := bits v (jrBase r l + w - 1) (jrBase r l) + q
    stepFields r n (l + 1) (x / c) (insBits v (jrBase r l) w (x % c))

def stepId (job : Option (Line × Nat)) (v : W64) (q : Nat) : W64 :=
  match job with
  | some (r, _) => BitVec.ofNat 64 (stepFields r (jrSteps r) 0 q v.toNat)
  | none => v

/-- The identifier of a row of stage g (R19). -/
def Pen.rowId (p : Pen) (g : Nat) : W64 :=
  if p.inLevel 0 && p.levels == 1 then stepId p.job p.first (p.q g) else p.wid

/-! ### Reading a source (R260, R316-R319) -/

/-- The index of direction d's opposite: n, e, s, w are 0..3. -/
def opp (d : Nat) : Nat := (d + 2) % 4

def PE.queue (p : PE) (d : Nat) : InQ := mget InQ.reset p.q d
def PE.setQueue (p : PE) (d : Nat) (x : InQ) : PE := { p with q := mset InQ.reset p.q d x }
def PE.latch (p : PE) (d : Nat) : List Tok := mget [] p.lat d

/-- A read of in.d: the head token, or the last one consumed (R319). -/
def InQ.read (x : InQ) : Vec :=
  match x.toks with
  | t :: _ => t.val
  | [] => x.last

/-- Predicate n: p0 reads all ones (R59). -/
def PE.pred (p : PE) (n : Nat) : W64 := if n = 0 then BitVec.allOnes 64 else mget 0 p.p n

/-- The value of a source operand code (R260); f is the format in which the op takes it. -/
def PE.source (p : PE) (q : Nat) (id : W64) (f : Option Nat) (c : Nat) : Vec :=
  if c < 32 then mget 0 p.v c
  else if c < 36 then (p.queue (c - 32)).read
  else if c < 44 then 0
  else if c < 48 then
    match p.winVec (c - 44) with
    | some v => widen f (p.winHdr (c - 44)) (p.pad v)
    | none => 0
  else if c = 48 then 0
  else if c = 49 then mkLanes fun k => BitVec.ofNat 32 k
  else if c = 50 then splat (BitVec.ofNat 32 q)
  else if c = 51 then splat (id.extractLsb' 0 32)
  else if c < 56 then splat (mget 0 p.c (c - 52))
  else mkLanes fun k => if (p.pred (c - 56)).getLsbD k then 1 else 0

/-- A queue's head token is consumed (R319). -/
def PE.consumeQueue (p : PE) (d : Nat) : PE :=
  match (p.queue d).toks with
  | t :: r => p.setQueue d { toks := r, last := t.val }
  | [] => p

/-- The slot that window k reads. -/
def PE.winSlot (p : PE) (k : Nat) : Option Nat := (p.handle (p.window k).hid).view

/-- A window with ADV that has read slot s moves on; past the slot's end that slot becomes DRAINING (R62, R163). -/
def PE.consumeWindow (p : PE) (k : Nat) (s : Option Nat) : PE :=
  let w := p.window k
  if w.en && w.adv then
    let h := p.handle w.hid
    match s with
    | some s =>
      if h.vecs ≤ w.pos + 1 then (p.setHandle w.hid (h.setState s slotDRAINING)).setWindow k { w with pos := 0 }
      else p.setWindow k { w with pos := w.pos + 1 }
    | none => p
  else p

/-- The source codes an op uses, without repeats. -/
def usedSources (o : Op) (w : RowMods) : List Nat :=
  let u := opUses o w
  ((if u.sa then [w.sa.toNat] else []) ++ (if u.sb then [w.sb.toNat] else []) ++
    (if u.sc then [w.sc.toNat] else [])).eraseDups

/-- The queue a route of code 2 or 3 in direction d takes its token from (R261). -/
def routeQueue (w : RowMods) (d : Nat) : Option Nat :=
  match route w d with
  | 2 => some (opp d)
  | 3 => some (w.sc.toNat - 32)
  | _ => none

def routeQueues (w : RowMods) : List Nat := (List.range 4).filterMap (routeQueue w)

/-- Every queue and window a committing row consumes, each once (R319, R320, R62); two windows on one handle both leave the
slot that both have read. [DEDUCED, log 45] -/
def PE.consume (p : PE) (srcs : List Nat) (w : RowMods) : PE :=
  let qs := ((srcs.filter fun c => 32 ≤ c ∧ c < 36).map (· - 32) ++ routeQueues w).eraseDups
  let ws := (srcs.filter fun c => 44 ≤ c ∧ c < 48).map (· - 44)
  ws.foldl (fun q k => q.consumeWindow k (p.winSlot k)) (qs.foldl PE.consumeQueue p)

/-- The stalls of a rectangle. -/
def rect (o h w : Nat) : List Nat := (List.range h).flatMap fun y => (List.range w).map fun x => o + 16 * y + x

def Pen.h (p : Pen) : Nat := p.hm1 + 1
def Pen.w (p : Pen) : Nat := p.wm1 + 1
def Pen.rect (p : Pen) : List Nat := Machine.rect p.origin p.h p.w

/-- The stalls of a pen, as die*128 + stall. -/
def State.stallsOf (s : State) (k : Nat) : List Nat := (s.pen k).rect.map (k / 128 * 128 + ·)

/-- The pen-local index 64i + j of every PE of a pen, row-major (R14). -/
def Pen.peList (p : Pen) : List Nat :=
  (List.range (4 * (p.hm1 + 1))).flatMap fun i => (List.range (4 * (p.wm1 + 1))).map fun j => 64 * i + j

/-- The word that a row store holds; rows no image filled hold HALTF (R34, R264). -/
def haltfWord : Row := 0x02000000000000000000000000000000
def PE.rowWord (p : PE) (sel : Bool) (rc : Nat) : Row := mget haltfWord (if sel then p.rowB else p.rowA) rc

end Sys2Proof.Machine
end

