-- ==== Sys2Proof/Machine/Flags.lean ====
section
/-! DEFINITION. Predicate masks (R59, R317), the counters NFC and SATC (R64, R187), comparisons (R329, R332), and the
destination of a result: registers, scalars, predicates, ports (R58-R60, R260, R320). -/

namespace Sys2Proof.Machine

/-- The mask of a row word: a predicate or its complement; a narrow row acts in lane 0 only (R59, R321). -/
def PE.mask (p : PE) (w : RowMods) : W64 :=
  let m := p.pred w.pr.toNat
  let m := if w.pn = 1 then ~~~m else m
  if w.pl = 1 then m &&& 1 else m

/-- A 32-bit counter that stops at its limit (R187). -/
def satAdd (x : W32) (n : Nat) : W32 := BitVec.ofNat 32 (min (x.toNat + n) (2 ^ 32 - 1))

/-- NFC and SATC count more (R64). -/
def PE.counted (p : PE) (nfc satc : Nat) : PE := { p with nfc := satAdd p.nfc nfc, satc := satAdd p.satc satc }

/-- VCMP's relation between w-bit elements (R329). -/
def cmpInt (rel w a b : Nat) : Bool :=
  match rel with
  | 0 => a == b
  | 1 => a != b
  | 2 => decide (sgn w a < sgn w b)
  | 3 => decide (sgn w a ≤ sgn w b)
  | 4 => decide (a < b)
  | _ => decide (a ≤ b)

/-- VFCMP's relation (R332). -/
def cmpVal (rel : Nat) (a b : Val) : Bool :=
  match rel with
  | 0 => Val.eq a b
  | 1 => Val.lt a b
  | 2 => Val.lt a b || Val.eq a b
  | 3 => a.isNan || b.isNan
  | _ => !Val.eq a b

/-- The enabled bits of a predicate take bit 0 of each lane; p0 discards (R59). -/
def PE.setPred (p : PE) (n : Nat) (m : W64) (v : Vec) : PE :=
  if n = 0 then p
  else
    let x : W64 := BitVec.ofNat 64 (iter (fun k a => if (lane v k).getLsbD 0 then a + 2 ^ k else a) 64 0)
    { p with p := mset 0 p.p n ((x &&& m) ||| (mget 0 p.p n &&& ~~~m)) }

/-- A result is written to a destination under a mask (R58-R60, R260), and what a route of code 1 carries: in each
lane the value of the destination after the write; zero in the disabled lanes of zero and of a port (R320).
[DEDUCED, log 33] -/
def PE.write (p : PE) (dst : Nat) (m : W64) (v : Vec) : PE × Vec :=
  if dst < 32 then
    let x := mergeLanes m v (mget 0 p.v dst)
    ({ p with v := mset 0 p.v dst x }, x)
  else if 52 ≤ dst ∧ dst < 56 then
    let p := if m.getLsbD 0 then { p with c := mset 0 p.c (dst - 52) (lane v 0) } else p
    (p, mkLanes fun k => if k = 0 then mget 0 p.c (dst - 52) else if m.getLsbD k then lane v k else 0)
  else if 56 ≤ dst then
    let p := p.setPred (dst - 56) m v
    (p, mkLanes fun k => if (p.pred (dst - 56)).getLsbD k then 1 else 0)
  else (p, mergeLanes m v 0)

end Sys2Proof.Machine
end

