-- ==== Sys2Proof/Machine/Array.lean ====
section
/-! DEFINITION. The matrix array of a PE: the groups of a pass and their sums (R210-R213), its occupancy and completion
(R353, R354), and running it to completion at a stop (R239, R438). A stop of a timing domain (R234, R38). -/

namespace Sys2Proof.Machine

/-- Pairing class of a pass format (R210). -/
def passClass (f : Nat) : Nat := if f = 6 then 0 else if f ≤ 2 then 2 else 1

/-- The elements of one 256-byte half under its scale (R197). -/
def halfVals (f sc : Nat) (v : Vec) : List Val :=
  let w := fmtWidth f
  (List.range (2048 / w)).map fun n =>
    if sc = 0xFF then .nan else Val.shift ((sc : Int) - 127) (decodeElem (fmtCode f) (elem w v n))

/-- The products of an operand row with a weight row; an absent element gives an exact zero (R211, R212). -/
def products (mask : BitVec 512) : Nat → List Val → List Val → List Val
  | n, a :: s, b :: t => (if mask.getLsbD n then Val.mul a b else .fin false 0 0) :: products mask (n + 1) s t
  | _, _, _ => []

/-- A list cut into pieces of g. -/
def pieces (g : Nat) : Nat → List Val → List (List Val)
  | 0, _ => []
  | n + 1, l => l.take g :: pieces g n (l.drop g)

/-- The 16 group values of an operand row and a weight row (R211). -/
def groupVals (f scLo scHi : Nat) (lo hi : Vec) (mask : BitVec 512) (b : WRow) : List W32 :=
  let a := halfVals f scLo lo ++ halfVals f scHi hi
  let b := halfVals b.fmt b.scLo b.lo ++ halfVals b.fmt b.scHi b.hi
  (pieces (if fmtWidth f = 8 then 32 else 16) 16 (products mask 0 a b)).map fun g => r32 (groupSum g)

/-- Group values added one at a time, each sum rounded (R212). -/
def addGroups (x : W32) (gs : List W32) : W32 := gs.foldl (fun x g => r32 (Val.add (fp x) (fp g))) x

def Pass.groupsWith (x : Pass) (w : SMap WRow) (j : Nat) : List W32 :=
  groupVals x.fmt x.scLo x.scHi x.lo x.hi x.mask (mget WRow.reset w j)

def tileKey (t r j : Nat) : Nat := t * 1024 + r * 32 + j

/-- f applied to the 32 elements of a tile row. -/
def PE.tileRow (p : PE) (t r : Nat) (f : Nat → W32 → W32) : PE :=
  { p with a := iter (fun j a => mset 0 a (tileKey t r j) (f j (mget 0 a (tileKey t r j)))) 32 p.a }

/-- A tile set to zero (R356). -/
def PE.tileZero (p : PE) (t : Nat) : PE := { p with a := p.a.filter fun e => e.1 / 1024 != t }

/-- DONE and TILE of PRG. -/
def PE.prgDone (p : PE) : Nat := bits p.prg.toNat 15 0
def PE.prgTile (p : PE) : Nat := bits p.prg.toNat 17 16

/-- The running MPASSD was issued before the oldest pass, which a stop runs on into its tile (R438). -/
def PE.overtakes (p : PE) (x : Pass) : Bool :=
  p.prgTile == x.tile && match p.mpd with
    | some m => m.before == 0
    | none => false

/-- A pass that a stop runs on ahead of an MPASSD in its tile: an MCLR between the two acts now, and what the MPASSD has
still to add is already cleared (R61, R438). [DEDUCED, log 52] -/
def PE.settle (p : PE) (x : Pass) : PE :=
  match p.mpd with
  | some m =>
    if p.overtakes x && m.clears then
      ({ p with mpd := some { m with clears := false, void := true } } : PE).tileZero x.tile
    else p
  | none => p

/-- The oldest pass leaves the array; an MCLR that waited for it acts (R61), on the rows that an MPASSD issued earlier has
still to add as well. [DEDUCED, log 52] -/
def PE.popPass (p : PE) (x : Pass) : PE :=
  let q := { p with passes := p.passes.drop 1, mpd := p.mpd.map fun m =>
    { m with before := m.before - 1, void := m.void || (x.clears && p.overtakes x) } }
  if x.clears then q.tileZero x.tile else q

def Pass.done (x : Pass) : Bool := x.left == 0 && x.tail == 0

/-- The oldest pass, once done, is added into its tile (R212). -/
def PE.finishHead (p : PE) : PE :=
  match p.passes with
  | x :: _ =>
    if x.done && !x.systolic then
      ((p.settle x).tileRow x.tile x.row fun j t => addGroups t (x.groupsWith x.w j)).popPass x
    else p
  | [] => p

/-- One row of array time: the first pass in occupancy advances, and those past it run through the array (R353). -/
def tickPasses (may : Bool) : List Pass → List Pass
  | [] => []
  | x :: t =>
    if x.left ≠ 0 then (if may then { x with left := x.left - 1 } else x) :: t
    else { x with tail := x.tail - 1 } :: tickPasses may t

/-- One row of array time for the operand rows of an MPASSD. -/
def tickRows : List MRow → List MRow
  | [] => []
  | x :: t => if x.left ≠ 0 then { x with left := x.left - 1 } :: t else { x with tail := x.tail - 1 } :: tickRows t

/-- Passes behind a running MPASSD wait for it. -/
def PE.tick (p : PE) : PE :=
  match p.mpd with
  | some m => { p with passes := tickPasses true (p.passes.take m.before) ++ p.passes.drop m.before,
                       mpd := some { m with flight := tickRows m.flight } }
  | none => { p with passes := tickPasses true p.passes }

/-- PRG (R63). -/
def prgOf (done tile : Nat) (act : Bool) : W32 := BitVec.ofNat 32 (done % 65536 + tile * 65536 + 262144 * b2n act)

/-- The row format of the MPASSD. -/
def MPD.fmt (m : MPD) : Nat := bits m.word.toNat 119 117

/-- The groups of a fetched operand row with weight row j: scale 127 (R356). -/
def fetchedGroups (f : Nat) (r : Vec × Vec) (w : SMap WRow) (j : Nat) : List W32 :=
  groupVals f 127 127 r.1 r.2 (BitVec.allOnes 512) (mget WRow.reset w j)

/-- The adds of an operand row that an MPASSD fetched; after an MCLR that a stop has let act, none (R61, R438). -/
def PE.mpdAdd (p : PE) (m : MPD) (f : Nat → W32 → W32) : PE := if m.void then p else p.tileRow p.prgTile p.prgDone f

/-- The oldest operand row of an MPASSD is complete; after the last, ACT clears (R63). -/
def PE.mpdNext (p : PE) (m : MPD) : PE :=
  if p.prgDone < m.last then { p with prg := prgOf (p.prgDone + 1) p.prgTile true, mpd := some { m with flight := m.flight.drop 1 } }
  else
    let q := { p with prg := prgOf (p.prgDone + 1) p.prgTile false, mpd := none }
    if m.clears then q.tileZero p.prgTile else q

/-- The oldest operand row of a PE's MPASSD, once it has run through the array. -/
def PE.rowDone (p : PE) : Option (MPD × MRow) :=
  match p.mpd with
  | some m =>
    match m.flight with
    | r :: _ => if r.left = 0 ∧ r.tail = 0 then some (m, r) else none
    | [] => none
  | none => none

/-- An operand row that is done is added into the tile (R356, R212). -/
def PE.finishMpd (p : PE) : PE :=
  match p.rowDone with
  | some (m, r) => (p.mpdAdd m fun j t => addGroups t (fetchedGroups m.fmt (r.lo, r.hi) m.w j)).mpdNext m
  | none => p

/-- The chain of R213 for column j of PE column jj of a systolic pen over the oldest operand rows, from PE row 0 to the last. -/
def State.rowChain (s : State) (k h jj j : Nat) : W32 :=
  (List.range h).foldl (fun a i =>
    match (s.pe k (64 * i)).rowDone, (s.pe k (64 * i + jj)).mpd with
    | some (m, r), some n => addGroups a (fetchedGroups m.fmt (r.lo, r.hi) n.w j)
    | _, _ => a) 0

/-- The operand rows that are done are added; of a systolic pen, by its bottom PEs, once it is through every PE (R356, R354). -/
def State.finishRows (s : State) (k : Nat) : State :=
  let p := s.pen k
  let h := 4 * (p.hm1 + 1)
  if p.sys then
    if (s.pe k 0).rowDone.isNone then s
    else p.peList.foldl (fun t i =>
      match (s.pe k i).mpd with
      | none => t
      | some m =>
        let pe := if i / 64 + 1 = h then
            (t.pe k i).mpdAdd m fun j v => r32 (Val.add (fp v) (fp (s.rowChain k h (i % 64) j))) else t.pe k i
        t.setPe k i (pe.mpdNext m)) s
  else p.peList.foldl (fun s i => if (s.pe k i).rowDone.isNone then s else s.setPe k i (s.pe k i).finishMpd) s

/-- The chain of R213 for column j of PE column jj of a systolic pen, from row 0 to the last. -/
def State.chain (s : State) (k : Nat) (h jj j : Nat) : W32 :=
  (List.range h).foldl (fun p i =>
    match (s.pe k (64 * i)).passes, (s.pe k (64 * i + jj)).passes with
    | x :: _, y :: _ => addGroups p (x.groupsWith y.w j)
    | _, _ => p) 0

/-- The oldest pass of a systolic pen is added at the bottom PEs and leaves every PE (R354). -/
def State.finishSystolic (s : State) (k : Nat) : State :=
  let p := s.pen k
  let h := 4 * (p.hm1 + 1)
  p.peList.foldl (fun t i =>
    match (s.pe k i).passes with
    | x :: _ =>
      let pe := (t.pe k i).settle x
      let pe := if i / 64 + 1 = h then
          pe.tileRow x.tile x.row fun j v => r32 (Val.add (fp v) (fp (s.chain k h (i % 64) j))) else pe
      t.setPe k i (pe.popPass x)
    | [] => t) s

/-- Passes of a pen that are done are added into their tiles. [DEDUCED, log 52] -/
def State.finishHeads (s : State) (k : Nat) : State :=
  let p := s.pen k
  if p.sys then
    if (s.pe k 0).passes != [] && (p.peList.all fun i => ((s.pe k i).passes.head?.map Pass.done).getD true) then
      s.finishSystolic k
    else s
  else p.peList.foldl (fun s i =>
    match (s.pe k i).passes with
    | [] => s
    | _ => s.setPe k i (s.pe k i).finishHead) s

/-- One row of array time in every PE of a pen, at whose end a pass that is done completes (R353). -/
def State.tickArrays (s : State) (k : Nat) : State :=
  ((s.pen k).peList.foldl (fun s i =>
    if (s.pe k i).passes = [] ∧ (s.pe k i).mpd = none then s else s.setPe k i (s.pe k i).tick) s).finishHeads k |>.finishRows k

/-- The operand rows of an MPASSD that are not complete leave the array: it fetches them again, from row DONE on (R239, R63). -/
def PE.dropRows (p : PE) : PE := { p with mpd := p.mpd.map fun m => { m with flight := [] } }

/-- Every outstanding pass of a pen runs to completion, in issue order (R239, R438). -/
def State.finishArrays (s : State) (k : Nat) : State :=
  let s := (s.pen k).peList.foldl (fun s i =>
    if (s.pe k i).passes = [] ∧ (s.pe k i).mpd = none then s
    else s.setPe k i { (s.pe k i).dropRows with passes := (s.pe k i).passes.map fun x => { x with left := 0, tail := 0 } }) s
  iter (fun _ s => s.finishHeads k) 10 s

/-- The operand rows in the array run through it (R438, at a HALT). -/
def State.rushRows (s : State) (k : Nat) : State :=
  let s := (s.pen k).peList.foldl (fun s i =>
    match (s.pe k i).mpd with
    | none => s
    | some m => s.setPe k i { s.pe k i with mpd := some { m with flight := m.flight.map fun r => { r with left := 0, tail := 0 } } }) s
  iter (fun _ s => s.finishRows k) 8 s

/-- The passes that stand before a running MPASSD, all of them where none runs, and then its rows in the array, are run to completion:
the passes behind it wait for it at a HALT (R438). -/
def State.finishAhead (s : State) (k : Nat) : State :=
  let s := (s.pen k).peList.foldl (fun s i =>
    match (s.pe k i).passes with
    | [] => s
    | l =>
      let n := match (s.pe k i).mpd with
        | some m => m.before
        | none => l.length
      s.setPe k i { s.pe k i with passes := ((l.take n).map fun x => { x with left := 0, tail := 0 }) ++ l.drop n }) s
  (iter (fun _ s => s.finishHeads k) 10 s).rushRows k

/-! ### Stopping a timing domain (R38, R234, R438) -/

/-- The pens of a timing domain that run and have committed no HALT, in ascending id (R21); none while a pen of the gang
is pre-empted (R37). -/
def State.domainPens (s : State) (die gang : Nat) : List Nat :=
  let mine := s.pens.filter fun (k, p) => k / 128 == die && p.valid && p.run == 1 && p.gang == gang
  if mine.any fun e => e.2.pre then []
  else mine.filterMap fun (k, p) => if p.stop = Stop.none ∧ ¬ p.halting then some k else none

/-- A fault in one pen stops every pen of its domain at this boundary (R234). -/
def State.domainStop (s : State) (k : Nat) (r : FaultRec) : State :=
  let gang := (s.pen k).gang
  let ks := s.domainPens (k / 128) gang
  let s := (if ks.contains k then ks else k :: ks).foldl (fun s j =>
    let s := s.finishArrays j
    s.setPen j { s.pen j with stop := if j = k then .fault r else .stopped (k % 128) r.cause, halting := false }) s
  s

end Sys2Proof.Machine
end

