-- ==== Sys2Proof/Machine/Row.lean ====
section
/-! DEFINITION. What every row op shares (R316-R320, R323): reading its sources, faulting precisely, counting, consuming
tokens, issuing its result and its passed tokens into in-flight slots. An op's meaning acts in the PE that who names, at
the commit of the row; the timing domain tests holds and squashing before it (Domain.lean). -/

namespace Sys2Proof.Machine

def State.penK (s : State) : Nat := penKey s.who.die s.who.pen
def State.myPen (s : State) : Pen := s.pen s.penK
def State.myPe (s : State) : PE := s.pe s.penK s.who.pe
def State.setMyPe (s : State) (p : PE) : State := s.setPe s.penK s.who.pe p

/-- Agent number of a PE of a pen: its die coordinates (R12, R83). -/
def Pen.agentOf (p : Pen) (die idx : Nat) : Nat :=
  die * 4096 + 256 + 64 * (4 * (p.origin / 16) + idx / 64) + 4 * (p.origin % 16) + idx % 64

/-- Agent number of PE i of pen k. -/
def State.peAgent (s : State) (k i : Nat) : Nat := (s.pen k).agentOf (k / 128) i

/-- Key of the translation cache at a pen's edge (R160), beyond the agent numbers of the die. -/
def penTlb (k : Nat) : Nat := k / 128 * 4096 + 2304 + k % 128

/-- What an op sees of its row and its PE when the row commits. -/
structure RowCx where
  pen : Pen
  pe : PE
  idx : Nat
  q : Nat
  id : W64
  aux : Nat
  mask : W64
  a : Vec
  b : Vec
  c : Vec
  deriving DecidableEq, Repr

/-- The sources of PEs other than column 0 are ignored in a systolic pass (R354). [DEDUCED, log 52] -/
def ignored (o : Op) (p : Pen) (idx : Nat) : Bool :=
  match o with
  | .mpass | .msprs | .mpassd => p.sys && idx % 64 != 0
  | _ => false

def rowCx (o : Op) (w : RowMods) (s : State) : RowCx :=
  let pen := s.myPen
  let pe := s.myPe
  let q := pen.q w.stg.toNat
  let id := pen.rowId w.stg.toNat
  let f := srcFmt o w
  let u := opUses o w
  let rd (use : Bool) (c : BitVec 6) : Vec := if use && !ignored o pen s.who.pe then pe.source q id f c.toNat else 0
  { pen := pen, pe := pe, idx := s.who.pe, q := q, id := id, aux := auxOf w, mask := pe.mask w,
    a := rd u.sa w.sa, b := rd u.sb w.sb, c := rd u.sc w.sc }

/-- Lane 0 of the mask: an op that acts once per PE acts (R317). -/
def RowCx.acts (x : RowCx) : Bool := x.mask.getLsbD 0

/-- A precise fault of the committing row: every pen of the domain stops before it (R234). -/
def State.rowFault (s : State) (w : RowMods) (cause addr size : Nat) : State :=
  let p := s.myPen
  s.domainStop s.penK
    { cause := cause, row := p.rc, sel := p.sel, pe := s.who.pe, defer_ := false, iter := p.q w.stg.toNat, addr := addr,
      word := s.myPe.rowWord p.sel p.rc, size := size, data := 0, offs := 0, lanes := 0 }

/-- The first window of the row whose packet faults (R205, R206). [DEDUCED, log 48] -/
def State.rowWindow (s : State) (o : Op) (w : RowMods) : Option (Nat × Nat) :=
  if ignored o s.myPen s.who.pe then none
  else ((usedSources o w).filter fun c => 44 ≤ c ∧ c < 48).findSome? fun c => s.myPe.winFault (c - 44) (srcFmt o w)

/-- The packets of the row's windows whose check does not match, which telemetry counts (R103, R188). -/
def State.rowMismatches (s : State) (o : Op) (w : RowMods) : Nat :=
  ((usedSources o w).filter fun c => 44 ≤ c ∧ c < 48 && (match s.myPe.winVec (c - 44) with
    | some v => s.myPe.winHdr (c - 44) != 0 && s.myPe.mismatch v (s.myPe.winHdr (c - 44))
    | none => false)).length

/-- Routes of code 1, two bits each in the order of RT (R65). -/
def fwdRoutes (w : RowMods) : Nat :=
  iter (fun d a => if route w d = 1 then a + 2 ^ (6 - 2 * d) else a) 4 0

/-- The slot that carries a passed token out of direction d at the end of this row (R320). -/
def passSlot (p : PE) (w : RowMods) (d : Nat) : Option Slot :=
  match routeQueue w d with
  | some q =>
    match (p.queue q).toks with
    | t :: _ => some { dst := 48, lanes := BitVec.allOnes 64, left := 1, route := 2 ^ (6 - 2 * d), pl := t.pl, value := t.val,
                          pending := false }
    | [] => none
  | none => none

def passSlots (p : PE) (w : RowMods) : List Slot := (List.range 4).filterMap (passSlot p w)

/-- An op whose result comes with a reply (R346). -/
def loads (o : Op) : Bool :=
  match o with
  | .ldg | .gath => true
  | _ => false

/-- The slot of a result (R65, R31): it counts the issuing row itself, so it lands at the end of row n + L - 1; a load's
waits for its reply. -/
def resultSlot (o : Op) (w : RowMods) (lanes : W64) (v : Vec) : Slot :=
  { dst := w.dst.toNat, lanes := lanes, left := latency o, route := fwdRoutes w, pl := w.pl.toNat, value := v,
    pending := loads o }

/-- What an op does: a precise fault, one met by a walk or a read, whose telemetry stays, or a state with, if it has one, a result for some lanes, and what it counts. -/
inductive Eff where
  | fault (cause addr size : Nat)
  | walked (s : State) (cause addr size : Nat)
  | go (s : State) (res : Option Vec) (lanes : W64) (nfc satc : Nat)

/-- PR = 0 with PN = 1 (R59): the row commits nothing in its PE, apart from its routes and holds. -/
def deadRowWord (w : RowMods) : Bool := w.pr == 0 && w.pn == 1

/-- What a dead row word commits in its PE: the tokens its routes pass, and the token of a code-1 route, in which every lane
is disabled (R59, R320). pe0 is the PE before the row. -/
def PE.deadRow (p pe0 : PE) (o : Op) (w : RowMods) : PE :=
  let p := p.consume [] w
  { p with slots := p.slots ++ (if hasResult o then [{ resultSlot o w 0 0 with pending := false }] else []) ++ passSlots pe0 w }

/-- The end of a committing row word in its PE: counts, consumption, and the slots it issues. pe0 is the PE before the
row. -/
def PE.finishRow (p pe0 : PE) (o : Op) (w : RowMods) (srcs : List Nat) (res : Option Vec) (lanes : W64)
    (nfc satc : Nat) : PE :=
  let p := (p.counted nfc satc).consume srcs w
  let out := match res with
    | some v => [resultSlot o w lanes v]
    | none => []
  { p with slots := p.slots ++ out ++ passSlots pe0 w }

/-- Elements of consumed window packets that a NaN scale makes NaN (R64). [DEDUCED, log 47] -/
def nanCount (o : Op) (w : RowMods) (x : RowCx) : Nat :=
  match o with
  | .mldw | .mpass | .msprs => 0
  | _ => (((usedSources o w).filter fun c => 44 ≤ c ∧ c < 48).map fun c =>
      nanScaled (srcFmt o w) (x.pe.winHdr (c - 44)) x.mask).foldl (· + ·) 0

/-- A row op commits in its PE. -/
def State.row (s : State) (o : Op) (w : RowMods) (f : RowCx → State → Eff) : State :=
  if deadRowWord w then s.setMyPe (s.myPe.deadRow s.myPe o w)
  else match s.rowWindow o w with
  | some (c, a) => (s.count s.who.die 10 (if c = cCHECK then s.rowMismatches o w else 0)).rowFault w c a 256
  | none =>
    let x := rowCx o w s
    match f x s with
    | .fault c a n => s.rowFault w c a n
    | .walked t c a n => t.rowFault w c a n
    | .go t res lanes nfc satc =>
      let nfc := nfc + nanCount o w x
      if x.pen.nft && nfc != 0 then s.rowFault w cNONFINITE 0 0
      else
        let srcs := if ignored o x.pen x.idx then [] else usedSources o w
        t.setMyPe (t.myPe.finishRow x.pe o w srcs res lanes nfc satc)

/-- An op that only computes a result for its enabled lanes. -/
def State.vec (s : State) (o : Op) (w : RowMods) (f : RowCx → Vec) : State :=
  s.row o w fun x t => .go t (some (f x)) x.mask 0 0

/-- The same, with what it counts into NFC and SATC. -/
def State.vecCount (s : State) (o : Op) (w : RowMods) (f : RowCx → Vec × Nat × Nat) : State :=
  s.row o w fun x t => .go t (some (f x).1) x.mask (f x).2.1 (f x).2.2

/-- An op without a result. -/
def State.rowDo (s : State) (o : Op) (w : RowMods) (f : RowCx → State → State) : State :=
  s.row o w fun x t => .go (f x t) none x.mask 0 0

end Sys2Proof.Machine
end

