-- ==== Sys2Proof/Machine/L1.lean ====
section
/-! DEFINITION. Accesses of a PE through its L1 part (R81, R344-R346), extent maps (R177), and append-log entries
(R153). -/

namespace Sys2Proof.Machine

/-- n bytes drawn free (R112). [DESIGN CHOICE, log 17] -/
def State.freeBytes (s : State) (n : Nat) : Nat × State :=
  let m := n / 256 + 1
  ((iter (fun i a => a + (Config.freeVec (s.freeCtr + i)).toNat <<< (2048 * i)) m 0) % 2 ^ (8 * n),
   { s with freeCtr := s.freeCtr + m })

/-- Bytes of one line read through the cache of agent ag, joined to what a read has so far; bytes of a shadow area are free and
raise no fault (R112). -/
def State.l1Line (s : State) (ag va : Nat) (r : Except (Nat × Nat) (List Byte)) (l lo hi : Nat) :
    Except (Nat × Nat) (List Byte) × State :=
  match r with
  | .error e => (.error e, s)
  | .ok b =>
    let x := s.cacheRead ag l
    if x.1 ≠ 0 && !s.isShadow lo then (.error (x.1, badAddr x.1 (va + b.length)), x.2.2)
    else
      let h := x.2.2.hideShadow lo (toBytes (hi - lo) (lineGet x.2.1 (lo - 128 * l) (hi - lo)))
      (.ok (b ++ h.1), h.2)

/-- n bytes read by PE i of pen k through its cache: the value, or the cause and address of the fault. -/
def State.l1Read (s : State) (k i va n : Nat) : Except (Nat × Nat) Nat × State :=
  let c := (s.pen k).ctx
  let t := s.walkRange (penTlb k) c va n
  match s.rangesOf (penTlb k) c (fun _ => true) va n with
  | none =>
    match s.lookup (penTlb k) c va with
    | .error e => (.error (e, va), t)
    | .ok _ =>
      let next := va - va % 65536 + 65536
      (.error ((match s.lookup (penTlb k) c next with
        | .error e => e
        | .ok _ => cTRANSL), next), t)
  | some rs =>
    match rs.find? fun (a, _) => s.linkDown a with
    | some _ => (.error (cLINK, va), t)
    | none =>
      let r := rs.foldl (fun acc (a, m) =>
        (rangeLines [(a, m)]).foldl (fun (r, s) l =>
          State.l1Line s (s.peAgent k i) va r l (max a (128 * l)) (min (a + m) (128 * l + 128))) acc) (.ok [], t)
      match r.1 with
      | .error e => (.error e, r.2)
      | .ok b => (.ok (ofBytes b), r.2)

/-- A reply or a fetched operand reaches a pen that runs; a stopped or pre-empted one gets none until it runs again (R236,
R238, R346). -/
def Pen.takes (p : Pen) : Bool := p.valid && p.run == 1 && p.stop == .none && !p.pre

/-- The check of a PE access at commit: TRANSL, then PERM for a write (R346, R70). -/
def State.peCheck (s : State) (k : Nat) (c va : Nat) (write : Bool) : Except Nat Tlb :=
  match s.lookup (penTlb k) c va with
  | .error e => .error e
  | .ok t => if write && !aW t.attr then .error cPERM else .ok t

/-- The translations of a PE's addresses are made in order, up to the first that the check refuses: the pen's edge keeps them, and
a walk that fails has read its entries (R160, R170, R188). -/
def State.peWalk (s : State) (k c : Nat) (write : Bool) : List Nat → State
  | [] => s
  | va :: t =>
    match s.peCheck k c va write with
    | .ok _ => State.peWalk (s.walkOne (penTlb k) c va) k c write t
    | .error _ => s.walkOne (penTlb k) c va

/-! ### Extent maps (R177) -/

def xNext (m : Nat) : Nat := bits m 4 0
def xBase (m k : Nat) : Nat := (m >>> (128 + 128 * k)) % 2 ^ 64
def xLen (m k : Nat) : Nat := (m >>> (192 + 128 * k)) % 2 ^ 32
def xStride (m k : Nat) : Nat := (m >>> (224 + 128 * k)) % 2 ^ 32
def xTotal (m : Nat) : Nat := iter (fun k a => a + xLen m k) (xNext m) 0

/-- The extents from k on, of which the first holds position st. -/
def xFind (m p : Nat) : Nat → Nat → Nat → Option Nat
  | 0, _, _ => none
  | n + 1, k, st =>
    if p < st + xLen m k then some ((xBase m k + (p - st) * xStride m k) % 2 ^ 64)
    else xFind m p n (k + 1) (st + xLen m k)

/-- xloc of R177: the address, or the status BADARG or RANGE. [DEDUCED, log 56] -/
def xloc (m p : Nat) : Except Nat Nat :=
  if 16 < xNext m ∨ 2 ^ 32 < xTotal m then .error stBADARG
  else match xFind m p (xNext m) 0 0 with
    | some a => .ok a
    | none => .error stRANGE

/-! ### Append logs (R153) -/

def State.logOf (s : State) (home : Nat) : List LogEnt := mget [] s.logs home

/-- An entry enters the log at its destination's home. -/
def State.append (s : State) (e : LogEnt) : State :=
  { s with logs := mset [] s.logs (homeOf e.pa) (s.logOf (homeOf e.pa) ++ [e]) }

/-- The log at a home has no room for n more entries. -/
def State.logLacks (s : State) (home n : Nat) : Bool := Config.logDepth < (s.logOf home).length + n

end Sys2Proof.Machine
end

