-- ==== Sys2Proof/Machine/Engine.lean ====
section
/-! DEFINITION. Reads and writes of a context's virtual range by agents without a data cache, performed at the homes
(R88, R103, R104), and layout records (R165, R166). -/

namespace Sys2Proof.Machine

/-- Agent number of the yard controller, of stream engine e, of clause bank b (R83). -/
def agentYard (die : Nat) : Nat := die * 4096 + 52
def agentEng (die e : Nat) : Nat := die * 4096 + 32 + e
def agentBank (die b : Nat) : Nat := die * 4096 + 48 + b

/-- How an engine's access ends: a value, a fault with its address, or a wait for a page, a delta queue or space. -/
inductive Eng (α : Type) where
  | ok (v : α) (s : State)
  | fault (cause addr : Nat) (s : State)
  | wait

/-- Continue an engine's access. -/
def Eng.then_ {α β : Type} (e : Eng α) (f : α → State → Eng β) : Eng β :=
  match e with
  | .ok v s => f v s
  | .fault c a s => .fault c a s
  | .wait => .wait

/-- The physical pieces of a virtual range, each inside one 64 KiB page, or the first fault (R70). -/
def State.pieces (s : State) (ag c : Nat) (write : Bool) : Nat → Nat → Nat → Except (Nat × Nat) (List (Nat × Nat × Nat × BitVec 7))
  | 0, _, _ => .ok []
  | fuel + 1, va, n =>
    if n = 0 then .ok []
    else
      match s.lookup ag c va with
      | .error e => .error (e, va)
      | .ok t =>
        if write && !aW t.attr then .error (cPERM, va)
        else
          let k := min n (65536 - va % 65536)
          match State.pieces s ag c write fuel (va + k) (n - k) with
          | .error e => .error e
          | .ok l => .ok ((va, t.addr va, k, t.attr) :: l)

def State.piecesOf (s : State) (ag c : Nat) (write : Bool) (va n : Nat) : Except (Nat × Nat) (List (Nat × Nat × Nat × BitVec 7)) :=
  s.pieces ag c write (n / 65536 + 2) va n

/-- Bytes of one line read at home; those of a shadow area are free, and raise no fault where all are (R112). -/
def State.shadowRead (s : State) (va pa k : Nat) : Eng (List Byte) :=
  if (List.range k).all fun i => s.isShadow (pa + i) then
    let r := s.freeBytes k
    .ok (toBytes k r.1) r.2
  else
    match s.engineRead pa k with
    | (.ok b, t) => let h := t.hideShadow pa b
                    .ok h.1 h.2
    | (.error (c, a), t) => .fault c (badAddr c (va + (a - pa))) t

/-- One piece read at home; a range that meets a shadow area is read line by line (R112). -/
def State.pieceRead (s : State) (va pa k : Nat) : Eng (List Byte) :=
  if s.linkDown pa then .fault cLINK va s
  else if s.pageAway pa then .wait
  else if !((List.range k).any fun i => s.isShadow (pa + i)) then
    match s.engineRead pa k with
    | (.ok b, t) => .ok b t
    | (.error (c, a), t) => .fault c (badAddr c (va + (a - pa))) t
  else
    (cuts pa (List.replicate k 0)).foldl (fun r (l, off, x) =>
      r.then_ fun b t => (t.shadowRead (va + (128 * l + off - pa)) (128 * l + off) x.length).then_ fun y t => .ok (b ++ y) t)
      (.ok [] s)

/-- n bytes read at home from a virtual address of context c. -/
def State.vread (s : State) (ag c va n : Nat) : Eng (List Byte) :=
  if s.rangeAway ag c va n then .wait
  else
    match s.piecesOf ag c false va n with
    | .error (e, a) => .fault e a (s.walkRange ag c va n)
    | .ok ps =>
      ps.foldl (fun r (v, p, k, _) => r.then_ fun b t => (t.pieceRead v p k).then_ fun x t => .ok (b ++ x) t)
        (.ok [] (s.walkRange ag c va n))

/-- The lines of some pieces. -/
def pieceLines (ps : List (Nat × Nat × Nat × BitVec 7)) : List Nat := rangeLines (ps.map fun (_, p, k, _) => (p, k))

/-- The pieces of a write at a virtual address: permitted, no page away, no link down. -/
def State.vplan (s : State) (ag c va n : Nat) : Eng (List (Nat × Nat × Nat × BitVec 7)) :=
  if s.rangeAway ag c va n then .wait
  else
    match s.piecesOf ag c true va n with
    | .error (e, a) => .fault e a (s.walkRange ag c va n)
    | .ok ps =>
      if ps.any fun (_, p, _, _) => s.linkDown p then .fault cLINK va s else .ok ps (s.walkRange ag c va n)

/-- A write of bytes at a virtual address can be performed now: planned, with room for its deltas (R117). -/
def State.vready (s : State) (ag c va n : Nat) : Eng (List (Nat × Nat × Nat × BitVec 7)) :=
  (s.vplan ag c va n).then_ fun ps t => if s.deltaLacks (pieceLines ps) then .wait else .ok ps t

/-- Bytes written at home over planned pieces, none of them when a line refuses its part (R104, R105). -/
def State.vput (s : State) (ag : Nat) (ps : List (Nat × Nat × Nat × BitVec 7)) (b : List Byte) : Eng Unit :=
  match ps.foldl (fun (r : Eng (List Byte)) (v, p, k, attr) =>
    r.then_ fun b t =>
      match t.engineWrite ag p (b.take k) (aSPLITW attr) with
      | .ok t => .ok (b.drop k) t
      | .error (c, a) => .fault c (badAddr c (v + (a - p))) (s.metBad (pieceLines ps) (a / 128) c)) (.ok b s) with
  | .ok _ t => .ok () t
  | .fault c a t => .fault c a t
  | .wait => .wait

/-- Bytes written at home at a virtual address of context c, none of them when a line refuses its part (R104, R105). -/
def State.vwrite (s : State) (ag c va : Nat) (b : List Byte) : Eng Unit :=
  (s.vready ag c va b.length).then_ fun ps s => s.vput ag ps b

/-! ### Long writes, packet by packet (R117) -/

/-- Bytes cut at packet boundaries. -/
def cutPackets : Nat → Nat → List Byte → List (Nat × List Byte)
  | 0, _, _ => []
  | fuel + 1, pa, b =>
    if b = [] then [] else (pa, b.take (256 - pa % 256)) :: cutPackets fuel (pa + (256 - pa % 256)) (b.drop (256 - pa % 256))

/-- The packets of bytes laid over physical ranges. -/
def packetPieces : List (Nat × Nat × Bool) → List Byte → Pieces
  | [], _ => []
  | (p, k, sp) :: t, b => (cutPackets (k / 256 + 2) p (b.take k)).map (fun e => (e.1, sp, e.2)) ++ packetPieces t (b.drop k)

/-- The physical ranges of pieces, with their SPLITW bits. -/
def splitRanges (ps : List (Nat × Nat × Nat × BitVec 7)) : List (Nat × Nat × Bool) :=
  ps.map fun (_, p, k, attr) => (p, k, aSPLITW attr)

/-- As many packets are written at their homes as can be now: the cause that ends the write or 0, and what is left while a page
is away or a delta queue full (R95, R117). -/
def State.push (s : State) (ag : Nat) : Pieces → Nat × Pieces × State
  | [] => (0, [], s)
  | (pa, sp, b) :: t =>
    if s.pageAway pa || s.deltaLacks (rangeLines [(pa, b.length)]) then (0, (pa, sp, b) :: t, s)
    else
      match s.engineWrite ag pa b sp with
      | .ok s => State.push s ag t
      | .error (c, a) => (c, [], s.metBad (rangeLines [(pa, b.length)]) (a / 128) c)

/-- Bytes an instruction writes itself, at home, dropping the issuer's copies of the lines (R359). -/
def State.writeBlock (s : State) (va : Nat) (b : List Byte) : Eng Unit :=
  (s.vwrite s.agent s.ctxId va b).then_ fun _ t =>
    .ok () (((t.rangesOf t.agent t.ctxId (fun _ => true) va b.length).map rangeLines).getD [] |>.foldl
      (fun t l => t.dropCopy t.agent l) t)

/-- An instruction's own write goes on packet by packet (R117), dropping the issuer's copies of what it writes; marks is what the
instruction keeps for its end. It ends, meets a fault, or waits for a page or a delta queue. -/
def State.goOn (s : State) (i : Instr) (marks : List (Nat × Nat)) (ps : Pieces) (done : State → State) (bad : Nat → State → State) :
    State :=
  let r := s.push s.agent ps
  let t := (rangeLines (ps.map fun (p, _, b) => (p, b.length))).foldl (fun t l => t.dropCopy t.agent l) r.2.2
  if r.1 ≠ 0 then bad r.1 t
  else if r.2.1 = [] then done t
  else t.setCur { t.cur with wait := some { instr := i, phase := 4, marks := marks, todo := r.2.1 } }

/-- What the waiting word has still to write. -/
def State.todo (s : State) : Pieces := ((s.cur.wait.map Wait.todo).getD [])

/-- The physical packets of a block write whose delta queues have no room for the whole (R117). -/
def State.blockPieces (s : State) (va : Nat) (b : List Byte) : Option Pieces :=
  match s.piecesOf s.agent s.ctxId true va b.length with
  | .ok ps => if s.rangeAway s.agent s.ctxId va b.length then none else some (packetPieces (splitRanges ps) b)
  | .error _ => none

/-- An instruction that needs a range of memory waits while another module holds a page of it. -/
def State.whenHere (s : State) (i : Instr) (va n : Nat) (f : State) : State :=
  if s.rangeAway s.agent s.ctxId va n then s.waitOn i 1 [] else f

/-- A physical field of a record in memory, read and written at its home by the agent that owns it. -/
def State.physRead (s : State) (pa n : Nat) : Except Nat Nat × State :=
  match s.engineRead pa n with
  | (.ok b, t) => (.ok (ofBytes b), t)
  | (.error (c, _), t) => (.error c, t)

def State.physWrite (s : State) (ag pa n v : Nat) : State :=
  match s.engineWrite ag pa (toBytes n v) false with
  | .ok t => t
  | .error (c, a) => s.metBad (rangeLines [(pa, n)]) (a / 128) c

/-! ### Layout records (R165, R166) -/

abbrev Lay := BitVec 1536

def Lay.base (l : Lay) : Nat := (l.extractLsb' 0 64).toNat
def Lay.scale (l : Lay) : Nat := (l.extractLsb' 64 64).toNat
def Lay.fmt (l : Lay) : Nat := (l.extractLsb' 128 4).toNat
def Lay.ndim (l : Lay) : Nat := (l.extractLsb' 132 3).toNat
def Lay.ext (l : Lay) : Bool := l.getLsbD 135
def Lay.bfly (l : Lay) : Nat := (l.extractLsb' 136 4).toNat
def Lay.extmap (l : Lay) : Nat := (l.extractLsb' 192 64).toNat
def Lay.size (l : Lay) (k : Nat) : Nat := (l.extractLsb' (256 + 32 * k) 32).toNat
def Lay.stride (l : Lay) (k : Nat) : Int := sgn 64 (l.extractLsb' (448 + 64 * k) 64).toNat

/-- Whether a record passes R166. -/
def Lay.ok (l : Lay) : Bool :=
  let es := elemSize l.fmt
  1 ≤ l.ndim && l.ndim ≤ 6 && l.fmt < 12 && l.stride 0 == (es : Int) && l.base % es == 0 && l.bfly ≤ 8 &&
    (l.bfly == 0 || l.fmt == 3 || l.fmt == 4 || l.fmt == 5 || l.fmt == 7) &&
    ((List.range l.ndim).all fun k => l.size k != 0) &&
    (l.extractLsb' 140 52).toNat == 0 && (l.extractLsb' 832 704).toNat == 0

/-- Elements of the whole record. -/
def Lay.total (l : Lay) : Nat := iter (fun k a => a * l.size k) l.ndim 1

/-- The weight of dimension k in an element number. -/
def Lay.mult (l : Lay) (k : Nat) : Nat := iter (fun m a => a * l.size m) k 1

/-- Element number of an index vector (R361). -/
def Lay.number (l : Lay) (i : Nat → Nat) : Nat := iter (fun k a => a + i k * l.mult k) l.ndim 0

/-- Index k of element number n. -/
def Lay.index (l : Lay) (n k : Nat) : Nat := n / l.mult k % l.size k

/-- The address of an element, or the status of its position (R166, R177). -/
def Lay.addr (l : Lay) (emap : Nat) (i : Nat → Nat) : Except Nat Nat :=
  if l.ext then
    let inner : Int := iter (fun k a => a + (i k : Int) * l.stride k) (l.ndim - 1) 0
    match xloc emap (i (l.ndim - 1)) with
    | .ok a => .ok (umod 64 ((a : Int) + inner))
    | .error e => .error e
  else
    let all : Int := iter (fun k a => a + (i k : Int) * l.stride k) l.ndim 0
    .ok (umod 64 ((l.base : Int) + all))

/-- A record and its extent map as an agent reads them; the extent map of a record that fails R166 is not read. -/
def State.readRec (s : State) (ag c h : Nat) : Eng RecEnt :=
  (s.vread ag c h 192).then_ fun b t =>
    let lay : Lay := BitVec.ofNat 1536 (ofBytes b)
    if lay.ok && lay.ext then
      (t.vread ag c lay.extmap 272).then_ fun m t =>
        .ok { ctx := c, handle := h, lay := lay, emap := BitVec.ofNat 2176 (ofBytes m) } t
    else .ok { ctx := c, handle := h, lay := lay, emap := 0 } t

/-- A record through the die's record cache, which replaces the least recently used entry (R167). -/
def State.cachedRec (s : State) (die ag c h : Nat) : Eng RecEnt :=
  let l := mget [] s.recs die
  match l.find? fun e => e.ctx == c && e.handle == h with
  | some e => .ok e { s with recs := mset [] s.recs die (e :: l.filter fun x => x != e) }
  | none =>
    (s.readRec ag c h).then_ fun e t =>
      .ok e { t with recs := mset [] t.recs die ((e :: mget [] t.recs die).take Config.recEntries) }

/-- A record that a use accepts: aligned, sound, with an aligned extent map (R165, R166, R177). [DEDUCED, log 56] -/
def RecEnt.ok (e : RecEnt) : Bool := e.handle % 64 == 0 && Lay.ok e.lay && (!Lay.ext e.lay || Lay.extmap e.lay % 16 == 0)

end Sys2Proof.Machine
end

