-- ==== Sys2Proof/Machine/Int.lean ====
section
/-! DEFINITION. The integer register, immediate and identifier instructions (R278-R280). -/

namespace Sys2Proof.Machine

/-- A shift right that fills with the sign bit. -/
def sraBy (a : W64) (n : Nat) : W64 := a.sshiftRight n

/-- mask(l) of R278: 2^l - 1. -/
def maskBits (l : Nat) : W64 := BitVec.ofNat 64 (2 ^ l - 1)

/-- The position and length fields of BEXT and BINS: p from b[5:0], l from b[14:8], held to 64. -/
def fieldPos (b : W64) : Nat := (b.extractLsb' 0 6).toNat
def fieldLen (b : W64) : Nat := min (b.extractLsb' 8 7).toNat 64

/-- DIV of R278: truncated toward zero, b = 0 gives -1. -/
def divS (a b : W64) : W64 := if b = 0 then BitVec.allOnes 64 else a.sdiv b
/-- REM of R278: the dividend's sign, b = 0 gives a. -/
def remS (a b : W64) : W64 := if b = 0 then a else a.srem b
def divU (a b : W64) : W64 := if b = 0 then BitVec.allOnes 64 else a / b
def remU (a b : W64) : W64 := if b = 0 then a else a % b

/-- High halves of the products. -/
def mulHi (a b : W64) : W64 := BitVec.ofInt 64 ((a.toInt * b.toInt) / 2 ^ 64)
def mulHiU (a b : W64) : W64 := BitVec.ofNat 64 ((a.toNat * b.toNat) / 2 ^ 64)

/-- Leading zero bits, 0..64. -/
def clz64 (a : W64) : W64 := BitVec.ofNat 64 (64 - bitLen a.toNat)
/-- One bits, 0..64. -/
def popc64 (a : W64) : W64 := BitVec.ofNat 64 (iter (fun i n => if a.getLsbD i then n + 1 else n) 64 0)

/-- BINS of R278: positions above 63 are dropped. -/
def insField (a b c : W64) : W64 :=
  let m := maskBits (fieldLen b) <<< fieldPos b
  (a &&& ~~~m) ||| ((c <<< fieldPos b) &&& m)

/-- A 16-bit immediate, sign- or zero-extended (R279). -/
def simm (i : BitVec 16) : W64 := i.signExtend 64
def zimm (i : BitVec 16) : W64 := i.zeroExtend 64

/-- Widths W0..W5 of a WIDW value (R53). -/
def widths (w : W64) : List Nat := (List.range 6).map fun k => (w.extractLsb' (7 * k) 7).toNat

/-- One field of a work identifier (R280). -/
def idField (w id : W64) (level : Nat) : W64 :=
  let ws := widths w
  if ws.sum > 64 ∨ ws.any (fun x => 64 < x) then 0
  else if (ws.takeWhile (· ≠ 0)).length ≤ level then 0
  else (id >>> (ws.take level).sum) &&& maskBits (ws.getD level 0)

/-- ADD (R278). -/
def execAdd (d a b : Reg) (s : State) : Out :=
  .next (s.ret d (s.rx a + s.rx b))

/-- SUB (R278). -/
def execSub (d a b : Reg) (s : State) : Out :=
  .next (s.ret d (s.rx a - s.rx b))

/-- AND (R278). -/
def execAnd (d a b : Reg) (s : State) : Out :=
  .next (s.ret d (s.rx a &&& s.rx b))

/-- OR (R278). -/
def execOr (d a b : Reg) (s : State) : Out :=
  .next (s.ret d (s.rx a ||| s.rx b))

/-- XOR (R278). -/
def execXor (d a b : Reg) (s : State) : Out :=
  .next (s.ret d (s.rx a ^^^ s.rx b))

/-- SLL (R278). -/
def execSll (d a b : Reg) (s : State) : Out :=
  .next (s.ret d (s.rx a <<< ((s.rx b).toNat % 64)))

/-- SRL (R278). -/
def execSrl (d a b : Reg) (s : State) : Out :=
  .next (s.ret d (s.rx a >>> ((s.rx b).toNat % 64)))

/-- SRA (R278). -/
def execSra (d a b : Reg) (s : State) : Out :=
  .next (s.ret d (sraBy (s.rx a) ((s.rx b).toNat % 64)))

/-- MUL (R278). -/
def execMul (d a b : Reg) (s : State) : Out :=
  .next (s.ret d (s.rx a * s.rx b))

/-- MULH (R278). -/
def execMulh (d a b : Reg) (s : State) : Out :=
  .next (s.ret d (mulHi (s.rx a) (s.rx b)))

/-- MULHU (R278). -/
def execMulhu (d a b : Reg) (s : State) : Out :=
  .next (s.ret d (mulHiU (s.rx a) (s.rx b)))

/-- DIV (R278). -/
def execDiv (d a b : Reg) (s : State) : Out :=
  .next (s.ret d (divS (s.rx a) (s.rx b)))

/-- DIVU (R278). -/
def execDivu (d a b : Reg) (s : State) : Out :=
  .next (s.ret d (divU (s.rx a) (s.rx b)))

/-- REM (R278). -/
def execRem (d a b : Reg) (s : State) : Out :=
  .next (s.ret d (remS (s.rx a) (s.rx b)))

/-- REMU (R278). -/
def execRemu (d a b : Reg) (s : State) : Out :=
  .next (s.ret d (remU (s.rx a) (s.rx b)))

/-- SLT (R278). -/
def execSlt (d a b : Reg) (s : State) : Out :=
  .next (s.ret d (if (s.rx a).slt (s.rx b) then 1 else 0))

/-- SLTU (R278). -/
def execSltu (d a b : Reg) (s : State) : Out :=
  .next (s.ret d (if (s.rx a).ult (s.rx b) then 1 else 0))

/-- MIN (R278). -/
def execMin (d a b : Reg) (s : State) : Out :=
  .next (s.ret d (if (s.rx a).slt (s.rx b) then s.rx a else s.rx b))

/-- MAX (R278). -/
def execMax (d a b : Reg) (s : State) : Out :=
  .next (s.ret d (if (s.rx a).slt (s.rx b) then s.rx b else s.rx a))

/-- MINU (R278). -/
def execMinu (d a b : Reg) (s : State) : Out :=
  .next (s.ret d (if (s.rx a).ult (s.rx b) then s.rx a else s.rx b))

/-- MAXU (R278). -/
def execMaxu (d a b : Reg) (s : State) : Out :=
  .next (s.ret d (if (s.rx a).ult (s.rx b) then s.rx b else s.rx a))

/-- BEXT (R278). -/
def execBext (d a b : Reg) (s : State) : Out :=
  .next (s.ret d ((s.rx a >>> fieldPos (s.rx b)) &&& maskBits (fieldLen (s.rx b))))

/-- CLZ (R278). -/
def execClz (d a : Reg) (s : State) : Out :=
  .next (s.ret d (clz64 (s.rx a)))

/-- POPC (R278). -/
def execPopc (d a : Reg) (s : State) : Out :=
  .next (s.ret d (popc64 (s.rx a)))

/-- BINS (R278). -/
def execBins (d a b c : Reg) (s : State) : Out :=
  .next (s.ret d (insField (s.rx a) (s.rx b) (s.rx c)))

/-- SEL (R278). -/
def execSel (d a b c : Reg) (s : State) : Out :=
  .next (s.ret d (if s.rx c ≠ 0 then s.rx a else s.rx b))

/-- ADDI (R279). -/
def execAddi (d a : Reg) (i : BitVec 16) (s : State) : Out :=
  .next (s.ret d (s.rx a + simm i))

/-- ANDI (R279). -/
def execAndi (d a : Reg) (i : BitVec 16) (s : State) : Out :=
  .next (s.ret d (s.rx a &&& zimm i))

/-- ORI (R279). -/
def execOri (d a : Reg) (i : BitVec 16) (s : State) : Out :=
  .next (s.ret d (s.rx a ||| zimm i))

/-- XORI (R279). -/
def execXori (d a : Reg) (i : BitVec 16) (s : State) : Out :=
  .next (s.ret d (s.rx a ^^^ zimm i))

/-- SLTI (R279). -/
def execSlti (d a : Reg) (i : BitVec 16) (s : State) : Out :=
  .next (s.ret d (if (s.rx a).slt (simm i) then 1 else 0))

/-- SHI (R279): kind 0 SLL, 1 SRL, 2 SRA; kind 3 faults ILLEGAL. -/
def execShi (d a : Reg) (k : BitVec 2) (n : BitVec 6) (s : State) : Out :=
  match k.toNat with
  | 0 => .next (s.ret d (s.rx a <<< n.toNat))
  | 1 => .next (s.ret d (s.rx a >>> n.toNat))
  | 2 => .next (s.ret d (sraBy (s.rx a) n.toNat))
  | _ => .next s.illegal

/-- LUI (R279). -/
def execLui (d : Reg) (i : BitVec 16) (s : State) : Out :=
  .next (s.ret d (simm i <<< 16))

/-- IDF (R280): WIDW as it stands now; levels 6 and 7 fault ILLEGAL (R254). -/
def execIdf (d a : Reg) (l : BitVec 3) (s : State) : Out :=
  if l.toNat ≤ 5 then .next (s.ret d (idField s.cur.widw (s.rx a) l.toNat)) else .next s.illegal

end Sys2Proof.Machine
end

