-- ==== Sys2Proof/Machine/Branch.lean ====
section
/-! DEFINITION. Branches, jumps and the loop instructions (R285-R289). -/

namespace Sys2Proof.Machine

/-- A branch with its condition: taken, by off16 words under the unwind rule; else the next word (R285). -/
def State.branch (s : State) (taken : Bool) (o : BitVec 16) : State :=
  if taken then s.branchBy (simm o) else s.commit

def execBeq (a b : Reg) (o : BitVec 16) (s : State) : Out := .next (s.branch (s.rx a == s.rx b) o)
def execBne (a b : Reg) (o : BitVec 16) (s : State) : Out := .next (s.branch (s.rx a != s.rx b) o)
def execBlt (a b : Reg) (o : BitVec 16) (s : State) : Out := .next (s.branch ((s.rx a).slt (s.rx b)) o)
def execBge (a b : Reg) (o : BitVec 16) (s : State) : Out := .next (s.branch (!((s.rx a).slt (s.rx b))) o)
def execBltu (a b : Reg) (o : BitVec 16) (s : State) : Out := .next (s.branch ((s.rx a).ult (s.rx b)) o)
def execBgeu (a b : Reg) (o : BitVec 16) (s : State) : Out := .next (s.branch (!((s.rx a).ult (s.rx b))) o)

/-- JAL (R286): links to x31 when L is 1. -/
def execJal (l : BitVec 1) (o : BitVec 25) (s : State) : Out :=
  let s' := if l = 1 then s.wx 31 (s.cur.pc + 4) else s
  .next (s'.setCur (s'.cur.redirect (s.cur.pc + 4 * o.signExtend 64)))

/-- JALR (R286): the target is formed before xd is written. -/
def execJalr (d a : Reg) (o : BitVec 16) (s : State) : Out :=
  let t := (s.rx a + simm o) &&& ~~~3
  let s' := s.wx d (s.cur.pc + 4)
  .next (s'.setCur (s'.cur.redirect t))

/-- push_loop (R287): none where it faults ILLEGAL. -/
def Ostler.pushLoop (o : Ostler) (count : W64) (off : BitVec 16) : Option Ostler :=
  let st := o.pc + 4
  let e := o.pc + 4 * simm off
  if off = 0 ∨ off.slt 0 then none
  else if o.ldepth ≥ 4 then none
  else if 0 < o.ldepth ∧ ¬(mget 0 o.lstart (o.ldepth - 1) ≤ st ∧ e ≤ mget 0 o.lend (o.ldepth - 1)) then none
  else if count = 0 then some { o with pc := e + 4 }
  else some { o with lstart := mset 0 o.lstart o.ldepth st, lend := mset 0 o.lend o.ldepth e,
                     lcount := mset 0 o.lcount o.ldepth count, ldepth := o.ldepth + 1, pc := st }

/-- LOOP and LOOPI set the pc themselves (R288). -/
def State.loopWith (s : State) (count : W64) (off : BitVec 16) : State :=
  match s.cur.pushLoop count off with
  | some o => s.setCur o
  | none => s.illegal

/-- LOOP (R287). -/
def execLoop (a : Reg) (o : BitVec 16) (s : State) : Out := .next (s.loopWith (s.rx a) o)

/-- LOOPI (R287). -/
def execLoopi (n : BitVec 10) (o : BitVec 16) (s : State) : Out := .next (s.loopWith (n.zeroExtend 64) o)

/-- LPOP (R289): the pop, then after_commit at its own address. -/
def execLpop (s : State) : Out :=
  .next (s.setCur { s.cur with ldepth := s.cur.ldepth - 1 }).commit

end Sys2Proof.Machine
end

