-- ==== Sys2Proof/Machine/Sys.lean ====
section
/-! DEFINITION. The system instructions (R290-R295), the CSRs (R46-R56), random draws (R300, R301), and the two
words that are only faults: an illegal word and a fetch that is not mapped executable (R274, R275). -/

namespace Sys2Proof.Machine

/-- Lines a context pins now (R55 USED). -/
def State.used (s : State) (c : Nat) : Nat := (s.pins.filter fun e => e.2 == some c).length

/-- LOCKQ (R55): QUOTA in [31:0], USED in [63:32]. -/
def State.lockq (s : State) : W64 :=
  BitVec.ofNat 64 ((s.ctx s.ctxId).quota % 2 ^ 32 + (s.used s.ctxId % 2 ^ 32) * 2 ^ 32)

/-- The value of a CSR; none for a number that R46 does not list. -/
def State.csr (s : State) (c : Nat) : Option W64 :=
  let o := s.cur
  match c with
  | 0x000 => some o.status
  | 0x001 => some o.tvec
  | 0x002 => some o.epc
  | 0x003 => some o.cause
  | 0x004 => some o.tval
  | 0x010 => some (BitVec.ofNat 64 s.ctxId)
  | 0x011 => some s.cycle
  | 0x012 => some s.fcycle
  | 0x020 => some o.rngkey
  | 0x021 => some o.rngctr
  | 0x030 => some (mget 0 o.lstart 0)
  | 0x031 => some (mget 0 o.lstart 1)
  | 0x032 => some (mget 0 o.lstart 2)
  | 0x033 => some (mget 0 o.lstart 3)
  | 0x034 => some (mget 0 o.lend 0)
  | 0x035 => some (mget 0 o.lend 1)
  | 0x036 => some (mget 0 o.lend 2)
  | 0x037 => some (mget 0 o.lend 3)
  | 0x038 => some (mget 0 o.lcount 0)
  | 0x039 => some (mget 0 o.lcount 1)
  | 0x03A => some (mget 0 o.lcount 2)
  | 0x03B => some (mget 0 o.lcount 3)
  | 0x03C => some (BitVec.ofNat 64 o.ldepth)
  | 0x040 => some (BitVec.ofNat 64 o.eqhead)
  | 0x041 => some (BitVec.ofNat 64 o.eqcount)
  | 0x050 => some o.wid
  | 0x051 => some o.widw
  | 0x060 => some o.nfcnt
  | 0x061 => some o.satcnt
  | 0x070 => some s.lockq
  | 0x071 => some o.tier
  | 0x072 => some o.dline
  | _ => none

/-- STATUS bits that hold state (R47): TM, PTM, PLD. [DEDUCED, log 74] -/
def statusMask : W64 := 0x73
/-- CAUSE bits that hold state (R48): the code and the TRAP immediate. [DEDUCED, log 74] -/
def causeMask : W64 := 0xFFFF00FF
/-- WIDW bits that hold state (R53). [DEDUCED, log 74] -/
def widwMask : W64 := 0x1FFFFFFFFFFF

/-- TIER after a write (R56): a value below the cap writes the cap; bits [63:2] are reserved. [DEDUCED, log 74] -/
def tierWrite (cap : Nat) (v : W64) : W64 := BitVec.ofNat 64 (max (v.toNat % 4) cap)

/-- The executing ostler after a CSR write (R46-R56, R292); RO and computed CSRs ignore it. [DEDUCED, log 74] -/
def Ostler.csrSet (o : Ostler) (cap c : Nat) (v : W64) : Ostler :=
  match c with
  | 0x000 => { o with status := v &&& statusMask }
  | 0x001 => { o with tvec := v }
  | 0x002 => { o with epc := v }
  | 0x003 => { o with cause := v &&& causeMask }
  | 0x004 => { o with tval := v }
  | 0x020 => { o with rngkey := v }
  | 0x021 => { o with rngctr := v }
  | 0x030 => { o with lstart := mset 0 o.lstart 0 v }
  | 0x031 => { o with lstart := mset 0 o.lstart 1 v }
  | 0x032 => { o with lstart := mset 0 o.lstart 2 v }
  | 0x033 => { o with lstart := mset 0 o.lstart 3 v }
  | 0x034 => { o with lend := mset 0 o.lend 0 v }
  | 0x035 => { o with lend := mset 0 o.lend 1 v }
  | 0x036 => { o with lend := mset 0 o.lend 2 v }
  | 0x037 => { o with lend := mset 0 o.lend 3 v }
  | 0x038 => { o with lcount := mset 0 o.lcount 0 v }
  | 0x039 => { o with lcount := mset 0 o.lcount 1 v }
  | 0x03A => { o with lcount := mset 0 o.lcount 2 v }
  | 0x03B => { o with lcount := mset 0 o.lcount 3 v }
  | 0x03C => { o with ldepth := min v.toNat 4 }
  | 0x050 => { o with wid := v }
  | 0x051 => { o with widw := v &&& widwMask }
  | 0x060 => { o with nfcnt := v }
  | 0x061 => { o with satcnt := v }
  | 0x071 => { o with tier := tierWrite cap v }
  | 0x072 => { o with dline := v }
  | _ => o

/-- CSRW, CSRS and CSRC: the old value to xd, the new one to the CSR (R292). It acts from the next word on: the loop stack's step
after this word still uses the values before it (R49, R288). [DEDUCED, log 26] -/
def State.csrWrite (s : State) (d : Reg) (c : BitVec 12) (f : W64 → W64) : State :=
  match s.csr c.toNat with
  | some old =>
    let t := s.ret d old
    t.setCur (t.cur.csrSet (s.ctx s.ctxId).tcap c.toNat (f old))
  | none => s.illegal

/-- TRAP (R290): commits, the loop stack acts, then trap entry with EPC its result. -/
def execTrap (i : BitVec 16) (s : State) : Out :=
  let s' := s.commit
  .next (s'.trapWith (BitVec.ofNat 64 (cTRAP + i.toNat * 65536)) 0 s'.cur.pc)

/-- ERET (R291): ILLEGAL outside a handler. -/
def execEret (s : State) : Out := if s.cur.tm then .next (s.setCur s.cur.eret) else .next s.illegal

/-- CSRR (R292). -/
def execCsrr (d : Reg) (c : BitVec 12) (s : State) : Out :=
  match s.csr c.toNat with
  | some v => .next (s.ret d v)
  | none => .next s.illegal

/-- CSRW (R292). -/
def execCsrw (d a : Reg) (c : BitVec 12) (s : State) : Out := .next (s.csrWrite d c fun _ => s.rx a)
/-- CSRS (R292). -/
def execCsrs (d a : Reg) (c : BitVec 12) (s : State) : Out := .next (s.csrWrite d c fun v => v ||| s.rx a)
/-- CSRC (R292). -/
def execCsrc (d a : Reg) (c : BitVec 12) (s : State) : Out := .next (s.csrWrite d c fun v => v &&& ~~~(s.rx a))

/-- What a release makes performed for the issuer (R293): maintenance, dirty lines home, at SYSTEM scope dirty
peer lines to their modules. -/
def State.releaseAll (s : State) (sc : Nat) : State :=
  let s1 := (s.maintAll s.agent).writebackAll s.agent
  if sc = 4 then s1.returnPeer s.agent else s1

/-- FENCE (R293): kind 0 ACQ, 1 REL, 2 FULL. -/
def execFence (k : BitVec 2) (sc : BitVec 3) (s : State) : Out :=
  if k.toNat ≤ 2 ∧ sc.toNat ≤ 4 then
    let s1 := s.maintAll s.agent
    let s2 := if k = 0 then s1 else s1.releaseAll sc.toNat
    if k = 0 ∨ s2.deltasDone s.agent then
      let s3 := if k = 1 then s2 else s2.dropLeased s.agent
      .next s3.commit
    else .next (s2.waitOn (.fence k sc) 1 [])
  else .next s.illegal

/-- WAIT (R294). -/
def execWait (a : Reg) (s : State) : Out :=
  if s.rx a ≤ s.fcycle ∨ 0 < s.cur.eqcount then .next s.commit else .next (s.waitOn (.wait a) 1 [])

/-- HALT (R295): fetching stops; the word has committed. [DEDUCED, log 75] -/
def execHalt (s : State) : Out :=
  let s' := s.commit
  .next (s'.setCur { s'.cur with run := .halted })

/-- RKEY (R300). -/
def execRkey (a b : Reg) (s : State) : Out :=
  .next (s.setCur { s.cur with rngkey := s.rx a, rngctr := s.rx b }).commit

/-- RDRAW (R301). -/
def execRdraw (d : Reg) (s : State) : Out :=
  let o := s.cur
  .next ((s.setCur { o with rngctr := o.rngctr + 1 }).ret d ((rng o.rngkey o.rngctr).zeroExtend 64))

/-- ILLEGAL (R274): the word in TVAL. -/
def execIllegal (w : W32) (s : State) : Out := .next (s.trap cILLEGAL (w.zeroExtend 64))

/-- FETCH (R275): EPC and TVAL the fetch address. -/
def execFetch (s : State) : Out := .next (s.trap cFETCH s.cur.pc)

end Sys2Proof.Machine
end

