-- ==== Sys2Proof/Machine/Nvme.lean ====
section
/-! DEFINITION. The NVMe engine (R101, R155, R156, R241, R403), offload entries and their copies (R178, R179, R404, R406),
and XLOC (R405). Drives are outside: a completion brings their status and data. -/

namespace Sys2Proof.Machine

/-- A slice engine of a die, as the agent that updates tables (R83). -/
def agentSlice (die : Nat) : Nat := die * 4096 + 128

/-- The NVMe engine, as the writer of its deltas (R117). -/
def agentNvme : Nat := 8 * 4096

/-! ### NVRD and NVWR (R403) -/

/-- [DESIGN CHOICE, log 19] -/
def lbaSize (pair : Nat) : Nat := if Config.lba4k pair then 4096 else 512

/-- Commands outstanding on a pair. -/
def State.outstanding (s : State) (pair : Nat) : Nat := (s.nvme.filter fun c => c.pair == pair).length

/-- The first bad packet or line of physical ranges read at home: its cause, or 0. -/
def State.rangesBad (s : State) (rs : List (Nat × Nat × Bool)) : Nat × State :=
  rs.foldl (fun (c, s) (a, n, _) =>
    match s.engineRead a n with
    | (.ok _, t) => (c, t)
    | (.error (e, _), t) => (if c = 0 then e else c, t)) (0, s)

/-- NVRD and NVWR (R403, R155): NVWR verifies every packet before it sends. The rings of the pairs stand outside State.
[DESIGN CHOICE, log 19] -/
def State.nvIssue (s : State) (write : Bool) (d a b c : Reg) : State :=
  let va := (s.rx a).toNat
  let w := (s.rx c).toNat
  let pair := bits w 5 0
  let nlb := bits w 23 8 + 1
  let n := nlb * lbaSize pair
  if va % 4096 ≠ 0 ∨ !(s.ctx s.ctxId).nvqp.getLsbD pair ∨ 2 ^ 21 < n then s.status d stBADARG
  else
    s.whenHere (if write then .nvwr d a b c else .nvrd d a b c) va n (
    match s.piecesOf s.agent s.ctxId (!write) va n with
    | .error _ => s.status d stRANGE
    | .ok ps =>
      let rs := splitRanges ps
      if rs.any fun (p, k, _) => !isHbm (p + k - 1) then s.status d stRANGE
      else if 1024 ≤ s.outstanding pair then s.status d stBUSY
      else
        let (bad, t) := if write then (s.walkRange s.agent s.ctxId va n).rangesBad rs else (0, s.walkRange s.agent s.ctxId va n)
        let x : NvCmd := { pair := pair, write := write, ctx := s.ctxId, die := s.who.die, n := s.who.n, va := va,
                           lba := (s.rx b).toNat, nlb := nlb, pas := rs, tag := BitVec.ofNat 64 (bits w 63 24),
                           failed := bad, entry := none, todo := [], copy := none }
        { t with nvme := t.nvme ++ [x] }.status d stOK)

def execNvrd (d a b c : Reg) (s : State) : Out := .next (s.nvIssue false d a b c)
def execNvwr (d a b c : Reg) (s : State) : Out := .next (s.nvIssue true d a b c)

/-- The length of data, padded with zeros or cut. [DESIGN CHOICE, log 19] -/
def fitBytes (n : Nat) (b : List Byte) : List Byte := (b ++ List.replicate n 0).take n

/-- A command with the completion entry its drive has posted, and the data of a read still to be written. -/
def NvCmd.completed (c : NvCmd) (status : Nat) (data : List Byte) : NvCmd :=
  if c.entry.isSome then c
  else
    { c with entry := some status,
             todo := if c.failed = 0 ∧ status = 0 ∧ ¬ c.write then
                 packetPieces c.pas (fitBytes (c.nlb * lbaSize c.pair) data) else [] }

/-- NVME_DONE (R156, R241). -/
def NvCmd.record (c : NvCmd) : EvRec :=
  let status := c.entry.getD 0
  mkRec 0x30 (if c.failed ≠ 0 then c.failed else if status = 0 then stOK else stBADARG) 0 4 0 c.pair c.tag (BitVec.ofNat 64 c.va)
    (BitVec.ofNat 64 (if c.failed ≠ 0 then 0 else status))

/-- A command has ended: NVME_DONE to its issuer; of a copy's command only a failure counts, the cause of a bad packet or BADARG
for an error of the drive (R404). -/
def State.nvmeOver (s : State) (c : NvCmd) : State :=
  match c.copy with
  | none => s.postOst c.die c.n c.ctx c.record
  | some idx =>
    if c.failed = 0 ∧ c.entry.getD 0 = 0 then s
    else { s with offl := s.offl.map fun x =>
      if x.ctx = c.ctx ∧ x.idx = idx ∧ x.failed = none then { x with failed := some (if c.failed ≠ 0 then c.failed else stBADARG) }
      else x }

/-- NVME_COMPLETION (R156, R241): the drive posts a completion entry for command idx, with its data for a read; the data are
written as pages and delta queues allow, and NVME_DONE follows once their deltas are applied (R117, R119).
[DESIGN CHOICE, log 19] -/
def execNvmeCompletion (idx status : Nat) (data : List Byte) (s : State) : Out :=
  match s.nvme[idx]? with
  | none => .next s
  | some c =>
    let x := c.completed status data
    let r := s.push agentNvme x.todo
    let y := { x with todo := r.2.1, failed := if r.1 = 0 then x.failed else r.1 }
    let t := r.2.2
    if y.todo = [] ∧ t.deltasDone agentNvme then .next ({ t with nvme := t.nvme.eraseIdx idx }.nvmeOver y)
    else .next { t with nvme := t.nvme.set idx y }

/-! ### Offload entries (R178, R179) -/

def ofRESIDENT : Nat := 0
def ofOUTBOUND : Nat := 1
def ofOFFLOADED : Nat := 2
def ofINBOUND : Nat := 3

/-- The virtual address of entry idx of a context. -/
def State.otAddr (s : State) (c idx : Nat) : Nat := (s.ctx c).otbase + 64 * idx

/-- STATE RESIDENT and READERS 0 in an entry. -/
def otCleared (e : Nat) : Nat := insBits (insBits e 160 2 0) 176 16 0

/-- An entry as its home holds it, RESIDENT without readers where a reset has still to say so (R179). -/
def State.otRead (s : State) (die c idx : Nat) : Option Nat × State :=
  match s.vread (agentSlice die) c (s.otAddr c idx) 64 with
  | .ok b t => (some (if s.offlClear.contains (c, idx) then otCleared (ofBytes b) else ofBytes b), t)
  | .fault _ _ t => (none, t)
  | .wait => (none, s)

def otHbm (e : Nat) : Nat := bits e 63 0
def otTarget (e : Nat) : Nat := bits e 127 64
def otLen (e : Nat) : Nat := bits e 159 128 * 4096
def otState (e : Nat) : Nat := bits e 161 160
def otReaders (e : Nat) : Nat := bits e 191 176
def otTag (e : Nat) : W64 := BitVec.ofNat 64 (bits e 255 192)

/-- An entry can be read and written at its home now (R95, R117). -/
def State.otReady (s : State) (die c idx : Nat) : Bool :=
  match s.vready (agentSlice die) c (s.otAddr c idx) 64 with
  | .wait => false
  | _ => true

/-- STATE and READERS of an entry, written by its home slice once it can be (otReady). -/
def State.otSet (s : State) (die c idx e st readers : Nat) : State :=
  match s.vwrite (agentSlice die) c (s.otAddr c idx + 20) (toBytes 4 (insBits (insBits (bits e 191 160) 0 2 st) 16 16 readers)) with
  | .ok _ t => t
  | _ => s

/-- An entry that a reset has left is RESIDENT without readers from now on, once it can be written (R179). -/
def State.otClear (s : State) (c idx : Nat) : State :=
  if s.offlClear.contains (c, idx) && s.otReady 0 c idx then
    match s.otRead 0 c idx with
    | (some e, t) => ({ t with offlClear := t.offlClear.erase (c, idx) } : State).otSet 0 c idx e ofRESIDENT 0
    | (none, t) => { t with offlClear := t.offlClear.erase (c, idx) }
  else s

/-- STATE takes a new value; READERS keeps its own. -/
def State.otSetState (s : State) (die c idx e st : Nat) : State := s.otSet die c idx e st (otReaders e)

/-- OFFL_DONE or RECALL_DONE, from the entry's home slice. [DEDUCED, log 62] -/
def State.otPost (s : State) (kind c idx e st new : Nat) (g : Nat × Nat) : State :=
  let h := match s.lookup (agentSlice g.1) c (s.otAddr c idx) with
    | .ok t => homeOf (t.addr (s.otAddr c idx))
    | .error _ => 0
  s.postOst g.1 g.2 c (mkRec kind st (h / 64) 2 (h % 64) 0 (otTag e) (BitVec.ofNat 64 idx) (BitVec.ofNat 64 new))

/-- The entry leaves OUTBOUND, with a count of readers (R179, R404, R406). [DEDUCED, log 62] -/
def State.otLeaveWith (s : State) (x : OfXfer) (e st new readers : Nat) : State :=
  let s := ({ s with offl := s.offl.filter fun y => !(y.ctx == x.ctx && y.idx == x.idx) } : State)
  let s := (s.otSet x.die x.ctx x.idx e new readers).otPost 0x31 x.ctx x.idx e st new (x.die, x.n)
  x.recalls.foldl (fun s g => s.otPost 0x32 x.ctx x.idx e stOK new g) s

def State.otLeave (s : State) (x : OfXfer) (e st new : Nat) : State := s.otLeaveWith x e st new (otReaders e)

/-- The copy in progress of an entry. -/
def State.otXfer (s : State) (c idx : Nat) : Option OfXfer := s.offl.find? fun y => y.ctx == c && y.idx == idx

/-- The entry that OFFL or RECALL names, or none for BADARG (R404). -/
def State.otEntry (s : State) (idx : Nat) : Option Nat × State :=
  let c := s.ctxId
  if (s.ctx c).otn ≤ idx then (none, s)
  else
    match s.otRead s.who.die c idx with
    | (none, t) => (none, t)
    | (some e, t) =>
      if otLen e = 0 ∨ (bit e 162 ∧ !(s.ctx c).nvqp.getLsbD (bits e 168 163)) then (none, t)
      else
        let u := t.walkRange t.agent c (otHbm e) (otLen e)
        match s.rangesOf s.agent c (fun _ => true) (otHbm e) (otLen e) with
        | some rs => (if rs.all fun (p, k) => isHbm (p + k - 1) then some e else none, u)
        | none => (none, u)

/-- A table that maps the HBM range of an entry is away (R95, R169). -/
def State.otAway (s : State) (idx : Nat) : Bool :=
  match (s.otRead s.who.die s.ctxId idx).1 with
  | some e => s.tablesAway s.agent s.ctxId (otHbm e) (otLen e)
  | none => false

/-- An instruction on an entry waits until the entry can be read and written, and its HBM range translated. -/
def State.whenEntry (s : State) (i : Instr) (idx : Nat) (f : State) : State :=
  if idx < (s.ctx s.ctxId).otn ∧ (!s.otReady s.who.die s.ctxId idx ∨ s.otAway idx) then s.waitOn i 1 [] else f

/-- OFFL (R404, R179). -/
def execOffl (d a : Reg) (s : State) : Out :=
  let idx := (s.rx a).toNat
  .next (s.whenEntry (.offl d a) idx (match s.otEntry idx with
  | (none, t) => t.status d stBADARG
  | (some e, t) =>
    if otState e ≠ ofRESIDENT then t.status d stBUSY
    else
      let t := t.otSetState s.who.die s.ctxId idx e ofOUTBOUND
      let x : OfXfer := { ctx := s.ctxId, idx := idx, outbound := true, die := s.who.die, n := s.who.n, filled := false,
                          todo := [], copied := false, recalls := [], sent := 0, failed := none }
      { t with offl := t.offl ++ [x] }.status d stOK))

/-- RECALL (R404, R179). [DEDUCED, log 62] -/
def execRecall (d a : Reg) (s : State) : Out :=
  let idx := (s.rx a).toNat
  let c := s.ctxId
  let g := (s.who.die, s.who.n)
  .next (s.whenEntry (.recall d a) idx (match s.otEntry idx with
  | (none, t) => t.status d stBADARG
  | (some e, t) =>
    if otState e = ofRESIDENT then (t.otPost 0x32 c idx e stOK ofRESIDENT g).status d stOK
    else if otState e = ofOUTBOUND then
      match t.otXfer c idx with
      | some x =>
        let y := { x with recalls := x.recalls ++ [g] }
        if x.copied then (t.otLeave y e stOK ofRESIDENT).status d stOK
        else { t with offl := t.offl.map fun z => if z = x then y else z }.status d stOK
      | none => t.status d stOK
    else if otState e = ofOFFLOADED then
      let t := t.otSetState s.who.die c idx e ofINBOUND
      let x : OfXfer := { ctx := c, idx := idx, outbound := false, die := g.1, n := g.2, filled := false,
                          todo := [], copied := false, recalls := [], sent := 0, failed := none }
      { t with offl := t.offl ++ [x] }.status d stOK
    else t.status d stBUSY))

/-- Bytes to be written at a virtual address, as pieces. -/
def State.piecesAt (s : State) (ag c va : Nat) (b : List Byte) : Eng Pieces :=
  if s.rangeAway ag c va b.length then .wait
  else
    match s.piecesOf ag c true va b.length with
    | .error (e, a) => .fault e a (s.walkRange ag c va b.length)
    | .ok ps => .ok (packetPieces (splitRanges ps) b) (s.walkRange ag c va b.length)

/-- What a copy to or from host memory has to write once its source has been read (R404, R88). -/
def State.otCopy (s : State) (x : OfXfer) (e : Nat) : Eng Pieces :=
  let ag := agentSlice x.die
  if x.filled then .ok x.todo s
  else if x.outbound then (s.vread ag x.ctx (otHbm e) (otLen e)).then_ fun b t => t.piecesAt ag x.ctx (otTarget e) b
  else (s.vread ag x.ctx (otTarget e) (otLen e)).then_ fun b t => t.piecesAt ag x.ctx (otHbm e) b

/-- The pair of an entry with TGT 1 (R178). -/
def otPair (e : Nat) : Nat := bits e 168 163

/-- The commands of a copy that are outstanding at a drive. -/
def State.otOut (s : State) (x : OfXfer) : Bool := s.nvme.any fun c => c.ctx == x.ctx && c.copy == some x.idx

/-- The copy of an entry, changed. -/
def State.setOffl (s : State) (x y : OfXfer) : State := { s with offl := s.offl.map fun z => if z = x then y else z }

/-- The next command of a copy to or from a drive: at most 2 MiB, from LBA TADDR on, on pair QP, in HBM through the home slices; a
Write verifies its packets before it sends (R404, R155, R241). -/
def State.otSend (s : State) (x : OfXfer) (e : Nat) : State :=
  let pair := otPair e
  let n := min (2 ^ 21) (otLen e - x.sent)
  let va := otHbm e + x.sent
  if 1024 ≤ s.outstanding pair ∨ s.rangeAway (agentSlice x.die) x.ctx va n then s
  else
    match s.piecesOf (agentSlice x.die) x.ctx (!x.outbound) va n with
    | .error (c, _) => s.setOffl x { x with failed := some c }
    | .ok ps =>
      let rs := splitRanges ps
      let (bad, t) := if x.outbound then (s.walkRange (agentSlice x.die) x.ctx va n).rangesBad rs
        else (0, s.walkRange (agentSlice x.die) x.ctx va n)
      if bad ≠ 0 then t.setOffl x { x with failed := some bad }
      else
        let c : NvCmd := { pair := pair, write := x.outbound, ctx := x.ctx, die := x.die, n := x.n, va := va,
                           lba := otTarget e + x.sent / lbaSize pair, nlb := n / lbaSize pair, pas := rs, tag := otTag e,
                           failed := 0, entry := none, todo := [], copy := some x.idx }
        { t with nvme := t.nvme ++ [c] }.setOffl x { x with sent := x.sent + n }

/-- A copy fails: its entry returns to the state before it (R404). -/
def State.otFail (s : State) (x : OfXfer) (e st : Nat) : State :=
  if x.outbound then s.otLeave x e st ofRESIDENT
  else ({ s with offl := s.offl.filter (· != x) }.otSetState x.die x.ctx x.idx e ofOFFLOADED).otPost 0x32 x.ctx x.idx e st
    ofOFFLOADED (x.die, x.n)

/-- A copy is whole and its deltas are applied (R179, R227). -/
def State.otFinish (s : State) (x : OfXfer) (e : Nat) : State :=
  if x.outbound then
    if x.recalls ≠ [] then s.otLeave x e stOK ofRESIDENT
    else if otReaders e = 0 then s.otLeave x e stOK ofOFFLOADED
    else s.setOffl x { x with filled := true, todo := [], copied := true }
  else ({ s with offl := s.offl.filter (· != x) }.otSetState x.die x.ctx x.idx e ofRESIDENT).otPost 0x32 x.ctx
    x.idx e stOK ofRESIDENT (x.die, x.n)

/-- Every delta of a copy's writes is applied (R227). -/
def State.otSettled (s : State) (x : OfXfer) : Bool := s.deltasDone (agentSlice x.die) && s.deltasDone agentNvme

/-- A copy goes on, as pages, delta queues and the drive allow, and ends once its deltas are applied (R179, R404, R227). -/
def State.otGo (s : State) (ctx idx : Nat) : Out :=
  match s.otXfer ctx idx with
  | none => .next (s.otClear ctx idx)
  | some x =>
    if x.copied ∨ !s.otReady x.die ctx idx then .next s
    else
      match s.otRead x.die ctx idx with
      | (none, t) => .next t
      | (some e, t) =>
        match x.failed with
        | some c => .next (if t.otOut x ∨ !t.otSettled x then s else t.otFail x e c)
        | none =>
          if bit e 162 then
            .next (if x.sent < otLen e then t.otSend x e else if t.otOut x ∨ !t.otSettled x then s else t.otFinish x e)
          else
            match t.otCopy x e with
            | .wait => .next s
            | .fault c _ t => .next (t.setOffl x { x with failed := some c })
            | .ok ps t =>
              let r := t.push (agentSlice x.die) ps
              if r.1 ≠ 0 then .next (r.2.2.setOffl x { x with todo := [], failed := some r.1 })
              else if r.2.1 = [] ∧ r.2.2.otSettled x then .next (r.2.2.otFinish x e)
              else .next (r.2.2.setOffl x { x with filled := true, todo := r.2.1 })

/-- The oldest command of a copy that its drive has still to complete. -/
def State.otCommand (s : State) (ctx idx : Nat) : Option Nat :=
  s.nvme.findIdx? fun c => c.ctx == ctx && c.copy == some idx && c.entry.isNone

/-- OFFLOAD_TRANSFER_DONE (R179, R404): where the copy awaits its drive, the drive completes the oldest command of it, with its data for
a read, as NVME_COMPLETION does (R156); else the copy goes on, to its end where that has come. [DESIGN CHOICE, log 19] -/
def execOffloadTransferDone (ctx idx status : Nat) (data : List Byte) (s : State) : Out :=
  match s.otCommand ctx idx with
  | some k => execNvmeCompletion k status data s
  | none => s.otGo ctx idx

/-! ### Stream commands that read an offloaded range (R179) -/

/-- The STATE of an entry as its home holds it. -/
def State.otStateOf (s : State) (die c i : Nat) : Nat :=
  match (s.otRead die c i).1 with
  | some e => otState e
  | none => ofRESIDENT

/-- The entries of a context whose HBM ranges hold one of the given addresses. -/
def State.otFind (s : State) (die c : Nat) (vas : List Nat) : List Nat :=
  (List.range (s.ctx c).otn).filter fun i =>
    match (s.otRead die c i).1 with
    | some e => vas.any fun v => otHbm e ≤ v && v < otHbm e + otLen e
    | none => false

/-- A reader starts: it counts in READERS of every entry that is OUTBOUND. -/
def State.otStart (s : State) (die c : Nat) (es : List Nat) : List Nat × State :=
  let rs := es.filter fun i => s.otStateOf die c i == ofOUTBOUND
  (rs, rs.foldl (fun s i =>
    match s.otRead die c i with
    | (some e, t) => t.otSet die c i e (otState e) (otReaders e + 1)
    | (none, t) => t) s)

/-- A reader of an entry ends; the last one of a copy that is done makes the entry OFFLOADED. -/
def State.otEndOne (s : State) (die c i : Nat) : State :=
  match s.otRead die c i with
  | (none, t) => t
  | (some e, t) =>
    let n := otReaders e - 1
    match t.otXfer c i with
    | some x => if x.copied && n == 0 then t.otLeaveWith x e stOK ofOFFLOADED n else t.otSet die c i e (otState e) n
    | none => t.otSet die c i e (otState e) n

def State.otEnd (s : State) (die c : Nat) (rs : List Nat) : State := rs.foldl (fun s i => s.otEndOne die c i) s

/-- Every entry that a reader ends in can be written now. -/
def State.otCan (s : State) (die c : Nat) (rs : List Nat) : Bool := rs.all (s.otReady die c)

/-- XLOC (R405). -/
def execXloc (d a b : Reg) (s : State) : Out :=
  .next ((s.readBlock (s.rx a).toNat 272 16).orBad (.xloc d a b) d fun m t =>
    if 2 ^ 32 ≤ (s.rx b).toNat then t.status d stRANGE
    else
      match xloc m (s.rx b).toNat with
      | .ok va => t.ret d (BitVec.ofNat 64 (va * 256 + stOK))
      | .error e => t.ret d (BitVec.ofNat 64 e))

end Sys2Proof.Machine
end

