-- ==== Sys2Proof/Machine/RowPad.lean ====
section
/-! DEFINITION. Scratchpad row ops (R343, R77-R79), BACK (R347, R163) and VOPT (R335). -/

namespace Sys2Proof.Machine

/-- Scratchpad bytes of a split (R77). -/
def splitBytes (sp : Nat) : Nat := 98304 - 16384 * sp

/-- Bytes an access moves: 256, or 4 in a narrow row (R343). -/
def accBytes (w : RowMods) : Nat := if w.pl = 1 then 4 else 256

/-- The scratchpad address of a row (R343). -/
def padAddr (w : RowMods) (v : Vec) : Nat := ((lane v 0).toNat + w.imm.toNat % 2 ^ 32) % 2 ^ 32

/-- ALIGN, then PERM, of a scratchpad access (R77), then ECC where it meets poison (R105): a read, and a write of part of a
vector. -/
def padFault (p : Pen) (pe : PE) (w : RowMods) (addr : Nat) (whole : Bool) : Option Nat :=
  if addr % accBytes w ≠ 0 then some cALIGN
  else if splitBytes p.split < addr + accBytes w then some cPERM
  else if mget false pe.ecc (addr / 256) && !whole then some cECC
  else none

/-- The packet of an access's vector was discarded: the row that would have read it faults SCALESTEP (R206).
[DEDUCED, log 48] -/
def PE.discarded (p : PE) (addr : Nat) : Bool := mget false p.bad (addr / 256)

/-- Full bits of the scratchpad words an access touches. -/
def fullMask (addr n : Nat) : BitVec 3072 :=
  BitVec.ofNat 3072 ((2 ^ ((addr + n - 1) / 32 + 1 - addr / 32) - 1) * 2 ^ (addr / 32))

def PE.isFull (p : PE) (addr n : Nat) : Bool := p.full &&& fullMask addr n == fullMask addr n

/-- What a load of the scratchpad reads: a vector, or one word in lane 0. -/
def PE.padLoad (p : PE) (w : RowMods) (addr : Nat) : Vec :=
  if w.pl = 1 then mkLanes fun k => if k = 0 then lane (p.pad (addr / 256)) (addr % 256 / 4) else 0
  else p.pad (addr / 256)

/-- The first STS into the FREE slot FILL of a DIRN 1 handle makes it FILLING (R163). [DEDUCED, log 55] -/
def Handle.noteStore (h : Handle) (v : Nat) : Handle :=
  if h.en && h.dirn && h.vecAt h.fill 0 ≤ v && v < h.vecAt h.fill h.vecs && h.state h.fill == slotFREE then
    h.setState h.fill slotFILLING
  else h

/-- Enabled lanes of a vector are written into the scratchpad; the full bit of every word in which a byte is written is
set (R343, R78). -/
def PE.padWrite (p : PE) (v : Nat) (m : W64) (x : Vec) : PE :=
  if m = 0 then p
  else
    let full := iter (fun k (f : BitVec 3072) =>
      if (m.extractLsb' (8 * k) 8) = 0 then f else f ||| BitVec.ofNat 3072 (2 ^ (8 * v + k))) 8 p.full
    { p with spad := mset 0 p.spad v (mergeLanes m x (p.pad v)), full := full, bad := mset false p.bad v false,
             ecc := if m = BitVec.allOnes 64 then mset false p.ecc v false else p.ecc,
             handles := iter (fun h t => mset Handle.reset t h ((mget Handle.reset t h).noteStore v)) 16 p.handles }

/-- LDS and LDSS once their row commits (R343): LDSS with AUX[0] clears the full bits it tested. -/
def State.padRead (s : State) (o : Op) (w : RowMods) (consume : Bool) : State :=
  s.row o w fun x t =>
    let addr := padAddr w x.a
    match padFault x.pen x.pe w addr false with
    | some c => .fault c addr (accBytes w)
    | none =>
      if x.pe.discarded addr then .fault cSCALESTEP addr (accBytes w) else
      let t := if consume then
          t.setMyPe { t.myPe with full := t.myPe.full &&& ~~~(fullMask addr (accBytes w)) } else t
      .go t (some (x.pe.padLoad w addr)) x.mask 0 0

def execLds (w : RowMods) (s : State) : Out := .next (s.padRead .lds w false)
def execLdss (w : RowMods) (s : State) : Out := .next (s.padRead .ldss w (bit (auxOf w) 0))

/-- STS (R343). -/
def execSts (w : RowMods) (s : State) : Out :=
  .next (s.row .sts w fun x t =>
    let addr := padAddr w x.b
    match padFault x.pen x.pe w addr (x.mask == 0 || (w.pl != 1 && x.mask == BitVec.allOnes 64)) with
    | some c => .fault c addr (accBytes w)
    | none =>
      let k := addr % 256 / 4
      let p := if w.pl = 1 then
          t.myPe.padWrite (addr / 256) (if x.acts then BitVec.ofNat 64 (2 ^ k) else 0) (splat (lane x.a 0))
        else t.myPe.padWrite (addr / 256) x.mask x.a
      .go (t.setMyPe p) none x.mask 0 0)

/-- Every window on a handle starts the next slot (R62, R347). -/
def PE.rewind (p : PE) (h : Nat) : PE :=
  iter (fun k p => if (p.window k).hid = h then p.setWindow k { p.window k with pos := 0 } else p) 4 p

/-- BACK on handle h (R163, R78, R62). [DEDUCED, log 55] -/
def PE.back (p : PE) (h : Nat) : PE :=
  let x := p.handle h
  if x.dirn then
    if x.state x.fill = slotFILLING then
      p.setHandle h { x.setState x.fill slotFULL with fill := (x.fill + 1) % x.slots }
    else p
  else if x.state x.head = slotFULL ∨ x.state x.head = slotDRAINING then
    let q := (p.setHandle h { x.setState x.head slotFREE with head := (x.head + 1) % x.slots }).rewind h
    { q with full := q.full &&& ~~~(fullMask (256 * x.vecAt x.head 0) (256 * x.vecs)),
             bad := q.bad.filter fun e => !(x.vecAt x.head 0 ≤ e.1 && e.1 < x.vecAt x.head x.vecs) }
  else p

/-- The engine takes a slot that BACK frees in an fc from the next fc on (R164). -/
def PE.noteFreed (p : PE) (h fc k : Nat) : PE := p.setHandle h { p.handle h with freed := some (fc, k) }

/-- BACK (R347). -/
def execBack (w : RowMods) (s : State) : Out :=
  .next (s.rowDo .back w fun x t =>
    if x.acts then
      let h := x.aux % 16
      t.setMyPe ((t.myPe.back h).noteFreed h s.fcycle.toNat (t.myPe.handle h).head)
    else t)

/-- One lane of VOPT (R335): the weight, and the moments of a finite gradient. -/
def optLane (x : RowCx) (imm : W64) (g wt m v : W32) : W32 × Option (W32 × W32) :=
  let c (k : Nat) : Val := fp (mget 0 x.pe.c k)
  let one : Val := .fin false 1 0
  let gv := fp g
  if gv.isNan || gv.isInf then (wt, none)
  else
    let b1 := c 3
    let b2 := fp (imm.extractLsb' 32 32)
    let m' := r32 (Val.add (Val.mul b1 (fp m)) (Val.mul (Val.add one b1.neg) gv))
    let v' := r32 (Val.add (Val.mul b2 (fp v)) (Val.mul (Val.mul (Val.add one b2.neg) gv) gv))
    let q := r32 (Val.add (fp (r32 (vsqrt (fp v')))) (c 1))
    let step := Val.mul (c 0) (fp (r32 (vdiv (fp m') (fp q))))
    (r32 (Val.add (Val.add (fp wt) step.neg) (Val.mul (c 2) (fp wt)).neg), some (m', v'))

/-- VOPT (R335): the moments are written as an STS would write them, at the end of the row. -/
def execVopt (w : RowMods) (s : State) : Out :=
  .next (s.row .vopt w fun x t =>
    let im := bits w.imm.toNat 8 0
    let iv := bits w.imm.toNat 24 16
    let top := splitBytes x.pen.split / 256
    if top ≤ im then .fault cPERM (256 * im) 256
    else if top ≤ iv then .fault cPERM (256 * iv) 256
    else if mget false x.pe.ecc im then .fault cECC (256 * im) 256
    else if mget false x.pe.ecc iv then .fault cECC (256 * iv) 256
    else
      let pm := x.pe.pad im
      let pv := x.pe.pad iv
      let r (k : Nat) := optLane x w.imm (lane x.a k) (lane x.b k) (lane pm k) (lane pv k)
      let fin : W64 := BitVec.ofNat 64 (iter (fun k a => if (r k).2.isSome then a + 2 ^ k else a) 64 0)
      let mom (f : W32 × W32 → W32) : Vec := mkLanes fun k =>
        match (r k).2 with
        | some p => f p
        | none => 0
      let p := (t.myPe.padWrite im (x.mask &&& fin) (mom Prod.fst)).padWrite iv (x.mask &&& fin) (mom Prod.snd)
      .go (t.setMyPe p) (some (mkLanes fun k => (r k).1)) x.mask
        ((List.range 64).filter fun k => x.mask.getLsbD k && !fin.getLsbD k).length 0)

end Sys2Proof.Machine
end

