-- ==== Sys2Proof/Machine/Stream.lean ====
section
/-! DEFINITION. Stream engines (R151, R152, R204, R206, R241, R360-R368, R371, R374, R375): ports, transfers and their packets,
slots they fill and drain, peer chunks, and the end of a command or program. -/

namespace Sys2Proof.Machine

def progKey (die eng k : Nat) : Nat := (die * 16 + eng) * 16 + k
def portKey (pk port : Nat) : Nat := pk * 64 + port
def State.prog (s : State) (k : Nat) : Prog := mget Prog.reset s.progs k
def State.setProg (s : State) (k : Nat) (p : Prog) : State := { s with progs := mset Prog.reset s.progs k p }
/-- Die and agent of a program slot's engine. -/
def progDie (k : Nat) : Nat := k / 256
def progAgent (k : Nat) : Nat := agentEng (k / 256) (k / 16 % 16)

/-! ### Ports (R151, R267) -/

/-- The handle behind a port of a pen's image; none for an unmapped port. -/
def State.portOf (s : State) (pk port : Nat) : Option PortMap :=
  let p := s.pen pk
  if p.valid && p.hasImage then mget none p.ports port else none

/-- Deliveries move while the pen is loaded, running or retired; they pause while it is pre-empted or stopped (R365). -/
def Pen.live (p : Pen) : Bool := p.valid && p.run != 3 && !p.pre && p.stop == .none

def State.queueOf (s : State) (pk port : Nat) : List SCmd := mget [] s.portQ (portKey pk port)
def State.boundTo (s : State) (pk port : Nat) : Option Nat := mget none s.portBind (portKey pk port)
def State.setBound (s : State) (pk port : Nat) (x : Option Nat) : State :=
  { s with portBind := mset none s.portBind (portKey pk port) x }
def State.setQueueOf (s : State) (pk port : Nat) (l : List SCmd) : State :=
  { s with portQ := mset [] s.portQ (portKey pk port) l }

/-- A program's port binding ends (R372). -/
def State.unbind (s : State) (k : Nat) : State :=
  match (s.prog k).dest with
  | .port d p port => if s.boundTo (penKey d p) port = some k then s.setBound (penKey d p) port none else s
  | _ => s

/-! ### Pattern, delivery order and packets (R361, R362, R364) -/

/-- Elements of a window. -/
def winTotal (n : Nat) (counts : SMap Nat) : Nat := iter (fun k a => a * mget 0 counts k) n 1

/-- Index k of the element at a place of the delivery order. -/
def deliverIdx (xpose : Bool) (starts counts : SMap Nat) (q k : Nat) : Nat :=
  let c (m : Nat) : Nat := mget 0 counts m
  let below : Nat :=
    if xpose then (if k = 0 then c 1 else if k = 1 then 1 else iter (fun m a => a * c m) k 1)
    else iter (fun m a => a * c m) k 1
  mget 0 starts k + q / below % c k

/-- Element number of the element at a place of the delivery order (R361). -/
def Xfer.number (x : Xfer) (q : Nat) : Nat :=
  if x.xpose then q else Lay.number x.src.lay (deliverIdx false x.starts x.counts q)

def Xfer.lay (x : Xfer) : Lay := x.src.lay
def Xfer.total (x : Xfer) : Nat := winTotal x.lay.ndim x.counts
def Xfer.es (x : Xfer) : Nat := elemSize x.lay.fmt

/-- The places in delivery order that the next packet holds (R361). -/
def Xfer.packet (x : Xfer) : List Nat :=
  ((List.range (min (256 / x.es) (x.total - x.pos))).map (x.pos + ·)).takeWhile fun q =>
    x.xpose || x.number q / 256 == x.number x.pos / 256

/-- The addresses of a packet's elements, or the status of a position. -/
def Xfer.addrs (x : Xfer) : Except Nat (List Nat) :=
  x.packet.mapM fun q => x.lay.addr x.src.emap.toNat (deliverIdx x.xpose x.starts x.counts q)

/-- Runs of elements that follow one another in memory. -/
def runs (es : Nat) : List Nat → List (Nat × Nat)
  | [] => []
  | a :: t =>
    match runs es t with
    | (b, n) :: r => if b = a + es then (a, n + es) :: r else (a, es) :: (b, n) :: r
    | [] => [(a, es)]

/-- Effective counts of a window, or none where it leaves the record (R360, R362). -/
def effCounts (l : Lay) (starts counts : SMap Nat) : Option (SMap Nat) :=
  (List.range l.ndim).foldl (fun (r : Option (SMap Nat)) k =>
    match r with
    | none => none
    | some m =>
      let c := mget 0 counts k
      let st := mget 0 starts k
      let c := if c = 0 then l.size k - st else c
      if c = 0 ∨ l.size k < st + c then none else some (mset 0 m k c)) (some [])

/-- The granule of a transposed read. -/
def granule (es : Nat) : Nat := if es = 1 then 32 else if es = 2 then 16 else 8

/-! ### Ending a program or command (R152, R241, R363, R371) -/

/-- The header of a packet (R204). -/
def mkHdr (fmt scale tag bfly count check slot eng port : Nat) : W64 :=
  BitVec.ofNat 64 (fmt * 2 ^ 60 + (scale % 256) * 2 ^ 52 + (tag % 256) * 2 ^ 44 + (bfly % 16) * 2 ^ 40 +
    (count - 1) % 256 * 2 ^ 32 + (check % 65536) * 2 ^ 16 + slot % 16 * 1024 + eng % 16 * 64 + port % 64)

/-- A packet enters the next vector of slot FILL (R163, R363, R78, R76); a discarded one, marked bad, leaves the bytes and full
bits of its vector alone (R206). -/
def PE.deliver (p : PE) (h vec : Nat) (body : Vec) (hdr : W64) (bad res : Bool) : PE :=
  let x := p.handle h
  let k := x.fill
  let v := x.vecAt k vec
  let x := if vec = 0 then x.setState k slotFILLING else x
  let x := if vec + 1 < x.vecs then x
    else
      let marks := if res then x.resSlots ||| BitVec.ofNat 8 (2 ^ k) else x.resSlots &&& ~~~(BitVec.ofNat 8 (2 ^ k))
      let x := { x.setState k slotFULL with fill := (k + 1) % x.slots, resSlots := marks }
      if (List.range x.slots).all marks.getLsbD then { x with res := true } else x
  let q : PE := if bad then p
    else { p with spad := mset 0 p.spad v body, hdr := mset 0 p.hdr v hdr, full := p.full ||| fullMask (256 * v) 256,
                  ecc := mset false p.ecc v false }
  ({ q with bad := mset false p.bad v bad } : PE).setHandle h x

/-- A vector leaves slot HEAD; at the slot's last byte, or when the pattern ends, the slot is FREE (R163, R363). -/
def PE.drainSlot (p : PE) (h : Nat) (last : Bool) : PE :=
  let x := p.handle h
  if last then p.setHandle h { x.setState x.head slotFREE with head := (x.head + 1) % x.slots }
  else p.setHandle h (x.setState x.head slotDRAINING)

/-- Pad vectors to the end of a FILLING slot (R363). [DEDUCED, log 49] -/
def padSlot (p : PE) (h fmt bfly slot eng port : Nat) (res : Bool) : Nat → Nat → PE
  | 0, _ => p
  | n + 1, vec =>
    if vec < (p.handle h).vecs then
      let hdr := mkHdr fmt 127 0 bfly (256 / elemSize fmt) (crc16 (List.replicate 256 0)).toNat slot eng port
      padSlot (p.deliver h vec 0 hdr false res) h fmt bfly slot eng port res n (vec + 1)
    else p

/-- The slot that a command is part of the way through is closed (R363): padded when it fills, freed when it drains.
[DEDUCED, log 49] -/
def State.closeSlot (s : State) (k : Nat) : State :=
  let g := s.prog k
  match g.dest with
  | .port d p port =>
    if g.vec = 0 then s
    else
      match s.portOf (penKey d p) port with
      | none => s.setProg k { g with vec := 0 }
      | some m =>
        let pe := s.pe (penKey d p) m.pe
        let pe := if (pe.handle m.h).dirn then pe.drainSlot m.h true
          else padSlot pe m.h g.lastFmt g.lastBfly (k % 16) (k / 16 % 16) port g.resv 128 g.vec
        (s.setPe (penKey d p) m.pe pe).setProg k { g with vec := 0, resv := true }
  | _ => s

/-- A program or command ends with a status; its record follows once its deltas are applied (R152, R371). -/
def State.endProg (s : State) (k st : Nat) : State :=
  let s := s.closeSlot k
  s.setProg k { s.prog k with done := some st }

/-- The stream fault record (R241), at its place in the context's save pool. [DEDUCED, log 77] -/
def State.faultRecAt (s : State) (k : Nat) : Nat := (s.ctx (s.prog k).ctx).poolBase + 64 * k

/-- A program or command faults at a tile or a word; its fault record and STREAM_FAULT follow (R241). [DEDUCED, log 77] -/
def State.faultProg (s : State) (k cause addr : Nat) : State :=
  let s := s.closeSlot k
  s.setProg k { s.prog k with done := some (256 + cause), faddr := addr }

/-- The stream fault record (R241). [DEDUCED, log 77] -/
def Prog.faultRec (g : Prog) : Nat :=
  let kind : Nat × Nat := match g.dest with
    | .port _ _ port => (0, port)
    | .mem _ _ => (1, 0)
    | .chunk _ _ => (2, 0)
    | .none => (3, 0)
  g.done.getD 0 % 256 + kind.2 * 2 ^ 8 + kind.1 * 2 ^ 14 + b2n g.sq * 2 ^ 16 + g.tiles % 2 ^ 32 * 2 ^ 32 +
    g.faddr % 2 ^ 64 * 2 ^ 64 + (if g.sq then g.blockVa else g.word.toNat) * 2 ^ 128 + g.bytes % 2 ^ 64 * 2 ^ 192

/-- The fault record of a slot that faulted is written, once its page is here and its deltas have room (R95, R117, R241).
[DEDUCED, log 77] -/
def State.writeRec (s : State) (k : Nat) : State :=
  let g := s.prog k
  if g.done.getD 0 < 256 ∨ g.recd then s
  else
    match s.vwrite (progAgent k) g.ctx (s.faultRecAt k) (toBytes 64 g.faultRec) with
    | .ok _ t => t.setProg k { t.prog k with recd := true }
    | .fault _ _ t => t.setProg k { t.prog k with recd := true }
    | .wait => s

/-- A slot's transfer keeps what a tile has still to write. -/
def State.setPend (s : State) (k : Nat) (x : Xfer) (p : Option Tile) : State :=
  s.setProg k { s.prog k with xfer := some { x with pend := p } }

/-- The tile that was being written when a command was cut is written to its end, which its BYTES and TILES count (R117, R152). -/
def State.pushRest (s : State) (k : Nat) : State :=
  let g := s.prog k
  match g.xfer with
  | none => s
  | some x =>
    match x.pend with
    | none => s
    | some p =>
      let r := s.push (progAgent k) p.todo
      if r.1 = 0 ∧ r.2.1 ≠ [] then r.2.2.setPend k x (some { p with todo := r.2.1 })
      else r.2.2.setProg k { g with xfer := some { x with pend := none }, tiles := g.tiles + 1, bytes := g.bytes + p.n }

/-- STREAM_DONE of a program slot. -/
def State.postDone (s : State) (k st : Nat) (tag : W64) : State :=
  let g := s.prog k
  s.postOst g.die g.n g.ctx (mkRec 0x10 st (progDie k) 1 (k / 16 % 16) (k % 16) tag (BitVec.ofNat 64 g.bytes) g.peers)

/-- A contribution in progress acknowledges nothing to a slot that has ended. -/
def State.leaveArrivals (s : State) (k : Nat) : State :=
  { s with arrs := s.arrs.map fun (x : Arrival) => if x.slot = some k then { x with slot := none } else x }

/-- The offload entries a slot's transfer counts in. -/
def Prog.readers (g : Prog) : List Nat :=
  match g.xfer with
  | some x => x.readers
  | none => []

/-- STREAM_COMMAND_DONE (R152, R371): the record of a command that has ended, once every delta of its engine's writes is
applied; the slot and the port fall free. -/
def State.streamDone (s : State) (k : Nat) : State :=
  match (s.prog k).done with
  | none => s
  | some st =>
    let s := (s.pushRest k).writeRec k
    let g := s.prog k
    if (g.xfer.bind Xfer.pend).isNone && s.deltasDone (progAgent k) && (st < 256 || g.recd) && s.otCan (progDie k) g.ctx g.readers then
      let s := if st < 256 then s.postDone k st g.tag
        else s.postOst g.die g.n g.ctx (mkRec 0x11 (st - 256) (progDie k) 1 (k / 16 % 16) (k % 16) g.tag
          (BitVec.ofNat 64 (s.faultRecAt k)) (BitVec.ofNat 64 (if g.sq then g.blockVa else g.next)))
      let s := s.otEnd (progDie k) g.ctx g.readers
      ((s.leaveArrivals k).unbind k).setProg k Prog.reset
    else s

/-! ### Starting a transfer (R362, R364, R179) -/

/-- The records of a transfer, read through the record cache (R167). -/
def State.xferRecs (s : State) (k : Nat) : Eng (RecEnt × RecEnt × RecEnt) :=
  let g := s.prog k
  let get (s : State) (h : Nat) : Eng RecEnt := s.cachedRec (progDie k) (progAgent k) g.ctx h
  (get s g.pat).then_ fun a t =>
    (if g.srec = 0 then Eng.ok RecEnt.reset t else get t g.srec).then_ fun b t =>
      match g.dest with
      | .mem h _ => (get t h).then_ fun c t => .ok (a, b, c) t
      | _ => .ok (a, b, RecEnt.reset) t

/-- The checks of R362 on the records, in its order: the effective counts, or the status. [DEDUCED, log 56, 60] -/
def State.xferCheck (s : State) (k : Nat) (src scl dst : RecEnt) : Except Nat (SMap Nat) :=
  let g := s.prog k
  let l : Lay := src.lay
  let es := elemSize l.fmt
  let mem : Bool := match g.dest with
    | .mem _ _ => true
    | _ => false
  if !src.ok ∨ (g.srec ≠ 0 ∧ !scl.ok) ∨ (mem ∧ !dst.ok) then .error stBADARG
  else
    match effCounts l g.starts g.counts with
    | none => .error stRANGE
    | some cs =>
      if g.srec ≠ 0 ∧ (effCounts scl.lay g.starts g.counts).isNone then .error stRANGE
      else if g.xpose ∧ (l.ndim < 2 ∨ mget 0 cs 0 % granule es ≠ 0 ∨ mget 0 cs 1 % granule es ≠ 0 ∨ l.fmt = 4 ∨ l.fmt = 7) then
        .error stBADARG
      else if g.srec ≠ 0 ∧ ((l.fmt ≠ 4 ∧ l.fmt ≠ 7) ∨ Lay.fmt scl.lay ≠ 8) then .error stBADARG
      else
        match g.dest with
        | .none => .error stBADARG
        | .port d p port => if (s.portOf (penKey d p) port).isNone then .error stBADARG else .ok cs
        | .mem _ _ => if Lay.fmt dst.lay ≠ l.fmt then .error stBADARG else .ok cs
        | .chunk _ _ => .ok cs

/-- The addresses a transfer reads: its elements, and for a block format the scale bytes of their blocks or the elements of the scale
stream (R364). -/
def Xfer.reads (x : Xfer) (joined : Bool) (counts : SMap Nat) : List Nat :=
  let els (l : Lay) (emap : Nat) (xpose : Bool) (counts : SMap Nat) (n : Nat) : List Nat :=
    (List.range n).filterMap fun q =>
      match l.addr emap (deliverIdx xpose x.starts counts q) with
      | .ok a => some a
      | .error _ => none
  els x.lay x.src.emap.toNat x.xpose x.counts x.total ++
    (if x.lay.fmt ≠ 4 ∧ x.lay.fmt ≠ 7 then []
     else if joined then
       let l : Lay := x.scl.lay
       let cs := (effCounts l x.starts counts).getD []
       els l x.scl.emap.toNat false cs (winTotal l.ndim cs)
     else ((List.range x.total).map fun q => x.lay.scale + x.number q / 256).eraseDups)

/-- A transfer of the slot's pattern to its destination starts; nothing while a page of its records, or an offload entry, is
away. [DEDUCED, log 60] -/
def State.startXfer (s : State) (k : Nat) : State :=
  if (s.prog k).dest = .none then s.endProg k stBADARG
  else
  match s.xferRecs k with
  | .wait => s
  | .fault c a t => t.faultProg k c a
  | .ok (src, scl, dst) t =>
    match t.xferCheck k src scl dst with
    | .error st => t.endProg k st
    | .ok cs =>
      let g := t.prog k
      let x : Xfer := { src := src, scl := scl, dst := dst, starts := g.starts, counts := cs, xpose := g.xpose, pos := 0,
                        blocks := 0, lastBlk := none, sent := [], entries := [], readers := [], acked := none, pend := none }
      let vas := x.reads (g.srec ≠ 0) g.counts
      let fill := match g.dest with
        | .port d p port =>
          (match t.portOf (penKey d p) port with
            | some m => !((t.pe (penKey d p) m.pe).handle m.h).dirn
            | none => false)
        | _ => true
      if !fill then t.setProg k { g with xfer := some x }
      else if !(t.otCan (progDie k) g.ctx (List.range (t.ctx g.ctx).otn)) then s
      else
        let es := t.otFind (progDie k) g.ctx vas
        let (rd, t) := t.otStart (progDie k) g.ctx es
        t.setProg k { t.prog k with xfer := some { x with entries := es, readers := rd } }

/-! ### Peer chunks (R374, R375) -/

/-- The staged or reduced value of element e (R375): the sum in contributor order, or the one copy. -/
def chunkElem (fmt : Nat) (vals : List Nat) : Nat :=
  if fmt = 10 then (vals.foldl (fun (a : W32) v => a + BitVec.ofNat 32 v) 0).toNat
  else
    let a := vals.foldl (fun (a : W32) v => r32 (Val.add (fp a) (decodeElem fmt v))) 0
    if fmt = 0 then a.toNat else rne fmt (fp a)

/-- The owner's ostler of a chunk record, and its context. -/
def chunkOwner (r : Nat) : Nat × Nat := (bits r 450 448, bits r 455 451)
def State.chunkCtx (s : State) (r : Nat) : Nat := (s.ostler (ostKey (bits r 450 448) (bits r 455 451))).ctx.getD 0
def chunkCount (r : Nat) : Nat := bits r 159 128
def chunkFmt (r : Nat) : Nat := bits r 163 160

/-- The contributions a chunk record has received, read from staging, in ascending order of contributors (R375). -/
def State.staged (s : State) (c r : Nat) (ag : Nat) : Eng (List (List Byte)) :=
  let n := chunkCount r * elemSize (chunkFmt r)
  ((List.range 64).filter fun i => bit r (256 + i)).foldl (fun x i =>
    x.then_ fun l t => (t.vread ag c (bits r 127 64 + i * n) n).then_ fun b t => .ok (l ++ [b]) t) (.ok [] s)

/-- The bytes of a chunk's result (R375): the one copy, or the sums. -/
def chunkResult (r : Nat) (parts : List (List Byte)) : List Byte :=
  let es := elemSize (chunkFmt r)
  if bit r 164 then
    (List.range (chunkCount r)).flatMap fun e =>
      toBytes es (chunkElem (chunkFmt r) (parts.map fun p => ofBytes ((p.drop (e * es)).take es)))
  else parts.headD []

/-- What a publication has still to write: the result, once its contributions have been read (R375). -/
def State.pubPieces (s : State) (p : Publ) : Eng Pieces :=
  match p.todo with
  | some ps => .ok ps s
  | none =>
    match s.physRead p.pa 128 with
    | (.error e, t) => .fault e p.pa t
    | (.ok r, t) =>
      let ag := agentSlice (homeOf p.pa / 64)
      (t.staged p.ctx r ag).then_ fun parts t => t.piecesAt ag p.ctx (bits r 63 0) (chunkResult r parts)

/-- The record of a publication, of a kind with two words of its own. -/
def State.pubPost (s : State) (p : Publ) (kind st : Nat) (a b : W64) : State :=
  let h := homeOf p.pa
  { s with pubs := s.pubs.filter fun x => x.pa != p.pa }.postOst p.die p.n p.ctx (mkRec kind st (h / 64) 2 (h % 64) 0 p.tag a b)

/-- A publication keeps how far it has come. -/
def State.pubKeep (s : State) (p : Publ) : State := { s with pubs := s.pubs.map fun x => if x.pa = p.pa then p else x }

/-- The slice engine of a chunk's home, the writer of its staging and its result. -/
def chunkAgent (pa : Nat) : Nat := agentSlice (homeOf pa / 64)

/-- A publication is reported once the deltas of its writes are applied (R227): STREAM_DONE, or STREAM_FAULT with the address of a
fault it met, which leaves DONE 0 (R375, R103). [DESIGN CHOICE, log 89] -/
def State.pubReport (s : State) (p : Publ) : State :=
  if !s.deltasDone (chunkAgent p.pa) then s.pubKeep p
  else match p.failed with
    | some (c, a) => s.pubPost p 0x11 c 0 (BitVec.ofNat 64 a)
    | none => s.pubPost p 0x10 p.st (BitVec.ofNat 64 p.len) p.got

/-- DONE and PART are set, once the record's line has room for deltas; the report follows (R375, R117). -/
def State.pubMark (s : State) (p : Publ) : State :=
  if s.deltaFull (p.pa / 128) then s.pubKeep p
  else
    match s.physRead (p.pa + 57) 1 with
    | (.error e, t) => t.pubReport { p with failed := some (e, p.pa) }
    | (.ok b, t) =>
      (t.physWrite (chunkAgent p.pa) (p.pa + 57) 1 (insBits b 0 2 (if p.st = stPARTIAL then 3 else 1))).pubReport
        { p with marked := true }

/-- A publication goes on as pages and delta queues allow (R375, R95, R117). -/
def State.pubStep (s : State) (pa : Nat) : State :=
  match s.pubs.find? fun p => p.pa == pa with
  | none => s
  | some p =>
    if p.failed.isSome || p.marked then s.pubReport p
    else if s.pageAway pa then s
    else
      match s.pubPieces p with
      | .wait => s
      | .fault c a t => t.pubReport { p with failed := some (c, a) }
      | .ok ps t =>
        let r := t.push (chunkAgent pa) ps
        let q := { p with todo := some r.2.1 }
        if r.1 ≠ 0 then r.2.2.pubReport { q with failed := some (r.1, pa) }
        else if r.2.1 = [] then r.2.2.pubMark q
        else r.2.2.pubKeep q

/-- Publication of a chunk (R375) begins: what its record says is fixed, and its timer is over. -/
def State.publish (s : State) (pa st : Nat) : State :=
  match s.physRead pa 128 with
  | (.error _, t) => { t with timers := t.timers.filter fun x => x.1 != pa }
  | (.ok r, t) =>
    let p : Publ := { pa := pa, st := st, die := bits r 450 448, n := bits r 455 451, ctx := t.chunkCtx r,
                      tag := BitVec.ofNat 64 (bits r 575 512), got := BitVec.ofNat 64 (bits r 319 256),
                      len := chunkCount r * elemSize (chunkFmt r), todo := none, failed := none, marked := false }
    { t with timers := t.timers.filter fun x => x.1 != pa, pubs := t.pubs ++ [p] }.pubStep pa

/-- A contribution is acknowledged: to the program slot of this module that sent it, or to its peer. -/
def State.ackSlot (s : State) (a : Arrival) (st : Nat) : State :=
  match a.slot with
  | none => s
  | some k =>
    match (s.prog k).xfer with
    | some z => s.setProg k { s.prog k with xfer := some { z with acked := some st } }
    | none => s

/-- A contribution's acknowledgement is settled; it leaves once the deltas of what was written are applied (R119). -/
def State.arrAck (s : State) (a b : Arrival) (st : Nat) : State :=
  if s.deltasDone (chunkAgent a.pa) then ({ s with arrs := s.arrs.erase a } : State).ackSlot b st
  else { s with arrs := s.arrs.replace a { b with st := some st } }

/-- A contribution comes after the publication, or is none that its record expects (R375). -/
def State.arrLate (s : State) (a : Arrival) (r : Nat) : Bool :=
  bit r 456 || !bit r (192 + a.ci) || s.pubs.any fun p => p.pa == a.pa

/-- LATE is set, and the data are dropped (R375). -/
def State.arrDrop (s : State) (a b : Arrival) (r : Nat) : State :=
  (s.physWrite (chunkAgent a.pa) (a.pa + 40) 8 (insBits (bits r 383 320) a.ci 1 1)).arrAck a b stPARTIAL

/-- A staged contribution is received (R375): GOT, the timer at the first, and the publication at the last. A record whose owner was
reset arms no timer and publishes nothing (R376). -/
def State.arrGot (s : State) (a b : Arrival) : State :=
  match s.physRead a.pa 128 with
  | (.error _, t) => t.arrAck a b stBADARG
  | (.ok r, t) =>
    if t.arrLate a r then t.arrDrop a b r
    else
      let got := insBits (bits r 319 256) a.ci 1 1
      let t := t.physWrite (chunkAgent a.pa) (a.pa + 32) 8 got
      let t := if bits r 319 256 = 0 ∧ (t.dirOf (a.pa / 128)).dead = false then
          { t with timers := t.timers ++ [(a.pa, bits r 447 384)] } else t
      let t := if got = bits r 255 192 ∧ t.timers.any fun x => x.1 == a.pa then t.publish a.pa stOK else t
      t.arrAck a b stOK

/-- A contribution's data are staged, packet by packet (R117); then it is received. -/
def State.arrPush (s : State) (a : Arrival) (ps : Pieces) : State :=
  let r := s.push (chunkAgent a.pa) ps
  let b := { a with todo := some r.2.1 }
  if r.1 ≠ 0 then r.2.2.arrAck a b stBADARG
  else if r.2.1 ≠ [] ∨ r.2.2.deltaFull (a.pa / 128) then { r.2.2 with arrs := r.2.2.arrs.replace a b }
  else r.2.2.arrGot a b

/-- arrive of R375: the oldest contribution to a chunk goes on, as pages and delta queues allow (R95, R117). -/
def State.arrStep (s : State) (pa : Nat) : State :=
  match s.arrs.find? fun a => a.pa == pa with
  | none => s
  | some a =>
    match a.st with
    | some st => s.arrAck a a st
    | none =>
      if s.pageAway pa || s.deltaFull (pa / 128) then s
      else
        match a.todo with
        | some ps => s.arrPush a ps
        | none =>
          match s.physRead pa 128 with
          | (.error _, t) => t.arrAck a a stBADARG
          | (.ok r, t) =>
            let n := chunkCount r * elemSize a.fmt
            if t.arrLate a r then t.arrDrop a a r
            else if a.data.length ≠ n ∨ a.fmt ≠ chunkFmt r then t.arrAck a a stBADARG
            else
              match t.piecesAt (chunkAgent pa) (t.chunkCtx r) (bits r 127 64 + a.ci * n) a.data with
              | .wait => s
              | .fault _ _ u => u.arrAck a a stBADARG
              | .ok ps u => u.arrPush a ps

/-- A contribution comes to its chunk's home, behind those that came before it. -/
def State.arrive (s : State) (a : Arrival) : State := ({ s with arrs := s.arrs ++ [a] } : State).arrStep a.pa

/-- A contribution that has just come. -/
def newArrival (pa ci fmt : Nat) (data : List Byte) (slot : Option Nat) : Arrival :=
  { pa := pa, ci := ci, fmt := fmt, data := data, slot := slot, todo := none, st := none }

/-- CHUNK_ARRIVAL (R374, R375): a contribution reaches the record at physical address chunk. -/
def execChunkArrival (chunk cidx fmt : Nat) (data : List Byte) (s : State) : Out :=
  if isHbm chunk ∧ chunk % 128 = 0 ∧ cidx < 64 then .next (s.arrive (newArrival chunk cidx fmt data none)) else .next s

/-- CHUNK_DEADLINE (R375): the armed timer of a record runs out, or its publication goes on. -/
def execChunkDeadline (chunk : Nat) (s : State) : Out :=
  match s.timers.find? fun x => x.1 == chunk with
  | some (_, d) => if d ≤ s.fcycle.toNat && !s.pageAway chunk then .next (s.publish chunk stPARTIAL) else .next s
  | none => .next (s.pubStep chunk)

/-! ### One tile (R152, R363, R364) -/

/-- A program's transfer has ended: the next word may execute (R371). -/
def State.xferOver (s : State) (k : Nat) (rd : List Nat) : State :=
  let s := s.otEnd (progDie k) (s.prog k).ctx rd
  s.setProg k { s.prog k with xfer := none, next := (s.prog k).next + 8 }

/-- The transfer has delivered m more elements in a tile of n bytes. -/
def State.tileDone (s : State) (k m n : Nat) : State :=
  let g := s.prog k
  match g.xfer with
  | none => s
  | some x =>
    let blk := x.number x.pos / 256
    let y := { x with pos := x.pos + m, blocks := if x.lastBlk = some blk then x.blocks else x.blocks + 1, lastBlk := some blk }
    let s := s.setProg k { g with tiles := g.tiles + 1, bytes := g.bytes + n, xfer := some y }
    if y.pos < y.total then s
    else
      match g.dest with
      | .chunk _ _ => s
      | .port d p port =>
        let drain := match s.portOf (penKey d p) port with
          | some m => ((s.pe (penKey d p) m.pe).handle m.h).dirn
          | none => false
        let s := if drain then s.closeSlot k else s
        if g.sq then s.endProg k stOK
        else s.xferOver k x.readers
      | _ =>
        if g.sq then s.endProg k stOK else s.xferOver k x.readers

/-- Bytes of a packet's elements, in order, and whether every page is RESIDENT. -/
def State.tileRead (s : State) (ag c es : Nat) (as : List Nat) : Eng (List Byte × Bool) :=
  (runs es as).foldl (fun r (va, n) =>
    r.then_ fun b t => (t.vread ag c va n).then_ fun x t =>
      let res := match t.piecesOf ag c false va n with
        | .ok ps => ps.all fun p => aRES p.2.2.2
        | .error _ => false
      .ok (b.1 ++ x, b.2 && res) t) (.ok ([], true) s)

/-- Elements written at their addresses: nothing is written unless every one can be, or when one meets a fault (R241).
[DESIGN CHOICE, log 79] -/
def State.tileWrite (s : State) (ag c es : Nat) (as : List Nat) (b : List Byte) : Eng Unit :=
  let rs := runs es as
  match rs.foldl (fun (r : Eng (List Nat)) (va, n) =>
      r.then_ fun ls t => (t.vready ag c va n).then_ fun ps t => .ok (ls ++ pieceLines ps) t) (.ok [] s) with
  | .ok ls t =>
    if t.deltaLacks ls then .wait
    else
      match rs.foldl (fun (r : Eng (List Byte)) (va, n) =>
        r.then_ fun b t => (t.vwrite ag c va (b.take n)).then_ fun _ t => .ok (b.drop n) t) (.ok b t) with
      | .ok _ t => .ok () t
      | .fault c a u => .fault c a { t with tele := u.tele }
      | .wait => .wait
  | .fault c a t => .fault c a t
  | .wait => .wait

/-- The packets of a tile whose delta queues have no room for the whole: planned, and tried at their homes first, so that a fault leaves
them all unwritten (R117, R241). [DESIGN CHOICE, log 79] -/
def State.tileOut (s : State) (ag c es : Nat) (as : List Nat) (b : List Byte) : Eng Pieces :=
  ((runs es as).foldl (fun (r : Eng (List (List (Nat × Nat × Nat × BitVec 7) × List Byte) × List Byte)) (va, n) =>
    r.then_ fun x t => (t.vplan ag c va n).then_ fun ps t => .ok (x.1 ++ [(ps, x.2.take n)], x.2.drop n) t) (.ok ([], b) s)).then_
    fun x t =>
      match x.1.foldl (fun (r : Eng Unit) (ps, b) => r.then_ fun _ u => u.vput ag ps b) (.ok () t) with
      | .fault c a u => .fault c a { t with tele := u.tele }
      | _ => .ok (x.1.flatMap fun (ps, b) => packetPieces (splitRanges ps) b) t

/-- The scale code of a packet (R364): its own block's byte, or the joined element of the scale stream; none where the
tags differ. -/
def State.tileScale (s : State) (k : Nat) (x : Xfer) : Eng (Except Nat (Option Nat)) :=
  let g := s.prog k
  let n := x.number x.pos
  let f := x.lay.fmt
  if f ≠ 4 ∧ f ≠ 7 then .ok (.ok (some 127)) s
  else if g.srec = 0 then
    (s.vread (progAgent k) g.ctx (x.lay.scale + n / 256) 1).then_ fun b t => .ok (.ok (some (ofBytes b))) t
  else
    let l : Lay := x.scl.lay
    match effCounts l x.starts g.counts with
    | none => .ok (.error stRANGE) s
    | some cs =>
      let j := if x.lastBlk = some (n / 256) then x.blocks - 1 else x.blocks
      if winTotal l.ndim cs ≤ j then .ok (.error stRANGE) s
      else
        let i := deliverIdx false x.starts cs j
        match l.addr x.scl.emap.toNat i with
        | .error e => .ok (.error e) s
        | .ok va =>
          (s.vread (progAgent k) g.ctx va 1).then_ fun b t =>
            .ok (.ok (if n / 256 % 256 = l.number i % 256 then some (ofBytes b) else none)) t

/-- An entry INBOUND keeps a reader of any part of its range before the first tile (R179); its destination slot is FILLING. -/
def State.inbound (s : State) (k : Nat) (x : Xfer) : Bool :=
  x.pos == 0 && x.entries.any fun i => s.otStateOf (progDie k) (s.prog k).ctx i == ofINBOUND

/-- An engine can take slot FILL: it is FREE, and was not freed in this fc (R163, R164). -/
def Handle.takable (h : Handle) (fc : Nat) : Bool := h.state h.fill == slotFREE && h.freed != some (fc, h.fill)

/-- A packet for a port that fills (R363, R364, R206). -/
def State.fillTile (s : State) (k pk port : Nat) (m : PortMap) (x : Xfer) (as : List Nat) : State :=
  let g := s.prog k
  let h := (s.pe pk m.pe).handle m.h
  if g.vec = 0 ∧ !h.takable s.fcycle.toNat ∧ ¬(x.pos = 0 ∧ h.state h.fill = slotFILLING) then s
  else if s.inbound k x then s.setPe pk m.pe ((s.pe pk m.pe).setHandle m.h (h.setState h.fill slotFILLING))
  else
    match s.tileRead (progAgent k) g.ctx x.es as with
    | .wait => s
    | .fault c a t => t.faultProg k c a
    | .ok (b, res) t =>
      match t.tileScale k x with
      | .wait => s
      | .fault c a t => t.faultProg k c a
      | .ok (.error st) t => t.endProg k st
      | .ok (.ok sc) t =>
        let n := x.number x.pos
        let res := res && (g.resv || g.vec == 0)
        let hdr := mkHdr x.lay.fmt (sc.getD 127) (n / 256) x.lay.bfly as.length (crc16 b).toNat (k % 16) (k / 16 % 16) port
        let v := if h.vecs ≤ g.vec + 1 then 0 else g.vec + 1
        let t := t.setPe pk m.pe ((t.pe pk m.pe).deliver m.h g.vec (vecOf b) hdr sc.isNone res)
        let t := t.setProg k { t.prog k with vec := v, resv := res, lastFmt := x.lay.fmt, lastBfly := x.lay.bfly }
        if sc.isNone then t.faultProg k cSCALESTEP (as.headD 0) else t.tileDone k as.length b.length

/-- The tile in progress has been written: a slot that was drained moves on, a cursor too (R363). -/
def State.tileWritten (s : State) (k m n : Nat) : State :=
  let g := s.prog k
  match g.dest with
  | .port d p port =>
    match s.portOf (penKey d p) port with
    | none => s.tileDone k m n
    | some pm =>
      let last := ((s.pe (penKey d p) pm.pe).handle pm.h).vecs ≤ g.vec + 1
      let t := s.setPe (penKey d p) pm.pe ((s.pe (penKey d p) pm.pe).drainSlot pm.h last)
      (t.setProg k { t.prog k with vec := if last then 0 else g.vec + 1 }).tileDone k m n
  | .mem hd cursor => (s.setProg k { g with dest := .mem hd (cursor + m) }).tileDone k m n
  | _ => s.tileDone k m n

/-- A tile's writes begin although not all of them have room (R117); nothing while its first packet has none. -/
def State.tileBegin (s t : State) (k : Nat) (x : Xfer) (as : List Nat) (b : List Byte) : State :=
  match t.tileOut (progAgent k) (s.prog k).ctx x.es as b with
  | .wait => s
  | .fault c a u => u.faultProg k c a
  | .ok ps u =>
    let r := u.push (progAgent k) ps
    if r.1 ≠ 0 then r.2.2.faultProg k r.1 (as.headD 0)
    else if r.2.1 = ps then s
    else r.2.2.setPend k x (some { m := as.length, n := b.length, va := as.headD 0, todo := r.2.1 })

/-- The writes of the tile in progress go on (R117). -/
def State.tileOn (s : State) (k : Nat) (x : Xfer) (p : Tile) : State :=
  let r := s.push (progAgent k) p.todo
  if r.1 ≠ 0 then (r.2.2.setPend k x none).faultProg k r.1 p.va
  else if r.2.1 ≠ [] then r.2.2.setPend k x (some { p with todo := r.2.1 })
  else (r.2.2.setPend k x none).tileWritten k p.m p.n

/-- A vector drained from a port into memory (R363); a poisoned one faults ECC at its scratchpad address (R105).
[DEDUCED, log 77] -/
def State.drainTile (s : State) (k pk : Nat) (m : PortMap) (x : Xfer) (as : List Nat) : State :=
  let g := s.prog k
  let pe := s.pe pk m.pe
  let h := pe.handle m.h
  let v := h.vecAt h.head g.vec
  let b := vecBytes (pe.pad v) (as.length * x.es)
  if g.vec = 0 ∧ h.state h.head ≠ slotFULL then s
  else if mget false pe.ecc v then s.faultProg k cECC (256 * v)
  else
    match s.tileWrite (progAgent k) g.ctx x.es as b with
    | .wait => s.tileBegin s k x as b
    | .fault c a t => t.faultProg k c a
    | .ok _ t => t.tileWritten k as.length (as.length * x.es)

/-- A packet from memory to memory (R363): the destination's layout order from its cursor. -/
def State.memTile (s : State) (k cursor : Nat) (x : Xfer) (as : List Nat) : State :=
  let g := s.prog k
  let l : Lay := x.dst.lay
  if s.inbound k x then s
  else if l.total < cursor + as.length then s.endProg k stRANGE
  else
    match s.tileRead (progAgent k) g.ctx x.es as with
    | .wait => s
    | .fault c a t => t.faultProg k c a
    | .ok (b, _) t =>
      match t.tileScale k x with
      | .wait => s
      | .fault c a t => t.faultProg k c a
      | .ok (.error st) t => t.endProg k st
      | .ok (.ok none) t => t.faultProg k cSCALESTEP (as.headD 0)
      | .ok (.ok (some _)) t =>
        match (List.range as.length).mapM fun i => l.addr x.dst.emap.toNat (l.index (cursor + i)) with
        | .error st => t.endProg k st
        | .ok ds =>
          match t.tileWrite (progAgent k) g.ctx x.es ds b with
          | .wait => s.tileBegin t k x ds b
          | .fault c a t => t.faultProg k c a
          | .ok _ t => t.tileWritten k as.length b.length

/-- A packet for a peer chunk: gathered until the last, then sent; a chunk of this module is staged by its own home (R375). -/
def State.chunkTile (s : State) (k va ci : Nat) (x : Xfer) (as : List Nat) : State :=
  let g := s.prog k
  match s.lookup (progAgent k) g.ctx va with
  | .error c => s.faultProg k c va
  | .ok e =>
    if s.linkDown (e.addr va) then s.faultProg k cLINK va
    else if s.inbound k x ∨ s.walkAway (progAgent k) g.ctx va then s
    else
      match s.tileRead (progAgent k) g.ctx x.es as with
      | .wait => s
      | .fault c a t => t.faultProg k c a
      | .ok (b, _) t =>
        match t.tileScale k x with
        | .wait => s
        | .fault c a t => t.faultProg k c a
        | .ok (.error st) t => t.endProg k st
        | .ok (.ok none) t => t.faultProg k cSCALESTEP (as.headD 0)
        | .ok (.ok (some _)) t =>
          let y := { x with sent := x.sent ++ b }
          let t := (t.setProg k { t.prog k with xfer := some y }).tileDone k as.length b.length
          if y.total ≤ y.pos + as.length ∧ isHbm (e.addr va) then
            t.arrive (newArrival (e.addr va) ci x.lay.fmt y.sent (some k))
          else t

/-- STREAM_TILE (R152): one turn of a program slot. -/
def State.tile (s : State) (k : Nat) : State :=
  let g := s.prog k
  if g.done.isSome then s
  else
    match g.xfer with
    | none => if g.busy && g.sq then s.startXfer k else s
    | some x =>
      if x.total ≤ x.pos ∨ !(s.otCan (progDie k) g.ctx x.readers) then s
      else if let some p := x.pend then s.tileOn k x p
      else
        match x.addrs with
        | .error st => s.endProg k st
        | .ok as =>
          match g.dest with
          | .none => s
          | .port d p port =>
            if !(s.pen (penKey d p)).live then s
            else
              match s.portOf (penKey d p) port with
              | none => s.endProg k stBADARG
              | some m =>
                if ((s.pe (penKey d p) m.pe).handle m.h).dirn then s.drainTile k (penKey d p) m x as
                else s.fillTile k (penKey d p) port m x as
          | .mem _ c => s.memTile k c x as
          | .chunk va ci => s.chunkTile k va ci x as

/-- A slot that can do nothing now skips its turn (R152). -/
def State.skips (s : State) (k : Nat) : Bool := !(s.prog k).busy || decide (s.tile k = s)

/-- The slots of an engine that come before a slot in its round (R152). -/
def State.before (s : State) (die eng slot : Nat) : List Nat :=
  let p := mget 0 s.rr (die * 16 + eng)
  (List.range ((slot + 16 - p) % 16)).map fun i => progKey die eng ((p + i) % 16)

/-- A turn of an engine's round, which falls to a slot once every slot before it skips its own (R152). -/
def State.tileTurn (s : State) (die eng slot : Nat) : State :=
  let k := progKey die eng slot
  if s.skips k || !((s.before die eng slot).all s.skips) then s
  else { s.tile k with rr := mset 0 (s.tile k).rr (die * 16 + eng) ((slot + 1) % 16) }

def execStreamTile (die eng slot : Nat) (s : State) : Out := .next (s.tileTurn die eng slot)
def execStreamCommandDone (die eng slot : Nat) (s : State) : Out := .next (s.streamDone (progKey die eng slot))

/-- CHUNK_ACK (R375): the acknowledgement of a sent contribution; status is the peer's, or the local home's own. -/
def execChunkAck (die eng slot status : Nat) (s : State) : Out :=
  let k := progKey die eng slot
  let g := s.prog k
  match g.xfer, g.dest with
  | some x, .chunk va ci =>
    if g.done.isSome ∨ x.pos < x.total ∨ !(s.otCan (progDie k) g.ctx x.readers) ∨ s.walkAway (progAgent k) g.ctx va then .next s
    else
      match s.lookup (progAgent k) g.ctx va with
      | .error c => .next (s.faultProg k c va)
      | .ok e =>
        if s.linkDown (e.addr va) then .next (s.faultProg k cLINK va)
        else
          let st := x.acked.getD status
          if x.acked.isNone ∧ isHbm (e.addr va) then .next s
          else if st = stOK then
            .next ((s.setProg k { g with peers := g.peers ||| BitVec.ofNat 64 (2 ^ ci) }).xferOver k x.readers)
          else .next (s.endProg k st)
  | _, _ => .next s

/-! ### Dispatch, cancelling and sweeping (R35, R151, R367, R371) -/

/-- The lowest free program slot of an engine. -/
def State.freeSlot (s : State) (die eng : Nat) : Option Nat :=
  ((List.range 16).map (progKey die eng)).find? fun k => !(s.prog k).busy

/-- Pattern fields of a block (R360). -/
def blockStarts (b : Line) : SMap Nat := iter (fun k m => mset 0 m k (b.extractLsb' (192 + 32 * k) 32).toNat) 6 []
def blockCounts (b : Line) : SMap Nat := iter (fun k m => mset 0 m k (b.extractLsb' (384 + 32 * k) 32).toNat) 6 []

/-- COMMAND_DISPATCH (R151): the head command of a free port takes the lowest free slot of its engine. -/
def execCommandDispatch (die pen port : Nat) (s : State) : Out :=
  let pk := penKey die pen
  match s.queueOf pk port with
  | [] => .next s
  | c :: t =>
    if (s.boundTo pk port).isSome then .next s
    else
      match s.freeSlot die c.eng with
      | none => .next s
      | some k =>
        let g : Prog := { Prog.reset with busy := true, sq := true, ctx := c.ctx, die := c.die, n := c.n,
                                          tag := c.block.extractLsb' 128 64, blockVa := c.va,
                                          pat := (c.block.extractLsb' 0 64).toNat, srec := (c.block.extractLsb' 64 64).toNat,
                                          starts := blockStarts c.block, counts := blockCounts c.block,
                                          xpose := c.block.getLsbD 576, dest := .port die pen port }
        .next ((((s.setQueueOf pk port t).setBound pk port (some k)).setProg k g).startXfer k)

/-- The records of commands that never started: TRUNCATED, with AUX0 0 and, since they took no slot, SSUB 0.
[DESIGN CHOICE, log 90] -/
def State.dropQueue (s : State) (pk port : Nat) : State :=
  ((s.queueOf pk port).foldl (fun s c =>
    s.postOst c.die c.n c.ctx (mkRec 0x10 stTRUNCATED (pk / 128) 1 c.eng 0 (c.block.extractLsb' 128 64) 0 0)) s).setQueueOf pk port []

/-- A running command or program is ended at this tile boundary. -/
def State.cutProg (s : State) (k : Nat) : State :=
  let g := s.prog k
  if g.busy && g.done.isNone then s.endProg k stTRUNCATED else s

/-- Commands and programs of a pen's ports outside the keep mask end TRUNCATED without a pad (R35, R371). -/
def State.sweepPorts (s : State) (pk keep : Nat) : State :=
  (List.range 64).foldl (fun s port =>
    if bit keep port then s
    else
      let s := if s.queueOf pk port = [] then s else s.dropQueue pk port
      match s.boundTo pk port with
      | none => s
      | some k =>
        if (s.prog k).done.isSome then s
        else (s.setProg k { s.prog k with vec := 0, swept := s.stallsOf pk }).cutProg k) s

end Sys2Proof.Machine
end

