-- ==== Sys2Proof/Machine/StreamWords.lean ====
section
/-! DEFINITION. The words of a stream program (R270-R272, R370-R373) and the turn that fetches one. A word acts in the
program slot that who names; one that waits leaves the program at its own address. -/

namespace Sys2Proof.Machine

def State.myProgK (s : State) : Nat := progKey s.who.die s.who.eng s.who.slot
def State.myProg (s : State) : Prog := s.prog s.myProgK
def State.setMyProg (s : State) (g : Prog) : State := s.setProg s.myProgK g

/-- The program goes on to its next word. -/
def State.wordDone (s : State) (f : Prog → Prog) : State :=
  s.setMyProg { f s.myProg with next := s.myProg.next + 8 }

/-- The program leaves its destination: its slot is closed and its port is free (R363, R372). -/
def State.leaveDest (s : State) : State :=
  let s := (s.closeSlot s.myProgK).unbind s.myProgK
  s.setMyProg { s.myProg with dest := .none }

/-- A pen a program names: in use, and of the program's context (R359). -/
def State.progPen (s : State) (pk : Nat) : Bool := (s.pen pk).valid && (s.pen pk).ctx == s.myProg.ctx

/-- SPAT (R372). -/
def execSpat (h : BitVec 56) (s : State) : Out :=
  .next (s.wordDone fun g => { g with pat := h.toNat, starts := [], counts := [], srec := 0, xpose := false })

/-- SDST PORT (R372): binds once the port's queue is empty and the port is free (R151). -/
def execSdstPort (port : BitVec 6) (pen : BitVec 7) (die : BitVec 3) (s : State) : Out :=
  let pk := penKey die.toNat pen.toNat
  let s := s.leaveDest
  if !s.progPen pk then .next (s.endProg s.myProgK stBADARG)
  else if s.queueOf pk port.toNat = [] ∧ s.boundTo pk port.toNat = none then
    .next ((s.setBound pk port.toNat (some s.myProgK)).wordDone fun g =>
      { g with dest := .port die.toNat pen.toNat port.toNat, vec := 0 })
  else .next s

/-- SDST MEM (R372). -/
def execSdstMem (h : BitVec 56) (s : State) : Out :=
  .next (s.leaveDest.wordDone fun g => { g with dest := .mem h.toNat 0 })

/-- START and COUNT of a dimension. -/
def Prog.window (g : Prog) (dim start count : Nat) : Prog :=
  { g with starts := mset 0 g.starts dim start, counts := mset 0 g.counts dim count }

/-- SGO SET (R372). -/
def execSgoSet (dim : BitVec 3) (start : BitVec 27) (count : BitVec 26) (s : State) : Out :=
  .next (s.wordDone fun g => g.window dim.toNat start.toNat count.toNat)

/-- SGO SETGO (R372): the next word waits for the transfer. -/
def execSgoSetgo (dim : BitVec 3) (start : BitVec 27) (count : BitVec 26) (s : State) : Out :=
  .next ((s.setMyProg (s.myProg.window dim.toNat start.toNat count.toNat)).startXfer s.myProgK)

/-- SGO GO (R372). -/
def execSgoGo (s : State) : Out := .next (s.startXfer s.myProgK)

/-- SXPOSE (R372). -/
def execSxpose (on : BitVec 1) (s : State) : Out := .next (s.wordDone fun g => { g with xpose := on == 1 })

/-- SCMB (R372). -/
def execScmb (h : BitVec 56) (s : State) : Out := .next (s.wordDone fun g => { g with srec := h.toNat })

/-- SLOOP (R373). -/
def execSloop (dim : BitVec 3) (stp : BitVec 27) (passes : BitVec 28) (s : State) : Out :=
  let g := s.myProg
  if 4 ≤ g.loops.length then .next (s.faultProg s.myProgK cSTREAM g.next)
  else
    let e : SLoop := { dim := dim.toNat, stp := stp, passes := passes.toNat, first := g.next + 8,
                       saved := mget 0 g.starts dim.toNat }
    .next (s.wordDone fun g => { g with loops := e :: g.loops })

/-- SENDL (R373). -/
def execSendl (s : State) : Out :=
  let g := s.myProg
  match g.loops with
  | [] => .next (s.faultProg s.myProgK cSTREAM g.next)
  | e :: t =>
    if 1 < e.passes then
      let v : Int := (mget (0 : Nat) g.starts e.dim : Nat) + e.stp.toInt
      .next (s.setMyProg { g with starts := mset 0 g.starts e.dim (umod 32 v), next := e.first,
                                  loops := { e with passes := e.passes - 1 } :: t })
    else .next (s.wordDone fun g => { g with starts := mset 0 g.starts e.dim e.saved, loops := t })

/-- Slots of a handle in a state. -/
def Handle.inState (h : Handle) (st : Nat) : Nat := ((List.range h.slots).filter fun k => h.state k == st).length

/-- SWAITH (R372). -/
def execSwaith (port : BitVec 6) (pen : BitVec 7) (die : BitVec 3) (st : BitVec 2) (nm1 : BitVec 3) (s : State) : Out :=
  let pk := penKey die.toNat pen.toNat
  if !s.progPen pk then .next (s.endProg s.myProgK stBADARG)
  else
    match s.portOf pk port.toNat with
    | none => .next (s.endProg s.myProgK stBADARG)
    | some m =>
      if nm1.toNat + 1 ≤ ((s.pe pk m.pe).handle m.h).inState st.toNat then .next (s.wordDone id) else .next s

/-- SEVT (R372). -/
def execSevt (tag : BitVec 56) (s : State) : Out :=
  if s.deltasDone (progAgent s.myProgK) then
    .next ((s.postDone s.myProgK stOK (tag.zeroExtend 64)).wordDone id)
  else .next s

/-- SFENCE (R372). -/
def execSfence (s : State) : Out :=
  if s.deltasDone (progAgent s.myProgK) then .next (s.wordDone id) else .next s

/-- SPEER (R372, R374). -/
def execSpeer (chunk : BitVec 49) (cidx : BitVec 6) (s : State) : Out :=
  .next (s.leaveDest.wordDone fun g => { g with dest := .chunk (chunk.toNat * 128) cidx.toNat })

/-- SDONE (R371). -/
def execSdone (s : State) : Out := .next (s.endProg s.myProgK stOK)

/-- A word of the list is fetched, once (R271, R272). -/
def State.fetchCode (s : State) (va : Nat) : Eng W64 :=
  (s.vread (progAgent s.myProgK) s.myProg.ctx va 8).then_ fun b t =>
    .ok (BitVec.ofNat 64 (ofBytes b))
      (t.setMyProg { t.myProg with code := mset none t.myProg.code va (some (BitVec.ofNat 64 (ofBytes b))) })

/-- The word a program executes next: one fetched before, or fetched now (R272). -/
def State.nextCode (s : State) : Eng W64 :=
  match mget none s.myProg.code s.myProg.next with
  | some w => .ok w s
  | none => s.fetchCode s.myProg.next

/-- The machine as a program slot acts. -/
def State.asSlot (s : State) (die eng k : Nat) : State := { s with who := { s.who with die := die, eng := eng, slot := k } }

/-- A program slot executes its next word (R271, R371); the meanings come in as ex. A list fetch that faults leaves WORD 0: R241 says
so of TRANSL and PERM alone, and this model of CHECK, ECC and LINK too. [DEDUCED, log 77; DESIGN CHOICE, log 100] -/
def State.slotTurn (ex : Instr → State → Out) (s : State) (die eng k : Nat) : Out :=
  let s := s.asSlot die eng k
  let g := s.myProg
  if !g.busy || g.sq || g.done.isSome || g.xfer.isSome then .next s
  else
    match s.nextCode with
    | .wait => .next s
    | .fault c a t => .next ((t.setMyProg { g with word := 0 }).faultProg s.myProgK c a)
    | .ok w t =>
      let t := t.setMyProg { t.myProg with word := w }
      match decodeStream w with
      | .error _ => .next (t.faultProg s.myProgK cSTREAM g.next)
      | .ok i => ex i t

/-- The engine fetches the first word it does not hold, at most 16 words ahead of the one it executes; one that cannot be read is
left until the program comes to it (R272). [DESIGN CHOICE, log 92] -/
def State.fetchAhead (s : State) (die eng k : Nat) : State :=
  let s := s.asSlot die eng k
  let g := s.myProg
  if !g.busy || g.sq || g.done.isSome then s
  else
    match (List.range 17).find? fun j => (mget none g.code (g.next + 8 * j)).isNone with
    | none => s
    | some j =>
      match s.fetchCode (g.next + 8 * j) with
      | .ok _ t => t
      | _ => s

end Sys2Proof.Machine
end

