-- ==== Sys2Proof/Machine/Evq.lean ====
section
/-! DEFINITION. The event-queue instructions (R296-R299) and the service of waiting posters (R150, R158). -/

namespace Sys2Proof.Machine

/-! ### Active slots (R134) -/

/-- The context of a job record (R135). -/
def jrCtx (r : Line) : Nat := (r.extractLsb' 66 8).toNat

/-- A job that still has tasks to issue: an entry of its launch queue and of the ready order. -/
def Job.queued (j : Job) : Bool := j.failed.isNone && decide (j.issued < j.tasks)

/-- A context keeps its active slot of a die (R134): a queued job, a pen or a derived set. -/
def State.keepsSlot (s : State) (die c : Nat) : Bool :=
  (s.jobs.any fun j => j.die == die && jrCtx j.jr == c && j.queued) ||
    (s.pens.any fun (k, p) => k / 128 == die && p.valid && p.ctx == c) ||
    (s.dsets.any fun (k, d) => k / 4096 == die && d.ctx == some c)

/-- Active slots of contexts that have lost the last of these on the die are free (R134). -/
def State.freeActive (s : State) (die : Nat) : State :=
  { s with active := s.active.filter fun (k, c) =>
      match c with
      | some c => k / 64 != die || s.keepsSlot die c
      | none => false }

/-! ### The event queue -/

/-- The head record of an ostler's queue. -/
def Ostler.headRec (o : Ostler) : EvRec := mget 0 o.queue o.eqhead

/-- The head record leaves the queue. -/
def Ostler.dequeue (o : Ostler) : Ostler :=
  { o with queue := mset 0 o.queue o.eqhead 0, eqhead := (o.eqhead + 1) % 256, eqcount := o.eqcount - 1 }

/-- What EQPOP and EQPEEK return for a record. -/
def popResult (r : EvRec) : W64 := BitVec.ofNat 64 (evStatus r * 65536 + evKind r * 256 + stOK)

/-- EQPOP and EQPEEK up to the result: the record's bytes written at x(a), or the status; the write waits for a page another
module holds and for the room of its deltas (R95, R117). -/
def State.eqHead (s : State) (i : Instr) (d a : Reg) (f : State → EvRec → State) : State :=
  let va := (s.rx a).toNat
  if va % 32 = 0 ∧ s.tablesAway s.agent s.ctxId va 32 then s.waitOn i 1 []
  else if va % 32 ≠ 0 then s.status d stBADARG
  else if ¬ s.writable va 32 then (s.walkRange s.agent s.ctxId va 32).status d stBADARG
  else if s.cur.eqcount = 0 then (s.walkRange s.agent s.ctxId va 32).status d stBUSY
  else
    let r := s.cur.headRec
    match s.writeBlock va (toBytes 32 r.toNat) with
    | .fault _ _ t => t.status d stBADARG
    | .wait => s.waitOn i 1 []
    | .ok _ t => f t r

/-- EQPOP (R296). -/
def execEqpop (d a : Reg) (s : State) : Out :=
  .next (s.eqHead (.eqpop d a) d a fun t r => ((t.setCur t.cur.dequeue).dropLeased t.agent).ret d (popResult r))

/-- EQPEEK (R297). -/
def execEqpeek (d a : Reg) (s : State) : Out := .next (s.eqHead (.eqpeek d a) d a fun t r => t.ret d (popResult r))

/-- EQWAIT (R298). -/
def execEqwait (d a : Reg) (s : State) : Out :=
  if 0 < s.cur.eqcount then .next (s.status d stOK)
  else if s.rx a ≤ s.fcycle then .next (s.status d stBUSY)
  else .next (s.waitOn (.eqwait d a) 1 [])

/-- The wait of a release at MODULE scope that keeps leased copies (R227, R293): done, or still waiting for deltas. -/
def State.releaseWait (s : State) : State × Bool :=
  let t := s.releaseAll 3
  (t, t.deltasDone t.agent)

/-- EQPOST's record (R299). -/
def State.userRec (s : State) (aux0 tag : W64) : EvRec := mkRec 0x50 stOK s.who.die 6 s.who.n 0 tag aux0 0

/-- EQPOST (R299). To the host ring, phase 3 stands for a record that waits there for space (R158). An ostler that was never bound has
the CTXID 0, which the spec does not say. [DESIGN CHOICE, log 104] -/
def execEqpost (d a b c : Reg) (s : State) : Out :=
  let v := (s.rx a).toNat
  let r := s.userRec (s.rx b) (s.rx c)
  let f := (s.ctx s.ctxId).func
  if s.phaseOf = 3 then
    if (s.fn f).posts.contains { ev := r, ctx := s.ctxId } then .next s else .next (s.status d stOK)
  else
    let k := ostKey (bits v 7 5) (bits v 4 0)
    if !bit v 8 && (s.ostler k).ctx.getD 0 != s.ctxId then .next (s.status d stBADARG)
    else
      let (t, done) := s.releaseWait
      if !done then .next (t.waitOn (.eqpost d a b c) 1 [])
      else if bit v 8 then
        let t := t.postHost f s.ctxId r
        if (t.fn f).posts.contains { ev := r, ctx := s.ctxId } then .next (t.waitOn (.eqpost d a b c) 3 [])
        else .next (t.status d stOK)
      else if (t.ostler k).eqcount = Config.eventDepth then .next (t.status d stBUSY)
      else .next ((t.postOst (bits v 7 5) (bits v 4 0) s.ctxId r).status d stOK)

/-- EVENT_POST (R150): the oldest waiting poster of an ostler's queue is served. -/
def execEventPost (die n : Nat) (s : State) : Out :=
  .next (s.setOstler (ostKey die n) (s.ostler (ostKey die n)).servePost)

/-- HOST_RING_POST (R158): the oldest waiting poster of a function's ring is served. -/
def execHostRingPost (func : Nat) (s : State) : Out :=
  let x := s.fn func
  match x.posts with
  | [] => .next s
  | p :: t => if x.ringFull then .next s else .next ((s.setFn func { x with posts := t }).ringWrite func p)

end Sys2Proof.Machine
end

