-- ==== Sys2Proof/Machine/LoadStore.lean ====
section
/-! DEFINITION. The ostler's loads and stores, LDAQ and STRL (R281-R284). -/

namespace Sys2Proof.Machine

/-- The address of every form but LDAQ and STRL (R281). -/
def State.addr (s : State) (a : Reg) (o : BitVec 16) : Nat := (s.rx a + simm o).toNat

/-- A plain load, its value widened by ext. -/
def State.load (s : State) (i : Instr) (d a : Reg) (o : BitVec 16) (n : Nat) (ext : Nat → W64) : State :=
  (s.loadAt (s.addr a o) n).then_ i fun v s => s.ret d (ext v)

/-- A plain store of the low n bytes of xs. -/
def State.store (s : State) (i : Instr) (r a : Reg) (o : BitVec 16) (n : Nat) : State :=
  (s.storeAt (s.addr a o) (toBytes n (s.rx r).toNat)).then_ i fun _ s => s.commit

def zext64 (v : Nat) : W64 := BitVec.ofNat 64 v

def execLdb (d a : Reg) (o : BitVec 16) (s : State) : Out := .next (s.load (.ldb d a o) d a o 1 (sext · 8))
def execLdbu (d a : Reg) (o : BitVec 16) (s : State) : Out := .next (s.load (.ldbu d a o) d a o 1 zext64)
def execLdh (d a : Reg) (o : BitVec 16) (s : State) : Out := .next (s.load (.ldh d a o) d a o 2 (sext · 16))
def execLdhu (d a : Reg) (o : BitVec 16) (s : State) : Out := .next (s.load (.ldhu d a o) d a o 2 zext64)
def execLdw (d a : Reg) (o : BitVec 16) (s : State) : Out := .next (s.load (.ldw d a o) d a o 4 (sext · 32))
def execLdwu (d a : Reg) (o : BitVec 16) (s : State) : Out := .next (s.load (.ldwu d a o) d a o 4 zext64)
def execLdd (d a : Reg) (o : BitVec 16) (s : State) : Out := .next (s.load (.ldd d a o) d a o 8 zext64)

/-- LDAQ (R283): reads as a plain load at x(a), then drops every leased copy (R91); scopes 5..7 are ILLEGAL. -/
def execLdaq (d a : Reg) (sc : BitVec 3) (s : State) : Out :=
  if sc.toNat ≤ 4 then
    .next ((s.loadAt (s.rx a).toNat 8).then_ (.ldaq d a sc) fun v s => (s.dropLeased s.agent).ret d (zext64 v))
  else .next s.illegal

def execStb (r a : Reg) (o : BitVec 16) (s : State) : Out := .next (s.store (.stb r a o) r a o 1)
def execSth (r a : Reg) (o : BitVec 16) (s : State) : Out := .next (s.store (.sth r a o) r a o 2)
def execStw (r a : Reg) (o : BitVec 16) (s : State) : Out := .next (s.store (.stw r a o) r a o 4)
def execStd (r a : Reg) (o : BitVec 16) (s : State) : Out := .next (s.store (.std r a o) r a o 8)

/-- A release record is added at a line's home (R89): a drain that runs there ends first (R223); the releaser's own older
record joins the new one; a full line first drains its oldest record. [DESIGN CHOICE, log 39] -/
def State.addRelease (s : State) (a l : Nat) : State :=
  let s := if (s.dirOf l).releases.any Release.drained then s.drain l none else s
  let d := s.dirOf l
  let mine := (d.releases.filter fun r => r.agent == a).flatMap Release.lines
  let rest := d.releases.filter fun r => r.agent != a
  let s1 := match rest with
    | r :: _ => if 4 ≤ rest.length then s.drainOne r else s
    | [] => s
  let rest := if 4 ≤ rest.length then rest.drop 1 else rest
  s1.setDir l { s1.dirOf l with releases := rest ++ [{ agent := a, lines := mine ++ s1.dirtyLines a, drained := false }] }

/-- The store of STRL at its line's home, where any owner is recalled first, and its record (R284, R89). -/
def State.releaseStore (s : State) (va pa : Nat) (b : List Byte) (split : Bool) : Acc :=
  let l := pa / 128
  if s.deltaFull l then .wait s
  else
    let s1 := ((((s.writeback s.agent l).dropCopy s.agent l).recall l).touch l)
    let bad := s1.lineBad l
    if bad ≠ 0 then .trap bad (badAddr bad va) (s.metBad [] l bad)
    else .ok 0 ((((s1.homePut s.agent l (pa % 128) b split).addRelease s.agent l).noteShadow l
      (byteMask (pa % 128) b.length)).pageWrite pa split |>.alive l)

/-- STRL from its checks on: at SYSTEM scope peer lines return; then the deltas of earlier writes are waited for; then the
store is performed (R284). -/
def State.strlAt (s : State) (sc va : Nat) (b : List Byte) : Acc :=
  s.access va 8 true fun t s1 =>
    let s2 := if sc = 4 then s1.returnPeer s.agent else s1
    if s2.deltasDone s.agent then s2.releaseStore va (t.addr va) b (aSPLITW t.attr) else .wait s2

/-- STRL (R284); scopes 5..7 are ILLEGAL. -/
def execStrl (r a : Reg) (c : BitVec 3) (s : State) : Out :=
  if c.toNat ≤ 4 then
    .next ((s.strlAt c.toNat (s.rx a).toNat (toBytes 8 (s.rx r).toNat)).then_ (.strl r a c) fun _ s => s.commit)
  else .next s.illegal

end Sys2Proof.Machine
end

