-- ==== Sys2Proof/Machine/RowCtl.lean ====
section
/-! DEFINITION. Control rows and moves (R324-R327), and VNFC (R334). -/

namespace Sys2Proof.Machine

/-- NOP (R324): routes only. -/
def execNop (w : RowMods) (s : State) : Out := .next (s.rowDo .nop w fun _ t => t)

/-- HALT (R324): the pen retires after its row (R39); a pending select is discarded (R323). -/
def execRowHalt (w : RowMods) (s : State) : Out :=
  .next (s.rowDo .halt w fun x t =>
    if x.acts then t.setPen t.penK { t.myPen with halting := true, pval := false } else t)

/-- HALTF (R324): RUNOFF, whatever its predicate. -/
def execHaltf (w : RowMods) (s : State) : Out := .next (s.rowFault w cRUNOFF 0 0)

/-- COND (R325, R32): the lowest PE of a row decides. -/
def execCond (w : RowMods) (s : State) : Out :=
  .next (s.rowDo .cond w fun x t =>
    let p := t.myPen
    if x.acts && !p.cond then
      let b := if bit x.aux 0 then w.imm.getLsbD 0 else lane x.a 0 != 0
      t.setPen t.penK { p with psel := b, pval := !p.halting, cond := true }
    else t)

/-- Where a pen's records go (R326, R141): its owning ostler, or the targets its job record enables. -/
def Pen.targets (p : Pen) (die : Nat) : List (Option (Nat × Nat)) :=
  if p.owner < 32 then [some (die, p.owner)]
  else
    match p.job with
    | some (r, _) =>
      (if r.getLsbD 704 then [some ((r.extractLsb' 705 3).toNat, (r.extractLsb' 708 5).toNat)] else []) ++
        (if r.getLsbD 713 then [none] else [])
    | none => []

/-- Post a record of a context to an ostler, or to the function's host event ring. -/
def State.postTo (s : State) (c : Nat) (r : EvRec) : Option (Nat × Nat) → State
  | some (die, n) => s.postOst die n c r
  | none => s.postHost (s.ctx c).func c r

/-- A target whose queue is full, or has posters waiting (R150, R158). -/
def State.targetFull (s : State) (c : Nat) : Option (Nat × Nat) → Bool
  | some (die, n) =>
    let o := s.ostler (ostKey die n)
    o.eqcount == Config.eventDepth || o.posters != []
  | none =>
    let f := s.fn (s.ctx c).func
    f.ringFull || f.posts != []

/-- The dirty L1 lines of every PE of a pen are written back (R227). -/
def State.penWriteback (s : State) (k : Nat) : State :=
  (s.pen k).peList.foldl (fun s i => s.writebackAll (s.peAgent k i)) s

/-- Every committed store of a pen is performed, and its deltas are applied (R227). -/
def State.penStoresDone (s : State) (k : Nat) : Bool :=
  (s.pen k).peList.all fun i => (s.pe k i).irr.all (fun x => x.load || (x.ready && x.cause == 0)) && s.deltasDone (s.peAgent k i)

/-- EPOST (R326): one USER record to every target, each a turn of this oc at the PE's place in the order of R83 (R150); a narrow row
reads lane 0 alone (R321). -/
def execEpost (w : RowMods) (s : State) : Out :=
  .next (s.rowDo .epost w fun x t =>
    let ts := x.pen.targets s.who.die
    if x.acts && ts != [] then
      let r := mkRec 0x50 stOK s.who.die 0 s.who.pen (x.idx % 256) w.imm
        (BitVec.ofNat 64 ((lane x.a 0).toNat + (if w.pl = 1 then 0 else (lane x.a 1).toNat * 2 ^ 32))) 0
      let u := t.penWriteback t.penK
      { u with agenda := ts.map (fun g => Turn.post s.who.die (x.pen.agentOf s.who.die x.idx % 4096) g x.pen.ctx r) ++ u.agenda }
    else t)

/-- MOV (R327). -/
def execMov (w : RowMods) (s : State) : Out := .next (s.vec .mov w fun x => x.a)

/-- SEL (R327): c is a predicate. -/
def execRowSel (w : RowMods) (s : State) : Out :=
  .next (s.vec .sel w fun x => mkLanes fun k => if (lane x.c k).getLsbD 0 then lane x.a k else lane x.b k)

/-- LIMM (R327): a predicate takes IMM as its mask. -/
def execLimm (w : RowMods) (s : State) : Out :=
  .next (s.vec .limm w fun _ => mkLanes fun k =>
    if 56 ≤ w.dst.toNat then (if w.imm.getLsbD k then 1 else 0)
    else if k % 2 = 0 then w.imm.extractLsb' 0 32 else w.imm.extractLsb' 32 32)

/-- VNFC (R334): the counts of earlier rows, then the clear. -/
def execVnfc (w : RowMods) (s : State) : Out :=
  .next (s.row .vnfc w fun x t =>
    let t := if bit x.aux 0 && x.acts then t.setMyPe { t.myPe with nfc := 0, satc := 0 } else t
    .go t (some (mkLanes fun k => if k = 0 then x.pe.nfc else if k = 1 then x.pe.satc else 0)) x.mask 0 0)

end Sys2Proof.Machine
end

