-- ==== Sys2Proof/Machine/Slots.lean ====
section
/-! DEFINITION. In-flight slots and link latches (R65, R320, R31): landing a result, sending a token, and the end of an
advanced row in a pen. -/

namespace Sys2Proof.Machine

/-- The neighbour of a PE in direction n, e, s, w (R12). -/
def neighbour (i d : Nat) : Nat :=
  match d with
  | 0 => i - 64
  | 1 => i + 1
  | 2 => i + 64
  | _ => i - 1

/-- A link joins PE i of a pen to a neighbour in direction d: the border of a pen is closed (R23). -/
def Pen.joins (p : Pen) (i d : Nat) : Bool :=
  match d with
  | 0 => decide (64 ≤ i)
  | 1 => decide (i % 64 < 4 * p.wm1 + 3)
  | 2 => decide (i / 64 < 4 * p.hm1 + 3)
  | _ => decide (i % 64 ≠ 0)

/-- A token enters the latch of direction d of PE i; one that would find the queue behind it full, latch included, is
discarded (R320), and none crosses the border (R23). [DESIGN CHOICE, log 40] -/
def State.sendTok (s : State) (k i d : Nat) (t : Tok) : State :=
  let p := s.pe k i
  let room := (((s.pe k (neighbour i d)).queue (opp d)).toks.length + (p.latch d).length)
  if !(s.pen k).joins i d || 4 ≤ room then s else s.setPe k i { p with lat := mset [] p.lat d (p.latch d ++ [t]) }

/-- Directions whose code-1 route a slot carries. -/
def Slot.dirs (x : Slot) : List Nat := (List.range 4).filter fun d => bit x.route (6 - 2 * d)

/-- A narrow token has 32 bits (R321). -/
def tokOf (pl : Nat) (v : Vec) : Tok := { val := if pl = 1 then (lane v 0).zeroExtend 2048 else v, pl := pl }

/-- A result lands in its destination and leaves by its routes (R65, R320). -/
def State.landSlot (s : State) (k i : Nat) (x : Slot) : State :=
  let (p, v) := (s.pe k i).write x.dst x.lanes x.value
  x.dirs.foldl (fun s d => s.sendTok k i d (tokOf x.pl v)) (s.setPe k i p)

/-- The tokens in the latches of a PE enter the neighbours' queues (R320); none crosses the border (R23). -/
def State.moveLatches (s : State) (k i : Nat) : State :=
  (List.range 4).foldl (fun s d =>
    match (s.pe k i).latch d with
    | [] => s
    | ts =>
      let s := s.setPe k i { s.pe k i with lat := mset [] (s.pe k i).lat d [] }
      if !(s.pen k).joins i d then s else
      let j := neighbour i d
      let q := (s.pe k j).queue (opp d)
      s.setPe k j ((s.pe k j).setQueue (opp d) { q with toks := q.toks ++ ts })) s

/-- The ports a slot's landing sends a token to: those of its routes, and one its DST names. -/
def Slot.outs (x : Slot) : List Nat := x.dirs ++ (if 36 ≤ x.dst ∧ x.dst < 40 then [x.dst - 36] else [])

/-- Two slots land in one destination or one link, so that their order shows (R65, R320). -/
def Slot.meets (x y : Slot) : Bool := x.dst == y.dst || x.outs.any y.outs.contains

/-- The slots with no row left land in order of issue, but for a load without a reply and what would then overtake it into the same
destination or link; and the slots that stay (R65, R346). back holds those kept back so far. -/
def dueFrom (back : List Slot) : List Slot → List Slot × List Slot
  | [] => ([], [])
  | x :: t =>
    if x.left = 0 then
      (if x.pending || back.any x.meets then ((dueFrom (x :: back) t).1, x :: (dueFrom (x :: back) t).2)
       else (x :: (dueFrom back t).1, (dueFrom back t).2))
    else ((dueFrom back t).1, x :: (dueFrom back t).2)

def dueSlots (l : List Slot) : List Slot × List Slot := dueFrom [] l

/-- The results that are due land, in order of issue: a slot issued later writes last (R65, R323). -/
def State.landSlots (s : State) (k i : Nat) : State :=
  let r := dueSlots (s.pe k i).slots
  r.1.foldl (fun s x => s.landSlot k i x) (s.setPe k i { s.pe k i with slots := r.2 })

/-- One advanced row passes for the slots of a PE: LEFT falls, and what reaches 0 lands (R65). A load whose reply is late
keeps back the results issued after it for the same destination or link, so that these see the order of issue (R22, R346).
[DESIGN CHOICE, log 40] -/
def State.stepSlots (s : State) (k i : Nat) : State :=
  match (s.pe k i).slots with
  | [] => s
  | l => (s.setPe k i { s.pe k i with slots := l.map fun x => { x with left := x.left - 1 } }).landSlots k i

/-! ### Irregular accesses (R346) -/

/-- An access that has finished without a fault: a load with its reply, a store with its window closed. -/
def Irr.whole (x : Irr) : Bool := (x.load || x.left == 0) && x.ready && x.cause == 0

/-- Finished accesses of a PE leave (R346). -/
def State.landIrr (s : State) (k i : Nat) : State :=
  match (s.pe k i).irr with
  | [] => s
  | l => s.setPe k i { s.pe k i with irr := l.filter fun x => !x.whole }

/-- The value of a reply in the n-th slot that waits for one. -/
def fillPending (v : Vec) : Nat → List Slot → List Slot
  | _, [] => []
  | n, x :: t =>
    if x.pending then
      (match n with
        | 0 => { x with value := v, pending := false } :: t
        | m + 1 => x :: fillPending v m t)
    else x :: fillPending v n t

/-- The slot that the load at place n of a PE's loads waits in takes its value, and what is due lands (R346). -/
def State.landReply (s : State) (k i n : Nat) (v : Vec) : State :=
  (s.setPe k i { s.pe k i with slots := fillPending v n (s.pe k i).slots }).landSlots k i

/-- One advanced row passes for the irregular accesses of a PE. -/
def State.stepIrr (s : State) (k i : Nat) : State :=
  match (s.pe k i).irr with
  | [] => s
  | l => (s.setPe k i { s.pe k i with irr := l.map fun x => { x with left := x.left - 1 } }).landIrr k i

/-- The end of an advanced row in a pen: latched tokens arrive, slots and irregular accesses advance, arrays run. -/
def State.rowEnd (s : State) (k : Nat) : State :=
  let l := (s.pen k).peList
  let s := l.foldl (fun s i => s.moveLatches k i) s
  let s := l.foldl (fun s i => (s.stepSlots k i).stepIrr k i) s
  s.tickArrays k

end Sys2Proof.Machine
end

