-- ==== Sys2Proof/Machine/RowIrr.lean ====
section
/-! DEFINITION. Irregular accesses and log appends (R344-R349): LDG, STG, GATH, SCAT and LAPR at their commit, and the
steps that bring a load's reply or finish a store's translation window. -/

namespace Sys2Proof.Machine

/-- The virtual address of LDG and STG (R344). -/
def irrAddr (w : RowMods) (v : Vec) : Nat :=
  if w.pl = 1 then ((lane v 0).toNat + w.imm.toNat) % 2 ^ 64
  else ((lane v 0).toNat + (lane v 1).toNat * 2 ^ 32 + w.imm.toNat) % 2 ^ 64

/-- IMM + 4 * sext(o) (R345, R348). -/
def elemAddr (w : RowMods) (o : W32) : Nat := (w.imm + 4 * o.signExtend 64).toNat

/-- Enabled lanes, ascending. -/
def lanesOf (m : W64) : List Nat := (List.range 64).filter fun k => m.getLsbD k

/-- The record of an access committed in this row. -/
def irrOf (w : RowMods) (x : RowCx) (load : Bool) (addrs : List (Nat × Nat)) (data : Vec) : Irr :=
  { load := load, word := x.pe.rowWord x.pen.sel x.pen.rc, row := x.pen.rc, sel := x.pen.sel, iter := x.q,
    lanes := x.mask, addrs := addrs, data := data, offs := if load then 0 else x.b, left := 4, ready := false, cause := 0, faddr := 0,
    resumed := w.pl == 1 }

/-- An access joins the PE's list. -/
def State.addIrr (s : State) (x : Irr) : State := s.setMyPe { s.myPe with irr := s.myPe.irr ++ [x] }

/-- LDG (R344, R346). -/
def execLdg (w : RowMods) (s : State) : Out :=
  .next (s.row .ldg w fun x t =>
    let va := irrAddr w x.a
    let n := accBytes w
    if va % n ≠ 0 then .fault cALIGN va n
    else
      let u := t.peWalk t.penK x.pen.ctx false [va]
      match t.peCheck t.penK x.pen.ctx va false with
      | .error c => .walked u c va n
      | .ok _ => .go (u.addIrr (irrOf w x true [(0, va)] 0)) (some 0) x.mask 0 0)

/-- STG (R344, R346): nothing to do when no lane is enabled. -/
def execStg (w : RowMods) (s : State) : Out :=
  .next (s.row .stg w fun x t =>
    let va := irrAddr w x.b
    let n := accBytes w
    if va % n ≠ 0 then .fault cALIGN va n
    else if x.mask = 0 then .go t none x.mask 0 0
    else .go (t.addIrr (irrOf w x false [(0, va)] x.a)) none x.mask 0 0)

/-- The element addresses of GATH with their lanes, or what the row faults with (R345). -/
def gathAddrs (w : RowMods) (x : RowCx) (s : State) : Except (Nat × Nat) (List (Nat × Nat)) × State :=
  if bit x.aux 0 then
    if w.imm.toNat % 16 ≠ 0 then (.error (cALIGN, w.imm.toNat), s)
    else
      match s.l1Read s.penK x.idx w.imm.toNat 272 with
      | (.error e, t) => (.error e, t)
      | (.ok m, t) =>
        ((lanesOf x.mask).foldl (fun r k =>
          match r with
          | .error e => .error e
          | .ok l =>
            match xloc m (lane x.a k).toNat with
            | .error _ => .error (cPOSRANGE, w.imm.toNat)
            | .ok a => .ok (l ++ [(k, (a + (lane x.b k).toNat) % 2 ^ 64)])) (.ok []), t)
  else (.ok ((lanesOf x.mask).map fun k => (k, elemAddr w (lane x.a k))), s)

/-- The first element address that is misaligned or that the check refuses. -/
def State.elemFault (s : State) (k c : Nat) (write : Bool) (l : List (Nat × Nat)) : Option (Nat × Nat) :=
  l.findSome? fun (_, a) =>
    if a % 4 ≠ 0 then some (cALIGN, a)
    else match s.peCheck k c a write with
      | .error e => some (e, a)
      | .ok _ => none

/-- The translations of element addresses, up to the first that is misaligned or refused. -/
def State.elemWalk (s : State) (k c : Nat) (write : Bool) (l : List (Nat × Nat)) : State :=
  s.peWalk k c write ((l.map Prod.snd).takeWhile fun a => a % 4 = 0)

/-- GATH (R345, R346). -/
def execGath (w : RowMods) (s : State) : Out :=
  .next (s.row .gath w fun x t =>
    match gathAddrs w x t with
    | (.error (c, a), t) => .walked t c a 4
    | (.ok l, t) =>
      let u := t.elemWalk t.penK x.pen.ctx false l
      match t.elemFault t.penK x.pen.ctx false l with
      | some (c, a) => .walked u c a 4
      | none => .go (u.addIrr (irrOf w x true l 0)) (some 0) x.mask 0 0)

/-- SCAT (R345, R346). -/
def execScat (w : RowMods) (s : State) : Out :=
  .next (s.row .scat w fun x t =>
    let l := (lanesOf x.mask).map fun k => (k, elemAddr w (lane x.b k))
    match l.find? fun e => e.2 % 4 ≠ 0 with
    | some e => .fault cALIGN e.2 4
    | none =>
      if l = [] then .go t none x.mask 0 0
      else .go (t.addIrr (irrOf w x false l x.a)) none x.mask 0 0)

/-- The log entries of a LAPR row, each with its translation (R348). -/
def laprEntries (w : RowMods) (x : RowCx) (s : State) : List LogEnt :=
  (lanesOf x.mask).zipIdx.filterMap fun (k, i) =>
    match s.peCheck s.penK x.pen.ctx (elemAddr w (lane x.b k)) true with
    | .ok e =>
      some { pa := e.addr (elemAddr w (lane x.b k)), op := x.aux % 16, w8 := false,
             value := (lane x.a k).signExtend 64, split := aSPLITW e.attr, sdie := s.who.die, src := s.who.pen, spe := x.idx,
             seq := (x.pe.logSeq.toNat + i) % 2 ^ 32, ctx := x.pen.ctx }
    | .error _ => none

/-- LAPR (R348, R153). -/
def execLapr (w : RowMods) (s : State) : Out :=
  .next (s.row .lapr w fun x t =>
    let l := (lanesOf x.mask).map fun k => (k, elemAddr w (lane x.b k))
    let u := t.elemWalk t.penK x.pen.ctx true l
    match t.elemFault t.penK x.pen.ctx true l with
    | some (c, a) => .walked u c a 4
    | none =>
      let es := laprEntries w x t
      let t := es.foldl State.append u
      .go (t.setMyPe { t.myPe with logSeq := t.myPe.logSeq + BitVec.ofNat 32 es.length }) none x.mask 0 0)

/-! ### Replies and translation windows (R346) -/

/-- Bytes of each element of an access: 256, 4 in a narrow row, 4 of GATH and SCAT. -/
def Irr.size (x : Irr) : Nat :=
  let op := x.word.toNat >>> 120
  if op = 0x43 ∨ op = 0x44 then (if bits x.word.toNat 71 70 = 1 then 4 else 256) else 4

/-- An access still to finish, of the given kind. [DESIGN CHOICE, log 79] -/
def Irr.waits (x : Irr) (load : Bool) : Bool := x.load == load && !x.ready

/-- Replace the oldest access of a kind that has not finished. -/
def replaceIrr (load : Bool) (y : Irr) : List Irr → List Irr
  | [] => []
  | x :: t => if x.waits load then y :: t else x :: replaceIrr load y t

/-- Physical addresses an access touches, as far as they translate. -/
def State.irrPas (s : State) (k : Nat) (x : Irr) : List Nat :=
  x.addrs.filterMap fun (_, a) =>
    match s.peCheck k (s.pen k).ctx a false with
    | .ok e => some (e.addr a)
    | .error _ => none

/-- Another module holds a page that an access needs, or a table that maps it (R95). -/
def State.irrAway (s : State) (k : Nat) (x : Irr) : Bool :=
  x.addrs.any fun (_, a) => s.rangeAway (penTlb k) (s.pen k).ctx a x.size

/-- Read every element of a load, in lane order: data, or the first fault. -/
def State.irrLoad (s : State) (k i : Nat) (x : Irr) : Except (Nat × Nat) Vec × State :=
  x.addrs.foldl (fun (r : Except (Nat × Nat) Vec × State) (l, a) =>
    match r with
    | (.error e, s) => (.error e, s)
    | (.ok v, s) =>
      match s.l1Read k i a x.size with
      | (.error e, s) => (.error e, s)
      | (.ok y, s) => (.ok (if x.size = 256 then BitVec.ofNat 2048 y
          else BitVec.ofNat 2048 (insBits v.toNat (32 * l) 32 y)), s)) (.ok 0, s)

/-- The place, among the loads of a PE, of the oldest one without a reply. -/
def PE.loadPlace (p : PE) : Nat := ((p.irr.filter (·.load)).takeWhile fun x => x.ready).length

/-- LOAD_REPLY (R346): the reply to the oldest load of a PE that has none arrives. While another module holds the page
it cannot (R95). [DESIGN CHOICE, log 79] -/
def State.loadReply (s : State) (k i : Nat) : State :=
  match (s.pe k i).irr.find? fun x => x.waits true with
  | none => s
  | some x =>
    if !(s.pen k).takes || s.irrAway k x then s
    else
      let n := (s.pe k i).loadPlace
      let (r, s) := s.irrLoad k i x
      match r with
      | .ok v =>
        ((s.setPe k i { s.pe k i with irr := replaceIrr true { x with ready := true } (s.pe k i).irr }).landIrr k i).landReply k i n v
      | .error (c, a) =>
        s.setPe k i { s.pe k i with irr := replaceIrr true { x with ready := true, cause := c, faddr := a } (s.pe k i).irr }

/-- The mask of the bytes of the enabled lanes among 32. -/
def laneBytes (m : Nat) : BitVec 128 :=
  BitVec.ofNat 128 (iter (fun k a => if bit m k then a + 15 * 2 ^ (4 * k) else a) 32 0)

/-- The writes of a store, each within one line: its virtual address, data and byte mask. A wide STG makes one write of
each of its two lines, narrow STG and SCAT one of each element (R344, R345, R118). -/
def Irr.stores (x : Irr) : List (Nat × Line × BitVec 128) :=
  let one (k a : Nat) : Nat × Line × BitVec 128 :=
    (a, linePut 0 (a % 128) (toBytes 4 (lane x.data k).toNat), byteMask (a % 128) 4)
  match x.addrs with
  | [] => []
  | (_, a) :: _ =>
    if x.size = 256 then
      [(a, x.data.extractLsb' 0 1024, laneBytes (bits x.lanes.toNat 31 0)),
       (a + 128, x.data.extractLsb' 1024 1024, laneBytes (bits x.lanes.toNat 63 32))].filter fun e => e.2.2 != 0
    else x.addrs.map fun (k, a) => one k a

/-- One write of a PE's store: through to the home on a DER page, else into the owned line (R74, R81). -/
def State.peStore (s : State) (k i va : Nat) (d : Line) (m : BitVec 128) : Acc :=
  match s.peCheck k (s.pen k).ctx va true with
  | .error c => .trap c va s
  | .ok t =>
    s.storeLine (s.peAgent k i) va (t.addr va) d m t.attr

/-- STORE_TRANSLATION_DONE (R346): the oldest unfinished store of a PE is translated whole, then performed write by
write; a failure is kept for the domain's next boundary (R234), and nothing of that store is performed.
[DESIGN CHOICE, log 79] -/
def State.storeDone (s : State) (k i : Nat) : State :=
  match (s.pe k i).irr.find? fun x => x.waits false with
  | none => s
  | some x =>
    let finish (s : State) (c a : Nat) : State :=
      (s.setPe k i { s.pe k i with irr := replaceIrr false { x with ready := true, cause := c, faddr := a } (s.pe k i).irr }).landIrr k i
    let st := x.stores
    let u := s.peWalk k (s.pen k).ctx true (st.map Prod.fst)
    if s.irrAway k x then s
    else match st.findSome? fun (a, _) => match s.peCheck k (s.pen k).ctx a true with
        | .error c => some (c, a)
        | .ok _ => none with
    | some (c, a) => finish u c (if x.size = 256 then (x.addrs.headD (0, a)).2 else a)
    | none =>
      if (s.irrPas k x).any s.linkDown then finish u cLINK (x.addrs.headD (0, 0)).2
      else
        match st.foldl (fun (r : Acc) (a, d, m) =>
          match r with
          | .ok _ s => s.peStore k i a d m
          | e => e) (.ok 0 u) with
        | .ok _ s => finish s 0 0
        | .wait _ => s
        | .trap c a t => finish { u with tele := t.tele } c a

end Sys2Proof.Machine
end

