-- ==== Sys2Proof/Machine/RowMat.lean ====
section
/-! DEFINITION. Stationary weights and matrix passes (R350-R356, R61, R63, R209, R210), and the fetches of an MPASSD. -/

namespace Sys2Proof.Machine

/-- The scale and BFLY of a pass operand half: of the packet a window reads, 127 and 0 of a register (R350, R351). -/
def RowCx.half (x : RowCx) (c : BitVec 6) : Nat × Nat :=
  if 44 ≤ c.toNat ∧ c.toNat < 48 then
    (packetScale (x.pe.winHdr (c.toNat - 44)), packetBfly (x.pe.winHdr (c.toNat - 44)))
  else (127, 0)

/-- Elements of a 256-byte half that a NaN scale makes NaN (R64, R350, R351). -/
def nanHalf (f sc : Nat) : Nat := if sc = 0xFF then 2048 / fmtWidth f else 0

/-- The bytes an operand half holds; only the elements of a BOOL packet are widened, into INT8 (R191, R194), and a block scale
stays beside them. -/
def RowCx.raw (x : RowCx) (f : Nat) (c : BitVec 6) : Vec := x.pe.source x.q x.id (if f = 6 then some 6 else none) c.toNat

/-- MLDW into weight row r; rows never written take its tag, scales and BFLY (R350). -/
def PE.loadWeights (p : PE) (r : Nat) (x : WRow) : PE :=
  { p with ecc := mset false p.ecc (384 + r) false, w := iter (fun k w =>
      let o := mget WRow.reset w k
      if k = r then mset WRow.reset w k x
      else if o.set then w
      else mset WRow.reset w k { x with set := false, lo := 0, hi := 0 }) 32 p.w }

/-- MLDW (R350). -/
def execMldw (w : RowMods) (s : State) : Out :=
  .next (s.row .mldw w fun x t =>
    if x.acts then
      let lo := x.half w.sa
      let hi := x.half w.sb
      let f := w.fmt.toNat
      let r : WRow := { set := true, lo := x.raw f w.sa, hi := x.raw f w.sb, fmt := f, scLo := lo.1, scHi := hi.1,
                        bfLo := lo.2, bfHi := hi.2 }
      .go (t.setMyPe (t.myPe.loadWeights (x.aux % 32) r)) none x.mask (nanHalf f lo.1 + nanHalf f hi.1) 0
    else .go t none x.mask 0 0)

/-- A weight row an MLDW wrote breaks the pairing of R210, or a row's BFLY differs from the operand's (R209). -/
def badWeights (p : PE) (f bfLo bfHi : Nat) : Bool :=
  (List.range 32).any fun k =>
    let r := mget WRow.reset p.w k
    (r.set && passClass r.fmt != passClass f) || r.bfLo != bfLo || r.bfHi != bfHi

/-- A row of the weight store is poisoned (R105). -/
def poisonedWeights (p : PE) : Bool := p.ecc.any fun e => 384 ≤ e.1 && e.2

/-- The PEs whose weights an operand row meets: the PE itself, or its whole PE row in a systolic pen (R354).
[DEDUCED, log 52] -/
def rowPes (p : Pen) (i : Nat) : List Nat :=
  if p.sys then (List.range (4 * (p.wm1 + 1))).map (· + i) else [i]

/-- Rows after which a pass of a systolic pen completes (R353). -/
def Pen.tail (p : Pen) : Nat := if p.sys then (4 * (p.wm1 + 1) - 1) + (4 * (p.hm1 + 1) - 1) else 0

/-- A pass joins the PE's array (R351, R61). -/
def PE.addPass (p : PE) (x : Pass) : PE :=
  { p with passes := p.passes ++ [x], mopen := p.mopen ||| BitVec.ofNat 4 (2 ^ x.tile) }

/-- MPASS and MSPRS (R351, R352, R354): the operand row is a then b; the mask marks the elements present. -/
def State.pass (s : State) (o : Op) (w : RowMods) (mask : RowCx → BitVec 512) (occ : RowCx → Nat) : State :=
  s.row o w fun x t =>
    if x.acts then
      let f := w.fmt.toNat
      let skip := ignored o x.pen x.idx
      let lo := if skip then (127, 0) else x.half w.sa
      let hi := if skip then (127, 0) else x.half w.sb
      if !skip && (rowPes x.pen x.idx).any fun i => badWeights (s.pe s.penK i) f lo.2 hi.2 then .fault cCHECK 0 0
      else if (rowPes x.pen x.idx).any fun i => poisonedWeights (s.pe s.penK i) then .fault cECC 0 0
      else
        let y : Pass := { tile := w.dst.toNat - 40, row := x.aux % 32, fmt := f, lo := x.raw f w.sa, hi := x.raw f w.sb,
                          scLo := lo.1, scHi := hi.1, mask := mask x, w := x.pe.w, left := occ x, tail := x.pen.tail,
                          clears := false, systolic := x.pen.sys }
        .go (t.setMyPe (t.myPe.addPass y)) none x.mask (nanHalf f lo.1 + nanHalf f hi.1) 0
    else .go t none x.mask 0 0

/-- MPASS (R351, R353): 16 rows of occupancy in an 8-bit format, 32 in a 16-bit one. -/
def execMpass (w : RowMods) (s : State) : Out :=
  .next (s.pass .mpass w (fun _ => BitVec.allOnes 512) fun _ => if fmtWidth w.fmt.toNat = 8 then 16 else 32)

/-- The masks of lanes 0..15 of c (R352). -/
def sparseMask (c : Vec) : BitVec 512 := c.extractLsb' 0 512

/-- The largest popcount among the 16 masks. -/
def sparseN (c : Vec) : Nat :=
  (List.range 16).foldl (fun n q => max n ((List.range 32).filter fun e => (lane c q).getLsbD e).length) 0

/-- MSPRS (R352). [DEDUCED, log 52] -/
def execMsprs (w : RowMods) (s : State) : Out :=
  .next (s.pass .msprs w (fun x => sparseMask x.c) fun x =>
    if sparseN x.c ≤ 8 then 4 else if sparseN x.c ≤ 16 then 8 else 16)

/-- MPASSD (R356). -/
def execMpassd (w : RowMods) (s : State) : Out :=
  .next (s.row .mpassd w fun x t =>
    if x.acts then
      let stride := (lane x.a 0).toNat
      let skip := ignored .mpassd x.pen x.idx
      if w.imm.toNat % 512 ≠ 0 ∨ (¬ skip ∧ stride % 512 ≠ 0) then .fault cALIGN w.imm.toNat 256
      else if !skip && (rowPes x.pen x.idx).any fun i => badWeights (s.pe s.penK i) w.fmt.toNat 0 0 then .fault cCHECK 0 0
      else if (rowPes x.pen x.idx).any fun i => poisonedWeights (s.pe s.penK i) then .fault cECC 0 0
      else
        let p := t.myPe
        let tile := w.dst.toNat - 40
        let m : MPD := { word := x.pe.rowWord x.pen.sel x.pen.rc, row := x.pen.rc, sel := x.pen.sel, iter := x.q,
                         lanes := x.mask, stride := stride, base := w.imm.toNat, last := x.aux % 32, w := p.w,
                         before := p.passes.length, clears := false, void := false, fault := none, flight := [] }
        .go (t.setMyPe { p with mpd := some m, prg := prgOf 0 tile true,
                                mopen := p.mopen ||| BitVec.ofNat 4 (2 ^ tile) }) none x.mask 0 0
    else .go t none x.mask 0 0)

/-- Whether a pass into tile t is outstanding in a PE. -/
def PE.passing (p : PE) (t : Nat) : Bool :=
  p.passes.any (·.tile == t) || (p.mpd.isSome && bits p.prg.toNat 17 16 == t)

/-- MWAIT (R355), once its wait is over: the tile may be read again (R61). -/
def execMwait (w : RowMods) (s : State) : Out :=
  .next (s.rowDo .mwait w fun x t =>
    if x.acts then
      t.setMyPe { t.myPe with mopen := t.myPe.mopen &&& ~~~(BitVec.ofNat 4 (2 ^ (w.sa.toNat - 40))) }
    else t)

/-- MRD (R356): before the covering MWAIT its value is free (R61). [DESIGN CHOICE, log 9] -/
def execMrd (w : RowMods) (s : State) : Out :=
  .next (s.row .mrd w fun x t =>
    let tile := w.sa.toNat - 40
    if x.pe.mopen.getLsbD tile then
      let (k, t) := t.draw
      .go t (some (Config.freeVec k)) x.mask 0 0
    else
      let q := x.aux % 16
      .go t (some (mkLanes fun l => mget 0 x.pe.a (tileKey tile (2 * q + l / 32) (l % 32)))) x.mask 0 0)

/-- The newest pass into a tile, in a list that is newest first, is marked; done holds the passes looked at. -/
def markNewest (tile : Nat) : List Pass → List Pass → List Pass
  | [], done => done
  | x :: r, done =>
    if x.tile = tile then r.reverse ++ { x with clears := true } :: done else markNewest tile r (x :: done)

/-- The last outstanding pass into a tile zeroes it after its last add (R61). -/
def markClear (tile : Nat) (l : List Pass) : List Pass := markNewest tile l.reverse []

/-- MCLR of a tile (R356, R61). -/
def PE.clearTile (p : PE) (tile : Nat) : PE :=
  if (p.passes.any (·.tile == tile)) then
    match p.mpd with
    | some m =>
      if bits p.prg.toNat 17 16 = tile && !((p.passes.drop m.before).any (·.tile == tile)) then
        { p with mpd := some { m with clears := true } }
      else { p with passes := markClear tile p.passes }
    | none => { p with passes := markClear tile p.passes }
  else
    match p.mpd with
    | some m => if bits p.prg.toNat 17 16 = tile then { p with mpd := some { m with clears := true } } else p.tileZero tile
    | none => p.tileZero tile

/-- MCLR (R356). -/
def execMclr (w : RowMods) (s : State) : Out :=
  .next (s.rowDo .mclr w fun x t =>
    if x.acts then t.setMyPe (t.myPe.clearTile (w.dst.toNat - 40)) else t)

/-! ### Operand fetches of MPASSD (R356, R63) -/

/-- 512 bytes of operand row k, 256 at a time, checked at their homes (R103); the PE's own copies of the lines leave its cache, so
that no later load of it reads an older value (R222). -/
def State.mpdRead (s : State) (k i : Nat) (va : Nat) : Except (Nat × Nat) (Vec × Vec) × State :=
  let c := (s.pen k).ctx
  let get (s : State) (a : Nat) : Except (Nat × Nat) Vec × State :=
    match s.peCheck k c a false with
    | .error e => (.error (e, a), s)
    | .ok t =>
      let s := s.keepTlb (penTlb k) Config.tlbPen t
      if s.linkDown (t.addr a) then (.error (cLINK, a), s)
      else match ((rangeLines [(t.addr a, 256)]).foldl (fun s l =>
          (s.writeback (s.peAgent k i) l).dropCopy (s.peAgent k i) l) s).engineRead (t.addr a) 256 with
        | (.error (e, _), s) => (.error (e, a), s)
        | (.ok b, s) => (.ok (vecOf b), s)
  match get s va with
  | (.error e, s) => (.error e, s)
  | (.ok lo, s) =>
    match get s (va + 256) with
    | (.error e, s) => (.error e, s)
    | (.ok hi, s) => (.ok (lo, hi), s)

/-- The address of the next operand row for PE row i of a systolic pen, 0 otherwise. -/
def MPD.addr (m : MPD) (done i : Nat) : Nat := (m.base + done * m.stride + 512 * i) % 2 ^ 64

/-- The operand row that an MPASSD fetches next. -/
def PE.nextRow (p : PE) (m : MPD) : Nat := p.prgDone + m.flight.length

/-- A fetched operand row enters the array: 16 rows of occupancy in an 8-bit format, 32 in a 16-bit one (R353, R356). -/
def MPD.enter (m : MPD) (r : Vec × Vec) (tail : Nat) : MPD :=
  { m with flight := m.flight ++ [{ lo := r.1, hi := r.2, left := if fmtWidth m.fmt = 8 then 16 else 32, tail := tail }] }

/-- A fetch outside systolic mode: the row enters the array, or a fault is kept for the next boundary.
[DESIGN CHOICE, log 53] -/
def State.mpdOne (s : State) (k i : Nat) (m : MPD) : State :=
  match s.mpdRead k i (m.addr ((s.pe k i).nextRow m) 0) with
  | (.error e, s) => s.setPe k i { s.pe k i with mpd := some { m with fault := some e } }
  | (.ok r, s) => s.setPe k i { s.pe k i with mpd := some (m.enter r 0) }

/-- The rows that PEs (i, 0) of a systolic pen fetch, north to south. -/
def State.mpdRows (s : State) (k : Nat) : Nat → Except (Nat × Nat × Nat) (List (Vec × Vec)) × State
  | 0 => (.ok [], s)
  | h + 1 =>
    match s.mpdRows k h with
    | (.error e, s) => (.error e, s)
    | (.ok l, s) =>
      match (s.pe k (64 * h)).mpd with
      | none => (.ok (l ++ [(0, 0)]), s)
      | some m =>
        match s.mpdRead k (64 * h) (m.addr ((s.pe k (64 * h)).nextRow m) h) with
        | (.error (c, a), s) => (.error (64 * h, c, a), s)
        | (.ok r, s) => (.ok (l ++ [r]), s)

/-- A fetch of a systolic pen: every PE row's operands enter the array. [DESIGN CHOICE, log 53] -/
def State.mpdAll (s : State) (k : Nat) : State :=
  let pen := s.pen k
  match s.mpdRows k (4 * (pen.hm1 + 1)) with
  | (.error (i, e), s) =>
    s.setPe k i { s.pe k i with mpd := (s.pe k i).mpd.map fun m => { m with fault := some e } }
  | (.ok rows, s) =>
    pen.peList.foldl (fun t i =>
      let r := if i % 64 = 0 then rows.getD (i / 64) (0, 0) else (0, 0)
      t.setPe k i { t.pe k i with mpd := (t.pe k i).mpd.map (·.enter r pen.tail) }) s

/-- Another module holds a page that the next operand row needs, or a table that maps it: of a systolic pen, the row of any
PE (i, 0) (R95, R356). -/
def State.mpdAway (s : State) (k i : Nat) : Bool :=
  let pen := s.pen k
  (if pen.sys then List.range (4 * (pen.hm1 + 1)) else [0]).any fun y =>
    let p := s.pe k (if pen.sys then 64 * y else i)
    match p.mpd with
    | none => false
    | some m =>
      let a := m.addr (p.nextRow m) y
      s.rangeAway (penTlb k) pen.ctx a 256 || s.rangeAway (penTlb k) pen.ctx (a + 256) 256

/-- The array can take an operand row: no pass stands before the MPASSD, and its last row is past its occupancy (R353). -/
def MPD.free (m : MPD) : Bool := m.before == 0 && (m.flight.getLast?.map fun r => r.left == 0).getD true

/-- MPASSD_FETCH (R356): the next operand row of the MPASSD of a PE, once the passes and the row before it have left the array; PE
(0, 0) stands for a systolic pen. [DESIGN CHOICE, log 53] -/
def State.mpassdFetch (s : State) (k i : Nat) : State :=
  match (s.pe k i).mpd with
  | none => s
  | some m =>
    if !(s.pen k).takes || m.fault.isSome || !m.free || m.last < (s.pe k i).nextRow m || s.mpdAway k i then s
    else if (s.pen k).sys then (if i = 0 then s.mpdAll k else s)
    else s.mpdOne k i m

end Sys2Proof.Machine
end

