-- ==== Sys2Proof/Machine/Domain.lean ====
section
/-! DEFINITION. One fabric cycle of a timing domain (R21, R25-R33, R39, R234): late faults, switch rows, holds, waits for
the matrix array, the commit of a row in every PE of every pen, and the sequencer. The meanings of the row ops come in as
the argument ex, which Step.lean takes from Dispatch.lean. -/

namespace Sys2Proof.Machine

/-! ### The row word of a PE -/

/-- The op and the fields a PE reads at RC, unless the word is squashed (R27). -/
def State.rowAt (s : State) (k i : Nat) : Option (Instr × Op × RowMods) :=
  let p := s.pen k
  match decodeRow ((s.pe k i).rowWord p.sel p.rc) with
  | .error _ => none
  | .ok ins =>
    match opOf ins with
    | some (o, w) => if p.squashed w.stg.toNat then none else some (ins, o, w)
    | none => none

/-- The machine as PE i of pen k acts. -/
def State.asPe (s : State) (k i : Nat) : State :=
  { s with who := { s.who with die := k / 128, pen := k % 128, pe := i } }

/-! ### Holds (R29, R30, R62, R226, R326, R343, R346, R348) -/

/-- HOLD 1 on an input queue or on scratchpad words, LDSS always; an address that faults tests no word (R343). -/
def padHolds (o : Op) (w : RowMods) (s : State) : Bool :=
  let x := rowCx o w s
  let a := padAddr w x.a
  (padFault x.pen x.pe w a true).isNone && !x.pe.discarded a && !x.pe.isFull a (accBytes w)

/-- The HOLD field of a row (R29). -/
def holdField (o : Op) (w : RowMods) (s : State) : Bool :=
  let p := s.myPe
  match w.hold.toNat with
  | 1 =>
    let c := w.sa.toNat
    (decide (32 ≤ c ∧ c < 36) && (p.queue (c - 32)).toks == []) ||
      (decide (44 ≤ c ∧ c < 48) && p.winHolds (c - 44)) ||
      (decide (o = .lds) && padHolds o w s)
  | 2 =>
    let d := w.dst.toNat - 36
    4 ≤ ((s.pe s.penK (neighbour s.who.pe d)).queue (opp d)).toks.length + (p.latch d).length
  | 3 => (p.handle w.hid.toNat).fullCount < w.aux.toNat
  | _ => false

/-- An EPOST waits for its pen's stores and for its targets (R227, R326). [DEDUCED, log 51] -/
def epostHolds (w : RowMods) (s : State) : Bool :=
  let x := rowCx .epost w s
  let ts := x.pen.targets s.who.die
  x.acts && ts != [] && (ts.any (s.targetFull x.pen.ctx) || !s.penStoresDone s.penK)

/-- The log entries a PE's row would append. -/
def laprOf (o : Op) (w : RowMods) (s : State) : List LogEnt :=
  if o = .lapr then laprEntries w (rowCx o w s) s else []

/-- An irregular access whose window has closed without an end (R346). -/
def PE.irrHolds (p : PE) : Bool := p.irr.any fun x => x.left == 0 && !x.ready

/-- The commit of a row translates an address, or reads an extent map, that needs a page another module holds (R95, R345).
[DEDUCED, log 43] -/
def State.rowAway (s : State) (k i : Nat) (o : Op) (w : RowMods) : Bool :=
  let x := rowCx o w (s.asPe k i)
  let away (a : Nat) : Bool := s.walkAway (penTlb k) x.pen.ctx a
  !deadRowWord w && match o with
    | .ldg => away (irrAddr w x.a)
    | .gath =>
      if bit x.aux 0 && w.imm.toNat % 16 == 0 && s.rangeAway (penTlb k) x.pen.ctx w.imm.toNat 272 then true
      else match (gathAddrs w x (s.asPe k i)).1 with
        | .ok l => l.any fun e => away e.2
        | .error _ => false
    | .lapr => (lanesOf x.mask).any fun l => away (elemAddr w (lane x.b l))
    | _ => false

/-- PE i of pen k holds its row, on the state at the start of the fc (R323). [DEDUCED, log 43] -/
def State.peHolds (s : State) (k i : Nat) : Bool :=
  (s.pe k i).irrHolds ||
    match s.rowAt k i with
    | none => false
    | some (_, o, w) =>
      let t := s.asPe k i
      holdField o w t || (o = .ldss && padHolds o w t) || (o = .epost && epostHolds w t) ||
        s.rowAway k i o w ||
        (!ignored o (s.pen k) i &&
          (usedSources o w).any fun c => 44 ≤ c && c < 48 && (s.pe k i).winHolds (c - 44))

/-- Every PE of a list of pens. -/
def State.allPes (s : State) (ks : List Nat) : List (Nat × Nat) :=
  ks.flatMap fun k => (s.pen k).peList.map fun i => (k, i)

/-- Log entries of the whole row, all PEs. -/
def State.rowEntries (s : State) (ks : List Nat) : List LogEnt :=
  (s.allPes ks).flatMap fun (k, i) =>
    match s.rowAt k i with
    | some (_, o, w) => laprOf o w (s.asPe k i)
    | none => []

/-- A log a LAPR row appends to has no room for the row's entries (R348, R153). -/
def State.logHolds (s : State) (ks : List Nat) : Bool :=
  let es := s.rowEntries ks
  es.any fun e => s.logLacks (homeOf e.pa) (es.filter fun f => homeOf f.pa == homeOf e.pa).length

/-- The first PE that holds. -/
def State.holder (s : State) (ks : List Nat) : Option (Nat × Nat) :=
  match (s.allPes ks).find? fun (k, i) => s.peHolds k i with
  | some x => some x
  | none => if s.logHolds ks then (ks.head?).map fun k => (k, 0) else none

/-- WATCHDOG (R229): the domain of pen k has held for 2^30 fc without a break. R235 gives SIZE 1..256 and no value to a record whose
cause has no access: 1 here, 0 of RUNOFF, NONFINITE and a pass. [DESIGN CHOICE, log 99] -/
def State.watchdog (s : State) (k i : Nat) : State :=
  let p := s.pen k
  if p.run = 1 ∧ Config.watchdog ≤ p.held ∧ p.stop = .none then
    let w := (s.pe k i).rowWord p.sel p.rc
    s.domainStop k { cause := cWATCHDOG, row := p.rc, sel := p.sel, pe := i, defer_ := false,
                     iter := p.q (rowMods w).stg.toNat, addr := 0, word := w, size := 1, data := 0, offs := 0, lanes := 0 }
  else s

/-- A held fc (R30): nothing but the counts of held fc (R188, R229). [DEDUCED, log 78] -/
def State.hold (s : State) (ks : List Nat) : State :=
  ks.foldl (fun s k => (s.setPen k { s.pen k with held := (s.pen k).held + 1 }).count (k / 128) 5 1) s

/-! ### Waits for the matrix array (R353, R355, R356) -/

def State.peWaits (s : State) (k i : Nat) : Bool :=
  match s.rowAt k i with
  | none => false
  | some (_, o, w) =>
    let p := s.pe k i
    (p.mask w).getLsbD 0 &&
      match o with
      | .mwait => p.passing (w.sa.toNat - 40)
      | .mpass | .msprs => 10 ≤ p.passes.length + (if p.mpd.isSome then 1 else 0)
      | .mpassd => p.mpd.isSome || 10 ≤ p.passes.length
      | _ => false

/-! ### Faults found after the commit of their row (R234, R346, R356) -/

/-- Causes an access meets at its reply, precise at row n + 4 even for a store (R229, R346). [DEDUCED, log 54] -/
def lateCause (c : Nat) : Bool := c == cLINK || c == cRESET

/-- The bytes a store's record holds, lowest address first: a narrow STG has the four of lane 0 (R235, R344). -/
def Irr.recData (x : Irr) : Vec :=
  if x.size = 4 && x.word.toNat >>> 120 = 0x44 then (lane x.data 0).zeroExtend 2048 else x.data

/-- The record of an irregular access that failed. [DEDUCED, log 54] -/
def Irr.record (x : Irr) (i : Nat) : FaultRec :=
  let d := !x.load && !lateCause x.cause
  { cause := x.cause, row := x.row, sel := x.sel, pe := i, defer_ := d, iter := x.iter, addr := x.faddr,
    word := x.word, size := x.size, data := if d then x.recData else 0,
    offs := if d && x.size = 4 && x.word.toNat >>> 120 = 0x46 then x.offs else 0, lanes := x.lanes }

/-- An access that stops the domain at this boundary. -/
def Irr.stops (x : Irr) : Bool :=
  x.ready && x.cause != 0 && ((!x.load && !lateCause x.cause) || x.left == 0)

/-- A failed request that is sent again once its pen is started again (R236, R346). -/
def Irr.resent (x : Irr) : Bool := if x.load then resumable x.cause else x.cause == cLINK

/-- The accesses of a PE after a stop: requests of a resumable cause are sent again; of the others the first, which the fault
record names, is over, and the rest stop the domain in their turn when it runs again (R234, R236, R346). [DEDUCED, log 54] -/
def afterStop : Bool → List Irr → List Irr
  | _, [] => []
  | first, x :: t =>
    if !x.stops then x :: afterStop first t
    else if x.resent then { x with ready := false, cause := 0 } :: afterStop false t
    else if first then afterStop false t
    else x :: afterStop false t

/-- The first late fault of a PE, and the PE after it. -/
def State.lateOf (s : State) (k i : Nat) : Option (FaultRec × PE) :=
  let p := s.pe k i
  match p.irr.find? Irr.stops with
  | some x => some (x.record i, { p with irr := afterStop true p.irr })
  | none =>
    match p.mpd with
    | some m =>
      m.fault.map fun (c, a) =>
        ({ cause := c, row := m.row, sel := m.sel, pe := i, defer_ := false, iter := m.iter, addr := a, word := m.word,
           size := 256, data := 0, offs := 0, lanes := m.lanes },
         { p with mpd := some { m with fault := none } })
    | none => none

/-- A late fault of one PE stops its domain. [DEDUCED, log 54] -/
def State.lateStop (s : State) (k i : Nat) : Option State :=
  (s.lateOf k i).map fun (r, p) => (s.setPe k i p).domainStop k r

/-- The first late fault of a domain stops it. -/
def State.late (s : State) (ks : List Nat) : Option State :=
  (s.allPes ks).findSome? fun (k, i) => s.lateStop k i

/-! ### The sequencer (R25-R28, R32, R183) -/

/-- The count of a level from its source (R26, R183). -/
def State.levelCount (s : State) (k l : Nat) : Nat :=
  let x := (s.pen k).level l
  min (2 ^ 32 - 8)
    (if x.csrc = 1 then x.cimm
     else if x.csrc = 6 then (s.pen k).idCount
     else if 2 ≤ x.csrc then (mget 0 (s.pe k 0).c (x.csrc - 2)).toNat else 0)

/-- passes(L) of R25. -/
def Pen.passes (p : Pen) (l : Nat) : Nat := (p.level l).sqn + (if l = 0 then p.g else 0)

/-- Present levels, innermost first. -/
def Pen.inner (p : Pen) : List Nat := (List.range 4).filter p.present

/-- The outermost present level wraps n times: the current identifier steps (R19). -/
def Pen.stepWid (p : Pen) (l n : Nat) : Pen :=
  if p.levels = l + 1 then { p with wid := stepId p.job p.wid n } else p

/-- A wrap of level l into pass q: level 0 steps the identifier only into passes below its count (R19). -/
def Pen.wrap (p : Pen) (l : Nat) : Pen :=
  let x := p.level l
  let p := p.setLevel l { x with sqi := x.sqi + 1 }
  let p := { p with rc := x.sqs }
  if l = 0 then (if x.sqi + 1 < x.sqn then p.stepWid 0 1 else p) else p.stepWid l 1

/-- A pending select takes effect (R32): 2 held rows if it differs from SEL. -/
def Pen.takeSelect (p : Pen) : Pen :=
  if p.pval then (if p.psel != p.sel then { p with swr := 2 } else { p with pval := false }) else p

/-- Queues and latches of a pen are emptied when level 0 exits (R28, R319). -/
def State.discard (s : State) (k : Nat) : State :=
  (s.pen k).peList.foldl (fun s i =>
    if (s.pe k i).q = [] ∧ (s.pe k i).lat = [] then s else s.setPe k i { s.pe k i with q := [], lat := [] }) s

/-- The outermost level whose start row is RC and whose pass counter is 0, below level n. -/
def Pen.starts (p : Pen) : Nat → Option Nat
  | 0 => none
  | l + 1 => if p.present l && (p.level l).sqs == p.rc && (p.level l).sqi == 0 then some l else Pen.starts p l

/-- RC arrives at a row: counts are taken for the levels that start there, outermost first, below level n; at a count of 0
the level executes no pass (R26), and the enclosing level's rules apply when it ends on the same row. An outer level whose
passes would all be empty leaves at once. A row 64 is kept for the run-off test. [DEDUCED, log 41] -/
def State.enter (s : State) (k : Nat) : Nat → Nat → State
  | 0, _ => s
  | fuel + 1, n =>
    match (s.pen k).starts n with
    | none => s
    | some l =>
      let c := s.levelCount k l
      let x := (s.pen k).level l
      let p := (s.pen k).setLevel l { x with sqn := c, sqi := 0 }
      if c ≠ 0 then State.enter (s.setPen k p) k fuel l
      else
        let out := p.inner.filter fun m => l < m && (p.level m).sqe == x.sqe
        -- enclosing levels that end on this row, innermost first
        let p := out.foldl (fun (r : Pen × Option Nat) m =>
          if r.2.isSome then r
          else
            let y := r.1.level m
            if y.sqi + 1 < r.1.passes m then
              if y.sqs = x.sqs then
                (((r.1.stepWid m (r.1.passes m - 1 - y.sqi)).setLevel m { y with sqi := 0 }), none)
              else (r.1.wrap m, some m)
            else (r.1.setLevel m { y with sqi := 0 }, none)) (p, none)
        match p.2 with
        | some m => State.enter (s.setPen k p.1) k fuel m
        | none => State.enter (s.setPen k { p.1 with rc := x.sqe + 1 }) k fuel 4

/-- The rules of R25 at the end of a row, from level l outwards; l counts levels left to look at, innermost first.
[DEDUCED, log 41] -/
def State.advanceFrom (s : State) (k : Nat) : List Nat → State
  | [] => (s.setPen k { s.pen k with rc := (s.pen k).rc + 1 }).enter k 16 4
  | l :: t =>
    let p := s.pen k
    let x := p.level l
    if x.sqe = p.rc ∧ x.sqs ≤ p.rc then
      if x.sqi + 1 < p.passes l then
        let s := s.setPen k (if l = 0 then (p.wrap l).takeSelect else p.wrap l)
        let s := if l = 0 then s.setPen k { s.pen k with boundary := true } else s
        s.enter k 16 l
      else
        let s := s.setPen k (p.setLevel l { x with sqi := 0 })
        let s := if l = 0 then (s.setPen k { s.pen k with boundary := true }).discard k else s
        State.advanceFrom s k t
    else if p.inLevel l then (s.setPen k { p with rc := p.rc + 1 }).enter k 16 4
    else State.advanceFrom s k t

/-- The sequencer of a pen after a row (R25), with a COND outside level 0 (R32) and the fault of run-off, whose record names
row 63 however RC comes to pass it. [DEDUCED, log 41] -/
def State.advance (s : State) (k : Nat) : State :=
  let p := s.pen k
  let s := s.setPen k { p with boundary := false, cond := false, held := 0 }
  let s := s.advanceFrom k p.inner
  let s := if p.cond && !p.inLevel 0 then s.setPen k (s.pen k).takeSelect else s
  if 64 ≤ (s.pen k).rc then
    let w := (s.pe k 0).rowWord p.sel 63
    (s.setPen k { s.pen k with rc := 63 }).domainStop k
      { cause := cRUNOFF, row := 63, sel := p.sel, pe := 0, defer_ := false, iter := p.q (rowMods w).stg.toNat,
        addr := 0, word := w, size := 0, data := 0, offs := 0, lanes := 0 }
  else s

/-! ### A cycle of a timing domain -/

/-- The row commits in one PE; after a fault in a PE of a lower index none does. [DEDUCED, log 43] -/
def State.commitPe (ex : Instr → State → Out) (s : State) (k i : Nat) : State :=
  if (s.pen k).stop ≠ .none then s
  else
    match s.rowAt k i with
    | none => s
    | some (ins, _, _) =>
      match ex ins (s.asPe k i) with
      | .next t => t
      | _ => s

/-- The fault that a row met, in the pen it met it in. [DEDUCED, log 43] -/
def State.metFault (s : State) (ks : List Nat) : Option (Nat × FaultRec) :=
  ks.findSome? fun k =>
    match (s.pen k).stop with
    | .fault r => some (k, r)
    | _ => none

/-- A row commits in every PE of a domain, or in none (R234), and the sequencers advance. [DEDUCED, log 43] -/
def State.commitRow (ex : Instr → State → Out) (s : State) (ks : List Nat) : State :=
  let t := (s.allPes ks).foldl (fun s (k, i) => s.commitPe ex k i) s
  match t.metFault ks with
  | some (k, r) => ({ s with tele := t.tele } : State).domainStop k r
  | none =>
    let t := ks.foldl (fun t k => (t.rowEnd k).count (k / 128) 4 1) t
    ks.foldl (fun t k => if (t.pen k).halting then t.setPen k { t.pen k with cond := false, held := 0 }
      else t.advance k) { t with who := s.who }

/-- A switch-hold row (R32). -/
def Pen.switchRow (p : Pen) : Pen :=
  if p.swr = 0 then p
  else if p.swr = 1 then { p with swr := 0, sel := p.psel, pval := false }
  else { p with swr := p.swr - 1 }

/-- A stream program that a sweep ended on a stall of the domain has still to post its record (R35). -/
def State.sweeping (s : State) (ks : List Nat) : Bool :=
  s.progs.any fun (_, g) => g.swept.any fun i => ks.any fun k => (s.stallsOf k).contains i

/-- One fc of the timing domain of a die (R25); the first row of an image waits for the records of the sweep (R35), and the
rows of a switch are held rows (R33). Where a pre-emption is due at this boundary it is taken, and no WATCHDOG (R244). -/
def State.domainTurn (ex : Instr → State → Out) (s : State) (wanted : Bool) (die gang : Nat) : State :=
  let ks := s.domainPens die gang
  match s.late ks with
  | some t => t
  | none =>
    if s.sweeping ks then s
    else if ks.any fun k => (s.pen k).swr != 0 then ks.foldl (fun s k => s.setPen k (s.pen k).switchRow) (s.hold ks)
    else
      match s.holder ks with
      | some (k, i) => if wanted then s.hold ks else (s.hold ks).watchdog k i
      | none =>
        if (s.allPes ks).any fun (k, i) => s.peWaits k i then ks.foldl State.tickArrays s
        else s.commitRow ex ks

/-! ### The events of a timing domain -/

/-- HELD_FC (R30): a domain that holds loses one fc. -/
def execHeldFc (die gang : Nat) (s : State) : Out :=
  let ks := s.domainPens die gang
  match s.holder ks with
  | some _ => .next (s.hold ks)
  | none => .next s

/-- LOAD_REPLY (R346). -/
def execLoadReply (die pen pe : Nat) (s : State) : Out := .next (s.loadReply (penKey die pen) pe)

/-- STORE_TRANSLATION_DONE (R346). -/
def execStoreTranslationDone (die pen pe : Nat) (s : State) : Out := .next (s.storeDone (penKey die pen) pe)

/-- DEFERRED_STORE_FAULT (R234): a committed store of a PE has failed, and its domain stops at this boundary. -/
def execDeferredStoreFault (die pen pe : Nat) (s : State) : Out :=
  let k := penKey die pen
  if (s.domainPens die (s.pen k).gang).contains k then
    match s.lateOf k pe with
    | some (r, p) => .next (if r.defer_ then (s.setPe k pe p).domainStop k r else s)
    | none => .next s
  else .next s

/-- MATRIX_PASS_COMPLETE (R353): the oldest pass of a PE, done, is added into its tile; in a systolic pen PE (0, 0) stands
for all of them. -/
def execMatrixPassComplete (die pen pe : Nat) (s : State) : Out :=
  let k := penKey die pen
  if (s.pen k).sys then .next (if pe = 0 then s.finishHeads k else s)
  else .next (match (s.pe k pe).passes with
    | [] => s
    | _ => s.setPe k pe (s.pe k pe).finishHead)

/-- MPASSD_FETCH (R356). -/
def execMpassdFetch (die pen pe : Nat) (s : State) : Out := .next (s.mpassdFetch (penKey die pen) pe)

end Sys2Proof.Machine
end

