-- ==== Sys2Proof/Machine/Image.lean ====
section
/-! DEFINITION. Pen images (R265-R269, R34, R161, R162, R321, R354): reading and checking one, and installing it. -/

namespace Sys2Proof.Machine

/-! ### Reading image bytes -/

/-- A line as a read at its home finds it: what releasers and an owner hold has come home, its poison with it (R88, R90, R105). -/
def State.viewLine (s : State) (l : Nat) : Line := (s.seen l).homeData l

/-- A read at its home finds a line bad. -/
def State.viewBad (s : State) (l : Nat) : Bool := (s.seen l).lineBad l != 0

def State.viewPhys (s : State) (pa n : Nat) : Nat :=
  ofBytes ((rangeLines [(pa, n)]).flatMap fun l => toBytes 128 (s.viewLine l).toNat) / 256 ^ (pa % 128) % 256 ^ n

/-- A page of a range of a context's memory, or of the tables that map it, is held by another module (R95). -/
def State.viewAway (s : State) (ag c va n : Nat) : Bool := s.rangeAway ag c va n

/-- n bytes of a context's memory; none where they are unmapped or bad. -/
def State.view (s : State) (ag c va n : Nat) : Option Nat :=
  match s.piecesOf ag c false va n with
  | .error _ => none
  | .ok ps =>
    if ps.any fun (_, p, k, _) => s.linkDown p || (rangeLines [(p, k)]).any s.viewBad then none
    else some (ps.foldr (fun (_, p, k, _) acc => s.viewPhys p k + 256 ^ k * acc) 0)

/-! ### A parsed image -/

/-- Why an image is refused: some of its bytes cannot be read, or a check fails at a PE and, where one applies, a row and
schedule (R302), once the image has been read up to an address; or a page of it is held by another module, and the read waits
(R95). -/
inductive ImgErr where
  | unreadable (va n : Nat)
  | away
  | bad (pe : Nat) (row : Option (Nat × Bool)) (upto : Nat)
  deriving DecidableEq, Repr

/-- The BADCFG report of R302. -/
def ImgErr.report : ImgErr → W64
  | .unreadable _ _ | .away => BitVec.ofNat 64 stBADARG
  | .bad pe none _ => BitVec.ofNat 64 (stBADCFG + pe * 65536)
  | .bad pe (some (r, b)) _ => BitVec.ofNat 64 (stBADCFG + pe * 65536 + r * 2 ^ 27 + b2n b * 2 ^ 33 + 2 ^ 34)

/-- One column: its rows in order, handle entries and window entries. -/
structure Col where
  pe : Nat
  rows : List Row
  handles : SMap (Option Nat)
  windows : SMap (Option Nat)
  deriving DecidableEq, Repr

structure Image where
  hdr : Nat
  ports : List Nat
  cols : List Col
  deriving DecidableEq, Repr

def Image.hm1 (x : Image) : Nat := bits x.hdr 42 40
def Image.wm1 (x : Image) : Nat := bits x.hdr 46 43
def Image.ii (x : Image) : Nat := bits x.hdr 53 47
def Image.lena (x : Image) : Nat := bits x.hdr 60 54
def Image.lenb (x : Image) : Nat := bits x.hdr 67 61
def Image.split (x : Image) : Nat := bits x.hdr 76 75
def Image.sys (x : Image) : Bool := bit x.hdr 77
def Image.adj (x : Image) : Bool := bit x.hdr 78
def Image.tape (x : Image) : Nat := bits x.hdr 82 79
def Image.rmask (x : Image) : Nat := bits x.hdr 255 128
def Image.lvl (x : Image) (l : Nat) : Nat := bits x.hdr (319 + 64 * l) (256 + 64 * l)

/-- A level of the header. -/
def Image.level (x : Image) (l : Nat) : Level :=
  let v := x.lvl l
  { csrc := bits v 14 12, cimm := bits v 63 32, sqs := bits v 5 0, sqe := bits v 11 6, sqn := 0, sqi := 0 }

/-- Rows of the pen: 4h by 4w, pen-local indices in order. -/
def Image.peList (x : Image) : List Nat :=
  (List.range (4 * (x.hm1 + 1))).flatMap fun i => (List.range (4 * (x.wm1 + 1))).map fun j => 64 * i + j

/-- Row r of a schedule of a column. -/
def Image.rowOf (x : Image) (c : Col) (b : Bool) (r : Nat) : Row :=
  if b then (if r < x.lenb then c.rows.getD (x.lena + r) haltfWord else haltfWord)
  else if r < x.lena then c.rows.getD r haltfWord else haltfWord

/-! ### The header (R266, R269, R25) -/

/-- II, levels and ranges of R25 and R266. -/
def levelsOk (x : Image) : Bool :=
  let present (l : Nat) : Bool := (x.level l).csrc != 0
  let last := max x.lena x.lenb
  ((List.range 4).all fun l =>
    let v := x.level l
    v.csrc != 7 && bits (x.lvl l) 31 15 == 0 &&
      (!present l || (v.sqs ≤ v.sqe && v.sqe < last && (l == 0 || present (l - 1)) &&
        (l == 0 || (v.sqs ≤ (x.level (l - 1)).sqs && (x.level (l - 1)).sqe ≤ v.sqe))))) &&
    (if present 0 then x.ii == (x.level 0).sqe - (x.level 0).sqs + 1 else x.ii == 1)

/-- Every mark of the replicate mask stands for a stall of the shape. -/
def rmaskOk (x : Image) : Bool :=
  (List.range 128).all fun k => !bit x.rmask k || (k / 16 ≤ x.hm1 && k % 16 ≤ x.wm1)

/-- The header's checks for a pen of a shape. -/
def headerOk (h : Nat) (hm1 wm1 : Nat) : Bool :=
  let x : Image := { hdr := h, ports := [], cols := [] }
  bits h 31 0 == 0x39444D4E && bits h 39 32 == 1 && x.hm1 == hm1 && x.wm1 == wm1 && 1 ≤ x.ii && x.ii ≤ 64 &&
    1 ≤ x.lena && x.lena ≤ 64 && x.lenb ≤ 64 && bits h 74 68 ≤ 64 && bits h 127 83 == 0 && levelsOk x && rmaskOk x

/-! ### Column streams (R268) -/

/-- RW fields only (R161, R268). -/
def handleEntryOk (v : Nat) : Bool := bits v 41 19 == 0 && bits v 63 44 == 0
def windowEntryOk (v : Nat) : Bool := bits v 7 6 == 0 && bits v 31 8 == 0

/-- Entries of a column from an address to its end; made tells whether the previous entry produced a row. An IX without its handle
or window is refused; an IX or N that its TAG does not use is not looked at. [DESIGN CHOICE, log 101] -/
def parseCol (rd : Nat → Nat → Except ImgErr Nat) (pe total : Nat) : Nat → Nat → Bool → Col → Except ImgErr (Col × Nat)
  | 0, a, _, _ => .error (.bad pe none a)
  | fuel + 1, a, made, c =>
    match rd a 4 with
    | .error e => .error e
    | .ok t =>
      let ix := bits t 15 8
      let n := bits t 31 16
      let go (rows : List Row) (next : Nat) : Except ImgErr (Col × Nat) :=
        if total < c.rows.length + rows.length then .error (.bad pe none next)
        else parseCol rd pe total fuel next true { c with rows := c.rows ++ rows }
      match bits t 7 0 with
      | 0 =>
        match rd (a + 4) 16 with
        | .error e => .error e
        | .ok w => go [BitVec.ofNat 128 w] (a + 20)
      | 1 =>
        match c.rows.getLast? with
        | none => .error (.bad pe none (a + 4))
        | some w => if made ∧ 1 ≤ n ∧ n ≤ 64 then go (List.replicate n w) (a + 4) else .error (.bad pe none (a + 4))
      | 2 => if 1 ≤ n ∧ n ≤ 128 then go (List.replicate n 0) (a + 4) else .error (.bad pe none (a + 4))
      | 3 => if c.rows.length = total then .ok (c, a + 4) else .error (.bad pe none (a + 4))
      | 4 =>
        match rd (a + 4) 8 with
        | .error e => .error e
        | .ok v =>
          if 16 ≤ ix ∨ (mget none c.handles ix).isSome ∨ !handleEntryOk v then .error (.bad pe none (a + 12))
          else parseCol rd pe total fuel (a + 12) false { c with handles := mset none c.handles ix (some v) }
      | 5 =>
        match rd (a + 4) 4 with
        | .error e => .error e
        | .ok v =>
          if 4 ≤ ix ∨ (mget none c.windows ix).isSome ∨ !windowEntryOk v then .error (.bad pe none (a + 8))
          else parseCol rd pe total fuel (a + 8) false { c with windows := mset none c.windows ix (some v) }
      | _ => .error (.bad pe none (a + 4))

/-- Every column, in pen-local order. -/
def parseCols (rd : Nat → Nat → Except ImgErr Nat) (total : Nat) : List Nat → Nat → Except ImgErr (List Col × Nat)
  | [], a => .ok ([], a)
  | pe :: t, a =>
    match parseCol rd pe total 160 a false { pe := pe, rows := [], handles := [], windows := [] } with
    | .error e => .error e
    | .ok (c, b) =>
      match parseCols rd total t b with
      | .error e => .error e
      | .ok (l, e) => .ok (c :: l, e)

/-! ### Handles and ports (R162, R267) -/

def Col.handle (c : Col) (h : Nat) : Nat := (mget none c.handles h).getD 0
def hBase (v : Nat) : Nat := bits v 8 0
def hVecs (v : Nat) : Nat := (bits v 15 9 + 1) * (bits v 18 16 + 1)
def hSlots (v : Nat) : Nat := bits v 18 16 + 1
def hEn (v : Nat) : Bool := bit v 42

def portPe (e : Nat) : Nat := 64 * bits e 4 0 + bits e 10 5
def portHandleOf (e : Nat) : Nat := bits e 14 11

/-- A port entry of the shape, without reserved bits. -/
def portOk (x : Image) (e : Nat) : Bool := bits e 31 15 == 0 && bits e 4 0 ≤ 4 * x.hm1 + 3 && bits e 10 5 ≤ 4 * x.wm1 + 3

/-- The enabled handles of a column fit the split and do not overlap. -/
def handlesOk (x : Image) (c : Col) : Bool :=
  let hs := (List.range 16).filter fun h => hEn (c.handle h)
  hs.all fun h =>
    let v := c.handle h
    hBase v + hVecs v ≤ splitBytes x.split / 256 &&
      hs.all fun g => g == h || hBase v + hVecs v ≤ hBase (c.handle g) || hBase (c.handle g) + hVecs (c.handle g) ≤ hBase v

/-! ### Links (R23, R321) -/

/-- Directions in which a word sends. -/
def sendDirs (w : RowMods) : List Nat := (List.range 4).filter fun d => route w d != 0

/-- Queues a word reads as operands. -/
def operandQueues (o : Op) (w : RowMods) : List Nat := ((usedSources o w).filter fun c => 32 ≤ c ∧ c < 36).map (· - 32)

/-- PE i lies on the edge toward d. -/
def onEdge (x : Image) (i d : Nat) : Bool :=
  match d with
  | 0 => i / 64 == 0
  | 1 => i % 64 == 4 * x.wm1 + 3
  | 2 => i / 64 == 4 * x.hm1 + 3
  | _ => i % 64 == 0

/-- The plane of a link: 1 for narrow, 0 for wide and for what VBCAST starts. -/
def linkPlane (w : RowMods) : Nat := if w.pl = 1 then 1 else 0

/-- The words of a column that are ops, schedule A first. -/
def Image.ops (x : Image) (c : Col) : List (Nat × Bool × Op × RowMods) :=
  (([false, true].flatMap fun b => (List.range (if b then x.lenb else x.lena)).map fun r => (r, b)).filterMap fun (r, b) =>
    match decodeRow (x.rowOf c b r) with
    | .error _ => none
    | .ok i => (opOf i).map fun (o, w) => (r, b, o, w))

/-- The plane a link out of a column takes from its first sender. -/
def colPlane (ops : List (Nat × Bool × Op × RowMods)) (d : Nat) : Option Nat :=
  (ops.find? fun (_, _, _, w) => route w d != 0).map fun (_, _, _, w) => linkPlane w

/-- Planes of the four links of each PE, keyed 4*PE + direction. -/
def Image.planes (x : Image) : SMap (Option Nat) :=
  x.cols.foldl (fun m c =>
    let ops := x.ops c
    iter (fun d m => mset none m (4 * c.pe + d) (colPlane ops d)) 4 m) []

/-! ### Row words (R265) -/

/-- A matrix op whose word is shared by a systolic pen (R354). -/
def isPass (o : Op) : Bool :=
  match o with
  | .mpass | .msprs | .mpassd => true
  | _ => false

/-- The link that feeds queue q of PE p, if a word sends on it, has a plane (R321): a reader's own, narrow for a VBCAST's
operand, that of the link it continues on for a route of code 2 or 3. -/
def planeOk (x : Image) (pl : SMap (Option Nat)) (p q k : Nat) : Bool :=
  if onEdge x p q then true
  else match mget none pl (4 * (match q with
      | 0 => p - 64
      | 1 => p + 1
      | 2 => p + 64
      | _ => p - 1) + opp q) with
    | some j => j == k
    | none => true

/-- The checks of R265 that need the image beside the word. -/
def imageWordOk (x : Image) (pl : SMap (Option Nat)) (c : Col) (r : Nat) (o : Op) (w : RowMods) : Bool :=
  let p := c.pe
  (w.pl != 2 || bit x.rmask (16 * (p / 64 / 4) + p % 64 / 4)) &&
  ((sendDirs w).all fun d => !onEdge x p d && mget none pl (4 * p + d) == some (linkPlane w)) &&
  ((operandQueues o w).all fun q => planeOk x pl p q (if o = .vbcast then 1 else linkPlane w)) &&
  ((routeQueues w).all fun q => planeOk x pl p q (linkPlane w)) &&
  (w.hold != 3 || (hEn (c.handle w.hid.toNat) && w.aux.toNat ≤ hSlots (c.handle w.hid.toNat))) &&
  (w.stg == 0 || ((x.level 0).csrc != 0 && (x.level 0).sqs ≤ r && r ≤ (x.level 0).sqe)) &&
  (o != .back || hEn (c.handle (auxOf w % 16)))

/-- A row of a systolic pen: a pass word stands alike in every PE, unpredicated (R354). -/
def sysWordOk (x : Image) (c : Col) (b : Bool) (r : Nat) : Bool :=
  let isP (v : Row) : Bool := match decodeRow v with
    | .ok i => (match opOf i with
        | some (o, _) => isPass o
        | none => false)
    | .error _ => false
  let mine := x.rowOf c b r
  match x.cols with
  | [] => true
  | z :: _ =>
    let first := x.rowOf z b r
    (!isP mine || ((rowMods mine).pr == 0 && (rowMods mine).pn == 0)) && ((!isP mine && !isP first) || mine == first)

/-- A row word of the image passes R265. -/
def Image.wordOk (x : Image) (pl : SMap (Option Nat)) (c : Col) (b : Bool) (r : Nat) : Bool :=
  match decodeRow (x.rowOf c b r) with
  | .error _ => false
  | .ok i =>
    match opOf i with
    | none => false
    | some (o, w) => rowWordOk o w && imageWordOk x pl c r o w && (!x.sys || sysWordOk x c b r)

/-- The first row of a column that fails. -/
def Image.colCheck (x : Image) (pl : SMap (Option Nat)) (c : Col) : Option ImgErr :=
  if !handlesOk x c then some (.bad c.pe none 0)
  else
    (([false, true].flatMap fun b => (List.range (if b then x.lenb else x.lena)).map fun r => (b, r)).find? fun (b, r) =>
      !x.wordOk pl c b r).map fun (b, r) => .bad c.pe (some (r, b)) 0

/-- Every check after parsing, in PE and then row order. -/
def Image.check (x : Image) : Option ImgErr :=
  match x.ports.find? fun e => !(x.cols.any fun c => c.pe == portPe e && hEn (c.handle (portHandleOf e))) with
  | some e => some (.bad (portPe e) none 0)
  | none =>
    let pl := x.planes
    x.cols.findSome? (x.colCheck pl)

/-- A failure found once the image is read up to an address. -/
def ImgErr.found (e : ImgErr) (upto : Nat) : ImgErr :=
  match e with
  | .bad pe row _ => .bad pe row upto
  | e => e

/-- Bytes of an image, or why they cannot be read. -/
def State.imageRead (s : State) (ag c va n : Nat) : Except ImgErr Nat :=
  if s.viewAway ag c va n then .error .away
  else match s.view ag c va n with
    | some v => .ok v
    | none => .error (.unreadable va n)

/-- The image at a virtual address of a context, read once and checked for a pen of a shape (R269); and its length. The header, the
port entries and every column stream are parsed before a row word is checked, and a header failure or a port entry outside the
shape names PE 0, a port entry of a disabled handle its own PE. [DESIGN CHOICE, log 101] -/
def State.readImage (s : State) (ag c va hm1 wm1 : Nat) : Except ImgErr (Image × Nat) :=
  let rd (a n : Nat) : Except ImgErr Nat := s.imageRead ag c a n
  match rd va 64 with
  | .error e => .error e
  | .ok h =>
    if !headerOk h hm1 wm1 then .error (.bad 0 none (va + 64))
    else
      let n := bits h 74 68
      match (List.range n).mapM fun k => rd (va + 64 + 4 * k) 4 with
      | .error e => .error e
      | .ok ports =>
        let x : Image := { hdr := h, ports := ports, cols := [] }
        match ports.find? fun e => !portOk x e with
        | some _ => .error (.bad 0 none (va + 64 + 4 * n))
        | none =>
          match parseCols rd (x.lena + x.lenb) x.peList (va + 64 + 4 * n) with
          | .error e => .error e
          | .ok (cols, e) =>
            let y := { x with cols := cols }
            match y.check with
            | some f => .error (f.found e)
            | none => .ok (y, e - va)

/-- The lines of a virtual range as reads at their homes leave them. -/
def State.engineTouch (s : State) (ag c va n : Nat) : State :=
  match s.vread ag c va n with
  | .ok _ t => t
  | .fault _ _ t => t
  | .wait => s

/-- The reads that refused an image at va have been made, and a mismatch they met is counted (R103, R188). -/
def State.noteImage (s : State) (ag c va : Nat) : ImgErr → State
  | .unreadable a n => s.engineTouch ag c va (a + n - va)
  | .bad _ _ upto => s.engineTouch ag c va (upto - va)
  | .away => s

/-! ### Installing (R34, R57, R66, R161, R305) -/

/-- The largest stage in level 0's range, over both schedules (R25). -/
def Image.maxStage (x : Image) : Nat :=
  let l := x.level 0
  if l.csrc = 0 then 0
  else x.cols.foldl (fun m c =>
    (List.range (l.sqe + 1 - l.sqs)).foldl (fun m k =>
      let r := l.sqs + k
      let st (b : Bool) : Nat := if r < (if b then x.lenb else x.lena) then (rowMods (x.rowOf c b r)).stg.toNat else 0
      max m (max (st false) (st true))) m) 0

/-- A row store filled from an image; unlisted rows hold HALTF. -/
def storeOf (rows : List Row) : SMap Row := rows.zipIdx.foldl (fun m (w, r) => mset haltfWord m r w) []

/-- A handle entry from the image. -/
def handleOf (v : Nat) : Handle :=
  { Handle.reset with base := hBase v, svm1 := bits v 15 9, nsm1 := bits v 18 16, en := hEn v, dirn := bit v 43 }

/-- Handles and row stores of a column in a PE; a kept handle keeps its entry, and a window on it its POS (R305). -/
def PE.install (p : PE) (x : Image) (c : Col) (keep : Nat → Bool) : PE :=
  let hs := iter (fun h m => mset Handle.reset m h (if keep h then p.handle h else handleOf (c.handle h))) 16 []
  let spw := iter (fun k m =>
    let w := winOf (BitVec.ofNat 32 ((mget none c.windows k).getD 0))
    let w := if keep w.hid then { w with pos := (p.window k).pos } else w
    mset 0 m k w.toReg) 4 []
  { p with handles := hs, spw := spw, rowA := storeOf (c.rows.take x.lena), rowB := storeOf (c.rows.drop x.lena) }

/-- The port map of an image. -/
def Image.portMap (x : Image) : SMap (Option PortMap) :=
  x.ports.zipIdx.foldl (fun m (e, k) => mset none m k (some { pe := portPe e, h := portHandleOf e })) []

/-- The sequencer of a pen with a new image. -/
def Pen.install (p : Pen) (x : Image) (va : Nat) : Pen :=
  { p with run := 0, rc := 0, ii := x.ii, sel := false, pval := false, psel := false, swr := 0, sys := x.sys,
           lv := iter (fun l m => mset Level.reset m l (x.level l)) 4 [], g := x.maxStage, lena := x.lena, lenb := x.lenb,
           split := x.split, adj := x.adj, tape := x.tape, rmask := BitVec.ofNat 128 x.rmask, ports := x.portMap,
           hasImage := true, image := va, stop := .none, held := 0, halting := false, boundary := false, cond := false }

end Sys2Proof.Machine
end

