-- ==== Sys2Proof/Machine/StreamOps.lean ====
section
/-! DEFINITION. The ostler's stream instructions SQ, SPROG, SCANCEL, SSTAT, RECFL (R365-R369), the combine units and SCOMB
(R85, R377), and BWAIT and BSET (R378, R379). -/

namespace Sys2Proof.Machine

/-- A pen the issuer owns, or a launched task whose record names it as its ostler target (R365). -/
def State.penUsable (s : State) (pk : Nat) : Bool :=
  let p := s.pen pk
  p.valid &&
    (if p.owner < 32 then pk / 128 == s.who.die && p.owner == s.who.n
     else match p.job with
      | some (r, _) => r.getLsbD 704 && (r.extractLsb' 705 3).toNat == s.who.die && (r.extractLsb' 708 5).toNat == s.who.n
      | none => false)

/-- Pen and port of a target operand (R365). -/
def targetPen (v : Nat) : Nat := penKey (bits v 19 17) (bits v 6 0)
def targetPort (v : Nat) : Nat := bits v 12 7

/-- SQ (R365). -/
def execSq (d a b : Reg) (s : State) : Out :=
  let v := (s.rx a).toNat
  let pk := targetPen v
  let va := (s.rx b).toNat
  .next (
    if !s.penUsable pk then s.status d stBADARG
    else
      (s.readBlock va 128 128).orBad (.sq d a b) d fun blk t =>
        if Config.portDepth ≤ (s.queueOf pk (targetPort v)).length then t.status d stBUSY
        else
          let c : SCmd := { block := BitVec.ofNat 1024 blk, va := va, eng := bits v 16 13, ctx := s.ctxId, die := s.who.die,
                            n := s.who.n }
          (t.setQueueOf pk (targetPort v) (t.queueOf pk (targetPort v) ++ [c])).status d stOK)

/-- SPROG (R366). -/
def execSprog (d a b c : Reg) (s : State) : Out :=
  let va := (s.rx a).toNat
  let v := (s.rx b).toNat
  .next (s.whenMapped (.sprog d a b c) va 8 fun s =>
    if va % 8 ≠ 0 ∨ (s.rangesOf s.agent s.ctxId (fun _ => true) va 8).isNone then s.status d stBADARG
    else
      match s.freeSlot (bits v 6 4) (bits v 3 0) with
      | none => s.status d stBUSY
      | some k =>
        let g : Prog := { Prog.reset with busy := true, ctx := s.ctxId, die := s.who.die, n := s.who.n, tag := s.rx c,
                                          next := va }
        (s.setProg k g).ret d (BitVec.ofNat 64 (k % 16 * 256 + stOK)))

/-- Selector of SCANCEL and SSTAT (R367): a program slot, or a pen port. -/
def selProg (v : Nat) : Nat := progKey (bits v 24 22) (bits v 4 1) (bits v 8 5)
def selPen (v : Nat) : Nat := penKey (bits v 24 22) (bits v 15 9)
def selPort (v : Nat) : Nat := bits v 21 16

/-- The selected slot or pen is of another context, or no pen (R359). -/
def State.selForeign (s : State) (v : Nat) : Bool :=
  if bit v 0 then !(s.pen (selPen v)).valid || (s.pen (selPen v)).ctx != s.ctxId
  else (s.prog (selProg v)).busy && (s.prog (selProg v)).ctx != s.ctxId

/-- SCANCEL (R367). -/
def execScancel (d a : Reg) (s : State) : Out :=
  let v := (s.rx a).toNat
  if s.selForeign v then .next (s.status d stBADARG)
  else if bit v 0 then
    let t := match s.boundTo (selPen v) (selPort v) with
      | some k => s.cutProg k
      | none => s
    .next ((if t.queueOf (selPen v) (selPort v) = [] then t else t.dropQueue (selPen v) (selPort v)).status d stOK)
  else .next ((s.cutProg (selProg v)).status d stOK)

/-- STATE of a busy slot (R368): waiting for a port, paused, or running. -/
def State.progState (s : State) (k : Nat) : Nat :=
  let g := s.prog k
  let waits : Bool := match decodeStream g.word with
    | .ok (.sdstPort port pen die) =>
      g.xfer.isNone && !g.sq && s.boundTo (penKey die.toNat pen.toNat) port.toNat != some k
    | _ => false
  if waits && g.done.isNone then 1
  else match g.dest with
    | .port dd p _ => if (s.pen (penKey dd p)).live then 2 else 3
    | _ => 2

/-- SSTAT (R368). -/
def execSstat (d a : Reg) (s : State) : Out :=
  let v := (s.rx a).toNat
  if s.selForeign v then .next (s.status d stBADARG)
  else
    let word (st q tiles : Nat) : W64 := BitVec.ofNat 64 (stOK + st * 256 + q * 65536 + tiles % 2 ^ 32 * 2 ^ 32)
    if bit v 0 then
      let q := (s.queueOf (selPen v) (selPort v)).length
      match s.boundTo (selPen v) (selPort v) with
      | some k => .next (s.ret d (word (s.progState k) q (s.prog k).tiles))
      | none => .next (s.ret d (word (if q = 0 then 0 else 1) q 0))
    else
      let k := selProg v
      if (s.prog k).busy then .next (s.ret d (word (s.progState k) 0 (s.prog k).tiles))
      else .next (s.ret d (word 0 0 0))

/-- The issuer's dirty lines of a range go to their homes. -/
def State.writebackRange (s : State) (va n : Nat) : State :=
  match s.rangesOf s.agent s.ctxId (fun _ => true) va n with
  | some rs => (rangeLines rs).foldl (fun s l => s.writeback s.agent l) s
  | none => s

/-- RECFL (R369, R167). -/
def execRecfl (d a : Reg) (s : State) : Out :=
  let h := (s.rx a).toNat
  .next (s.whenHere (.recfl d a) h 192 (
    let s := s.walkRange s.agent s.ctxId h 192
    if h % 64 ≠ 0 ∨ (s.rangesOf s.agent s.ctxId (fun _ => true) h 192).isNone then s.status d stBADARG
    else
      let t := s.writebackRange h 192
      match t.vread t.agent t.ctxId h 192 with
      | .ok b u =>
        let l : Lay := BitVec.ofNat 1536 (ofBytes b)
        let u := if l.ext then u.writebackRange l.extmap 272 else u
        ({ u with recs := u.recs.filterMap fun (k, l) =>
            match l.filter fun e => !(e.ctx == s.ctxId && e.handle == h) with
            | [] => none
            | r => some (k, r) } : State).status d stOK
      | .fault _ _ u => u.status d stBADARG
      | .wait => s.waitOn (.recfl d a) 1 []))

/-! ### Combine units (R85, R377) -/

/-- The physical address of every 256-byte packet of a range, or none if one is unmapped, refused or outside HBM. -/
def State.packets (s : State) (test : Tlb → Bool) (va n : Nat) : Option (List Nat) :=
  (List.range n).mapM fun i =>
    match s.lookup s.agent s.ctxId (va + 256 * i) with
    | .ok t => if test t && isHbm (t.addr (va + 256 * i)) then some (t.addr (va + 256 * i)) else none
    | .error _ => none

/-- The result's packets meet a source's only at the same place. -/
def exactOverlap (c x : List Nat) : Bool :=
  c.zipIdx.all fun (p, i) => x.zipIdx.all fun (q, j) => p != q || i == j

/-- SCOMB (R377). -/
def execScomb (d a : Reg) (s : State) : Out :=
  let va := (s.rx a).toNat
  .next ((s.readBlock va 64 64).orBad (.scomb d a) d fun b t =>
      let f (k : Nat) : Nat := bits b (64 * k + 63) (64 * k)
      let n := bits b 223 192
      if f 0 % 256 ≠ 0 ∨ f 1 % 256 ≠ 0 ∨ f 2 % 256 ≠ 0 ∨ n = 0 ∨ 2 ≤ bits b 227 224 ∨ bits b 255 230 ≠ 0 ∨
          bits b 511 320 ≠ 0 then t.status d stBADARG
      else if [f 0, f 1, f 2].any fun v => t.tablesAway t.agent t.ctxId v (256 * n) then t.waitOn (.scomb d a) 1 []
      else
        let t := [f 0, f 1, f 2].foldl (fun t v => t.walkRange t.agent t.ctxId v (256 * n)) t
        match t.packets (fun _ => true) (f 0) n, t.packets (fun _ => true) (f 1) n, t.packets (fun e => aW e.attr) (f 2) n with
        | some pa, some pb, some pc =>
          if exactOverlap pc pa && exactOverlap pc pb then
            let x : Comb := { ctx := s.ctxId, die := s.who.die, n := s.who.n, tag := BitVec.ofNat 64 (f 4),
                              fmt := bits b 227 224, op := bits b 229 228, va := f 0, vb := f 1, vc := f 2, a := pa, b := pb,
                              c := pc, done := 0 }
            { t with combs := t.combs ++ [x] }.status d stOK
          else t.status d stBADARG
        | _, _, _ => t.status d stBADARG)

/-- A combine unit as the writer of its deltas. [DEDUCED, log 61] -/
def agentComb (die : Nat) : Nat := die * 4096 + 64

/-- One element of a combine (R377, R331). -/
def combElem (fmt op a b : Nat) : Nat :=
  let x := decodeElem fmt a
  let y := decodeElem fmt b
  rne fmt (match op with
    | 0 => Val.add x y
    | 1 => Val.mul x y
    | 2 => Val.minMax true x y
    | _ => Val.minMax false x y)

/-- A line of elements combined. -/
def combLine (fmt op : Nat) (a b : Line) : Line :=
  let w := 8 * elemSize fmt
  BitVec.ofNat 1024 (iter (fun i r => r + combElem fmt op (a.toNat / 2 ^ (w * i) % 2 ^ w) (b.toNat / 2 ^ (w * i) % 2 ^ w) *
    2 ^ (w * i)) (1024 / w) 0)

/-- What a combine unit meets in DRAM at a source packet: its fault, or 0 (R103, R105, R412). -/
def State.packetBad (s : State) (pa : Nat) : Nat :=
  let l := pa / 128
  if s.dramBad l ≠ 0 then s.dramBad l else s.dramBad (l + 1)

/-- What a combine unit meets at the result packet: it reads the old value of covered lines alone, for their deltas (R85), and
that read verifies the check (R103); the write, of whole lines, clears their poison (R105). [DEDUCED, log 61] -/
def State.resultBad (s : State) (pc : Nat) : Nat :=
  if mget 0 s.chk (pc / 256) ≠ 0 ∧ (s.covering (pc / 128) ≠ [] ∨ s.covering (pc / 128 + 1) ≠ []) then cCHECK else 0

/-- A line written to DRAM by a combine unit, with deltas from the DRAM old value (R85, R105): where that differs from the coherent
value the groups that cover the line are unpredictable (R126), and so is a set whose shadow area it writes (R112). -/
def State.combWrite (s : State) (ag l : Nat) (d : Line) : State :=
  let old := s.dramLine l
  let p := mget false s.poison l
  let s := if s.coherent l = old then s else s.markUnpred l (BitVec.allOnes 128)
  let s := (s.dramWrite l d).noteShadow l (BitVec.allOnes 128)
  if p then ({ s with poison := mset false s.poison l false } : State).sendRebuild ag l else s.sendDeltas ag l old d

/-- The writes of the command's next packet have room at the set homes (R117). -/
def State.combFull (s : State) (pc : Nat) : Bool := s.deltaLacks [pc / 128, pc / 128 + 1]

def Comb.left (x : Comb) : Nat := x.c.length - x.done

/-- COMBINE_PACKET (R377): the next packet of command cmd. [DEDUCED, log 61] -/
def execCombinePacket (cmd : Nat) (s : State) : Out :=
  match s.combs[cmd]? with
  | none => .next s
  | some x =>
    if x.left = 0 then .next s
    else
      let i := x.done
      let pa := x.a.getD i 0
      let pb := x.b.getD i 0
      let pc := x.c.getD i 0
      let ag := agentComb x.die
      let (bad, va, pf) :=
        if s.packetBad pa ≠ 0 then (s.packetBad pa, x.va, pa)
        else if s.packetBad pb ≠ 0 then (s.packetBad pb, x.vb, pb)
        else (s.resultBad pc, x.vc, pc)
      if bad ≠ 0 then
        if s.deltasDone ag then
          .next (({ s with combs := s.combs.eraseIdx cmd }.noteBad (pf / 128) bad).postOst x.die x.n x.ctx
            (mkRec 0x11 bad (homeOf pc / 64) 2 0 0 x.tag 0 (BitVec.ofNat 64 (va + 256 * i))))
        else .next s
      else if [pa, pb, pc].any s.pageAway ∨ s.combFull pc then .next s
      else
        let l (p k : Nat) : Line := s.dramLine (p / 128 + k)
        let lo := combLine x.fmt x.op (l pa 0) (l pb 0)
        let hi := combLine x.fmt x.op (l pa 1) (l pb 1)
        let t := ((s.combWrite ag (pc / 128) lo).combWrite ag (pc / 128 + 1) hi)
        let t := { t with chk := mset 0 t.chk (pc / 256) 0 }
        .next { t with combs := t.combs.set cmd { x with done := i + 1 } }

/-- COMBINE_DONE (R377, R413, R119): posted by the unit of the result's first packet. [DEDUCED, log 61] -/
def execCombineDone (cmd : Nat) (s : State) : Out :=
  match s.combs[cmd]? with
  | none => .next s
  | some x =>
    if x.left = 0 ∧ s.deltasDone (agentComb x.die) then
      .next ({ s with combs := s.combs.eraseIdx cmd }.postOst x.die x.n x.ctx
        (mkRec 0x10 stOK (homeOf (x.c.headD 0) / 64) 2 0 0 x.tag (BitVec.ofNat 64 (256 * x.done)) 0))
    else .next s

/-! ### Buffer handles (R378, R379) -/

/-- The handle a port operand names, for an issuer who may use its pen. -/
def State.portHandle (s : State) (v : Nat) : Option (Nat × PortMap × Handle) :=
  if s.penUsable (targetPen v) then
    (s.portOf (targetPen v) (targetPort v)).map fun m => (targetPen v, m, (s.pe (targetPen v) m.pe).handle m.h)
  else none

/-- Every delta of the stream engines' writes is applied. -/
def State.enginesDone (s : State) : Bool :=
  s.dsets.all fun (_, d) => d.queue.all fun b => !(32 ≤ b.writer % 4096 && b.writer % 4096 < 48)

/-- BWAIT (R378); one that finds drained slots FREE completes once the deltas of the engines' writes are applied, so that what follows it
reads them (R226, R129). -/
def execBwait (d a b c : Reg) (s : State) : Out :=
  let w := (s.rx b).toNat
  let n := bits w 4 2 + 1
  match s.portHandle (s.rx a).toNat with
  | none => .next (s.status d stBADARG)
  | some (_, _, h) =>
    if h.slots < n then .next (s.status d stBADARG)
    else if s.phaseOf = 2 ∨ n ≤ ((List.range h.slots).filter fun k => h.state k == bits w 1 0).length then
      if bits w 1 0 = slotFREE ∧ h.dirn then
        .next (if s.enginesDone then (s.dropLeased s.agent).status d stOK else s.waitOn (.bwait d a b c) 2 [])
      else .next (s.status d stOK)
    else if s.rx c ≤ s.fcycle then .next (s.status d stBUSY)
    else .next (s.waitOn (.bwait d a b c) 1 [])

/-- BSET (R379); what is known of the slots filled from RESIDENT pages (R76) stays. [DESIGN CHOICE, log 91] -/
def execBset (d a b : Reg) (s : State) : Out :=
  match s.portHandle (s.rx a).toNat with
  | none => .next (s.status d stBADARG)
  | some (pk, m, h) =>
    .next ((s.setPe pk m.pe ((s.pe pk m.pe).setHandle m.h { h with res := (s.rx b).getLsbD 0 })).status d stOK)

end Sys2Proof.Machine
end

