-- ==== Sys2Proof/Machine/Yard.lean ====
section
/-! DEFINITION. The yard map (R13, R34, R173), save areas (R232, R233), the sweep of a pen (R35), the gathering of its
counts (R54), and its release (R39, R309). -/

namespace Sys2Proof.Machine

/-! ### Stalls and placement (R34, R173) -/

/-- State of stall 16y + x of a die. -/
def State.stall (s : State) (die i : Nat) : Stall := mget .free s.stalls (die * 128 + i)
def State.setStall (s : State) (die i : Nat) (x : Stall) : State :=
  { s with stalls := mset .free s.stalls (die * 128 + i) x }

/-- FREE, or PARKED, which the scan counts as free. -/
def Stall.isOpen : Stall → Bool
  | .free => true
  | .parked _ => true
  | _ => false

/-- The scan of R34 over the stalls a test accepts. -/
def State.scan (s : State) (die h w : Nat) (ok : Stall → Bool) : Option Nat :=
  (List.range (17 - w)).findSome? fun x =>
    (List.range (9 - h)).findSome? fun y =>
      if (rect (16 * y + x) h w).all fun i => s.stall die i != .absent && ok (s.stall die i) then some (16 * y + x) else none

/-- The lowest free pen id of a die. -/
def State.freePen (s : State) (die : Nat) : Option Nat := (List.range 128).find? fun i => !(s.pen (penKey die i)).valid

/-! ### Save areas (R232) -/

/-- Bytes of the save area of a pen of n PEs. -/
def areaSize (n : Nat) : Nat := (0x1000 + n * 0x28000 + 65535) / 65536 * 65536
def Pen.pes (p : Pen) : Nat := 16 * p.h * p.w

/-- Areas of a context that are held: offset in the pool and size. -/
def State.areas (s : State) (c : Nat) : List (Nat × Nat) :=
  s.pens.filterMap fun (_, p) => if p.valid && p.ctx == c && p.saveOff != 0 then some (p.saveOff, areaSize p.pes) else none

/-- The lowest place in the pool for an area of n PEs. [DESIGN CHOICE, log 16] -/
def State.allocArea (s : State) (c n : Nat) : Option Nat :=
  let used := s.areas c
  let fits (a : Nat) : Bool :=
    a + areaSize n ≤ (s.ctx c).poolLen && used.all fun (b, k) => a + areaSize n ≤ b || b + k ≤ a
  ((0x30000 :: used.map fun (b, k) => b + k).filter fits).foldl (fun r a =>
    match r with
    | some b => if a < b then some a else r
    | none => some a) none

/-- Virtual address of a pen's save area. -/
def State.areaVa (s : State) (k : Nat) : Nat := (s.ctx (s.pen k).ctx).poolBase + (s.pen k).saveOff

/-- A range of a context's memory is at hand: no page of it is held by another module, no delta queue behind it full. -/
def State.yardReady (s : State) (die c va n : Nat) : Bool :=
  match s.vready (agentYard die) c va n with
  | .wait => false
  | _ => true

/-- The yard controller writes bytes of a context; bytes that cannot be written are lost. -/
def State.yardWrite (s : State) (die c va : Nat) (b : List Byte) : State :=
  match s.vwrite (agentYard die) c va b with
  | .ok _ t => t
  | .fault _ _ t => t
  | .wait => s

/-! ### The items of a save area (R233, R65, R66, R161) -/

/-- PSTATE (R66). -/
def Pen.pstate (p : Pen) : Nat :=
  p.rc + p.ii * 2 ^ 6 + b2n p.sel * 2 ^ 13 + b2n p.psel * 2 ^ 14 + b2n p.pval * 2 ^ 15 + p.swr * 2 ^ 16 +
    b2n p.sys * 2 ^ 18 + b2n p.nft * 2 ^ 19 + p.run * 2 ^ 20

/-- The map of a buffer-table entry (R161). -/
def Handle.toBits (h : Handle) : Nat :=
  h.base + h.svm1 * 2 ^ 9 + h.nsm1 * 2 ^ 16 + h.head * 2 ^ 19 + h.fill * 2 ^ 22 + h.st.toNat * 2 ^ 25 +
    b2n h.res * 2 ^ 41 + b2n h.en * 2 ^ 42 + b2n h.dirn * 2 ^ 43

def Handle.ofBits (old : Handle) (v : Nat) : Handle :=
  { old with base := bits v 8 0, svm1 := bits v 15 9, nsm1 := bits v 18 16, head := bits v 21 19, fill := bits v 24 22,
             st := BitVec.ofNat 16 (bits v 40 25), res := bit v 41, en := bit v 42, dirn := bit v 43 }

/-- A slot record of 288 bytes. -/
def slotRec (lanes : Nat) (valid : Bool) (kind dst left route pl value : Nat) : Nat :=
  lanes % 2 ^ 64 + (b2n valid + 2 * kind + 4 * (dst % 64)) * 2 ^ 64 + (left % 64) * 2 ^ 72 + (route % 256) * 2 ^ 80 +
    (pl % 4) * 2 ^ 88 + (value % 2 ^ 2048) * 2 ^ 256

/-- The record of a result, or of a load that waits for its reply (R346). -/
def Slot.toRec (x : Slot) : Nat := slotRec x.lanes.toNat true 0 x.dst x.left x.route x.pl x.value.toNat

/-- The slot a record holds. -/
def slotOf (v : Nat) : Slot :=
  { dst := bits v 71 66, lanes := BitVec.ofNat 64 v, left := bits v 77 72, route := bits v 87 80, pl := bits v 89 88,
    value := BitVec.ofNat 2048 (v / 2 ^ 256), pending := false }

/-- The record of a running MPASSD (R239). -/
def MPD.toRec (m : MPD) (prg : W32) : Nat :=
  slotRec m.lanes.toNat true 1 (40 + bits prg.toNat 17 16) 0 0 0 (m.word.toNat + m.stride * 2 ^ 128)

/-- The slot records of a PE: results and outstanding loads, then a running MPASSD. -/
def PE.slotRecs (p : PE) : List Nat :=
  p.slots.map Slot.toRec ++
    (match p.mpd with
      | some m => [m.toRec p.prg]
      | none => [])

/-- One item of a PE block: offset, size in bytes, its value in a PE, and a PE with another value. -/
abbrev Item := Nat × Nat × (PE → Nat) × (PE → Nat → PE)
def item (off n : Nat) (get : PE → Nat) (put : PE → Nat → PE) : Item := (off, n, get, put)

/-- The accesses of a PE without the n-th load. -/
def dropLoad : Nat → List Irr → List Irr
  | _, [] => []
  | n, x :: t =>
    if x.load then
      (match n with
        | 0 => t
        | m + 1 => x :: dropLoad m t)
    else x :: dropLoad n t

/-- A record written where slot k stood (R232): a result takes it, a load or MPASSD that stood there is over. -/
def PE.putSlot (p : PE) (k v : Nat) : PE :=
  let n := p.slots.length
  let new := if bit v 64 && !bit v 65 then [slotOf v] else []
  if k < n then
    { p with slots := p.slots.take k ++ new ++ p.slots.drop (k + 1),
             irr := if ((p.slots[k]?).map (·.pending)).getD false then
                 dropLoad ((p.slots.take k).filter (·.pending)).length p.irr else p.irr }
  else if k = n && p.mpd.isSome then
    if bit v 64 && bit v 65 then
      { p with mpd := p.mpd.map fun m =>
          { m with word := BitVec.ofNat 128 (v / 2 ^ 256), stride := bits v 415 384, lanes := BitVec.ofNat 64 v } }
    else { p with mpd := none, slots := p.slots ++ new }
  else { p with slots := p.slots ++ new }

def latchByte (l : List Tok) : Nat :=
  match l with
  | t :: _ => 1 + 16 * (t.pl % 4)
  | [] => 0

def queueByte (l : List Tok) : Nat := l.length + 16 * (((l.head?).map (·.pl)).getD 0 % 4)

/-- A queue or a latch with n tokens of a plane. -/
def resize (l : List Tok) (n pl : Nat) : List Tok :=
  ((l ++ List.replicate n ({ val := 0, pl := pl } : Tok)).take n).map fun t : Tok => { t with pl := pl }

/-- Registers, slots and the buffer table of a PE block. [DESIGN CHOICE, log 16] -/
def regItems : List Item :=
  ((List.range 32).map fun k =>
    item (256 * k) 256 (fun p => (mget 0 p.v k).toNat) fun p v => { p with v := mset 0 p.v k (BitVec.ofNat 2048 v) }) ++
  ((List.range 4096).map fun k =>
    item (0x2000 + 4 * k) 4 (fun p => (mget 0 p.a k).toNat) fun p v => { p with a := mset 0 p.a k (BitVec.ofNat 32 v) }) ++
  ((List.range 8).map fun k =>
    item (0x6000 + 8 * k) 8 (fun p => (p.pred k).toNat)
      fun p v => if k = 0 then p else { p with p := mset 0 p.p k (BitVec.ofNat 64 v) }) ++
  ((List.range 4).map fun k =>
    item (0x6040 + 4 * k) 4 (fun p => (mget 0 p.c k).toNat) fun p v => { p with c := mset 0 p.c k (BitVec.ofNat 32 v) }) ++
  ((List.range 4).map fun k =>
    item (0x6050 + 4 * k) 4 (fun p => (mget 0 p.spw k).toNat)
      fun p v => { p with spw := mset 0 p.spw k (winOf (BitVec.ofNat 32 v)).toReg }) ++
  [item (0x6060) 4 (fun p => p.prg.toNat) fun p v => { p with prg := BitVec.ofNat 32 (v % 2 ^ 19) },
   item (0x6064) 4 (fun p => p.nfc.toNat) fun p v => { p with nfc := BitVec.ofNat 32 v },
   item (0x6068) 4 (fun p => p.satc.toNat) fun p v => { p with satc := BitVec.ofNat 32 v }] ++
  ((List.range 16).map fun h =>
    item (0x6080 + 8 * h) 8 (fun p => (p.handle h).toBits) fun p v => p.setHandle h ((p.handle h).ofBits v)) ++
  ((List.range 384).map fun k =>
    item (0x6100 + k) 1 (fun p => (p.full.extractLsb' (8 * k) 8).toNat)
      fun p v => { p with full := BitVec.ofNat 3072 (insBits p.full.toNat (8 * k) 8 v) }) ++
  ((List.range 16).map fun k => item (0x6400 + 288 * k) 288 (fun p => p.slotRecs.getD k 0) fun p v => p.putSlot k v)

/-- Input queues and link latches of a PE block. -/
def linkItems : List Item :=
  ((List.range 4).map fun q =>
    item (0x25800 + q) 1 (fun p => queueByte (p.queue q).toks) fun p v =>
      p.setQueue q { p.queue q with toks := resize (p.queue q).toks (min 4 (v % 8)) (bits v 5 4) }) ++
  ((List.range 4).map fun d =>
    item (0x25804 + d) 1 (fun p => latchByte (p.latch d)) fun p v =>
      { p with lat := mset [] p.lat d (resize (p.latch d) (v % 2) (bits v 5 4)) }) ++
  ((List.range 4).flatMap fun q => (List.range 4).map fun k =>
    item (0x24000 + 0x500 * q + 256 * k) 256 (fun p => ((((p.queue q).toks[k]?).map Tok.val).getD 0).toNat) fun p v =>
      p.setQueue q { p.queue q with toks := (p.queue q).toks.zipIdx.map fun (t, j) =>
        if j = k then { t with val := BitVec.ofNat 2048 v } else t }) ++
  ((List.range 4).map fun q =>
    item (0x24000 + 0x500 * q + 1024) 256 (fun p => (p.queue q).last.toNat) fun p v =>
      p.setQueue q { p.queue q with last := BitVec.ofNat 2048 v }) ++
  ((List.range 4).map fun d =>
    item (0x25400 + 256 * d) 256 (fun p => ((((p.latch d).head?).map Tok.val).getD 0).toNat) fun p v =>
      { p with lat := mset [] p.lat d ((p.latch d).map fun t => { t with val := BitVec.ofNat 2048 v }) })

/-- Stationary weight store and scratchpad of a PE block (R237: they reach the area when their stall is taken). -/
def padItems (split : Nat) : List Item :=
  ((List.range 32).flatMap fun r =>
    [item (0x8000 + 512 * r) 256 (fun p => (mget WRow.reset p.w r).lo.toNat) fun p v =>
        { p with w := mset WRow.reset p.w r { mget WRow.reset p.w r with lo := BitVec.ofNat 2048 v } },
     item (0x8100 + 512 * r) 256 (fun p => (mget WRow.reset p.w r).hi.toNat) fun p v =>
        { p with w := mset WRow.reset p.w r { mget WRow.reset p.w r with hi := BitVec.ofNat 2048 v } }]) ++
  ((List.range (splitBytes split / 256)).map fun k =>
    item (0xC000 + 256 * k) 256 (fun p => (p.pad k).toNat) fun p v => { p with spad := mset 0 p.spad k (BitVec.ofNat 2048 v) })

/-- Items of the pen state at 0x200, as the sequencer takes them back (R66, R67). [DESIGN CHOICE, log 16] -/
def penItems : List (Nat × Nat × (Pen → Nat → Pen)) :=
  [(0x200, 4, fun p v =>
      { p with rc := bits v 5 0, sel := bit v 13, psel := bit v 14, pval := bit v 15, swr := min 2 (bits v 17 16),
               nft := bit v 19 }),
   (0x208, 8, fun p v => { p with wid := BitVec.ofNat 64 v })] ++
  (List.range 4).flatMap fun l =>
    [(0x210 + 16 * l, 4, fun p v => p.setLevel l { p.level l with sqs := bits v 5 0, sqe := bits v 13 8 }),
     (0x214 + 16 * l, 4, fun p v => p.setLevel l { p.level l with sqn := v % 2 ^ 32 }),
     (0x218 + 16 * l, 4, fun p v => p.setLevel l { p.level l with sqi := v % 2 ^ 32 })]

/-- Block of PE i in the area. -/
def Pen.block (p : Pen) (i : Nat) : Nat := 0x1000 + (4 * p.w * (i / 64) + i % 64) * 0x28000

/-- The fault record (R235). -/
def FaultRec.toBits (r : FaultRec) : Nat :=
  r.cause % 256 + (r.row % 64) * 2 ^ 8 + b2n r.sel * 2 ^ 14 + (r.pe % 2048) * 2 ^ 15 + b2n r.defer_ * 2 ^ 26 +
    (r.iter % 2 ^ 32) * 2 ^ 32 + (r.addr % 2 ^ 64) * 2 ^ 64 + r.word.toNat * 2 ^ 128 + (r.size % 512) * 2 ^ 256 +
    r.data.toNat * 2 ^ 2048

/-- The pen state of 0x200..0x26F. -/
def State.penState (s : State) (k : Nat) : List Byte :=
  let p := s.pen k
  let lv (l : Nat) : List Byte :=
    toBytes 4 ((p.level l).sqs + (p.level l).sqe * 256) ++ toBytes 4 (p.level l).sqn ++ toBytes 4 (p.level l).sqi ++ toBytes 4 0
  toBytes 8 p.pstate ++ toBytes 8 p.wid.toNat ++ (List.range 4).flatMap lv ++ toBytes 8 p.image ++ toBytes 8 p.eff ++
    toBytes 8 s.fcycle.toNat ++ toBytes 8 (p.origin + p.hm1 * 2 ^ 8 + p.wm1 * 2 ^ 12 + p.gang * 2 ^ 16 + p.tier * 2 ^ 24)

/-- Bytes at neighbouring addresses of one 64 KiB page, joined. -/
def joinBytes : List (Nat × List Byte) → List (Nat × List Byte)
  | [] => []
  | (a, b) :: t =>
    match joinBytes t with
    | (c, d) :: r => if a + b.length = c ∧ c % 65536 ≠ 0 then (a, b ++ d) :: r else (a, b) :: (c, d) :: r
    | [] => [(a, b)]

/-- Items of a PE written to its block. -/
def State.writeItems (s : State) (k i : Nat) (l : List Item) : State :=
  let p := s.pe k i
  let a := s.areaVa k + (s.pen k).block i
  (joinBytes (l.map fun (off, n, get, _) => (a + off, toBytes n (get p)))).foldl (fun s (va, b) =>
    s.yardWrite (k / 128) (s.pen k).ctx va b) s

/-- The offsets of a deferred SCAT stand in the slot after the last valid one, with VALID 0 and the other fields of its row
word (R346, R65). -/
def State.writeScat (s : State) (k : Nat) (r : FaultRec) : State :=
  if r.offs = 0 then s
  else
    let n := (s.pe k r.pe).slotRecs.length
    let w := rowMods r.word
    s.yardWrite (k / 128) (s.pen k).ctx (s.areaVa k + (s.pen k).block r.pe + 0x6400 + 288 * n)
      (toBytes 288 (slotRec r.lanes.toNat false 0 w.dst.toNat 0 0 w.pl.toNat r.offs.toNat))

/-- The record, when there is one, the pen state and every PE's registers, slots, buffer table, full bits, queues and
latches go to the save area (R234, R237). -/
def State.saveArea (s : State) (k : Nat) (r : Option FaultRec) : State :=
  let c := (s.pen k).ctx
  let s := match r with
    | some x => s.yardWrite (k / 128) c (s.areaVa k) (toBytes 512 x.toBits)
    | none => s
  let s := s.yardWrite (k / 128) c (s.areaVa k + 0x200) (s.penState k)
  let s := (s.pen k).peList.foldl (fun s i => (s.writeItems k i regItems).writeItems k i linkItems) s
  match r with
  | some x => s.writeScat k x
  | none => s

/-- The stall that PE i of a pen stands in (R12). -/
def Pen.stallOf (p : Pen) (i : Nat) : Nat := p.origin + 16 * (i / 64 / 4) + i % 64 / 4

/-- Poison in a PE's SRAM travels with the vector or weight row that is saved (R105): the lines of the area are poisoned. -/
def State.poisonItems (s : State) (k i : Nat) : State :=
  let a := s.areaVa k + (s.pen k).block i
  (s.pe k i).ecc.foldl (fun s (v, bad) =>
    if !bad then s
    else
      let (off, n) := if v < 384 then (0xC000 + 256 * v, 256) else (0x8000 + 512 * (v - 384), 512)
      match s.rangesOf (agentYard (k / 128)) (s.pen k).ctx (fun t => aW t.attr) (a + off) n with
      | some rs => (rangeLines rs).foldl (fun s l => s.l2Mark l fun c => { c with pois := true }) s
      | none => s) s

/-- The scratchpads and weight stores of a stall go to the save area when the PARKED stall is taken (R173, R76, R80). -/
def State.savePads (s : State) (k stall : Nat) : State :=
  let s := ((s.pen k).peList.filter fun i => (s.pen k).stallOf i == stall).foldl (fun s i =>
    (s.writeItems k i (padItems (s.pen k).split)).poisonItems k i) s
  s.setPen k { s.pen k with savedSpad := true }

/-- n bytes drawn free. -/
def State.freeItem (s : State) (n : Nat) : Nat × State := s.freeBytes n

/-- Two values of the item at an offset say the same: slot records without VALID are all one (R65). -/
def sameItem (off v x : Nat) : Bool :=
  v == x || (decide (0x6400 ≤ off) && decide (off < 0x7600) && !bit v 64 && !bit x 64)

/-- A PE takes its items back: an item that the area no longer holds as it was saved takes a free value (R232). -/
def State.readItems (s : State) (k i : Nat) (l : List Item) : State :=
  let ag := agentYard (k / 128)
  let a := s.areaVa k + (s.pen k).block i
  l.foldl (fun s (off, n, get, put) =>
    match s.view ag (s.pen k).ctx (a + off) n with
    | none => s
    | some v =>
      if sameItem off v (get (s.pe k i)) then s
      else
        let r := s.freeItem n
        r.2.setPe k i (put (r.2.pe k i) r.1)) s

/-- Everything restored from a pen's save area (R236, R238). -/
def State.loadArea (s : State) (k : Nat) : State :=
  let ag := agentYard (k / 128)
  let c := (s.pen k).ctx
  let s := s.engineTouch ag c (s.areaVa k) (0x1000 + (s.pen k).pes * 0x28000)
  let s := penItems.foldl (fun s (off, n, put) =>
    match s.view ag c (s.areaVa k + off) n with
    | none => s
    | some v =>
      if put (s.pen k) v = s.pen k then s
      else
        let r := s.freeItem n
        r.2.setPen k (put (r.2.pen k) r.1)) s
  let s := (s.pen k).peList.foldl (fun s i =>
    let s := (s.readItems k i regItems).readItems k i linkItems
    if (s.pen k).savedSpad then s.readItems k i (padItems (s.pen k).split) else s) s
  s.setPen k { s.pen k with savedSpad := false }

/-! ### Sweep, counts and release (R35, R54, R309) -/

/-- Every committed store of a pen has been performed or has failed. -/
def State.storesIdle (s : State) (k : Nat) : Bool :=
  (s.pen k).peList.all fun i => (s.pe k i).irr.all fun x => x.load || x.ready

/-- A handle that no slot of is in use (R164). -/
def Handle.empty (h : Handle) : Handle := { h with st := 0, head := 0, fill := 0, resSlots := 0, freed := none }

/-- A handle behind a kept port (R305). -/
def Pen.keeps (p : Pen) (keep i h : Nat) : Bool :=
  (List.range 64).any fun port => bit keep port && mget none p.ports port == some { pe := i, h := h }

/-- A PE swept: queues, latches and slots are empty, every handle but the kept ones too (R35, R65, R164). -/
def PE.swept (p : PE) (keep : Nat → Bool) : PE :=
  { p with slots := [], irr := [], passes := [], mpd := none, q := [], lat := [],
           handles := iter (fun h m => if keep h then m else mset Handle.reset m h (p.handle h).empty) 16 p.handles }

/-- A pen is swept (R35): its ports outside the keep mask, its PEs, and their L1 parts. -/
def State.sweepPen (s : State) (k keep : Nat) : State :=
  let s := s.sweepPorts k keep
  (s.pen k).peList.foldl (fun s i =>
    let s := s.flushAgent (s.peAgent k i)
    s.setPe k i ((s.pe k i).swept ((s.pen k).keeps keep i))) s

/-- 64-bit addition that stops at its limit. -/
def sat64 (x : W64) (n : Nat) : W64 := BitVec.ofNat 64 (min (x.toNat + n) (2 ^ 64 - 1))

/-- The ostler whose CSRs gather a pen's counts (R54). -/
def Pen.gatherer (p : Pen) (die : Nat) : Option (Nat × Nat) := (p.targets die).findSome? id

/-- NFC and SATC of a pen are gathered and cleared (R54). -/
def State.gather (s : State) (k : Nat) : State :=
  let p := s.pen k
  let sum (f : PE → W32) : Nat := p.peList.foldl (fun a i => a + (f (s.pe k i)).toNat) 0
  let nf := sum PE.nfc
  let sa := sum PE.satc
  let s := match p.gatherer (k / 128) with
    | some (d, n) =>
      let o := s.ostler (ostKey d n)
      s.setOstler (ostKey d n) { o with nfcnt := sat64 o.nfcnt nf, satcnt := sat64 o.satcnt sa }
    | none => s
  p.peList.foldl (fun s i => s.setPe k i { s.pe k i with nfc := 0, satc := 0 }) s

/-- A pen leaves its timing domain for good: the others keep their own lowest id, and a stopped domain can no longer be
named whole (R306). -/
def State.leaveDomain (s : State) (k : Nat) : State :=
  let g := (s.pen k).gang
  let mine := s.pens.filter fun (j, p) => j / 128 = k / 128 && p.valid && p.gang == g && j != k
  let low := (mine.map fun e => e.1 % 128).foldl min 128
  let s := mine.foldl (fun s (j, p) =>
    let stop := match p.stop with
      | .fault _ => .rstop
      | .stopped _ _ => .rstop
      | x => x
    s.setPen j { s.pen j with gang := low, stop := stop }) s
  s.setPen k { s.pen k with gang := k % 128 }

/-- Stalls of a pen become FREE. -/
def State.freeStalls (s : State) (k : Nat) : State :=
  { s with stalls := s.stalls.filter fun (i, x) =>
      !(i / 128 == k / 128 && (x == .held (k % 128) || x == .parked (k % 128))) }

/-- A pen that has left its domain is swept, and its stalls, save area, id and ownership slot are freed (R39, R309). -/
def State.vacate (s : State) (k : Nat) : State :=
  let s := s.sweepPen k 0
  let p := s.pen k
  let s := if p.owner < 32 then
      let j := ostKey (k / 128) p.owner
      s.setOstler j { s.ostler j with pens := mset none (s.ostler j).pens p.slot none }
    else s
  let s := (s.freeStalls k).setPen k Pen.reset
  ({ s with pes := s.pes.filter fun e => e.1 / 2048 != k } : State).freeActive (k / 128)

/-- Release (R39, R142, R309): counts gathered, and the pen gone. -/
def State.release (s : State) (k : Nat) : State := ((s.gather k).leaveDomain k).vacate k

/-! ### Taking stalls (R173) -/

/-- A stall is taken: what a pen PARKED there holds in it is saved, and its other stalls stay PARKED (R76, R80, R173). -/
def State.takeStall (s : State) (die i : Nat) : State :=
  match s.stall die i with
  | .parked v => (s.savePads (penKey die v) i).setStall die i .free
  | _ => s

/-- A pen that will stand elsewhere takes with it what its PARKED stalls still hold (R173, R238). -/
def State.leaveStalls (s : State) (k : Nat) : State :=
  (s.pen k).rect.foldl (fun s i => if s.stall (k / 128) i == .parked (k % 128) then s.takeStall (k / 128) i else s) s

/-- The stalls of pen k become HELD, and their PEs keep no line of an earlier pen in their L1 parts (R35, R81). -/
def State.hold_ (s : State) (k : Nat) : State :=
  let s := (s.pen k).peList.foldl (fun s i => s.flushAgent (s.peAgent k i)) s
  (s.pen k).rect.foldl (fun s i => s.setStall (k / 128) i (.held (k % 128))) s

/-- The parked pens of a die can be saved now. -/
def State.parkedReady (s : State) (die : Nat) : Bool :=
  s.pens.all fun (k, p) =>
    k / 128 != die || !p.valid || !(p.rect.any fun i => s.stall die i == .parked (k % 128)) ||
      s.yardReady die p.ctx (s.areaVa k) (areaSize p.pes)

/-- All the stalls of a pen are still PARKED. -/
def State.allParked (s : State) (k : Nat) : Bool :=
  (s.pen k).rect.all fun i => s.stall (k / 128) i == .parked (k % 128)

/-- A new pen at an origin (R34, R173): the lowest free id, its save area, and its stalls HELD. -/
def State.place (s : State) (die h w o c owner : Nat) : Option (Nat × State) :=
  match s.freePen die, s.allocArea c (16 * h * w) with
  | some id, some off =>
    let k := penKey die id
    let s := (rect o h w).foldl (fun s i => s.takeStall die i) s
    let p : Pen := { Pen.reset with valid := true, origin := o, hm1 := h - 1, wm1 := w - 1, owner := owner, ctx := c,
                                    gang := id, saveOff := off }
    some (k, (s.setPen k p).hold_ k)
  | _, _ => none

/-- The effective deadline (R138). -/
def effDeadline (e dl age : Nat) : Nat := max e (min dl (min (e + age) (2 ^ 64 - 1)))

/-- Who draws an acceptance number (R139, R144). -/
inductive Drawer where
  | host (func : Nat)
  | launch (ost : Nat)
  | rplace (ost : Nat)
  deriving DecidableEq, Repr

/-- The place of a drawer among those of one oc: hosts by function, then LAUNCHes and then RPLACEs by (die, ostler). -/
def Drawer.rank : Drawer → Nat
  | .host f => f % 65536
  | .launch k => 65536 + k % 65536
  | .rplace k => 131072 + k % 65536

/-- An acceptance number of a die (R138, R139, R144): it rises with the oc, then in the order of the drawers, then with the
count of numbers drawn. -/
def State.drawSeq (s : State) (die : Nat) (d : Drawer) : Nat × State :=
  ((s.cycle.toNat * 2 ^ 18 + d.rank) * 2 ^ 64 + mget 0 s.accSeq die % 2 ^ 64,
   { s with accSeq := mset 0 s.accSeq die (mget 0 s.accSeq die + 1) })

/-- An image is loaded into pen k (R304, R57, R79, R80, R175). -/
def State.loadPen (s : State) (k : Nat) (x : Image) (va : Nat) : State :=
  let s := x.cols.foldl (fun s c =>
    s.setPe k c.pe (PE.reset.install x c fun _ => false)) s
  s.setPen k { (s.pen k).install x va with nft := false }

/-- The row stores of a pen are expanded anew from its image (R36, R37): the yard controller reads it at its home. They hold
what they held, since a write to the image changes nothing before the next RLOAD (R269). [DEDUCED, log 93] -/
def State.reexpand (s : State) (k : Nat) : State :=
  let p := s.pen k
  match s.readImage (agentYard (k / 128)) p.ctx p.image p.hm1 p.wm1 with
  | .error e => s.noteImage (agentYard (k / 128)) p.ctx p.image e
  | .ok (_, n) => s.engineTouch (agentYard (k / 128)) p.ctx p.image n

end Sys2Proof.Machine
end

