-- ==== Sys2Proof/Machine/Jobs.lean ====
section
/-! DEFINITION. Job completion blocks (R171, R172), the job instructions (R312-R315), launch queues and the ready order
(R134-R142). -/

namespace Sys2Proof.Machine

/-! ### JCBs (R171, R172) -/

/-- The physical address of a JCB in a context; none where it is misaligned, unmapped, refused, bad or out of reach. -/
def State.jcbAt (s : State) (ag c va : Nat) (write : Bool) : Option Nat :=
  if va % 64 ≠ 0 then none
  else
    match s.lookup ag c va with
    | .error _ => none
    | .ok t =>
      let pa := t.addr va
      if (write && !aW t.attr) || s.linkDown pa || (s.seen (pa / 128)).lineBad (pa / 128) != 0 then none else some pa

/-- The JCB that jcbAt refused has been looked for: the walk is made, and a mismatch it met is counted (R103). -/
def State.jcbMiss (s : State) (ag c va : Nat) : State :=
  if va % 64 ≠ 0 then s
  else
    let t := s.walkRange ag c va 64
    match t.lookup ag c va with
    | .ok e =>
      let l := e.addr va / 128
      if (t.seen l).lineBad l = 0 then t else t.metBad [] l ((t.seen l).lineBad l)
    | .error _ => t

/-- A JCB can be read and written now (R95, R117). -/
def State.jcbReady (s : State) (pa : Nat) : Bool := !s.pageAway pa && !s.deltaFull (pa / 128)

/-- The issuer's cache keeps no copy of a JCB that its instruction has read or written at the home (R222). -/
def State.noJcbCopy (s : State) (pa : Nat) : State := s.dropCopy s.agent (pa / 128)

/-- The 64 bytes of a JCB, as its home reads them. -/
def State.jcbRead (s : State) (pa : Nat) : Nat × State :=
  match s.physRead pa 64 with
  | (.ok v, t) => (v, t)
  | (.error _, t) => (0, t)

/-- The JCB's home writes it. -/
def State.jcbWrite (s : State) (ag pa v : Nat) : State := s.physWrite ag pa 64 v

def jcbExpect (v : Nat) : Nat := bits v 63 0
def jcbDone (v : Nat) : Nat := bits v 127 64
def jcbCmpl (v : Nat) : Bool := bit v 128
def jcbFaild (v : Nat) : Bool := bit v 129

/-- JOB_DONE to each target the JCB enables (R172), from its home slice engine. -/
def State.jobDone (s : State) (c va pa v : Nat) : State :=
  let h := homeOf pa
  let r := mkRec 0x05 stOK (h / 64) 2 (h % 64) 0 (BitVec.ofNat 64 (bits v 255 192)) (BitVec.ofNat 64 va)
    (BitVec.ofNat 64 (jcbExpect v))
  let s := if bit v 136 then s.postOst (bits v 139 137) (bits v 144 140) c r else s
  if bit v 145 then s.postHost (s.ctx c).func c r else s

/-- done of R172: the status, and the state. -/
def State.jcbCount (s : State) (ag c va pa n : Nat) : Nat × State :=
  let (v, s) := s.jcbRead pa
  if jcbCmpl v ∨ jcbExpect v < jcbDone v + n then (stRANGE, s)
  else
    let v := insBits v 64 64 (jcbDone v + n)
    if jcbDone v = jcbExpect v then
      let v := insBits v 128 1 1
      (stOK, (s.jcbWrite ag pa v).jobDone c va pa v)
    else (stOK, s.jcbWrite ag pa v)

/-! ### JRAISE, JDONE, JWAIT (R312-R314) -/

/-- JRAISE (R312, R172). -/
def execJraise (d a b : Reg) (s : State) : Out :=
  let va := (s.rx a).toNat
  let n := (s.rx b).toNat
  if s.walkAway s.agent s.ctxId va then .next (s.waitOn (.jraise d a b) 1 [])
  else match s.jcbAt s.agent s.ctxId va true with
  | none => .next ((s.jcbMiss s.agent s.ctxId va).status d stBADARG)
  | some pa =>
    if !s.jcbReady pa then .next (s.waitOn (.jraise d a b) 1 [])
    else
      let (v, t) := (s.walkRange s.agent s.ctxId va 64).jcbRead pa
      let t := t.noJcbCopy pa
      if jcbCmpl v then .next (t.trap cJCBLATE (s.rx a))
      else if 2 ^ 64 ≤ jcbExpect v + n then .next (t.status d stRANGE)
      else .next ((t.jcbWrite s.agent pa (insBits v 0 64 (jcbExpect v + n))).status d stOK)

/-- JDONE (R313): a release wait at MODULE scope, then done of R172. -/
def execJdone (d a b : Reg) (s : State) : Out :=
  let va := (s.rx a).toNat
  if s.walkAway s.agent s.ctxId va then .next (s.waitOn (.jdone d a b) 1 [])
  else match s.jcbAt s.agent s.ctxId va true with
  | none => .next ((s.jcbMiss s.agent s.ctxId va).status d stBADARG)
  | some _ =>
    let (t, ready) := (s.walkRange s.agent s.ctxId va 64).releaseWait
    if !ready then .next (t.waitOn (.jdone d a b) 1 [])
    else
      match t.jcbAt t.agent t.ctxId va true with
      | none => .next ((t.jcbMiss t.agent t.ctxId va).status d stBADARG)
      | some pa =>
        if !t.jcbReady pa then .next (t.waitOn (.jdone d a b) 1 [])
        else
          let (st, t) := t.jcbCount t.agent t.ctxId va pa (t.rx b).toNat
          .next ((t.noJcbCopy pa).status d st)

/-- JWAIT (R314). -/
def execJwait (d a b : Reg) (s : State) : Out :=
  let va := (s.rx a).toNat
  let late := s.rx b ≤ s.fcycle
  if s.walkAway s.agent s.ctxId va then (if late then .next (s.status d stBUSY) else .next (s.waitOn (.jwait d a b) 1 []))
  else match s.jcbAt s.agent s.ctxId va false with
  | none => .next ((s.jcbMiss s.agent s.ctxId va).status d stBADARG)
  | some pa =>
    if s.pageAway pa then (if late then .next (s.status d stBUSY) else .next (s.waitOn (.jwait d a b) 1 []))
    else
      let (v, t) := (s.walkRange s.agent s.ctxId va 64).jcbRead pa
      let t := t.noJcbCopy pa
      if jcbCmpl v then .next ((t.dropLeased t.agent).status d stOK)
      else if jcbFaild v then .next (t.status d stPARTIAL)
      else if late then .next (t.status d stBUSY)
      else .next (t.waitOn (.jwait d a b) 1 [])

/-! ### Job records (R17, R18, R135) -/

def jrDeadline (r : Line) : Nat := (r.extractLsb' 0 64).toNat
def jrTier (r : Line) : Nat := (r.extractLsb' 64 2).toNat
def jrH (r : Line) : Nat := (r.extractLsb' 74 3).toNat + 1
def jrW (r : Line) : Nat := (r.extractLsb' 77 4).toNat + 1
def jrJcb (r : Line) : Nat := (r.extractLsb' 128 64).toNat
def jrImage (r : Line) : Nat := (r.extractLsb' 192 64).toNat
def jrTag (r : Line) : W64 := r.extractLsb' 640 64
def jrOen (r : Line) : Bool := r.getLsbD 704
def jrOdie (r : Line) : Nat := (r.extractLsb' 705 3).toNat
def jrOst (r : Line) : Nat := (r.extractLsb' 708 5).toNat
def jrHen (r : Line) : Bool := r.getLsbD 713
def jrArg (r : Line) (k : Nat) : W32 := r.extractLsb' (768 + 32 * k) 32

/-- Widths and counts satisfy R17 and R18, and T is 0..6. -/
def jrOk (r : Line) : Bool :=
  let n := jrFields r
  let all := List.range 6
  jrT r ≤ 6 && (all.all fun l => jrWidth r l ≤ 64) && jrBase r 6 ≤ 64 &&
    all.all fun l =>
      if l < n then 1 ≤ jrCount r l && jrCount r l ≤ 2 ^ jrWidth r l else jrWidth r l == 0 && jrCount r l == 0

/-- Tasks of a job (R137): the product of the counts of the fields from T up. -/
def jrTasks (r : Line) : Nat := iter (fun l a => if jrSteps r ≤ l then a * jrCount r l else a) (jrFields r) 1

/-- First identifier of task n: its number spread over the fields from T up, lowest first (R140). -/
def jrFirst (r : Line) : Nat → Nat → Nat → Nat
  | 0, _, _ => 0
  | k + 1, l, n =>
    if l < jrSteps r then jrFirst r k (l + 1) n
    else if l < jrFields r then n % jrCount r l * 2 ^ jrBase r l + jrFirst r k (l + 1) (n / jrCount r l)
    else 0

/-- Record targets of a job (R141). -/
def jrTargets (r : Line) : List (Option (Nat × Nat)) :=
  (if jrOen r then [some (jrOdie r, jrOst r)] else []) ++ (if jrHen r then [none] else [])

/-! ### Submission (R134, R136-R139) -/

/-- The active slot a context holds, or the lowest free one. -/
def State.activeFor (s : State) (die c : Nat) : Option Nat :=
  let ks := (List.range 64).map fun n => die * 64 + n
  match ks.find? fun k => mget none s.active k == some c with
  | some k => some k
  | none => ks.find? fun k => mget none s.active k == none

/-- The status of a submission, or the state that has accepted it; none while a page it needs is away. -/
def State.submit (s : State) (die c va : Nat) (from_ : Drawer) : Option (Nat × State) :=
  let ag := agentYard die
  if va % 128 ≠ 0 ∨ !(s.ctx c).valid then some (stBADARG, s)
  else
    match s.vread ag c va 128 with
    | .wait => none
    | .fault _ _ t => some (stBADARG, { s with tele := t.tele })
    | .ok b s =>
      let r : Line := BitVec.ofNat 1024 (ofBytes b)
      if jrCtx r ≠ c then some (stBADARG, s)
      else if jrOen r && (s.ostler (ostKey (jrOdie r) (jrOst r))).ctx != some c then some (stBADARG, s)
      else if !jrOk r || 2 ^ 64 ≤ jrTasks r then some (stRANGE, s)
      else if (s.scan die (jrH r) (jrW r) fun _ => true).isNone then some (stBADARG, s)
      else
        if s.walkAway ag c (jrJcb r) then none
        else match s.jcbAt ag c (jrJcb r) true with
        | none => some (stBADARG, s.jcbMiss ag c (jrJcb r))
        | some pa =>
          if !s.jcbReady pa then none
          else
            let (v, s) := s.jcbRead pa
            if jcbCmpl v then some (stBADARG, s)
            else if 2 ^ 64 ≤ jcbExpect v + jrTasks r then some (stRANGE, s)
            else
              let s := s.freeActive die
              match s.activeFor die c with
              | none => some (stNOSPACE, s)
              | some k =>
                if Config.launchDepth ≤ (s.jobs.filter fun j => j.die == die && jrCtx j.jr == c && j.queued).length then
                  some (stNOSPACE, s)
                else
                  let v := insBits v 0 64 (jcbExpect v + jrTasks r)
                  let v := insBits v 136 10 (b2n (jrOen r) + 2 * jrOdie r + 16 * jrOst r + 512 * b2n (jrHen r))
                  let v := insBits v 192 64 (jrTag r).toNat
                  let s := s.jcbWrite ag pa v
                  let tier := max (jrTier r) (s.ctx c).tcap
                  let (n, s) := s.drawSeq die from_
                  let e := s.fcycle.toNat
                  let j : Job := { die := die, jr := r, enq := e,
                                   eff := effDeadline e (jrDeadline r) (mget 0 (s.ctx c).age tier), tier := tier, seq := n,
                                   jcbPa := some pa, tasks := jrTasks r, issued := 0, running := 0, failed := none, dropped := 0 }
                  some (stOK, { s with jobs := s.jobs ++ [j], active := mset none s.active k (some c) })

/-- LAUNCH (R315): the ostler waits for the checks of R137; what it starts happens after its earlier stores (R225). -/
def execLaunch (d a b : Reg) (s : State) : Out :=
  let s := s.writebackAll s.agent
  match s.submit (bits (s.rx b).toNat 2 0) s.ctxId (s.rx a).toNat (.launch s.me) with
  | none => .next (s.waitOn (.launch d a b) 1 [])
  | some (st, t) => .next (t.status d st)

/-- A host submission (R136). [DEDUCED, log 28; DESIGN CHOICE, log 58] -/
def State.hlcmd (s : State) (func die ctx : Nat) : State :=
  let f := s.fn func
  let last (s : State) (st : Nat) : State := s.setFn func { s.fn func with hllast := st }
  if !s.pf.ready then s
  else if f.hlbusy then last s stBUSY
  else if !(s.ctx ctx).valid ∨ (s.ctx ctx).func ≠ func then last s stBADARG
  else
    match s.submit die ctx f.hladdr.toNat (.host func) with
    | none => s.setFn func { f with hlbusy := true, hlwait := some (die, ctx, f.hladdr.toNat) }
    | some (st, t) => last t st

/-- A host submission to a die that waited for a page is checked once it can be (R136, R137). [DESIGN CHOICE, log 58] -/
def State.acceptHost (s : State) (die : Nat) : Option State :=
  s.fns.findSome? fun (f, x) =>
    match x.hlwait with
    | some (d, c, va) =>
      if d = die then
        (s.submit die c va (.host f)).map fun (st, t) => t.setFn f { t.fn f with hlbusy := false, hlwait := none, hllast := st }
      else none
    | none => none

/-- HLCMD (R136). -/
def execHlcmd (func die ctx : Nat) (s : State) : Out := .next (s.hlcmd func die ctx)

/-! ### The end of tasks and jobs (R141) -/

/-- The physical address of a job's JCB: the translation kept, or a new one (R170); none where it can no longer be made.
[DEDUCED, log 70] -/
def State.jobPa (s : State) (j : Job) : Option Nat :=
  match j.jcbPa with
  | some pa => some pa
  | none => s.jcbAt (agentYard j.die) (jrCtx j.jr) (jrJcb j.jr) true

/-- The JCB of a job can be read and written now. -/
def State.jobReady (s : State) (j : Job) : Bool :=
  (j.jcbPa.isSome || !s.walkAway (agentYard j.die) (jrCtx j.jr) (jrJcb j.jr)) && ((s.jobPa j).map s.jcbReady).getD true

/-- The job of a launched pen. -/
def State.jobOf (s : State) (k : Nat) : Option Job :=
  match (s.pen k).job with
  | some (_, n) => s.jobs.find? fun j => j.die == k / 128 && j.seq == n
  | none => none

def State.setJob (s : State) (x y : Job) : State :=
  { s with jobs := s.jobs.map fun j => if j.die == x.die && j.seq == x.seq then y else j }

/-- A job whose tasks are over leaves; a failed one sets FAILD and posts JOB_FAIL first. [DEDUCED, log 70] -/
def State.jobCheck (s : State) (j : Job) : State :=
  if j.queued ∨ j.running ≠ 0 then s.freeActive j.die
  else
    let s := ({ s with jobs := s.jobs.filter fun x => !(x.die == j.die && x.seq == j.seq) } : State).freeActive j.die
    match j.failed with
    | none => s
    | some st =>
      let s := match s.jobPa j with
        | some pa => let (v, t) := s.jcbRead pa
                     t.jcbWrite (agentYard j.die) pa (insBits v 129 1 1)
        | none => s.jcbMiss (agentYard j.die) (jrCtx j.jr) (jrJcb j.jr)
      let r := mkRec 0x06 st j.die 3 0 0 (jrTag j.jr) (BitVec.ofNat 64 (jrJcb j.jr)) (BitVec.ofNat 64 j.dropped)
      (jrTargets j.jr).foldl (fun s t => s.postTo (jrCtx j.jr) r t) s

/-- A job fails: its unissued tasks are dropped. [DEDUCED, log 70] -/
def Job.fail (j : Job) (st : Nat) : Job :=
  if j.failed.isSome then j else { j with failed := some st, dropped := j.tasks - j.issued }

/-- A launched task is over (R141): one more completed, or the job failed with a cause. [DEDUCED, log 70] -/
def State.taskOver (s : State) (k : Nat) (cause : Option Nat) : State :=
  match s.jobOf k with
  | none => s
  | some j =>
    let y := { j with running := j.running - 1 }
    match cause with
    | none =>
      let s := match s.jobPa j with
        | some pa => (s.jcbCount (agentYard (k / 128)) (jrCtx j.jr) (jrJcb j.jr) pa 1).2
        | none => s.jcbMiss (agentYard j.die) (jrCtx j.jr) (jrJcb j.jr)
      (s.setJob j y).jobCheck y
    | some c =>
      let y := y.fail c
      (s.setJob j y).jobCheck y

/-- The JCB of a launched pen's job can be written now. -/
def State.taskReady (s : State) (k : Nat) : Bool :=
  match s.jobOf k with
  | some j => s.jobReady j
  | none => true

/-! ### The ready order (R139, R140, R145) -/

/-- An entry: a queued job by its place in jobs, or a pre-empted pen. -/
inductive Ready where
  | job (j : Job)
  | pen (k : Nat)
  deriving DecidableEq, Repr

/-- The sort key. -/
def State.readyKey (s : State) : Ready → Nat × Nat × Nat
  | .job j => (j.eff, j.tier, j.seq)
  | .pen k => ((s.pen k).eff, (s.pen k).tier, (s.pen k).accNo)

def keyLt (a b : Nat × Nat × Nat) : Bool :=
  a.1 < b.1 || (a.1 == b.1 && (a.2.1 < b.2.1 || (a.2.1 == b.2.1 && a.2.2 < b.2.2)))

/-- Insert in the order of R139. -/
def State.readyInsert (s : State) (e : Ready) : List Ready → List Ready
  | [] => [e]
  | x :: t => if keyLt (s.readyKey e) (s.readyKey x) then e :: x :: t else x :: State.readyInsert s e t

/-- The ready order of a die. -/
def State.ready (s : State) (die : Nat) : List Ready :=
  let js := (s.jobs.filter fun j => j.die == die && j.queued).map Ready.job
  let ps := (s.pens.filter fun (k, p) => k / 128 == die && p.valid && p.pre).map fun e => Ready.pen e.1
  (js ++ ps).foldl (fun l e => s.readyInsert e l) []

/-- Shape of an entry. -/
def State.readyShape (s : State) : Ready → Nat × Nat
  | .job j => (jrH j.jr, jrW j.jr)
  | .pen k => ((s.pen k).h, (s.pen k).w)

/-- Where an entry fits now: a pre-empted pen in its own PARKED stalls when all remain, else the first origin of R34. -/
def State.readyFits (s : State) (die : Nat) (e : Ready) : Option Nat :=
  let (h, w) := s.readyShape e
  match e with
  | .pen k => if s.allParked k then some (s.pen k).origin else s.scan die h w Stall.isOpen
  | .job j =>
    if (s.freePen die).isSome && (s.allocArea (jrCtx j.jr) (16 * h * w)).isSome then s.scan die h w Stall.isOpen else none

/-- The entry that is served next (R140): the first that fits. -/
def State.served (s : State) (die : Nat) : Option (Ready × Nat) :=
  (s.ready die).findSome? fun e => (s.readyFits die e).map fun o => (e, o)

/-- The stalls of a die that the entry served next takes: an entry for which pens were pre-empted is placed there, and neither
RPLACE nor RSTART nor a compaction takes them first (R143, R147). [DEDUCED, log 72] -/
def State.reserved (s : State) (die : Nat) : List Nat :=
  match s.served die with
  | some (e, o) => rect o (s.readyShape e).1 (s.readyShape e).2
  | none => []

/-- The scan of R34 for a pen that is not in the ready order. -/
def State.scanRest (s : State) (die h w : Nat) : Option Nat :=
  (List.range (17 - w)).findSome? fun x =>
    (List.range (9 - h)).findSome? fun y =>
      let l := rect (16 * y + x) h w
      if l.all fun i => (s.stall die i).isOpen && !(s.reserved die).contains i then some (16 * y + x) else none

end Sys2Proof.Machine
end

