-- ==== Sys2Proof/Machine/Pens.lean ====
section
/-! DEFINITION. The pen instructions (R302-R309, R311), and the yard controller's steps: faults, retirement, placement,
pre-emption, restore and compaction (R36-R39, R140-R145, R234-R240). -/

namespace Sys2Proof.Machine

/-- The pen a register operand names, when the issuing ostler owns it (R302). -/
def State.ownPen (s : State) (v : W64) : Option Nat :=
  let k := penKey s.who.die (v.toNat % 128)
  let p := s.pen k
  if p.valid && p.owner == s.who.n && some p.ctx == s.cur.ctx then some k else none

/-- A pen that RLOAD, RCFG, RREL and RADJ return BUSY for. -/
def Pen.busy (p : Pen) : Bool := p.run == 1 || p.pre

/-! ### RPLACE (R303) -/

/-- The lowest free ownership slot. -/
def Ostler.freeSlot (o : Ostler) : Option Nat := (List.range 4).find? fun j => mget none o.pens j == none

/-- RPLACE (R303, R144). -/
def execRplace (d a : Reg) (s : State) : Out :=
  let v := (s.rx a).toNat
  let h := v % 8 + 1
  let w := bits v 6 3 + 1
  let die := s.who.die
  match s.cur.freeSlot with
  | none => .next (s.status d stBUSY)
  | some j =>
    if !s.parkedReady die then .next (s.waitOn (.rplace d a) 1 [])
    else
      match s.scanRest die h w with
      | none => .next (s.status d stNOSPACE)
      | some o =>
        match s.place die h w o s.ctxId s.who.n with
        | none => .next (s.status d stNOSPACE)
        | some (k, t) =>
          let (n, t) := t.drawSeq die (.rplace s.me)
          let tier := t.cur.tier.toNat % 4
          let eff := effDeadline t.fcycle.toNat t.cur.dline.toNat (mget 0 (t.ctx t.ctxId).age tier)
          let t := t.setPen k { t.pen k with slot := j, tier := tier, eff := eff, accNo := n }
          let t := t.setCur { t.cur with pens := mset none t.cur.pens j (some (k % 128)) }
          .next (t.ret d (BitVec.ofNat 64 (j * 65536 + k % 128 * 256 + stOK)))

/-! ### RLOAD and RCFG (R304, R305) -/

/-- RLOAD (R304). [DEDUCED, log 67] -/
def execRload (d a b : Reg) (s : State) : Out :=
  let va := (s.rx b).toNat
  match s.ownPen (s.rx a) with
  | none => .next (s.status d stBADARG)
  | some k =>
    let p := s.pen k
    if p.busy then .next (s.status d stBUSY)
    else if va % 64 ≠ 0 then .next (s.status d stBADARG)
    else if !s.storesIdle k then .next (s.waitOn (.rload d a b) 1 [])
    else
      match s.readImage (agentYard s.who.die) p.ctx va p.hm1 p.wm1 with
      | .error .away => .next (s.waitOn (.rload d a b) 1 [])
      | .error (.unreadable a n) =>
        .next ((s.noteImage (agentYard s.who.die) p.ctx va (.unreadable a n)).status d stBADARG)
      | .error e =>
        let t := (((s.gather k).leaveDomain k).sweepPen k 0).noteImage (agentYard s.who.die) p.ctx va e
        let t := t.setPen k { t.pen k with run := 3, stop := .loadFail, hasImage := false }
        .next (t.ret d e.report)
      | .ok (x, n) =>
        let t := (((s.gather k).leaveDomain k).sweepPen k 0).engineTouch (agentYard s.who.die) p.ctx va n
        .next ((t.loadPen k x va).status d stOK)

/-- A kept port stands alike in both images (R305). -/
def State.keepsPort (s : State) (k : Nat) (x : Image) (port : Nat) : Bool :=
  match mget none (s.pen k).ports port, mget none x.portMap port with
  | some m, some n =>
    let old := (s.pe k m.pe).handle m.h
    m == n && (x.cols.any fun c => c.pe == m.pe &&
      (let v := handleOf (c.handle m.h)
       v.base == old.base && v.svm1 == old.svm1 && v.nsm1 == old.nsm1 && v.dirn == old.dirn))
  | _, _ => false

/-- RCFG (R305). [DEDUCED, log 67] -/
def execRcfg (d a b c : Reg) (s : State) : Out :=
  let va := (s.rx b).toNat
  let keep := (s.rx c).toNat
  match s.ownPen (s.rx a) with
  | none => .next (s.status d stBADARG)
  | some k =>
    let p := s.pen k
    if p.busy then .next (s.status d stBUSY)
    else if !p.hasImage ∨ va % 64 ≠ 0 then .next (s.status d stBADARG)
    else if !s.storesIdle k then .next (s.waitOn (.rcfg d a b c) 1 [])
    else
      match s.readImage (agentYard s.who.die) p.ctx va p.hm1 p.wm1 with
      | .error .away => .next (s.waitOn (.rcfg d a b c) 1 [])
      | .error e => .next ((s.noteImage (agentYard s.who.die) p.ctx va e).ret d e.report)
      | .ok (x, n) =>
        if x.split ≠ p.split ∨ (List.range 64).any fun j => bit keep j && !s.keepsPort k x j then
          .next ((s.engineTouch (agentYard s.who.die) p.ctx va n).ret d (ImgErr.bad 0 none 0).report)
        else
          let t := ((s.leaveDomain k).sweepPen k keep).engineTouch (agentYard s.who.die) p.ctx va n
          let t := x.cols.foldl (fun t y => t.setPe k y.pe ((t.pe k y.pe).install x y (p.keeps keep y.pe))) t
          let t := t.setPen k { (t.pen k).install x va with nft := (s.rx a).getLsbD 7 }
          .next (t.status d stOK)

/-! ### RSTART, RSTOP, RSTAT, RREL (R306-R309, R236) -/

/-- The pens an ownership mask names; none when a slot it names is empty. -/
def State.maskPens (s : State) (m : Nat) : Option (List Nat) :=
  (((List.range 4).filter fun j => bit m j).mapM fun j => mget none s.cur.pens j).map fun l =>
    l.map fun id => penKey s.who.die id

/-- A loaded pen. -/
def Pen.loaded (p : Pen) : Bool := p.run == 0 && p.hasImage && !p.pre && p.stop == .none

/-- The cause a pen's domain stopped for, once its fault is saved. -/
def Pen.stopCause (p : Pen) : Option Nat :=
  if p.run != 3 then none
  else match p.stop with
    | .fault r => some r.cause
    | .stopped _ c => some c
    | _ => none

/-- The pens of the stopped domain of pen k. [DEDUCED, log 67] -/
def State.stoppedPens (s : State) (k : Nat) : List Nat :=
  (s.pens.filter fun (j, p) => j / 128 == k / 128 && p.valid && p.gang == (s.pen k).gang && p.stopCause.isSome).map Prod.fst

/-- Pens whose identifiers are set start as one timing domain, at row 0 on the same fc (R21, R306). -/
def State.runGang (s : State) (ks : List Nat) : State :=
  let gang := (ks.map (· % 128)).foldl min 127
  let s := ks.foldl (fun s k =>
    s.setPen k { s.pen k with gang := gang, start := s.fcycle.toNat, run := 1, held := 0 }) s
  ks.foldl (fun s k => s.enter k 16 4) s

/-- Loaded pens of an ostler start (R306): they belong to no job and take its WID. -/
def State.startGang (s : State) (ks : List Nat) (wid : W64) : State :=
  (ks.foldl (fun s k => s.setPen k { s.pen k with wid := wid, first := wid, idCount := 1, job := none }) s).runGang ks

/-- A pen whose stalls were PARKED at a fault takes stalls again (R237). [DEDUCED, log 68] -/
def State.unpark (s : State) (k : Nat) : Option State :=
  let p := s.pen k
  if p.rect.all fun i => s.stall (k / 128) i == .held (k % 128) then some s
  else if s.allParked k && p.rect.all fun i => !(s.reserved (k / 128)).contains i then some (s.hold_ k)
  else
    (s.scanRest (k / 128) p.h p.w).map fun o =>
      let s := (rect o p.h p.w).foldl (fun s i => s.takeStall (k / 128) i) (s.leaveStalls k)
      (s.setPen k { s.pen k with origin := o }).hold_ k

/-- A PE that runs on after RSTART (R236): every request that failed with a resumable cause is sent again, and an MPASSD fetches on from
row DONE (R356). -/
def PE.again (p : PE) : PE :=
  { p with irr := p.irr.map fun x => if x.ready && x.cause != 0 && x.resent then { x with ready := false, cause := 0 } else x,
           mpd := p.mpd.map fun m => { m with fault := none } }

/-- A stopped domain resumes (R236): what was saved is read from the save area. [DESIGN CHOICE, log 16] -/
def State.resumeGang (s : State) (ks : List Nat) : State :=
  ks.foldl (fun s k =>
    let s := s.loadArea k
    let s := (s.pen k).peList.foldl (fun s i => if (s.pe k i).irr = [] ∧ (s.pe k i).mpd = none then s else
      s.setPe k i (s.pe k i).again) s
    s.setPen k { s.pen k with run := 1, stop := .none, start := s.fcycle.toNat, held := 0 }) s

/-- What an ostler starts happens after its earlier stores (R225, R306): its dirty lines go to their homes, and the PEs of the
pens it starts drop the copies they hold. -/
def State.handTo (s : State) (ks : List Nat) : State :=
  ks.foldl (fun s k => (s.pen k).peList.foldl (fun s i => s.dropLeased (s.peAgent k i)) s) (s.writebackAll s.agent)

/-- RSTART (R306). -/
def execRstart (d a : Reg) (s : State) : Out :=
  match s.maskPens ((s.rx a).toNat % 16) with
  | none => .next (s.status d stBADARG)
  | some [] => .next (s.status d stBADARG)
  | some (k :: t) =>
    let ks := k :: t
    if ks.all fun j => (s.pen j).loaded then
      .next (((s.handTo ks).startGang ks s.cur.wid).status d stOK)
    else if (ks.all fun j => ((s.pen j).stopCause.map resumable).getD false) && (s.stoppedPens k).all ks.contains &&
        ks.all (s.stoppedPens k).contains then
      if !s.parkedReady s.who.die then .next (s.waitOn (.rstart d a) 1 [])
      else match ks.foldl (fun (r : Option State) j => r.bind fun s => s.unpark j) (some s) with
      | none => .next (s.status d stNOSPACE)
      | some u => .next (((u.handTo ks).resumeGang ks).status d stOK)
    else .next (s.status d stBADARG)

/-- A PE after RSTOP (R438): a running MPASSD ends with the rows it has added; an MCLR that waited for it acts (R61). -/
def PE.cutMpassd (p : PE) : PE :=
  match p.mpd with
  | some m =>
    let q : PE := { p with mpd := none, prg := p.prg &&& ~~~(0x40000 : W32) }
    if m.clears then q.tileZero p.prgTile else q
  | none => p

/-- A timing domain stops at a row boundary for RSTOP. -/
def State.stopPens (s : State) (ks : List Nat) : State :=
  ks.foldl (fun s k =>
    let s := s.finishArrays k
    let s := (s.pen k).peList.foldl (fun s i => s.setPe k i (s.pe k i).cutMpassd) s
    (s.setPen k { s.pen k with run := 3, stop := .rstop, held := 0 }).gather k) s

/-- A pen of the gang is pre-empted (R37). [DEDUCED, log 68] -/
def State.gangPre (s : State) (k : Nat) : Bool :=
  s.pens.any fun (j, p) => j / 128 == k / 128 && p.valid && p.run == 1 && p.gang == (s.pen k).gang && p.pre

/-- A pen of the timing domain of pen k has not stopped: it runs, retires, or is being saved after a fault. -/
def State.gangRuns (s : State) (k : Nat) : Bool :=
  s.pens.any fun (j, p) => j / 128 == k / 128 && p.valid && p.run == 1 && p.gang == (s.pen k).gang

/-- RSTOP waits until the domain of pen k has stopped (R307, R276): a HALT committed at the boundary wins, and so does a
fault (R311). -/
def State.stopWait (s : State) (d a : Reg) (k : Nat) : State :=
  if s.gangRuns k then s.waitOn (.rstop d a) 1 [] else s.status d stOK

/-- RSTOP (R307, R311, R38): a fault found at the same boundary wins. [DEDUCED, log 68] -/
def execRstop (d a : Reg) (s : State) : Out :=
  match s.ownPen (s.rx a) with
  | none => .next (s.status d stBADARG)
  | some k =>
    let p := s.pen k
    if s.phaseOf = 1 then .next (s.stopWait d a k)
    else if p.pre || (p.run == 1 && s.gangPre k) then .next (s.status d stBUSY)
    else if p.run ≠ 1 then .next (s.status d stOK)
    else
      let ks := s.domainPens (k / 128) p.gang
      match s.late ks with
      | some t => .next (t.stopWait d a k)
      | none => .next ((s.stopPens ks).stopWait d a k)

/-- What RSTAT reports of a pen (R308). -/
def State.rstat (s : State) (k : Nat) : Nat :=
  let p := s.pen k
  p.pstate + (if p.pre then 0 else p.origin * 2 ^ 32) + p.hm1 * 2 ^ 39 + p.wm1 * 2 ^ 42 + p.slot * 2 ^ 46 + b2n p.pre * 2 ^ 62

/-- RSTAT (R308). -/
def execRstat (d a : Reg) (s : State) : Out :=
  match s.ownPen (s.rx a) with
  | none => .next (s.ret d (BitVec.ofNat 64 (2 ^ 63)))
  | some k => .next (s.ret d (BitVec.ofNat 64 (s.rstat k)))

/-- RREL (R309). [DEDUCED, log 67] -/
def execRrel (d a : Reg) (s : State) : Out :=
  match s.ownPen (s.rx a) with
  | none => .next (s.status d stBADARG)
  | some k =>
    if (s.pen k).busy then .next (s.status d stBUSY)
    else if !s.storesIdle k then .next (s.waitOn (.rrel d a) 1 [])
    else .next ((s.release k).status d stOK)

/-! ### Pen faults (R234, R142) -/

/-- A record of pen k to its targets. [DESIGN CHOICE, log 96] -/
def State.penPost (s : State) (k kind status : Nat) (aux0 aux1 : Nat) : State :=
  let p := s.pen k
  let tag : W64 := match p.job with
    | some (r, _) => jrTag r
    | none => 0
  let r := mkRec kind status (k / 128) 0 (k % 128) 0 tag (BitVec.ofNat 64 aux0) (BitVec.ofNat 64 aux1)
  (p.targets (k / 128)).foldl (fun s t => s.postTo p.ctx r t) s

/-- The pens of a die whose domain stopped with the fault of pen k and is not saved yet. -/
def State.faultPens (s : State) (k : Nat) : List Nat :=
  (s.pens.filter fun (j, p) => j / 128 == k / 128 && p.valid && p.run == 1 && p.gang == (s.pen k).gang &&
    p.stop != .none).map Prod.fst

/-- A pen's stores and their deltas are done, those that failed aside (R227). -/
def State.penQuiet (s : State) (k : Nat) : Bool :=
  s.storesIdle k && (s.pen k).peList.all fun i => s.deltasDone (s.peAgent k i)

/-- Where the fault copy of a launched task of pen k stands (R142). -/
def State.copyVa (s : State) (k : Nat) : Nat := (s.ctx (s.pen k).ctx).poolBase + 0x20000 + 0x1000 * (k / 128)

/-- The save area of a pen can be written now, and for a launched task its fault copy too. -/
def State.faultReady (s : State) (k : Nat) : Bool :=
  s.yardReady (k / 128) (s.pen k).ctx (s.areaVa k) (areaSize (s.pen k).pes) &&
    (decide ((s.pen k).owner < 32) || s.yardReady (k / 128) (s.pen k).ctx (s.copyVa k) 0x1000)

/-- The fault copy of a launched task (R142): the address of its record. -/
def State.faultCopy (s : State) (k : Nat) : Nat × State :=
  let c := (s.pen k).ctx
  let a := s.copyVa k
  match s.vread (agentYard (k / 128)) c (s.areaVa k) 0x1000 with
  | .ok b t => (a, t.yardWrite (k / 128) c a b)
  | _ => (a, s)

/-- A stopped domain is saved, and its records are posted (R234, R142). -/
def State.faultSave (s : State) (k : Nat) (r : FaultRec) : State :=
  let ks := s.faultPens k
  let s := ks.foldl State.penWriteback s
  let s := ks.foldl (fun s j => s.saveArea j (if j = k then some r else none)) s
  let s := ks.foldl (fun s j => s.setPen j { s.pen j with run := 3 }) s
  if (s.pen k).owner < 32 then
    let s := s.penPost k 0x02 r.cause (s.areaVa k) r.addr
    (ks.filter (· != k)).foldl (fun s j => s.penPost j 0x03 stOK (k % 128) 0) s
  else
    let (a, s) := s.faultCopy k
    ((s.penPost k 0x02 r.cause a r.addr).taskOver k (some r.cause)).release k

/-- PEN_FAULT_SAVE (R234). -/
def execPenFaultSave (die pen : Nat) (s : State) : Out :=
  let k := penKey die pen
  let p := s.pen k
  match p.stop with
  | .fault r =>
    let ks := s.faultPens k
    if p.valid && p.run == 1 && (ks.all fun j => s.penQuiet j && s.faultReady j) && s.taskReady k then .next (s.faultSave k r)
    else .next s
  | _ => .next s

/-! ### Retirement (R39) -/

/-- The windows of outstanding accesses close at once when a pen retires. -/
def State.closeIrr (s : State) (k : Nat) : State :=
  (s.pen k).peList.foldl (fun s i =>
    match (s.pe k i).irr with
    | [] => s
    | l => (s.setPe k i { s.pe k i with irr := l.map fun x => { x with left := 0 } }).landIrr k i) s

/-- Every result in flight is written, in the order of its rows. [DEDUCED, log 69] -/
def State.finishSlots (s : State) (k : Nat) : State :=
  iter (fun _ s => (s.pen k).peList.foldl (fun s i => s.stepSlots k i) s) 8 s

/-- Tokens that no stream command has taken stand in a slot behind an outgoing port (R39). [DEDUCED, log 69] -/
def State.outgoing (s : State) (k : Nat) : Bool :=
  (s.pen k).ports.any fun (_, m) =>
    match m with
    | none => false
    | some m =>
      let h := (s.pe k m.pe).handle m.h
      h.dirn && (List.range h.slots).any fun j => h.state j == slotFULL || h.state j == slotDRAINING

/-- A pen retires: counts, PEN_HALT, and for a launched task its completion and release (R39, R54, R141). -/
def State.retire (s : State) (k : Nat) : State :=
  let s := s.gather k
  let s := s.setPen k { s.pen k with run := 2, halting := false, held := 0 }
  let s := s.penPost k 0x01 stOK (s.pen k).pstate 0
  if (s.pen k).owner < 32 then s else (s.taskOver k none).release k

/-- PEN_RETIRE (R39): results, passes, loads, stores and outgoing tokens complete first.
[DESIGN CHOICE, log 24; DEDUCED, log 68, 69] -/
def execPenRetire (die pen : Nat) (s : State) : Out :=
  let k := penKey die pen
  let p := s.pen k
  if p.valid && p.run == 1 && p.halting && p.stop == .none && !p.pre then
    let t := ((s.finishAhead k).finishSlots k).closeIrr k
    match t.late [k] with
    | some u => .next u
    | none =>
      if p.peList.any fun i => (t.pe k i).mpd.isSome || (t.pe k i).irr != [] then .next t
      else
        let t := t.penWriteback k
        if t.outgoing k || !t.penQuiet k || !t.taskReady k then .next t else .next (t.retire k)
  else .next s

/-! ### Placement of tasks (R140) -/

/-- The next task of a job is placed at an origin and starts; an image that fails ends the job (R137). [DEDUCED, log 70] -/
def State.issueTask (s : State) (j : Job) (o : Nat) : State :=
  let r := j.jr
  let c := jrCtx r
  match (if jrImage r % 64 ≠ 0 then .error (.unreadable (jrImage r) 0)
      else s.readImage (agentYard j.die) c (jrImage r) (jrH r - 1) (jrW r - 1)) with
  | .error .away => s
  | .error e =>
    let y := j.fail (match e with
      | .unreadable _ _ => stBADARG
      | _ => stBADCFG)
    ((s.noteImage (agentYard j.die) c (jrImage r) e).setJob j y).jobCheck y
  | .ok (x, n) =>
    match s.place j.die (jrH r) (jrW r) o c 32 with
    | none => s
    | some (k, t) =>
      let t := ((t.engineTouch (agentYard j.die) c (jrImage r) n).loadPen k x (jrImage r))
      let first := BitVec.ofNat 64 (jrFirst r 6 0 j.issued)
      let t := t.setPen k { t.pen k with tier := j.tier, eff := j.eff, accNo := j.seq, job := some (r, j.seq), wid := first,
                                         first := first, idCount := jrTaskLen r }
      let t := (t.pen k).peList.foldl (fun t i =>
        t.setPe k i { t.pe k i with c := iter (fun q m => mset 0 m q (jrArg r q)) 4 [] }) t
      (t.runGang [k]).setJob j { j with issued := j.issued + 1, running := j.running + 1 }

/-- TASK_PLACEMENT (R140), after a host submission that waits (R136). -/
def execTaskPlacement (die : Nat) (s : State) : Out :=
  match s.acceptHost die with
  | some t => .next t
  | none =>
    match s.served die with
    | some (.job j, o) =>
      if s.parkedReady die && s.jobReady j then .next (s.issueTask j o) else .next s
    | _ => .next s

/-! ### Pre-emption and restore (R143, R145, R237, R238) -/

/-- A pen that may be pre-empted for an entry with an effective deadline. [DEDUCED, log 72] -/
def State.preemptible (s : State) (k eff : Nat) : Bool :=
  let p := s.pen k
  p.valid && p.run == 1 && !p.pre && p.stop == .none && !p.halting && Config.quant ≤ s.fcycle.toNat - p.start && eff < p.eff

/-- The stalls a waiting entry would be given (R143). -/
def State.room (s : State) (die : Nat) (e : Ready) : Option (List Nat) :=
  if (s.readyFits die e).isSome then none
  else
    let (h, w) := s.readyShape e
    let eff := (s.readyKey e).1
    if (s.scan die h w Stall.isOpen).isSome then none
    else
      (s.scan die h w fun x => match x with
        | .held id => s.preemptible (penKey die id) eff
        | y => y.isOpen).map fun o => rect o h w

/-- The timing domains that hold a stall of a list. -/
def State.gangsOn (s : State) (die : Nat) (l : List Nat) : List Nat :=
  (l.filterMap fun i =>
    match s.stall die i with
    | .held id => some (s.pen (penKey die id)).gang
    | _ => none).eraseDups

/-- The domains that a waiting entry's origin takes, a given one among them: each is pre-empted whole (R143).
[DEDUCED, log 72] -/
def State.victims (s : State) (die gang : Nat) : List Nat :=
  ((s.ready die).findSome? fun e =>
    (s.room die e).bind fun l => if (s.gangsOn die l).contains gang then some (s.gangsOn die l) else none).getD []

/-- A waiting entry wants stalls of a domain. [DEDUCED, log 72] -/
def State.wanted (s : State) (die gang : Nat) : Bool := s.victims die gang != []

/-- WATCHDOG (R229), unless a pre-emption is due at the same boundary (R244). -/
def execWatchdog (die pen : Nat) (s : State) : Out :=
  let k := penKey die pen
  match s.holder (s.domainPens die (s.pen k).gang) with
  | some (j, i) => .next (if s.wanted die (s.pen k).gang then s else s.watchdog j i)
  | none => .next s

/-- Stores of a pen still under way are performed during its save. -/
def State.rushStores (s : State) (k : Nat) : State :=
  (s.pen k).peList.foldl (fun s i => iter (fun _ s => s.storeDone k i) (s.pe k i).irr.length s) s

/-- Stalls of a pen become PARKED. -/
def State.park (s : State) (k : Nat) : State :=
  (s.pen k).rect.foldl (fun s i => s.setStall (k / 128) i (.parked (k % 128))) s

/-- A timing domain is pre-empted (R237): saved, PARKED, and reported. [DESIGN CHOICE, log 16] -/
def State.preempt (s : State) (ks : List Nat) : State :=
  let s := ks.foldl (fun s k => (s.finishArrays k).penWriteback k) s
  let s := ks.foldl (fun s k => s.setPen k { s.pen k with pre := true, held := 0, boundary := false, savedSpad := false }) s
  let s := ks.foldl (fun s k => ((s.saveArea k none).park k).count (k / 128) 6 1) s
  ks.foldl (fun s k => s.penPost k 0x04 stOK (s.areaVa k) 0) s

/-- A deferred store fault found during the save takes the place of the pre-emption (R237): the pen keeps PARKED stalls. -/
def State.preemptFault (s : State) (ks : List Nat) (t : State) : State :=
  match ks.findSome? fun k => match (t.pen k).stop with
      | .fault r => some (k, r)
      | _ => none with
  | none => s
  | some (k, r) =>
    if (t.pen k).owner < 32 then
      (ks.filter fun j => (t.pen j).gang == (t.pen k).gang).foldl State.park (t.faultSave k r)
    else t.faultSave k r

/-- PREEMPTION (R143, R38): the domain of a pen and the others on the waiting entry's origin are pre-empted together, so that
the entry, earliest in the ready order, is placed there. [DEDUCED, log 72] -/
def execPreemption (die pen : Nat) (s : State) : Out :=
  let k := penKey die pen
  let ks := (s.victims die (s.pen k).gang).flatMap (s.domainPens die)
  if (s.domainPens die (s.pen k).gang).contains k && ks != [] &&
      (ks.all fun j => s.yardReady die (s.pen j).ctx (s.areaVa j) (areaSize (s.pen j).pes)) then
    match s.late ks with
    | some t => .next t
    | none =>
      let t := ks.foldl State.rushStores s
      if ks.any fun j => !t.penQuiet j || !t.taskReady j then .next t
      else
        match t.late ks with
        | some u => .next (t.preemptFault ks u)
        | none => .next (t.preempt ks)
  else .next s

/-- A restore entry takes its place again (R238); its gang runs on once all of it is back (R37). [DESIGN CHOICE, log 16] -/
def State.restore (s : State) (k o : Nat) : State :=
  let p := s.pen k
  let s := if s.allParked k then s
    else
      let s := (rect o p.h p.w).foldl (fun s i => s.takeStall (k / 128) i) (s.leaveStalls k)
      s.setPen k { s.pen k with origin := o }
  let s := ((s.hold_ k).loadArea k).reexpand k
  let s := s.setPen k { s.pen k with pre := false, held := 0 }
  s.pens.foldl (fun s (j, q) =>
    if j / 128 = k / 128 && q.valid && q.gang == p.gang && q.run == 1 then
      s.setPen j { s.pen j with start := s.fcycle.toNat } else s) s

/-- RESTORE (R145, R238). -/
def execRestore (die pen : Nat) (s : State) : Out :=
  let k := penKey die pen
  match s.served die with
  | some (.pen j, o) => if j = k && s.parkedReady die then .next (s.restore k o) else .next s
  | _ => .next s

/-! ### Compaction (R36, R240) -/

/-- A stall that pen k may move to: free and not awaited by a ready entry, or its own. -/
def State.movesTo (s : State) (k i : Nat) : Bool :=
  s.stall (k / 128) i == .held (k % 128) || (s.stall (k / 128) i == .free && !(s.reserved (k / 128)).contains i)

/-- The first origin of R34 that pen k may move to. -/
def State.moveScan (s : State) (k : Nat) : Option Nat :=
  let p := s.pen k
  (List.range (17 - p.w)).findSome? fun x =>
    (List.range (9 - p.h)).findSome? fun y =>
      if (rect (16 * y + x) p.h p.w).all (s.movesTo k) then some (16 * y + x) else none

/-- A pen moves to an origin, with all its PEs hold (R36, R240). -/
def State.movePen (s : State) (k o : Nat) : State :=
  let s := (s.pen k).peList.foldl (fun s i => s.flushAgent (s.peAgent k i)) s
  let s := (s.freeStalls k).setPen k { s.pen k with origin := o }
  ((s.hold_ k).reexpand k).count (k / 128) 7 1

/-- The other pens of a moved gang follow in the same held interval (R36), each to the first origin of R34 that is free or its
own. [DEDUCED, log 93] -/
def State.follow (s : State) (ks : List Nat) : State :=
  ks.foldl (fun s j => match s.moveScan j with
    | some o => s.movePen j o
    | none => s) s

/-- COMPACTION (R36): at an iteration boundary a running pen moves to free stalls, and its gang with it. -/
def execCompaction (die pen origin : Nat) (s : State) : Out :=
  let k := penKey die pen
  let p := s.pen k
  let ks := s.domainPens die p.gang
  let fits := origin / 16 + p.h ≤ 8 && origin % 16 + p.w ≤ 16 && (rect origin p.h p.w).all (s.movesTo k)
  if ks.contains k && (ks.all fun j => (s.pen j).boundary && s.penQuiet j) && fits && !s.wanted die p.gang then
    match s.late ks with
    | some t => .next t
    | none => .next (((ks.foldl State.finishArrays s).movePen k origin).follow (ks.filter (· != k)))
  else .next s

end Sys2Proof.Machine
end

