-- ==== Sys2Proof/Machine/Radj.lean ====
section
/-! DEFINITION. Backward images (R174, R175, R310). -/

namespace Sys2Proof.Machine

/-! ### Adjoint templates (R174) -/

/-- Entry k of a 4 KiB block. -/
def tplEntry (block k : Nat) : BitVec 512 := BitVec.ofNat 512 (block >>> (512 * k))

def tplNb (e : BitVec 512) : Nat := (e.extractLsb' 16 2).toNat
/-- Backward op k of an entry, 160 bits. -/
def tplOp (e : BitVec 512) (k : Nat) : Nat := (e.extractLsb' (32 + 160 * k) 160).toNat
/-- Its four map codes, for DST, SA, SB, SC. -/
def tplMap (op j : Nat) : Nat := bits op (16 + 6 * j) (11 + 6 * j)

/-- Map codes that are not reserved. -/
def mapOk (m : Nat) : Bool := m ≤ 8 || (16 ≤ m && m ≤ 23)

/-- A valid entry. -/
def tplValid (e : BitVec 512) : Bool :=
  tplNb e != 0 && (List.range (tplNb e)).all fun k => (List.range 4).all fun j => mapOk (tplMap (tplOp e k) j)

/-- The lowest valid entry for an op code and format (R175). -/
def tplFind (block opc fmt : Nat) : Option (BitVec 512) :=
  ((List.range 64).map (tplEntry block)).find? fun e =>
    tplValid e && (e.extractLsb' 0 8).toNat == opc && e.getLsbD (8 + fmt)

/-! ### Backward words (R310) -/

def opcOf (w : Row) : Nat := (w.extractLsb' 120 8).toNat

/-- A row word from its op code and fields (R259). -/
def mkRow (opc : Nat) (w : RowMods) : Row :=
  BitVec.ofNat 8 opc ++ w.fmt ++ w.dst ++ w.sa ++ w.sb ++ w.sc ++ w.pr ++ w.pn ++ w.stg ++
    w.hold ++ w.hid ++ w.rtn ++ w.rte ++ w.rts ++ w.rtw ++ w.pl ++ w.aux ++ w.imm

/-- Operand fields DST, SA, SB, SC of a word, none for a field its op does not use. -/
def usedField (w : Row) (j : Nat) : Option Nat :=
  match decodeRow w with
  | .error _ => none
  | .ok i =>
    match opOf i with
    | none => none
    | some (o, m) =>
      let u := opUses o m
      match j with
      | 0 => if u.dst then some m.dst.toNat else none
      | 1 => if u.sa then some m.sa.toNat else none
      | 2 => if u.sb then some m.sb.toNat else none
      | _ => if u.sc then some m.sc.toNat else none

/-- A forward word that has no backward form whatever the templates are. -/
def noBackward (w : Row) : Bool :=
  let m := rowMods w
  let rts := (List.range 4).map (route m)
  rts.contains 3 || 1 < (rts.filter (· == 1)).length ||
    (List.range 4).any fun j =>
      match usedField w j with
      | some c => (24 ≤ c && c ≤ 31) || (j != 0 && c == 47)
      | none => false

/-- The operand code a map code gives for field j (R310). -/
def mapCode (w : Row) (m j : Nat) : Nat :=
  if m = 0 then
    match (List.range 4).find? fun d => route (rowMods w) d == 1 with
    | some d => 32 + d
    | none => 48
  else if m ≤ 3 then
    match usedField w m with
    | some c => if c < 32 then c else if c < 36 ∧ j = 0 then c + 4 else 48
    | none => 48
  else if m ≤ 7 then 47
  else if m = 8 then 48
  else m + 8

/-- Routes of code 2 reversed, and the routes that a backward word's DST adds; by direction. -/
def backRoute (w : Row) (first : Bool) (dst : Option Nat) (d : Nat) : Nat :=
  if dst = some (36 + d) then 1
  else if first && route (rowMods w) (opp d) == 2 then 2 else 0

/-- The NOP that stands for NOP, HALT and HALTF; one that passes tokens keeps the iteration, predicate and plane of its forward
word. [DEDUCED, log 71] -/
def backNop (w : Row) (stg : Nat) : Row :=
  let r (d : Nat) : BitVec 2 := BitVec.ofNat 2 (backRoute w true none d)
  let m := rowMods w
  if (List.range 4).any fun d => backRoute w true none d != 0 then
    mkRow 0 { rowMods 0 with pr := m.pr, pn := m.pn, stg := BitVec.ofNat 3 stg, rtn := r 0, rte := r 1, rts := r 2, rtw := r 3,
                             pl := m.pl }
  else 0

/-- Backward op k of an entry for a forward word. -/
def backOp (w : Row) (e : BitVec 512) (stg k : Nat) : Row :=
  let op := tplOp e k
  let f (j : Nat) : Nat := mapCode w (tplMap op j) j
  let adds := 1 ≤ tplMap op 0 && tplMap op 0 ≤ 3 && 36 ≤ f 0 && f 0 < 40
  let r (d : Nat) : BitVec 2 := BitVec.ofNat 2 (backRoute w (k == 0) (if adds then some (f 0) else none) d)
  let m := rowMods w
  mkRow (bits op 7 0)
    { fmt := BitVec.ofNat 3 (bits op 10 8), dst := BitVec.ofNat 6 (f 0), sa := BitVec.ofNat 6 (f 1),
      sb := BitVec.ofNat 6 (f 2), sc := BitVec.ofNat 6 (f 3), pr := m.pr, pn := m.pn, stg := BitVec.ofNat 3 stg, hold := 0,
      hid := 0, rtn := r 0, rte := r 1, rts := r 2, rtw := r 3, pl := m.pl, aux := 0,
      imm := if bit op 35 then m.imm else BitVec.ofNat 64 (bits op 127 64) }

/-- The backward rows of a forward word, or none. -/
def backRows (block : Nat) (w : Row) (stg : Nat) : Option (List Row) :=
  if noBackward w then none
  else if opcOf w ≤ 2 then some [backNop w stg]
  else (tplFind block (opcOf w) (rowMods w).fmt.toNat).map fun e => (List.range (tplNb e)).map (backOp w e stg)

/-! ### The backward image (R266-R268, R310) -/

/-- The forward rows of a pen turned back, from row n - 1 down: for each row its start and length, and the rows of each
PE; or the PE and row that stop it. [DEDUCED, log 71] -/
def State.backAll (s : State) (k block g : Nat) : Nat → Except (Nat × Nat) (SMap (Nat × Nat) × SMap (List Row) × Nat) →
    Except (Nat × Nat) (SMap (Nat × Nat) × SMap (List Row) × Nat)
  | 0, r => r
  | n + 1, r =>
    match r with
    | .error e => .error e
    | .ok (spans, rows, total) =>
      let p := s.pen k
      let x := p.level 0
      let word (i : Nat) : Row := (s.pe k i).rowWord false n
      let stg (i : Nat) : Nat :=
        if p.present 0 && x.sqs ≤ n && n ≤ x.sqe then g - (rowMods (word i)).stg.toNat else 0
      let ex := p.peList.map fun i => (i, backRows block (word i) (stg i))
      match ex.find? fun e => e.2.isNone with
      | some e => .error (e.1, n)
      | none =>
        let len := ex.foldl (fun m e => max m ((e.2.getD []).length)) 0
        if 64 < total + len + 1 then
          .error (((ex.find? fun e => (e.2.getD []).length == len).map (·.1)).getD 0, n)
        else
          let rows := ex.foldl (fun m (i, l) =>
            let l := l.getD []
            mput m i (mget [] m i ++ l ++ List.replicate (len - l.length) (0 : Row))) rows
          State.backAll s k block g n (.ok (mput spans n (total, len), rows, total + len))

/-- HALT as burm writes it (R316). [DEDUCED, log 71] -/
def haltWord : Row := mkRow 1 { rowMods 0 with dst := 48, sa := 48, sb := 48, sc := 48 }

/-- The largest STG of the image. -/
def State.imageStage (s : State) (k : Nat) : Nat :=
  (s.pen k).peList.foldl (fun m i =>
    (List.range (s.pen k).lena).foldl (fun m r => max m (rowMods ((s.pe k i).rowWord false r)).stg.toNat) m) 0

/-- The bytes of the backward image. -/
def State.backImage (s : State) (k : Nat) (spans : SMap (Nat × Nat)) (rows : SMap (List Row)) (total : Nat) : List Byte :=
  let p := s.pen k
  let lo (l : Nat) : Nat := (mget (0, 0) spans (p.level l).sqe).1
  let hi (l : Nat) : Nat := (mget (0, 0) spans (p.level l).sqs).1 + (mget (0, 0) spans (p.level l).sqs).2 - 1
  let ii := if p.present 0 then hi 0 - lo 0 + 1 else 1
  let hdr := 0x39444D4E + 2 ^ 32 + p.hm1 * 2 ^ 40 + p.wm1 * 2 ^ 43 + ii * 2 ^ 47 + total * 2 ^ 54 + p.ports.length * 2 ^ 68 +
    p.split * 2 ^ 75 + b2n p.sys * 2 ^ 77 + p.rmask.toNat * 2 ^ 128
  let hdr := iter (fun l a =>
    if p.present l then
      a + (lo l + hi l * 2 ^ 6 + (p.level l).csrc * 2 ^ 12 + (p.level l).cimm * 2 ^ 32) * 2 ^ (256 + 64 * l)
    else a) 4 hdr
  let port (m : Option PortMap) : List Byte :=
    match m with
    | some m => toBytes 4 (m.pe / 64 + m.pe % 64 * 2 ^ 5 + m.h * 2 ^ 11)
    | none => []
  let col (i : Nat) : List Byte :=
    let q := s.pe k i
    let hs := (List.range 16).flatMap fun h =>
      let x := q.handle h
      let v := x.base + x.svm1 * 2 ^ 9 + x.nsm1 * 2 ^ 16 + b2n x.en * 2 ^ 42 + b2n x.dirn * 2 ^ 43
      if v = 0 then [] else toBytes 4 (4 + h * 256) ++ toBytes 8 v
    let ws := (List.range 3).flatMap fun j =>
      let v := (mget 0 q.spw j).toNat % 64
      if v = 0 then [] else toBytes 4 (5 + j * 256) ++ toBytes 4 v
    let tape := toBytes 4 (5 + 3 * 256) ++ toBytes 4 (p.tape + 48)
    let last : Row := if i = 0 then haltWord else 0
    let rs := (mget [] rows i ++ [last]).flatMap fun w => toBytes 4 0 ++ toBytes 16 w.toNat
    hs ++ ws ++ tape ++ rs ++ toBytes 4 3
  toBytes 64 hdr ++ (p.ports.flatMap fun e => port e.2) ++ p.peList.flatMap col

/-- The adjoint table of every PE (R175). -/
def State.setAdj (s : State) (k block : Nat) : State :=
  (s.pen k).peList.foldl (fun s i =>
    s.setPe k i { s.pe k i with adj := iter (fun e m => mset 0 m e (tplEntry block e)) 64 [] }) s

/-- RADJ (R310). [DEDUCED, log 71] -/
def execRadj (d a b c : Reg) (s : State) : Out :=
  let tv := (s.rx b).toNat
  let dv := (s.rx c).toNat
  if s.phaseOf = 4 then .next (s.goOn (.radj d a b c) [] s.todo (·.status d stOK) fun _ t => t.status d stBADARG)
  else
  match s.ownPen (s.rx a) with
  | none => .next (s.status d stBADARG)
  | some k =>
    let p := s.pen k
    if p.busy then .next (s.status d stBUSY)
    else if !p.hasImage || !p.adj || p.lenb != 0 || p.tape == 0 || tv % 4096 != 0 || dv % 64 != 0 then
      .next (s.status d stBADARG)
    else
      match s.vread (agentYard s.who.die) p.ctx tv 4096 with
      | .wait => .next (s.waitOn (.radj d a b c) 1 [])
      | .fault _ _ t => .next (({ s with tele := t.tele } : State).status d stBADARG)
      | .ok blk t =>
        let block := ofBytes blk
        match t.backAll k block (t.imageStage k) p.lena (.ok ([], [], 0)) with
        | .error (pe, n) =>
          .next ((t.setAdj k block).ret d (BitVec.ofNat 64 (stNOTADJ + pe * 65536 + n * 2 ^ 27 + 2 ^ 34)))
        | .ok (spans, rows, total) =>
          let out := t.backImage k spans rows (total + 1)
          match t.writeBlock dv out with
          | .wait => .next (match t.blockPieces dv out with
            | some ps => (t.setAdj k block).goOn (.radj d a b c) [] ps (·.status d stOK) fun _ u => u.status d stBADARG
            | none => s.waitOn (.radj d a b c) 1 [])
          | .fault _ _ u => .next (({ s with tele := u.tele } : State).status d stBADARG)
          | .ok _ u => .next ((u.setAdj k block).status d stOK)

end Sys2Proof.Machine
end

