-- ==== Sys2Proof/Machine/Atomic.lean ====
section
/-! DEFINITION. Home-slice atomics and slice routines (R382-R385, R257, R180), append logs and their merge (R153, R154,
R386, R387). -/

namespace Sys2Proof.Machine

/-! ### Atomics (R382) -/

/-- The part that atomics and ARUN share (R382, R384), in order: the checks of a store, PERM on host memory, what the form
itself finds, the failures and waits, then k with the line at its home, drained and recalled, sound, and with room for its
deltas. -/
def State.atHome (s : State) (i : Instr) (va n : Nat) (also : Option (State → State)) (k : Tlb → State → State) : State :=
  if s.walkAway s.agent s.ctxId va then s.waitOn i 1 []
  else
    match s.checkAcc va n true with
    | .error (c, t) => (s.walked s.agent s.ctxId va).trap c (BitVec.ofNat 64 t)
    | .ok t =>
      let pa := t.addr va
      let l := pa / 128
      let u := s.walked s.agent s.ctxId va
      if isHost pa then u.trap cPERM (BitVec.ofNat 64 va)
      else
        match also, s.gate pa with
        | some f, _ => f u
        | none, .link => u.trap cLINK (BitVec.ofNat 64 va)
        | none, .reset => u.trap cRESET (BitVec.ofNat 64 va)
        | none, .wait => (s.joinQueue s.me pa true).waitOn i 1 []
        | none, .go =>
          if s.deltaFull l then s.waitOn i 1 []
          else
            let s2 := (((s.reach t pa).writeback s.agent l).dropCopy s.agent l).engineLine l
            let bad := s2.lineBad l
            if bad ≠ 0 then (s.metBad [] l bad).trap bad (BitVec.ofNat 64 (badAddr bad va))
            else (k t s2).leaveQueue s.me pa

/-- A word that was performed at a home and waits for its deltas, with its result kept (R119). -/
def State.afterDeltas (s : State) (d : Reg) : State :=
  if s.deltasDone s.agent then
    s.ret d (BitVec.ofNat 64 (((s.cur.wait.bind fun w => w.marks.head?).map (·.2)).getD 0))
  else s

/-- An access performed at the home of its line by the executing ostler, in the order of R382: what f makes of the line
takes its place. Phase 3 stands for a performed atomic that waits for its deltas, with its old value kept. -/
def State.atomic (s : State) (i : Instr) (d a : Reg) (n : Nat) (f : Nat → Nat) : State :=
  let va := (s.rx a).toNat
  if s.phaseOf = 3 then s.afterDeltas d
  else s.atHome i va n none fun t s2 =>
    let pa := t.addr va
    let r := s2.hideShadow pa (toBytes n (lineGet (s2.homeData (pa / 128)) (pa % 128) n))
    let old := ofBytes r.1
    let s2 := r.2
    let s3 := ((s2.homePut s.agent (pa / 128) (pa % 128) (toBytes n (f old)) (aSPLITW t.attr)).noteShadow (pa / 128)
      (byteMask (pa % 128) n)).pageWrite pa (aSPLITW t.attr) |>.alive (pa / 128)
    if s3.deltasDone s.agent then s3.ret d (BitVec.ofNat 64 old) else s3.waitOn i 3 [(0, old)]

/-- Width in bytes of a form (R382). -/
def amoWidth (w : BitVec 1) : Nat := if w = 1 then 8 else 4

/-- The operand, cut to the width. -/
def State.amoArg (s : State) (b : Reg) (w : BitVec 1) : Nat := (s.rx b).toNat % 256 ^ amoWidth w

/-- AADD (R382). -/
def execAadd (d a b : Reg) (w : BitVec 1) (s : State) : Out :=
  .next (s.atomic (.aadd d a b w) d a (amoWidth w) fun o => o + s.amoArg b w)
/-- AAND (R382). -/
def execAand (d a b : Reg) (w : BitVec 1) (s : State) : Out :=
  .next (s.atomic (.aand d a b w) d a (amoWidth w) fun o => o &&& s.amoArg b w)
/-- AOR (R382). -/
def execAor (d a b : Reg) (w : BitVec 1) (s : State) : Out :=
  .next (s.atomic (.aor d a b w) d a (amoWidth w) fun o => o ||| s.amoArg b w)
/-- AXOR (R382). -/
def execAxor (d a b : Reg) (w : BitVec 1) (s : State) : Out :=
  .next (s.atomic (.axor d a b w) d a (amoWidth w) fun o => o ^^^ s.amoArg b w)

/-- The smaller or larger of two values of n bytes. -/
def pickMin (max_ signed : Bool) (n x y : Nat) : Nat :=
  let lt := if signed then decide (sgn (8 * n) x < sgn (8 * n) y) else decide (x < y)
  if lt = max_ then y else x

/-- AMIN (R382). -/
def execAmin (d a b : Reg) (sg w : BitVec 1) (s : State) : Out :=
  .next (s.atomic (.amin d a b sg w) d a (amoWidth w) fun o => pickMin false (sg == 1) (amoWidth w) o (s.amoArg b w))
/-- AMAX (R382). -/
def execAmax (d a b : Reg) (sg w : BitVec 1) (s : State) : Out :=
  .next (s.atomic (.amax d a b sg w) d a (amoWidth w) fun o => pickMin true (sg == 1) (amoWidth w) o (s.amoArg b w))
/-- AXCHG (R382). -/
def execAxchg (d a b : Reg) (w : BitVec 1) (s : State) : Out :=
  .next (s.atomic (.axchg d a b w) d a (amoWidth w) fun _ => s.amoArg b w)
/-- ACAS (R382): 8 bytes. -/
def execAcas (d a b c : Reg) (s : State) : Out :=
  .next (s.atomic (.acas d a b c) d a 8 fun o => if o = (s.rx b).toNat then (s.rx c).toNat else o)

/-- FP32 sum rounded once (R193). -/
def fadd32 (x y : Nat) : Nat := rne 0 (Val.add (decodeElem 0 x) (decodeElem 0 y))

/-- AFADD (R382). [DEDUCED, log 34] -/
def execAfadd (d a b : Reg) (s : State) : Out :=
  .next (s.atomic (.afadd d a b) d a 4 fun o => fadd32 o ((s.rx b).toNat % 2 ^ 32))

/-! ### Slice routines (R180, R383-R385) -/

/-- A word a routine may hold at place i of n (R257). A word of a legal major that is no instruction is taken as outside the subset.
[DESIGN CHOICE, log 103] -/
def routineWord (n i : Nat) (w : W32) : Bool :=
  let m := (majorOf w).toNat
  let off := (immOf w).toInt
  match decodeOstler w with
  | .error _ => false
  | .ok _ => (1 ≤ m && m ≤ 8) || m == 0x3C || (0x20 ≤ m && m ≤ 0x25 && 0 < off && i + off.toNat < n)

def isLdone (w : W32) : Bool :=
  match decodeOstler w with
  | .ok (.ldone _) => true
  | _ => false

/-- The words of a routine and their checks (R257, R383). -/
def routineOk (ws : List W32) : Bool :=
  (ws.zipIdx.all fun (w, i) => routineWord ws.length i w) && (ws.getLast?.map isLdone).getD false

/-- The k lowest words of a number. -/
def wordsOf (v k : Nat) : List W32 := (List.range k).map fun i => BitVec.ofNat 32 (v >>> (32 * i))

/-- A slot of the routine table takes a routine of the issuer's context, unless another context's stands there (R383). -/
def State.setRoutine (s : State) (d : Reg) (slot : Nat) (ws : List W32) : State :=
  if ((mget none s.routines slot).map fun r => r.ctx != s.ctxId).getD false then s.status d stBUSY
  else ({ s with routines := mset none s.routines slot (some { ctx := s.ctxId, words := ws }) } : State).status d stOK

/-- RDEF (R383, R180). -/
def execRdef (d a b : Reg) (s : State) : Out :=
  let v := (s.rx b).toNat
  let n := bits v 15 8
  if n = 0 ∨ 16 < n then .next (s.status d stBADARG)
  else
    .next ((s.readBlock (s.rx a).toNat (4 * n) 4).orBad (.rdef d a b) d fun x t =>
      if routineOk (wordsOf x n) then t.setRoutine d (v % 256) (wordsOf x n) else t.status d stBADARG)

/-- The routine that ARUN names, of the issuer's context. -/
def State.arunWords (s : State) (c : Reg) : Option (List W32) :=
  match mget none s.routines ((s.rx c).toNat % 256) with
  | none => none
  | some r => if some r.ctx = s.cur.ctx then some r.words else none

/-- A routine starts on a line with its own registers (R384). -/
def State.startRoutine (s : State) (d : Reg) (pa : Nat) (split : Bool) (x1 x2 : W64) (ws : List W32) : State :=
  { s with routine := some { die := s.who.die, n := s.who.n, dst := d, line := pa / 128, split := split,
                             x := mset 0 (mset 0 [] 1 x1) 2 x2, buf := [], words := ws, at_ := 0 } }

/-- ARUN (R384): the checks of an atomic, then the routine runs with its line locked until LDONE. Phase 3 stands for a routine
that has ended and whose deltas are still to be applied. -/
def execArun (d a b c : Reg) (s : State) : Out :=
  let i : Instr := .arun d a b c
  let va := (s.rx a).toNat
  if s.phaseOf = 3 then .next (s.afterDeltas d)
  else if s.routine.isSome then .next s
  else
    let foreign := if (s.arunWords c).isNone then some fun t => t.status d stBADARG else none
    .next (s.atHome i va 8 foreign fun t s2 =>
      (s2.waitOn i 2 []).startRoutine d (t.addr va) (aSPLITW t.attr) (s.rx a) (s.rx b) ((s.arunWords c).getD []))

/-- The doubleword x(a)[6:3] of a routine's line. -/
def dwIndex (v : W64) : Nat := bits v.toNat 6 3

/-- LLD (R385); ILLEGAL on an ostler (R257). [DEDUCED, log 82] -/
def execLld (d a : Reg) (s : State) : Out :=
  match s.routine with
  | none => .next s.illegal
  | some rt =>
    let k := dwIndex (s.rx a)
    match mget none rt.buf k with
    | some x => .next (s.ret d x)
    | none =>
      let r := s.hideShadow (128 * rt.line + 8 * k) (toBytes 8 (lineGet (s.homeData rt.line) (8 * k) 8))
      .next (r.2.ret d (BitVec.ofNat 64 (ofBytes r.1)))

/-- LST (R385). [DEDUCED, log 82] -/
def execLst (a b : Reg) (s : State) : Out :=
  match s.routine with
  | none => .next s.illegal
  | some rt =>
    .next ({ s with routine := some { rt with buf := mset none rt.buf (dwIndex (s.rx a)) (some (s.rx b)) } } : State).commit

/-- The buffered doublewords as a line and its byte mask. -/
def Routine.write (rt : Routine) : Line × BitVec 128 :=
  rt.buf.foldl (fun (l, m) (k, v) =>
    match v with
    | some x => (linePut l (8 * k) (toBytes 8 x.toNat), m ||| byteMask (8 * k) 8)
    | none => (l, m)) (0, 0)

/-- What ARUN returns of the routine's result (R384). -/
def arunResult (r : W64) : Nat := r.toNat % 2 ^ 56 * 256 + stOK

/-- LDONE (R385): one write of the line; the ostler has its result once the deltas are applied (R119). [DEDUCED, log 82] -/
def execLdone (a : Reg) (s : State) : Out :=
  match s.routine with
  | none => .next s.illegal
  | some rt =>
    let r := arunResult (s.rx a)
    let ag := agentOst rt.die rt.n
    let (x, m) := rt.write
    let t : State := { s with routine := none, who := { s.who with die := rt.die, n := rt.n } }
    let t := if m = 0 then t else
      ((t.homePutMask ag rt.line x m rt.split).noteShadow rt.line m).pageWrite (128 * rt.line) rt.split
    .next (if t.deltasDone ag then t.ret rt.dst (BitVec.ofNat 64 r)
      else t.waitOn (.arun rt.dst 0 0 0) 3 [(0, r)])

/-! ### Append logs (R153, R386) -/

/-- LAPP (R386). -/
def execLapp (d a b c : Reg) (s : State) : Out :=
  let v := (s.rx c).toNat
  let op := v % 16
  let w8 := bit v 4
  let va := (s.rx a).toNat
  if 7 ≤ op ∨ (w8 && (op == 2 || op == 5 || op == 6)) ∨ va % (if w8 then 8 else 4) ≠ 0 then .next (s.status d stBADARG)
  else if s.walkAway s.agent s.ctxId va then .next (s.waitOn (.lapp d a b c) 1 [])
  else
    match s.lookup s.agent s.ctxId va with
    | .error _ => .next ((s.walked s.agent s.ctxId va).status d stBADARG)
    | .ok t =>
      if !aW t.attr then .next ((s.keepTlb s.agent Config.tlbOst t).status d stBADARG)
      else
        let pa := t.addr va
        if s.logLacks (homeOf pa) 1 then .next (s.waitOn (.lapp d a b c) 1 [])
        else
          let e : LogEnt := { pa := pa, op := op, w8 := w8, value := s.rx b, split := aSPLITW t.attr, sdie := s.who.die, src := 128 + s.who.n,
                              spe := 0, seq := s.cur.logSeq.toNat, ctx := s.ctxId }
          let u := (s.keepTlb s.agent Config.tlbOst t).append e
          .next ((u.setCur { u.cur with logSeq := u.cur.logSeq + 1 }).status d stOK)

/-- The home whose log a waiting LAPP needs. -/
def State.lappHome (s : State) (k : Nat) : Option Nat :=
  let o := s.ostler k
  match o.wait with
  | some w =>
    match w.instr with
    | .lapp _ a _ _ =>
      match s.lookup (agentOst (k / 32) (k % 32)) (o.ctx.getD 0) (if a = 0 then 0 else (mget 0 o.x a.toNat).toNat) with
      | .ok t => some (homeOf (t.addr (if a = 0 then 0 else (mget 0 o.x a.toNat).toNat)))
      | .error _ => none
    | _ => none
  | none => none

/-- LOG_APPEND (R153): once the log at a home has room, the lowest ostler waiting for it appends. -/
def execLogAppend (home : Nat) (s : State) : Out :=
  match (s.ost.map Prod.fst).find? fun k => s.lappHome k == some home with
  | none => .next s
  | some k =>
    match (s.ostler k).wait with
    | some w =>
      match w.instr with
      | .lapp d a b c =>
        match execLapp d a b c { s with who := { s.who with die := k / 32, n := k % 32 } } with
        | .next t => .next { t with who := s.who }
        | o => o
      | _ => .next s
    | none => .next s

/-! ### Merges (R154, R387) -/

/-- A number no merge in progress has. -/
def State.mergeId (s : State) : Nat := s.merges.foldl (fun n m => max n (m.id + 1)) 0

/-- LMRG (R387): each home of the range takes the entries its log holds now. -/
def execLmrg (d a b c : Reg) (s : State) : Out :=
  let va := (s.rx a).toNat
  let n := (s.rx b).toNat
  .next (s.whenMapped (.lmrg d a b c) va n fun s => match s.rangesOf s.agent s.ctxId (fun t => aW t.attr) va n with
    | none => s.status d stBADARG
    | some rs =>
      let homes := (s.logs.map fun (h, l) => (h, l.length))
      let m : Merge := { id := s.mergeId, ctx := s.ctxId, die := s.who.die, n := s.who.n, tag := s.rx c, ranges := rs,
                         homes := if homes = [] then [(0, 0)] else homes, applied := 0, left := 0 }
      ({ s with merges := s.merges ++ [m] } : State).status d stOK)

/-- The sort key of an entry (R154). -/
def LogEnt.key (e : LogEnt) : Nat × Nat × Nat × Nat × Nat := (e.pa, e.sdie, e.src, e.spe, e.seq)

def LogEnt.before (a b : LogEnt) : Bool :=
  let x := a.key
  let y := b.key
  x.1 < y.1 || (x.1 == y.1 && (x.2.1 < y.2.1 || (x.2.1 == y.2.1 && (x.2.2.1 < y.2.2.1 || (x.2.2.1 == y.2.2.1 &&
    (x.2.2.2.1 < y.2.2.2.1 || (x.2.2.2.1 == y.2.2.2.1 && x.2.2.2.2 < y.2.2.2.2)))))))

/-- An entry lies in the range of a merge and belongs to its context. -/
def Merge.takes (m : Merge) (e : LogEnt) : Bool := e.ctx == m.ctx && m.ranges.any fun (p, n) => p ≤ e.pa && e.pa < p + n

/-- What an entry makes of the old value (R386). -/
def LogEnt.apply (e : LogEnt) (old : Nat) : Nat :=
  let n := if e.w8 then 8 else 4
  let v := e.value.toNat % 256 ^ n
  match e.op with
  | 0 => v
  | 1 => old + v
  | 2 => fadd32 old v
  | 3 => pickMin true true n old v
  | 4 => pickMin false true n old v
  | 5 => rne 0 (Val.minMax true (decodeElem 0 old) (decodeElem 0 v))
  | _ => rne 0 (Val.minMax false (decodeElem 0 old) (decodeElem 0 v))

/-- The slice engine of a home as an agent (R83). -/
def agentHome (home : Nat) : Nat := home / 64 * 4096 + 128 + home % 64

/-- No batch of a slice engine is still to be applied (R119). -/
def State.slicesDone (s : State) : Bool :=
  s.dsets.all fun (_, d) => d.queue.all fun b => !(128 ≤ b.writer % 4096 && b.writer % 4096 < 192)

/-- The next entry a home applies for a merge: the first by key among those its log held. -/
def nextEntry (m : Merge) (l : List LogEnt) : Option LogEnt :=
  (l.filter m.takes).foldl (fun r e =>
    match r with
    | some x => if e.before x then some e else some x
    | none => some e) none

/-- A merge whose homes are all done posts MERGE_DONE. [DEDUCED, log 63] -/
def State.mergeDone (s : State) (m : Merge) (home : Nat) : State :=
  let left := (s.logs.flatMap fun (_, l) => l.filter m.takes).length
  let r := mkRec 0x21 (if m.left = 0 then stOK else stPARTIAL) (home / 64) 2 (home % 64) 0 m.tag (BitVec.ofNat 64 m.applied)
    (BitVec.ofNat 64 left)
  ({ s with merges := s.merges.filter fun y => y.id != m.id } : State).postOst m.die m.n m.ctx r

/-- An entry leaves the log at a home: the merges that counted it count one less there. -/
def State.dropEntry (s : State) (home : Nat) (e : LogEnt) : State :=
  let log := s.logOf home
  let i := log.idxOf e
  { s with logs := mset [] s.logs home (log.erase e),
           merges := s.merges.map fun m => { m with homes := m.homes.map fun (h, n) =>
             if h = home ∧ i < n then (h, n - 1) else (h, n) } }

/-- A merge's count of applied and of unapplied entries changes. [DEDUCED, log 63] -/
def State.tally (s : State) (m : Merge) (ok bad : Nat) : State :=
  { s with merges := s.merges.map fun x =>
      if x.id == m.id then { x with applied := x.applied + ok, left := x.left + bad } else x }

/-- LOG_MERGE (R154): a home applies its next entry for the oldest merge it takes part in; at its last one it is done,
and the last home posts MERGE_DONE once every delta is applied. An entry whose line is bad is left in the log.
[DEDUCED, log 63] -/
def execLogMerge (home : Nat) (s : State) : Out :=
  match s.merges.find? fun m => m.homes.any fun h => h.1 == home with
  | none => .next s
  | some m =>
    let n := ((m.homes.find? fun h => h.1 == home).map (·.2)).getD 0
    match nextEntry m ((s.logOf home).take n) with
    | none =>
      if m.homes.length = 1 then (if s.slicesDone then .next (s.mergeDone m home) else .next s)
      else
        let x := { m with homes := m.homes.filter fun h => h.1 != home }
        .next { s with merges := s.merges.map fun y => if y.id == m.id then x else y }
    | some e =>
      let l := e.pa / 128
      if s.pageAway e.pa ∨ s.deltaFull l then .next s
      else
        let t := s.engineLine l
        if t.lineBad l ≠ 0 then
          .next ((((t.noteBad l (t.lineBad l)).tally m 0 1).dropEntry home e).append e)
        else
          let w := if e.w8 then 8 else 4
          let t := ((t.homePut (agentHome home) l (e.pa % 128)
            (toBytes w (e.apply (lineGet (t.homeData l) (e.pa % 128) w))) e.split).noteShadow l (byteMask (e.pa % 128) w)).pageWrite
              e.pa e.split
          .next ((t.tally m 1 0).dropEntry home e)

end Sys2Proof.Machine
end

