-- ==== Sys2Proof/Machine/Maint.lean ====
section
/-! DEFINITION. Cache maintenance, pins and handover (R84, R98, R99, R380, R381), and the steps of the homes, caches and
pages that no instruction starts (R83, R86, R87, R90, R93, R95-R97, R105, R106, R412, R437). -/

namespace Sys2Proof.Machine

/-! ### CLEAN, INVAL, FLUSH (R380) -/

/-- The physical ranges of [va, va + n) in whole lines, none where a page is unmapped. -/
def State.lineRange (s : State) (va n : Nat) : Option (List Nat) :=
  (s.rangesOf s.agent s.ctxId (fun _ => true) (va - va % 128) ((va + n + 127) / 128 * 128 - (va - va % 128))).map rangeLines

/-- An instruction over a range: 0 bytes do nothing, an unmapped page gives BADARG; a table of another module is awaited (R95). -/
def State.overRange (s : State) (i : Instr) (d a b : Reg) (f : List Nat → State → State) : State :=
  let n := (s.rx b).toNat
  if n = 0 then s.status d stOK
  else
    let va := (s.rx a).toNat
    s.whenMapped i (va - va % 128) ((va + n + 127) / 128 * 128 - (va - va % 128)) fun t =>
      match t.lineRange va n with
      | none => t.status d stBADARG
      | some ls => f ls t

/-- CLEAN (R380): performed before a later FENCE REL or FULL completes. -/
def execClean (d a b : Reg) (s : State) : Out :=
  .next (s.overRange (.clean d a b) d a b fun ls s =>
    ({ s with maint := s.maint ++ [{ agent := s.agent, inval := false, lines := ls }] } : State).status d stOK)

/-- INVAL (R380): performed before a later FENCE completes. -/
def execInval (d a b : Reg) (s : State) : Out :=
  .next (s.overRange (.inval d a b) d a b fun ls s =>
    ({ s with maint := s.maint ++ [{ agent := s.agent, inval := true, lines := ls }] } : State).status d stOK)

/-- One line of FLUSH. [DESIGN CHOICE, log 80] -/
def State.flushLine (s : State) (a l : Nat) : State :=
  let s := (s.writeback a l).dropCopy a l
  { s with icache := mset none s.icache (ckey a l) none }

/-- FLUSH (R380, R82). -/
def execFlush (d a b : Reg) (s : State) : Out :=
  .next (s.overRange (.flush d a b) d a b fun ls s => ((ls.foldl (fun s l => s.maintFor s.agent l) s) |> fun t =>
    (ls.foldl (fun t l => t.flushLine t.agent l) t).status d stOK))

/-! ### LOCK and UNLOCK (R84) -/

def State.pinOf (s : State) (l : Nat) : Option Nat := mget none s.pins l

/-- Lines pinned in the set of a line. [DESIGN CHOICE, log 35] -/
def pinsIn (pins : SMap (Option Nat)) (l : Nat) : Nat := (pins.filter fun e => l2SetOf e.1 == l2SetOf l).length

/-- A line is brought into its slice and pinned there, so that no later line of the range drives it out (R84). -/
def State.pinLine (s : State) (c l : Nat) : State :=
  let t := s.touch l
  { t with pins := mset none t.pins l (some c) }

/-- LOCK (R84, R380). [DESIGN CHOICE, log 35; DEDUCED, log 59] -/
def execLock (d a b : Reg) (s : State) : Out :=
  .next (s.overRange (.lock d a b) d a b fun ls s =>
    if ls.any fun l => !isHbm (128 * l) then s.status d stBADARG
    else
      let fresh := (ls.filter fun l => (s.pinOf l) != some s.ctxId).eraseDups
      if (s.ctx s.ctxId).quota < s.used s.ctxId + fresh.length then s.status d stQUOTA
      else if fresh.any fun l => (s.pinOf l).isSome then s.status d stBUSY
      else
        let pins := fresh.foldl (fun m l => mset none m l (some s.ctxId)) s.pins
        if fresh.any fun l => 12 < pinsIn pins l then s.status d stNOSPACE
        else ((fresh.foldl (fun t l => t.pinLine s.ctxId l) s).status d stOK))

/-- UNLOCK (R84, R380). -/
def execUnlock (d a b : Reg) (s : State) : Out :=
  .next (s.overRange (.unlock d a b) d a b fun ls s =>
    if ls.any fun l => (s.pinOf l) != some s.ctxId then s.status d stBADARG
    else ({ s with pins := ls.foldl (fun m l => mset none m l none) s.pins } : State).status d stOK)

/-! ### Handover of host ranges (R98, R99, R381) -/

/-- Every device copy of a line is discarded, L2's and every private data cache's (R98); an instruction cache keeps what it
fetched until FLUSH (R82). [DESIGN CHOICE, log 80] -/
def State.discardLine (s : State) (l : Nat) : State :=
  let s := (s.holders l).foldl (fun s a => s.dropCopy a l) s
  (s.setL2 l none).setDir l Dir.reset

/-- Every dirty device copy of a line goes to memory first (R98). -/
def State.returnLine (s : State) (l : Nat) : State :=
  let s := s.drain l none
  let s := (s.holders l).foldl (fun s a => s.writeback a l) s
  (s.l2Clean l).discardLine l

/-- The device's half of a handover over physical ranges: OP 1 TO_DEVICE, 2 TO_HOST. [DESIGN CHOICE, log 80] -/
def State.handover (s : State) (op : Nat) (pas : List (Nat × Nat)) : State :=
  (rangeLines pas).foldl (fun s l => if op = 1 then s.discardLine l else s.returnLine l) s

/-- HOVER (R381). -/
def execHover (d a b c : Reg) (s : State) : Out :=
  let va := (s.rx a).toNat
  let n := (s.rx b).toNat
  let op := (s.rx c).toNat % 4
  if op = 0 ∨ op = 3 ∨ n = 0 ∨ n % 65536 ≠ 0 ∨ va % 65536 ≠ 0 then .next (s.status d stBADARG)
  else
    .next (s.whenMapped (.hover d a b c) va n fun s => match s.rangesOf s.agent s.ctxId (fun _ => true) va n with
      | none => s.status d stRANGE
      | some rs =>
        if rs.any fun (p, _) => !isHost p then s.status d stRANGE
        else if 4 ≤ (s.hovers.filter fun h => h.die == s.who.die && h.n == s.who.n).length then s.status d stBUSY
        else
          let h : Hover := { ctx := s.ctxId, die := s.who.die, n := s.who.n, op := op, va := va, len := n, pas := rs,
                             tag := (s.rx c) >>> 8 }
          ({ s with hovers := s.hovers ++ [h] } : State).status d stOK)

/-- HOVER_DONE (R381): handover idx in order of issue completes. R381 names no source of the record: it is the yard controller's, SCLS 3.
[DESIGN CHOICE, log 105] -/
def execHoverDone (idx : Nat) (s : State) : Out :=
  match s.hovers[idx]? with
  | none => .next s
  | some h =>
    let t := s.handover h.op h.pas
    let r := mkRec 0x22 stOK h.die 3 0 0 h.tag (BitVec.ofNat 64 h.va) (BitVec.ofNat 64 h.len)
    .next (({ t with hovers := t.hovers.eraseIdx idx } : State).postOst h.die h.n h.ctx r)

/-! ### Kick commands (R98, R99) -/

/-- The host window's ranges behind a kick command's virtual range, or none where it leaves the window or is not mapped. -/
def State.kickRanges (s : State) (ctx va n : Nat) : Option (List (Nat × Nat)) :=
  match s.rangesOf (agentYard 0) ctx (fun _ => true) va n with
  | none => none
  | some rs => if rs.any fun (p, _) => !isHost p then none else some rs

/-- HKCMD with an OP starts a handover, or sets LAST; tables that are away are awaited (R95). [DEDUCED, log 28] -/
def State.kick (s : State) (func ctx op : Nat) : State :=
  let f := s.fn func
  let last (st : Nat) : State := s.setFn func { f with hklast := st }
  if !s.pf.ready then s
  else if f.hkbusy then last stBUSY
  else if f.hklen = 0 ∨ !(s.ctx ctx).valid ∨ (s.ctx ctx).func ≠ func then last stBADARG
  else
    let va := f.hkaddr.toNat
    let n := f.hklen.toNat * 65536
    if s.tablesAway (agentYard 0) ctx va n then
      s.setFn func { f with hkbusy := true, hkwant := some (va, n), hkop := op, hkctx := ctx }
    else
      let t := s.walkRange (agentYard 0) ctx va n
      match s.kickRanges ctx va n with
      | none => t.setFn func { f with hklast := stRANGE }
      | some rs => t.setFn func { f with hkbusy := true, hkpas := rs, hkop := op, hkctx := ctx }

/-- TO_DEVICE (R98). -/
def execToDevice (func ctx : Nat) (s : State) : Out := .next (s.kick func ctx 1)
/-- TO_HOST (R98). -/
def execToHost (func ctx : Nat) (s : State) : Out := .next (s.kick func ctx 2)

/-- The vector of the handover event: that of HOVER_DONE's kind in the context of the command (R98, R158, R181). -/
def handoverKind : Nat := 0x22

/-- KICK_DONE (R99): the vector is the one of the command's context (R158). A command whose tables were away first finds its
ranges. [DEDUCED, log 28] -/
def execKickDone (func : Nat) (s : State) : Out :=
  let f := s.fn func
  if !f.hkbusy then .next s
  else if let some (va, n) := f.hkwant then
    if s.tablesAway (agentYard 0) f.hkctx va n then .next s
    else
      let g := { f with hkwant := none }
      let t := s.walkRange (agentYard 0) f.hkctx va n
      match s.kickRanges f.hkctx va n with
      | none => .next (t.setFn func { g with hkbusy := false, hkop := 0, hkctx := 0, hklast := stRANGE })
      | some rs => .next (t.setFn func { g with hkpas := rs })
  else
    let t := (s.handover f.hkop f.hkpas).setFn func { f with hkbusy := false, hkpas := [], hkop := 0, hkctx := 0, hklast := stOK }
    .next (t.raise func handoverKind (t.vector f.hkctx handoverKind))

/-! ### Steps of the homes and the caches -/

/-- HOME_ACCESS (R83): an agent of the device or beyond it reads or writes bytes of a line at its home.
[DESIGN CHOICE, log 18] -/
def execHomeAccess (agent pa len : Nat) (wr : Option HomeStore) (s : State) : Out :=
  let l := pa / 128
  if 128 < pa % 128 + len ∨ s.pageAway pa then .next s
  else
    match wr with
    | none => .next (s.engineLine l)
    | some w =>
      let t := s.engineLine l
      let m := byteMask (pa % 128) len
      if s.deltaFull l ∨ w.bytes.length ≠ len then .next s
      else if t.writeBad l m ≠ 0 then .next (t.noteBad l (t.lineBad l))
      else .next (((t.homePut agent l (pa % 128) w.bytes w.split).noteShadow l m).pageWrite pa w.split)

/-- LINE_RECALL (R86). -/
def execLineRecall (line : Nat) (s : State) : Out := .next (s.recall line)

/-- DRAIN_REQUEST (R90): the releaser on a line writes back its dirty lines. [DESIGN CHOICE, log 13] -/
def execDrainRequest (line agent : Nat) (s : State) : Out :=
  match (s.dirOf line).releases.find? fun r => r.agent == agent with
  | none => .next s
  | some r =>
    let t := s.drainOne r
    .next (t.setDir line { t.dirOf line with releases := (t.dirOf line).releases.map fun x =>
      if x.agent == agent then { x with drained := true } else x })

/-- DRAIN_ACK (R90): a drained releaser's record is cleared. [DESIGN CHOICE, log 13] -/
def execDrainAck (line agent : Nat) (s : State) : Out :=
  .next (s.setDir line { s.dirOf line with releases := (s.dirOf line).releases.filter fun r =>
    !(r.agent == agent && r.drained) })

/-- WRITEBACK (R437): a dirty line of an agent is merged at its home, and stays owned and clean. -/
def execWriteback (agent line : Nat) (s : State) : Out := .next (s.writeback agent line)

/-- EVICTION (R412, R84): a private copy, or the L2 copy of a line that is not pinned and that no private cache owns. -/
def execEviction (agent : Option Nat) (line : Nat) (s : State) : Out :=
  match agent with
  | some a => .next (((s.writeback a line).dropCopy a line).splitReturn line)
  | none => if (s.pinOf line).isSome then .next s else .next (s.evictL2 line)

/-- LEASE_EXPIRY (R87): a leased copy whose lease has run out leaves its cache. -/
def execLeaseExpiry (agent line : Nat) (s : State) : Out :=
  match s.cacheOf agent line with
  | some c =>
    if !c.owned && Config.leaseOst ≤ (s.cycle - c.since).toNat then .next (s.setCache agent line none) else .next s
  | none => .next s

/-- BACKGROUND_SWEEP (R93): a dirty line is written back and stays owned and clean. [DESIGN CHOICE, log 57] -/
def execBackgroundSweep (agent line : Nat) (s : State) : Out := .next ((s.writeback agent line).splitReturn line)

/-- Lines that have been dirty for the whole of the interval of R93 are written back. [DESIGN CHOICE, log 57] -/
def State.sweepDue (s : State) : State :=
  (s.caches.filterMap fun (k, c) =>
    match c with
    | some x => if x.mask ≠ 0 && 2 * Config.sweep ≤ (s.cycle - x.since).toNat then some k else none
    | none => none).foldl (fun s k => (s.writeback (k / 2 ^ 46) (k % 2 ^ 46)).splitReturn (k % 2 ^ 46)) s

/-! ### Errors and scrubbing (R105, R106) -/

/-- PATROL_SCRUB (R106): a line is read at its home; a corrected error is counted, and the value stays. An error that any other
read corrects shows nothing else (R105), and is this step too. [DESIGN CHOICE, log 88] -/
def execPatrolScrub (line : Nat) (fixed : Bool) (s : State) : Out :=
  .next (if fixed && isHbm (128 * line) then s.count (homeOf (128 * line) / 64) 0 1 else s)

/-- L2_SCRUB (R106), and a correction by any other read of the slice (R105). [DESIGN CHOICE, log 88] -/
def execL2Scrub (line : Nat) (fixed : Bool) (s : State) : Out :=
  .next (if fixed && (s.l2Of line).isSome then s.count (homeOf (128 * line) / 64) 1 1 else s)

/-- PE_SRAM_SCRUB (R42, R105): the scrub of a free stall or of a pen load, or ECC on a read in a running pen, corrects an error;
an absent stall has no SRAM in use (R13). [DESIGN CHOICE, log 88] -/
def execPeSramScrub (die stall : Nat) (fixed : Bool) (s : State) : Out :=
  .next (if fixed && mget Stall.free s.stalls (die * 128 + stall) != .absent then s.count die 2 1 else s)

/-- UNCORRECTABLE_ERROR (R105): a line is poisoned, in HBM, in its L2 slice, in the L1 part or data cache of an agent, or in the SRAM of a
PE, by 256-byte vector of its scratchpad, or from 384 on by row of its weight store. [DESIGN CHOICE, log 88] -/
def execUncorrectableError (place : ErrorPlace) (s : State) : Out :=
  .next (match place with
    | .memory line => ({ s with poison := mset false s.poison line true } : State).count (homeOf (128 * line) / 64) 3 1
    | .l2 line =>
      match s.l2Of line with
      | some c => (s.setL2 line (some { c with pois := true })).count (homeOf (128 * line) / 64) 3 1
      | none => s
    | .copy a line =>
      match s.cacheOf a line with
      | some c => (s.setCache a line (some { c with bad := true })).count (a / 4096) 3 1
      | none => s
    | .sram die pen pe v =>
      let k := penKey die pen
      (s.setPe k pe { s.pe k pe with ecc := mset false (s.pe k pe).ecc v true }).count die 3 1)

/-! ### Pages between modules (R95-R97) -/

/-- PAGE_REQUEST (R95): a peer reads or writes a page of this module's HBM; while another module holds the page the request waits
for its hand-over, behind those before it, accesses of this module's ostlers among them. [DESIGN CHOICE, log 18] -/
def execPageRequest (peer page : Nat) (write : Bool) (s : State) : Out :=
  let wait : State := { s with pageReqs := s.pageReqs ++ [{ page := page, own := false, who := peer, write := write }] }
  if s.pageReqs.any fun r => r.page == page && s.stands r then .next wait
  else
    match s.page page with
    | .excl n => .next (if n = peer then s else wait)
    | _ => .next (s.servePage peer page write)

/-- The lines of a page with a copy in L2. -/
def State.l2Page (s : State) (page : Nat) : List Nat := s.l2.filterMap fun (l, _) => if l / 512 = page then some l else none

/-- A page leaves this module (R96): every line is drained and recalled, dirty lines return to the page's home, and no copy
stays. -/
def State.leavePage (s : State) (page : Nat) : State :=
  let t := s.drainPage page
  (t.l2Page page).foldl (fun t l => (t.l2Clean l).setL2 l none) t

/-- PAGE_HANDOVER (R96). Of a page homed here, the module that held it returns its dirty lines, the page is HOME, and the
requests that waited are served in the order they came; a page of a peer's window leaves this module.
[DESIGN CHOICE, log 18] -/
def execPageHandover (page : Nat) (lines : List (Nat × Line)) (s : State) : Out :=
  if isPeer (65536 * page) then .next (s.leavePage page)
  else
    match s.page page with
    | .excl _ =>
      let t := (lines.filter fun e => e.1 / 512 == page).foldl (fun s (l, d) =>
        ((s.l2Room l).homeMerge l d (BitVec.allOnes 128) false).noteShadow l (BitVec.allOnes 128)) s
      let t := t.setPage page .home
      .next (t.serveWaiting page t.pageReqs)
    | _ => .next (s.serveWaiting page s.pageReqs)

/-- SPLITW_MERGE (R97): masked bytes a peer returns are merged into the home's copy. -/
def execSplitwMerge (peer line : Nat) (data : Line) (mask : BitVec 128) (s : State) : Out :=
  let t := ((s.l2Room line).homeMerge line data mask true).noteShadow line mask
  match s.page (line / 512) with
  | .excl _ => .next s
  | .home => .next (t.setPage (line / 512) (.shared [peer]))
  | .shared l => .next (t.setPage (line / 512) (.shared (joinSharers l peer)))

end Sys2Proof.Machine
end

