-- ==== Sys2Proof/Machine/Bar.lean ====
section
/-! DEFINITION. What a host writes and reads in a function's BAR0 (R99, R136, R158, R170, R189, R425-R429, R435), the MSI-X
masks, and the telemetry snapshot (R188). Before READY every block but DEVSTS reads zero and ignores writes (R436). -/

namespace Sys2Proof.Machine

/-- A write that acts only once bring-up is complete. -/
def State.whenReady (s : State) (f : State) : State := if s.pf.ready then f else s

/-! ### Event ring and MSI-X (R158) -/

/-- HETAIL (R158). -/
def execHetail (func : Nat) (value : W64) (s : State) : Out :=
  .next (s.whenReady (s.setFn func { s.fn func with hetail := value.toNat % 2 ^ 16 }))

/-- A vector is masked. [PRESUMED, log 21] -/
def State.maskVector (s : State) (func vec : Nat) : State :=
  s.setFn func { s.fn func with mask := mset true (s.fn func).mask vec true }

/-- MSIX_UNMASK (R158): a pending message is sent once; its KIND is no longer known. [PRESUMED, log 21] -/
def execMsixUnmask (func vec : Nat) (s : State) : Out :=
  let f := s.fn func
  let t := s.setFn func { f with mask := mset true f.mask vec false, pend := mset false f.pend vec false }
  .next (if mget false f.pend vec then { t with msgs := t.msgs ++ [(func, vec, 0)] } else t)

/-! ### Translation-cache invalidation (R170) -/

/-- A translation of a context that overlaps a range; a length of 0 is the whole context. -/
def Tlb.meets (t : Tlb) (c va n : Nat) : Bool := t.ctx == c && (n == 0 || (decide (t.va < va + n) && decide (va < t.va + t.size)))

/-- A job's JCB lies in a range of a context; a length of 0 is the whole context. -/
def Job.meets (j : Job) (c va n : Nat) : Bool :=
  jrCtx j.jr == c && (n == 0 || (decide (jrJcb j.jr < va + n) && decide (va < jrJcb j.jr + 64)))

/-- Every translation cache drops what overlaps a range, and a job the translation of its JCB, which is made anew when the job next
needs it (R170); a whole-context invalidation lets walks see a new ROOT (R181). [DEDUCED, log 37, 70] -/
def State.dropTlb (s : State) (c va n : Nat) : State :=
  let s := { s with tlb := (s.tlb.map fun (a, l) => (a, l.filter fun t => !t.meets c va n)).filter fun e => e.2 != []
                    jobs := s.jobs.map fun j => if j.meets c va n then { j with jcbPa := none } else j }
  if n = 0 then { s with ctxs := mset Ctx.reset s.ctxs c { s.ctx c with live := (s.ctx c).root } } else s

/-- A context is bound to a function. -/
def State.boundCtx (s : State) (func c : Nat) : Bool := (s.ctx c).valid && (s.ctx c).func == func

/-- HTCMD (R170). [DEDUCED, log 28; DESIGN CHOICE, log 32] -/
def State.htcmd (s : State) (func ctx : Nat) : State :=
  let f := s.fn func
  if f.htbusy then s.setFn func { f with htlast := stBUSY }
  else if !s.boundCtx func ctx then s.setFn func { f with htlast := stBADARG }
  else (s.dropTlb ctx f.htaddr.toNat (f.htlen.toNat * 65536)).setFn func { f with htbusy := true, htctx := ctx }

def execHtcmd (func ctx : Nat) (s : State) : Out := .next (s.whenReady (s.htcmd func ctx))

/-- A pending CLEAN or INVAL of an ostler of the context, which holds the lines its translations gave (R380, R170). -/
def State.maintOf (s : State) (c : Nat) (m : Maint) : Bool :=
  (s.ostler (m.agent / 4096 * 32 + m.agent % 4096)).ctx == some c

/-- No access of a context that holds translations is outstanding: a packet of a stream with lines still to write, and a chunk of this
module that its home has not acknowledged, among them. [DESIGN CHOICE, log 32] -/
def State.accessesDone (s : State) (c : Nat) : Bool :=
  (s.progs.all fun (_, g) => g.ctx != c || (match g.xfer with
    | some x => x.pend.isNone
    | none => true)) &&
  (s.arrs.all fun a => match a.slot with
    | some k => (s.prog k).ctx != c
    | none => true) &&
  (s.ost.all fun (_, o) => o.ctx != some c || (match o.wait with
    | some w => w.todo == []
    | none => true)) &&
  (s.maint.all fun m => !s.maintOf c m) && (s.fns.all fun (_, f) => !(f.hkbusy && f.hkctx == c)) &&
    (s.pubs.all fun p => p.ctx != c) &&
  (s.pes.all fun (k, p) => (s.pen (k / 2048)).ctx != c || p.irr.all Irr.ready) && (s.nvme.all fun x => x.ctx != c) &&
    (s.offl.all fun x => x.ctx != c) && (s.combs.all fun x => x.ctx != c) && (s.hovers.all fun x => x.ctx != c) &&
    s.merges.all fun x => x.ctx != c

/-- HTCMD_DONE (R170). [DESIGN CHOICE, log 32] -/
def execHtcmdDone (func : Nat) (s : State) : Out :=
  let f := s.fn func
  if f.htbusy && s.accessesDone f.htctx then .next (s.setFn func { f with htbusy := false, htlast := stOK }) else .next s

/-! ### The context window (R427-R429) -/

def State.cwLast (s : State) (st : Nat) : State := { s with pf := { s.pf with cwlast := st } }

/-- A context has a running ostler, a placed pen, a restore entry or a queued job (R428). -/
def State.ctxInUse (s : State) (c : Nat) : Bool :=
  (s.ost.any fun (_, o) => o.run == .running && o.ctx == some c) || (s.pens.any fun (_, p) => p.valid && p.ctx == c) ||
    s.jobs.any fun j => jrCtx j.jr == c && j.queued

def State.setCtx (s : State) (c : Nat) (x : Ctx) : State := { s with ctxs := mset Ctx.reset s.ctxs c x }

/-- The context with an item stored, or the status that refuses it (R428, R181). -/
def State.cwItem (s : State) (c item v : Nat) : Except Nat Ctx :=
  let x := s.ctx c
  let field (ok : Bool) (y : Ctx) : Except Nat Ctx := if ok then .ok y else .error stBADARG
  let pool (y : Ctx) : Except Nat Ctx :=
    if v % 2 ^ 21 ≠ 0 ∨ 2 ^ 56 ≤ v then .error stBADARG else if y ≠ x ∧ s.areas c ≠ [] then .error stBUSY else .ok y
  if 16 ≤ item ∧ item < 32 then field (v < 2 ^ 12) { x with msix := mset 0 x.msix (item - 16) v }
  else if 1 ≤ item ∧ item ≤ 4 then field (v < 2 ^ 32) { x with age := mset 0 x.age (item - 1) v }
  else match item with
    | 0 =>
      let y : Ctx := { x with valid := bit v 0, func := bits v 6 1, tcap := bits v 8 7 }
      if 2 ^ 9 ≤ v then .error stBADARG
      else if ((x.valid && !y.valid) || x.func != y.func) && s.ctxInUse c then .error stBUSY
      else .ok y
    | 5 => field (v < 2 ^ 32) { x with quota := v }
    | 6 => field (v < 2 ^ 52 && v % 2 ^ 20 == 0) { x with root := v }
    | 7 => field (v < 2 ^ 56) { x with otbase := v }
    | 8 => field (v ≤ 65536) { x with otn := v }
    | 9 => .ok { x with nvqp := BitVec.ofNat 64 v }
    | 10 => field (v < 2 ^ 32) { x with qosw := BitVec.ofNat 32 v }
    | 11 => pool { x with poolBase := v }
    | 12 => pool { x with poolLen := v }
    | _ => .error stBADARG

/-- A PF write of CWDATA. [DEDUCED, log 28] -/
def State.cwdata (s : State) (value : W64) : State :=
  let c := bits s.pf.cwsel.toNat 7 0
  match s.cwItem c (bits s.pf.cwsel.toNat 15 8) value.toNat with
  | .error st => s.cwLast st
  | .ok x => (s.setCtx c x).cwLast stOK

/-- CWDATA (R428). -/
def execCwdata (value : W64) (s : State) : Out := .next (s.whenReady (s.cwdata value))

/-- Free values in x1..x31 (R429, R242). [DESIGN CHOICE, log 8] -/
def State.freeRegs (s : State) : SMap W64 × State :=
  (iter (fun i m => mset 0 m (i + 1) (Config.freeReg (s.freeCtr + i))) 31 [], { s with freeCtr := s.freeCtr + 31 })

/-- An ostler of a context with its CSRs at their reset values and its queue empty; its x registers hold no defined value, and its count
of appends goes on, as the reset R153 counts from is taken to be the module's. [DESIGN CHOICE, log 8, 98] -/
def State.bootOstler (s : State) (k c : Nat) : State :=
  let (x, t) := s.freeRegs
  let o := s.ostler k
  t.setOstler k { Ostler.reset with x := x, pc := o.pc, run := o.run, ctx := some c, pens := o.pens, posters := o.posters,
                                    logSeq := o.logSeq, tier := BitVec.ofNat 64 (s.ctx c).tcap }

/-- The DIE, OST and CTX fields of CWOST. -/
def cwostOf (die n ctx : Nat) : W64 := BitVec.ofNat 64 (die % 8 + (n % 32) * 8 + (ctx % 256) * 256)

/-- A write of CWOST (R427, R429). [DEDUCED, log 28] -/
def State.cwost (s : State) (die n ctx op : Nat) : State :=
  let s := { s with pf := { s.pf with cwost := cwostOf die n ctx } }
  let k := ostKey (die % 8) (n % 32)
  let o := s.ostler k
  if op = 0 ∨ op = 3 then s.cwLast stBADARG
  else if s.pf.cwbusy then s.cwLast stBUSY
  else if op = 1 then
    if o.run = .running then s.cwLast stBUSY
    else if !(s.ctx (ctx % 256)).valid then s.cwLast stBADARG
    else
      let t := s.bootOstler k (ctx % 256)
      (t.setOstler k { t.ostler k with run := .running, pc := s.pf.cwpc }).cwLast stOK
  else if o.run = .running then
    (s.setOstler k { o with stopReq := true }).cwLast stOK |> fun t => { t with pf := { t.pf with cwbusy := true } }
  else s.cwLast stOK

/-- CWOST_START (R429). -/
def execCwostStart (die n ctx : Nat) (s : State) : Out := .next (s.whenReady (s.cwost die n ctx 1))
/-- CWOST_STOP (R429). -/
def execCwostStop (die n : Nat) (s : State) : Out := .next (s.whenReady (s.cwost die n (((s.ostler (ostKey (die % 8) (n % 32))).ctx.getD 0)) 2))

/-- An ostler stops at an instruction boundary, as HALT does (R429, R295). -/
def State.stopNow (s : State) (k : Nat) : State :=
  let o := s.ostler k
  if o.stopReq && o.wait.isNone then
    { s.setOstler k { o with stopReq := false, run := if o.run = .running then .halted else o.run } with
      pf := { s.pf with cwbusy := false } }
  else s

/-- CWOST_STOP_DONE (R429). -/
def execCwostStopDone (die n : Nat) (s : State) : Out := .next (s.stopNow (ostKey die n))

/-! ### Attestation (R435) -/

/-- A PF write of ATADDR. [DEDUCED, log 28] -/
def State.ataddr (s : State) (value : W64) : State :=
  if s.pf.atbusy then { s with pf := { s.pf with atlast := stBUSY } }
  else if value.toNat % 4096 ≠ 0 then { s with pf := { s.pf with ataddr := value, atlast := stBADARG } }
  else { s with pf := { s.pf with ataddr := value, atbusy := true } }

/-- ATADDR (R435). -/
def execAtaddr (value : W64) (s : State) : Out := .next (s.whenReady (s.ataddr value))

/-- The report's first 160 bytes, over a nonce. [DESIGN CHOICE, log 22] -/
def reportHead (nonce : List Byte) : List Byte :=
  toBytes 4 0x54414D4E ++ toBytes 4 1 ++ toBytes 8 Config.serial.toNat ++ toBytes 48 Config.fwHash.toNat ++ nonce ++
    toBytes 48 Config.idHash.toNat

/-- ATTESTATION_DONE (R435). [DESIGN CHOICE, log 22] -/
def execAttestationDone (s : State) : Out :=
  if !s.pf.atbusy then .next s
  else
    let a := hostBase + s.pf.ataddr.toNat
    let h := reportHead (Memory.read s.mem a 48)
    let r := h ++ toBytes 96 (Config.sign (BitVec.ofNat 1280 (ofBytes h))).toNat
    .next { s with mem := Memory.write s.mem a r, pf := { s.pf with atbusy := false, atlast := stOK } }

/-! ### Register writes and reads (R425) -/

/-- A field of an address register: bits [55:lo]. -/
def addrField (v : W64) (lo : Nat) : W64 := BitVec.ofNat 64 (bits v.toNat 55 lo * 2 ^ lo)

/-- A host write of the register at an offset; MSI-X entry v has its vector control at 0x10000 + 16v + 12.
[PRESUMED, log 21] -/
def State.barWrite (s : State) (func off : Nat) (v : W64) : State :=
  let f := s.fn func
  let n := v.toNat
  let pf (y : State) : State := if func = 0 then y else s
  if 0x10000 ≤ off then (if off % 16 = 12 ∧ off < 0x18000 ∧ bit n 0 then s.maskVector func ((off - 0x10000) / 16) else s)
  else match off with
    | 0x200 => s.setFn func { f with hkaddr := addrField v 16 }
    | 0x208 => s.setFn func { f with hklen := BitVec.ofNat 64 (n % 2 ^ 32) }
    | 0x210 => if n % 4 = 0 ∨ n % 4 = 3 then s.setFn func { f with hklast := if f.hkbusy then stBUSY else stBADARG }
      else s.kick func (bits n 9 2) (n % 4)
    | 0x300 => s.setFn func { f with hladdr := addrField v 7 }
    | 0x308 => s.hlcmd func (n % 8) (bits n 10 3)
    | 0x320 => s.setFn func { f with hebase := BitVec.ofNat 64 (bits n 63 6 * 64) }
    | 0x328 => s.setFn func { f with hesize := if 6 ≤ n % 32 ∧ n % 32 ≤ 16 then n % 32 else 6 }
    | 0x338 => s.setFn func { f with hetail := n % 2 ^ 16 }
    | 0x340 => s.setFn func { f with htaddr := addrField v 16 }
    | 0x348 => s.setFn func { f with htlen := BitVec.ofNat 64 (n % 2 ^ 32) }
    | 0x350 => s.htcmd func (n % 256)
    | 0x400 => pf { s with pf := { s.pf with tmsel := BitVec.ofNat 64 (n % 2 ^ 7) } }
    | 0x500 => pf { s with pf := { s.pf with cwsel := BitVec.ofNat 64 (n % 2 ^ 16) } }
    | 0x508 => pf (s.cwdata v)
    | 0x510 => pf (s.cwost (n % 8) (bits n 7 3) (bits n 15 8) (bits n 17 16))
    | 0x518 => pf { s with pf := { s.pf with cwpc := addrField v 2 } }
    | 0x600 => pf (s.ataddr v)
    | _ => s

/-- REGISTER_WRITE (R425). -/
def execRegisterWrite (func off : Nat) (value : W64) (s : State) : Out := .next (s.whenReady (s.barWrite func off value))

/-- BUSY and LAST of a status register. -/
def stsBits (busy : Bool) (last : Nat) : W64 := BitVec.ofNat 64 (b2n busy + last % 16 * 256)

/-- The item CWDATA reads (R427, R428). -/
def Ctx.item (x : Ctx) (item : Nat) : W64 :=
  if 16 ≤ item ∧ item < 32 then BitVec.ofNat 64 (mget 0 x.msix (item - 16))
  else if 1 ≤ item ∧ item ≤ 4 then BitVec.ofNat 64 (mget 0 x.age (item - 1))
  else match item with
    | 0 => BitVec.ofNat 64 (b2n x.valid + x.func * 2 + x.tcap * 128)
    | 5 => BitVec.ofNat 64 x.quota
    | 6 => BitVec.ofNat 64 x.root
    | 7 => BitVec.ofNat 64 x.otbase
    | 8 => BitVec.ofNat 64 x.otn
    | 9 => x.nvqp
    | 10 => x.qosw.setWidth 64
    | 11 => BitVec.ofNat 64 x.poolBase
    | 12 => BitVec.ofNat 64 x.poolLen
    | _ => 0

/-- What a host reads at an offset (R425, R426); a read changes nothing. -/
def State.barRead (s : State) (func off : Nat) : W64 :=
  let f := s.fn func
  let pf (v : W64) : W64 := if func = 0 then v else 0
  if off = 0 then pf (BitVec.ofNat 64 (b2n s.pf.ready + 2 * b2n s.pf.fwfail + 16 * s.pf.stage))
  else if !s.pf.ready then 0
  else match off with
    | 0x200 => f.hkaddr
    | 0x208 => f.hklen
    | 0x218 => stsBits f.hkbusy f.hklast
    | 0x300 => f.hladdr
    | 0x310 => stsBits f.hlbusy f.hllast
    | 0x320 => f.hebase
    | 0x328 => BitVec.ofNat 64 f.hesize
    | 0x330 => BitVec.ofNat 64 f.hehead
    | 0x338 => BitVec.ofNat 64 f.hetail
    | 0x340 => f.htaddr
    | 0x348 => f.htlen
    | 0x358 => stsBits f.htbusy f.htlast
    | 0x400 => pf s.pf.tmsel
    | 0x408 => pf (mget 0 s.teleSnap (bits s.pf.tmsel.toNat 6 4 * 16 + bits s.pf.tmsel.toNat 3 0))
    | 0x410 => pf s.teleStamp
    | 0x500 => pf s.pf.cwsel
    | 0x508 => pf ((s.ctx (bits s.pf.cwsel.toNat 7 0)).item (bits s.pf.cwsel.toNat 15 8))
    | 0x510 => pf s.pf.cwost
    | 0x518 => pf s.pf.cwpc
    | 0x520 => pf (stsBits s.pf.cwbusy s.pf.cwlast)
    | 0x600 => pf s.pf.ataddr
    | 0x608 => pf (stsBits s.pf.atbusy s.pf.atlast)
    | _ => 0

/-! ### Telemetry (R188, R189) -/

/-- TELEMETRY_SNAPSHOT (R188). -/
def execTelemetrySnapshot (s : State) : Out := .next { s with teleSnap := s.tele, teleStamp := s.fcycle }

end Sys2Proof.Machine
end

