-- ==== Sys2Proof/Machine/Clause.lean ====
section
/-! DEFINITION. The clause banks (R68, R176, R185, R391-R402, R421, R422): their instructions, training and inference. -/

namespace Sys2Proof.Machine

/-! ### A bank and its fields (R68, R391, R392) -/

def bankKey (die b : Nat) : Nat := die * 4 + b

def State.bank (s : State) (k : Nat) : Bank := mget Bank.reset s.banks k
def State.setBank (s : State) (k : Nat) (b : Bank) : State := { s with banks := mset Bank.reset s.banks k b }

/-- The bank x(a) names, die*4 + bank; reserved bits are ignored. -/
def bankOf (v : W64) : Nat := v.toNat % 32

/-- C, P, F, T and NT of R392 and R68. -/
def Bank.classes (b : Bank) : Nat := bits b.kcfgr.toNat 17 12 + 1
def Bank.perClass (b : Bank) : Nat := bits b.kcfgr.toNat 11 0 + 1
def Bank.feats (b : Bank) : Nat := bits b.kcfgr.toNat 27 18 + 1
def Bank.thr (b : Bank) : Nat := bits b.kcfgr.toNat 43 28
def Bank.nt (b : Bank) : Nat := bits b.kcfgr.toNat 47 44

/-- Feedback runs or is queued. -/
def Bank.fbBusy (b : Bank) : Bool := b.fb || b.training.isSome || b.fbq != []
/-- KSTATE.INF: the inference path is in use. -/
def Bank.infBusy (b : Bank) : Bool := b.inf.isSome || b.vote.isSome
/-- KSTATE (R68). [DESIGN CHOICE, log 29] -/
def Bank.kstate (b : Bank) : W64 := BitVec.ofNat 64 (b2n b.infBusy + 2 * b2n b.fb + 4 * b2n b.cfgd)

def Bank.counter (b : Bank) (cell : Nat) : Byte := mget b.cbase b.counters cell
def Bank.setCounter (b : Bank) (cell : Nat) (v : Byte) : Bank := { b with counters := mset b.cbase b.counters cell v }

/-- The plane of the counters as they stand (R392). -/
def planeOf (m : SMap Byte) : SMap Bool := m.filterMap fun (k, v) => if 128 ≤ v.toNat then some (k, true) else none

/-! ### Clause outputs and class sums (R392) -/

/-- The used literals, ascending. -/
def Bank.literals (b : Bank) : List Nat := List.range b.feats ++ (List.range b.feats).map (· + 1024)

def litValue (x : Line) (l : Nat) : Bool := if l < 1024 then x.getLsbD l else !(x.getLsbD (l - 1024))

/-- Literal l is used. -/
def Bank.used (b : Bank) (l : Nat) : Bool := l % 1024 < b.feats

/-- out(c, X, mode). -/
def Bank.out (b : Bank) (plane : SMap Bool) (c : Nat) (x : Line) (train : Bool) : Bool :=
  let inc := plane.filterMap fun (k, v) => if v && k / 2048 == c && b.used (k % 2048) then some (k % 2048) else none
  if inc = [] then train else inc.all fun l => litValue x l

/-- sum(k, X, mode). -/
def Bank.sum (b : Bank) (plane : SMap Bool) (k : Nat) (x : Line) (train : Bool) : Int :=
  let v := iter (fun i (a : Int) =>
    if b.out plane (k * b.perClass + i) x train then (if (k * b.perClass + i) % b.perClass % 2 = 0 then a + 1 else a - 1) else a)
    b.perClass 0
  max (-(b.thr : Int)) (min v b.thr)

def Bank.sums (b : Bank) (plane : SMap Bool) (x : Line) : List Int :=
  (List.range b.classes).map fun k => b.sum plane k x false

/-- The class with the largest sum, the lowest on a tie. -/
def argMax : List Int → Nat
  | [] => 0
  | [_] => 0
  | a :: t => if t.all fun x => x ≤ a then 0 else argMax t + 1

/-! ### Feedback (R398, R185, R176) -/

/-- The clause-selection and cell draws. -/
def Bank.pick (b : Bank) (c : Nat) : Nat := bits (rng b.kseed (BitVec.ofNat 64 (b.kser * 2 ^ 24 + 0x800000 + c))).toNat 31 16
def Bank.cellDraw (b : Bank) (c l : Nat) : Nat := bits (rng b.kseed (BitVec.ofNat 64 (b.kser * 2 ^ 24 + c * 2048 + l))).toNat 31 16

/-- Fields of KFB's x(c). -/
def Sample.y (q : Sample) : Nat := bits q.ctl.toNat 5 0
def Sample.q (q : Sample) : Nat := bits q.ctl.toNat 11 6
def Sample.neg (q : Sample) : Bool := q.ctl.getLsbD 12
def Sample.evt (q : Sample) : Bool := q.ctl.getLsbD 13
def Sample.tag (q : Sample) : W64 := BitVec.ofNat 64 (bits q.ctl.toNat 63 16)

/-- Type and num of a clause for a sample, none where the clause receives no feedback. -/
def Bank.feedType (b : Bank) (q : Sample) (vy vq : Int) (c : Nat) : Option (Nat × Int) :=
  let pos := c % b.perClass % 2 = 0
  if c / b.perClass = q.y then some (if pos then 0 else 1, b.thr - vy)
  else if q.neg && c / b.perClass == q.q then some (if pos then 1 else 0, b.thr + vq)
  else none

/-- One cell of a selected clause. -/
def Bank.nudgeCell (b : Bank) (x : Line) (c type : Nat) (o : Bool) (l : Nat) : Bank :=
  let inc := mget false b.plane (c * 2048 + l)
  let e := (mget 0 b.nudge (b.nt * 16 + (type * 8 + b2n o * 4 + b2n (litValue x l) * 2 + b2n inc))).toNat
  let act := bits e 17 16
  let th := bits e 15 0
  if (act = 1 ∨ act = 2) ∧ (th = 0xFFFF ∨ b.cellDraw c l < th) then
    let v := (b.counter (c * 2048 + l)).toNat
    b.setCounter (c * 2048 + l) (BitVec.ofNat 8 (if act = 1 then min (v + 1) 255 else v - 1))
  else b

/-- Feedback of one sample on the counters, and how many clauses were selected; the plane stays the one of the last commit. -/
def Bank.feedback (b : Bank) (q : Sample) : Bank × Nat :=
  let vy := b.sum b.plane q.y q.x true
  let vq := b.sum b.plane q.q q.x true
  iter (fun c (r : Bank × Nat) =>
    match b.feedType q vy vq c with
    | none => r
    | some (type, num) =>
      if 65536 * num ≤ ((b.pick c * 2 * b.thr : Nat) : Int) then r
      else (b.literals.foldl (fun x l => x.nudgeCell q.x c type (b.out b.plane c q.x true) l) r.1, r.2 + 1))
    (b.classes * b.perClass) (b, 0)

/-- BANK_DONE (R149, R148). -/
def Bank.doneRec (b : Bank) (k st : Nat) (tag aux1 : W64) : EvRec :=
  mkRec 0x40 st (k / 4) 5 0 (k % 4) tag (BitVec.ofNat 64 b.kser) aux1

/-- SAMPLE_FEEDBACK (R398). -/
def execSampleFeedback (bank : Nat) (s : State) : Out :=
  let b := s.bank bank
  match b.training, b.fbq with
  | none, q :: t =>
    let (b', sel) := b.feedback q
    .next (s.setBank bank { b' with fb := true, fbq := t, training := some (q, s.fcycle.toNat + 4 + 2 * sel) })
  | _, _ => .next s

/-- A commit of the sample in training is due. -/
def State.commitDue (s : State) (k : Nat) : Bool :=
  match (s.bank k).training with
  | some (_, e) => e ≤ s.fcycle.toNat
  | none => false

/-- SAMPLE_COMMIT (R398, R399). -/
def execSampleCommit (bank : Nat) (s : State) : Out :=
  let b := s.bank bank
  match b.training with
  | none => .next s
  | some (q, _) =>
    if !s.commitDue bank then .next s
    else
      let ser := (b.kser + 1) % 2 ^ 40
      let b' : Bank := { b with plane := planeOf b.counters, planeSer := ser, kser := ser, training := none, fb := b.fbq != [] }
      let t := s.setBank bank b'
      .next (if q.evt then t.postOst q.die q.n (b.ctx.getD 0) (b'.doneRec bank stOK q.tag 0) else t)

/-! ### The instructions -/

/-- The bank of x(a) may be used by the issuer: bound to its context, or unbound where the instruction allows it (R391). -/
def State.bankOk (s : State) (k : Nat) (unbound : Bool) : Bool :=
  match (s.bank k).ctx with
  | some c => c == s.ctxId
  | none => unbound

/-- An instruction on a bank that is its issuer's (R391). -/
def State.onBank (s : State) (d a : Reg) (unbound : Bool) (f : Nat → State) : State :=
  let k := bankOf (s.rx a)
  if s.bankOk k unbound then f k else s.status d stBADARG

/-- The same, BUSY while feedback runs or is queued. -/
def State.onIdleBank (s : State) (d a : Reg) (unbound : Bool) (f : Nat → State) : State :=
  s.onBank d a unbound fun k => if (s.bank k).fbBusy then s.status d stBUSY else f k

/-- KCFG (R393, R68, R391). -/
def execKcfg (d a b : Reg) (s : State) : Out :=
  .next (s.onIdleBank d a true fun k =>
    let w := (s.rx b).toNat
    if (s.bank k).infBusy then s.status d stBUSY
    else if 4096 < (bits w 17 12 + 1) * (bits w 11 0 + 1) ∨ bits w 43 28 = 0 then s.status d stBADARG
    else (s.setBank k { s.bank k with kcfgr := BitVec.ofNat 64 (w % 2 ^ 48), cfgd := true, ctx := some s.ctxId }).status d stOK)

/-- KSEED (R394). -/
def execKseed (d a b c : Reg) (s : State) : Out :=
  .next (s.onIdleBank d a false fun k =>
    let x : Bank := { s.bank k with kseed := s.rx b, kser := 0 }
    let x : Bank := if (s.rx c).getLsbD 0 then { x with cbase := 127, counters := [], plane := [], planeSer := 0 } else x
    (s.setBank k x).status d stOK)

/-- Fields of KLD's and KST's x(c) (R395). -/
def kmWhat (v : W64) : Nat := v.toNat % 4
def kmSet (v : W64) : Nat := bits v.toNat 7 4
def kmRow (v : W64) : Nat := bits v.toNat 27 16
def kmRows (v : W64) : Nat := bits v.toNat 43 32 + 1

/-- The selection is one KLD or KST accepts. -/
def kmOk (v : W64) (load : Bool) : Bool :=
  kmWhat v == 0 || (kmWhat v == 1 && kmRow v + kmRows v ≤ 4096) || (kmWhat v == 2 && !load)

/-- A nudge set from its 64 bytes (R176). -/
def Bank.loadNudge (b : Bank) (set w : Nat) : Bank :=
  { b with nudge := iter (fun i m => mset 0 m (set * 16 + i) (BitVec.ofNat 32 ((w >>> (32 * i)) % 2 ^ 18))) 16 b.nudge }

/-- Counter rows from their bytes, with their plane bits and the serial of the plane as at a sample's commit (R395, R396, R422). -/
def Bank.loadRows (b : Bank) (row : Nat) (bytes : List Byte) : Bank :=
  bytes.zipIdx.foldl (fun x (v, i) =>
    { x.setCounter (row * 2048 + i) v with plane := mset false x.plane (row * 2048 + i) (decide (128 ≤ v.toNat)) })
    { b with planeSer := b.kser }

/-- The bytes KST stores (R395, R421). -/
def Bank.stored (b : Bank) (v : W64) : List Byte :=
  match kmWhat v with
  | 0 => (List.range 16).flatMap fun i => toBytes 4 (mget 0 b.nudge (kmSet v * 16 + i)).toNat
  | 1 => (List.range (2048 * kmRows v)).map fun i => b.counter (kmRow v * 2048 + i)
  | _ => toBytes 8 b.kcfgr.toNat ++ toBytes 8 b.kseed.toNat ++ toBytes 8 b.kser ++ toBytes 8 b.kstate.toNat

/-- KLD (R395). -/
def execKld (d a b c : Reg) (s : State) : Out :=
  .next (s.onIdleBank d a false fun k =>
    let v := s.rx c
    if !kmOk v true then s.status d stBADARG
    else
      match s.vread (agentBank (k / 4) (k % 4)) s.ctxId (s.rx b).toNat (if kmWhat v = 0 then 64 else 2048 * kmRows v) with
      | .fault _ _ t => t.status d stBADARG
      | .wait => s.waitOn (.kld d a b c) 1 []
      | .ok l t =>
        (t.setBank k (if kmWhat v = 0 then (t.bank k).loadNudge (kmSet v) (ofBytes l)
          else (t.bank k).loadRows (kmRow v) l)).status d stOK)

/-- The issuer's leased copies of a range are dropped (R359). -/
def State.dropRange (s : State) (ag c va n : Nat) : State :=
  match s.rangesOf ag c (fun _ => true) va n with
  | some rs => (rangeLines rs).foldl (fun s l => s.dropCopy ag l) s
  | none => s

/-- The last bytes l of a KST that writes total of them are written as far as pages and delta queues allow (R95, R117);
phase 2 holds what is left. [DESIGN CHOICE, log 29] -/
def State.kstGo (s : State) (d a b c : Reg) (total : Nat) (l : List Byte) : State :=
  let hold (t : State) (x : List Byte) : State := t.waitOn (.kst d a b c) 2 [(0, ofBytes x), (1, x.length), (2, total)]
  let va := (s.rx b).toNat
  if s.rangeAway s.agent s.ctxId va total then hold s l
  else
    match s.piecesOf s.agent s.ctxId true (va + (total - l.length)) l.length with
    | .error _ => s.status d stBADARG
    | .ok ps =>
      match s.push s.agent (packetPieces (splitRanges ps) l) with
      | (0, [], t) => (t.dropRange s.agent s.ctxId va total).status d stOK
      | (0, left, t) => hold t (left.flatMap fun e => e.2.2)
      | (_, _, t) => t.status d stBADARG

/-- KST (R395, R359): phase 2 goes on with what is left of its bytes. [DESIGN CHOICE, log 29] -/
def execKst (d a b c : Reg) (s : State) : Out :=
  let mark (n : Nat) : Nat := match s.cur.wait with
    | some w => mget 0 w.marks n
    | none => 0
  if s.phaseOf = 2 then .next (s.kstGo d a b c (mark 2) (toBytes (mark 1) (mark 0)))
  else .next (s.onIdleBank d a false fun k =>
    let v := s.rx c
    if !kmOk v false then s.status d stBADARG
    else
      let l := (s.bank k).stored v
      match s.vwrite s.agent s.ctxId (s.rx b).toNat l with
      | .fault _ _ t => t.status d stBADARG
      | .wait => if s.rangeAway s.agent s.ctxId (s.rx b).toNat l.length then s.waitOn (.kst d a b c) 1 []
        else s.kstGo d a b c l.length l
      | .ok _ t => (t.dropRange s.agent s.ctxId (s.rx b).toNat l.length).status d stOK)

/-- The 128-byte sample at an address, for a KINF or KFB: BADARG, ECC and CHECK as R359, R396 and R398 say. -/
def State.takeSample (s : State) (i : Instr) (d : Reg) (k : Nat) (va : Nat) (f : Line → State → State) : State :=
  if va % 128 ≠ 0 then s.status d stBADARG
  else
    match s.vread (agentBank (k / 4) (k % 4)) s.ctxId va 128 with
    | .fault c ad t => if c = cECC ∨ c = cCHECK then t.trap c (BitVec.ofNat 64 ad) else t.status d stBADARG
    | .wait => s.waitOn i 1 []
    | .ok l t => f (BitVec.ofNat 1024 (ofBytes l)) t

/-- KFB (R398). -/
def execKfb (d a b c : Reg) (s : State) : Out :=
  .next (s.onBank d a false fun k =>
    let x := s.bank k
    let q : Sample := { x := 0, ctl := s.rx c, die := s.who.die, n := s.who.n }
    if x.classes ≤ q.y ∨ x.classes ≤ q.q ∨ (q.neg && q.q == q.y) then s.status d stBADARG
    else if 8 ≤ x.fbq.length + (if x.training.isSome then 1 else 0) then s.status d stBUSY
    else s.takeSample (.kfb d a b c) d k (s.rx b).toNat fun l t =>
      (t.setBank k { t.bank k with fbq := (t.bank k).fbq ++ [{ q with x := l }] }).status d stOK)

/-- The sums of an inference may be written at x(c): aligned and writable, or x(c) = 0 (R396). -/
def State.sumsOk (s : State) (c : Reg) (k : Nat) : Bool :=
  let va := (s.rx c).toNat
  va == 0 || (va % 4 == 0 && s.writable va (4 * (s.bank k).classes))

/-- Their translations are made (R160, R170). -/
def State.sumsWalk (s : State) (c : Reg) (k : Nat) : State :=
  if (s.rx c).toNat = 0 then s else s.walkRange s.agent s.ctxId (s.rx c).toNat (4 * (s.bank k).classes)

/-- A table that maps them is away, which the KINF waits for (R95). -/
def State.sumsAway (s : State) (c : Reg) (k : Nat) : Bool :=
  let va := (s.rx c).toNat
  va % 4 == 0 && va != 0 && s.tablesAway s.agent s.ctxId va (4 * (s.bank k).classes)

/-- An inference of a KINF starts once the path is free and no commit is due in this fc; until then the sample it read
at issue waits with it (R396, R359). [DESIGN CHOICE, log 29] -/
def State.startKinf (s : State) (d a b c : Reg) (k : Nat) (x : Line) : State :=
  let bk := s.bank k
  if bk.infBusy || s.commitDue k then s.waitOn (.kinf d a b c) 2 [(0, x.toNat)]
  else
    (s.setBank k { bk with inf := some { x := x, plane := bk.plane, ser := bk.planeSer, start := s.fcycle, vote := false,
                                         die := s.who.die, n := s.who.n } }).waitOn (.kinf d a b c) 3 []

/-- KINF (R396): phase 2 waits for the path with its sample, 3 for its inference. [DESIGN CHOICE, log 29] -/
def execKinf (d a b c : Reg) (s : State) : Out :=
  match s.phaseOf with
  | 3 => .next s
  | 2 => .next (s.startKinf d a b c (bankOf (s.rx a)) (BitVec.ofNat 1024 (match s.cur.wait with
      | some w => mget 0 w.marks 0
      | none => 0)))
  | _ =>
    .next (s.onBank d a false fun k =>
      if s.sumsAway c k then s.waitOn (.kinf d a b c) 1 []
      else if (s.rx c).toNat % 4 ≠ 0 then s.status d stBADARG
      else
        let t := s.sumsWalk c k
        if !s.sumsOk c k then t.status d stBADARG
        else t.takeSample (.kinf d a b c) d k (s.rx b).toNat fun x t => t.startKinf d a b c k x)

/-- The KVOTE block (R397). -/
def voteOf (w : Nat) (die n ctx : Nat) : Vote :=
  { samples := bits w 63 0, total := bits w 95 64, out := bits w 191 128, tag := BitVec.ofNat 64 (bits w 255 192),
    done := 0, bad := none, die := die, n := n, ctx := ctx }

/-- KVOTE (R397). -/
def execKvote (d a b : Reg) (s : State) : Out :=
  .next (s.onBank d a false fun k =>
    let bk := s.bank k
    if bk.vote.isSome then s.status d stBUSY
    else
      match s.vread (agentBank (k / 4) (k % 4)) s.ctxId (s.rx b).toNat 32 with
      | .fault _ _ t => t.status d stBADARG
      | .wait => s.waitOn (.kvote d a b) 1 []
      | .ok l t =>
        let v := voteOf (ofBytes l) s.who.die s.who.n s.ctxId
        if v.samples % 128 = 0 ∧ v.out % 4 = 0 ∧ v.total ≤ 65536 ∧ (t.tablesAway t.agent t.ctxId v.samples (128 * v.total) ∨
            t.tablesAway t.agent t.ctxId v.out (4 * bk.classes * v.total)) then t.waitOn (.kvote d a b) 1 []
        else if v.samples % 128 ≠ 0 ∨ v.out % 4 ≠ 0 ∨ v.total = 0 ∨ 65536 < v.total then t.status d stBADARG
        else
          let t := (t.walkRange t.agent t.ctxId v.samples (128 * v.total)).walkRange t.agent t.ctxId v.out (4 * bk.classes * v.total)
          if (t.rangesOf t.agent t.ctxId (fun _ => true) v.samples (128 * v.total)).isNone ∨
              !(t.writable v.out (4 * bk.classes * v.total)) then t.status d stBADARG
          else (t.setBank k { t.bank k with vote := some v }).status d stOK)

/-- KSYNC (R400). -/
def execKsync (d a b : Reg) (s : State) : Out :=
  let k := bankOf (s.rx a)
  if s.phaseOf = 0 && !s.bankOk k false then .next (s.status d stBADARG)
  else if !((s.bank k).fbBusy || (s.bank k).infBusy) || s.rx b ≤ s.fcycle then .next (s.ret d (s.bank k).kstate)
  else .next (s.waitOn (.ksync d a b) 1 [])

/-- A KINF of another ostler that waits on a bank, with its destination (R401). -/
def Ostler.kinfOn (o : Ostler) (k : Nat) : Option Reg :=
  match o.wait with
  | some w =>
    match w.instr with
    | .kinf d a _ _ => if bankOf (if a = 0 then 0 else mget 0 o.x a.toNat) = k then some d else none
    | _ => none
  | none => none

/-- An ostler's waiting instruction completes with a status. -/
def Ostler.finish (o : Ostler) (d : Reg) (v : W64) : Ostler :=
  ({ o with x := if d = 0 then o.x else mset 0 o.x d.toNat v } : Ostler).commit

/-- Every KINF that waits on a bank returns BUSY. -/
def State.endKinfs (s : State) (k : Nat) : State :=
  s.ost.foldl (fun s (i, o) =>
    match o.kinfOn k with
    | some d => s.setOstler i (o.finish d (BitVec.ofNat 64 stBUSY))
    | none => s) s

/-- KCLR (R401). [DESIGN CHOICE, log 29] -/
def execKclr (d a : Reg) (s : State) : Out :=
  .next (s.onBank d a true fun k => ((s.endKinfs k).setBank k Bank.reset).status d stOK)

/-! ### Inferences (R396, R397) -/

/-- The int32 sums of an inference, class by class. -/
def sumBytes (l : List Int) : List Byte := l.flatMap fun v => toBytes 4 (umod 32 v)

/-- A KINF's inference ends: its sums are written and its ostler completes, or faults ECC or CHECK (R396).
[DESIGN CHOICE, log 29] -/
def State.endKinf (s : State) (k : Nat) (f : Infer) : Out :=
  let t := s.setBank k { s.bank k with inf := none }
  let o := s.ostler (ostKey f.die f.n)
  match o.wait with
  | some { instr := .kinf d _ _ c, phase := 3, marks := _, todo := _ } =>
    let u : State := { t with who := { s.who with die := f.die, n := f.n } }
    let sums := (s.bank k).sums f.plane f.x
    let r : W64 := BitVec.ofNat 64 (stOK + argMax sums * 2 ^ 8 + f.ser * 2 ^ 16)
    let va := (u.rx c).toNat
    if va = 0 then .next { u.ret d r with who := s.who }
    else
      match u.vwrite u.agent u.ctxId va (sumBytes sums) with
      | .wait => .next s
      | .fault e ad v =>
        .next { (if e = cECC ∨ e = cCHECK then v.trap e (BitVec.ofNat 64 ad) else v.status d stBADARG) with who := s.who }
      | .ok _ v => .next { (v.dropRange u.agent u.ctxId va (4 * sums.length)).ret d r with who := s.who }
  | _ => .next t

/-- A KVOTE's inference ends: its sums are written at its place, or end the batch (R397). -/
def State.endVote (s : State) (k : Nat) (f : Infer) (v : Vote) : Out :=
  let b := s.bank k
  let sums := b.sums f.plane f.x
  match s.vwrite (agentBank (k / 4) (k % 4)) v.ctx (v.out + 4 * b.classes * v.done) (sumBytes sums) with
  | .wait => .next s
  | .fault e _ t => .next (t.setBank k { b with inf := none, vote := some { v with bad := some e } })
  | .ok _ t => .next (t.setBank k { b with inf := none, vote := some { v with done := v.done + 1 } })

/-- INFERENCE_DONE (R396): 4 fc after its start. [DESIGN CHOICE, log 29] -/
def execInferenceDone (bank : Nat) (s : State) : Out :=
  let b := s.bank bank
  match b.inf with
  | none => .next s
  | some f =>
    if (s.fcycle - f.start).toNat < 4 then .next s
    else
      match b.vote with
      | some v => if f.vote then s.endVote bank f v else s.endKinf bank f
      | none => s.endKinf bank f

/-- KVOTE_SAMPLE (R397): the next sample's inference starts, or the batch ends with BANK_DONE. -/
def execKvoteSample (bank : Nat) (s : State) : Out :=
  let b := s.bank bank
  match b.vote, b.inf with
  | some v, none =>
    if v.bad.isSome ∨ v.total ≤ v.done then
      if !s.deltasDone (agentBank (bank / 4) (bank % 4)) then .next s
      else
        .next ((s.setBank bank { b with vote := none }).postOst v.die v.n v.ctx
          (match v.bad with
          | some c => b.doneRec bank stPARTIAL v.tag (BitVec.ofNat 64 (c + v.done * 2 ^ 32))
          | none => b.doneRec bank stOK v.tag 0))
    else if s.commitDue bank then .next s
    else
      match s.vread (agentBank (bank / 4) (bank % 4)) v.ctx (v.samples + 128 * v.done) 128 with
      | .wait => .next s
      | .fault e _ t => .next (t.setBank bank { b with vote := some { v with bad := some e } })
      | .ok l t =>
        .next (t.setBank bank { b with inf := some { x := BitVec.ofNat 1024 (ofBytes l), plane := b.plane, ser := b.planeSer,
                                                     start := s.fcycle, vote := true, die := v.die, n := v.n } })
  | _, _ => .next s

end Sys2Proof.Machine
end

