-- ==== Sys2Proof/Machine/Derived.lean ====
section
/-! DEFINITION. Derived regions (R107-R132, R389, R390, R407): groups and what they publish, steps, rescans, and the
derived-region instructions. -/

namespace Sys2Proof.Machine

/-! ### Values (R115, R121) -/

/-- Sign cleared. -/
def DVal.mag : DVal → DVal
  | .fin _ m => .fin false m
  | .inf _ => .inf false
  | .nan => .nan

/-- a before b in the total order of R121; neither is NaN. -/
def DVal.lt : DVal → DVal → Bool
  | .inf n, b => n && b != .inf true
  | .fin _ _, .inf n => !n
  | .fin n m, .fin o k =>
    if n then (if o then k < m else true) else (if o then false else m < k)
  | _, _ => false

/-- As an exact value. -/
def DVal.toVal : DVal → Val
  | .nan => .nan
  | .inf n => .inf n
  | .fin n m => .fin n m (-160)

def DVal.f32 (v : DVal) : W32 := r32 v.toVal

/-! ### Regions and their groups (R110, R115) -/

def kSUM : Nat := 0
def kSUMSQ : Nat := 1
def kMAX : Nat := 2
def kMIN : Nat := 3
def kAMAX : Nat := 4
def kHIST : Nat := 5
def kBSCALE : Nat := 6

def declLayout (b : BitVec 512) : Nat := (b.extractLsb' 0 64).toNat
def declShadow (b : BitVec 512) : Nat := (b.extractLsb' 64 64).toNat
def declTfmt (b : BitVec 512) : Nat := (b.extractLsb' 136 4).toNat
def declBins (b : BitVec 512) : Nat := (b.extractLsb' 140 6).toNat + 1
def declEdges (b : BitVec 512) : Nat := (b.extractLsb' 192 64).toNat

def Region.count (r : Region) : Nat := if r.per = 0 then 0 else (r.elems.length + r.per - 1) / r.per
def Region.groupElems (r : Region) (g : Nat) : List Nat := (r.elems.drop (g * r.per)).take r.per

/-- Kinds that keep an extreme value and its multiplicity (R116). -/
def isExt (k : Nat) : Bool := k == kMAX || k == kMIN || k == kAMAX || k == kBSCALE

/-- The bin of a value (R124). -/
def Region.bin (r : Region) (v : DVal) : Nat :=
  match v with
  | .inf n => if n then 0 else declBins r.decl - 1
  | _ => (r.edges.filter fun e => !Val.lt v.toVal (fp e)).length

/-- Element values enter and leave a counting group (R120, R124); d is 1 or -1. -/
def bump (n : Nat) (d : Int) : Nat := ((n : Int) + d).toNat

def Region.tally (r : Region) (g : Group) (v : DVal) (d : Int) : Group :=
  match v with
  | .nan => { g with nan := bump g.nan d }
  | .inf n =>
    if r.kind = kHIST then { g with bins := mset 0 g.bins (r.bin v) (bump (mget 0 g.bins (r.bin v)) d) }
    else if r.kind = kSUMSQ ∨ ¬ n then { g with pinf := bump g.pinf d }
    else { g with ninf := bump g.ninf d }
  | .fin n m =>
    if r.kind = kHIST then { g with bins := mset 0 g.bins (r.bin v) (bump (mget 0 g.bins (r.bin v)) d) }
    else if r.kind = kSUMSQ then { g with acc := g.acc + d * (m * m : Nat) }
    else { g with acc := g.acc + d * (if n then -(m : Int) else m) }

/-- The value as a kind holds it: magnitudes for AMAX and BSCALE. -/
def Region.held (r : Region) (v : DVal) : DVal := if r.kind = kAMAX ∨ r.kind = kBSCALE then v.mag else v

/-- Beyond the group's value in the order of its kind. -/
def Region.beyond (r : Region) (v w : DVal) : Bool := if r.kind = kMIN then v.lt w else w.lt v

/-- add of R120, R121 and R124. -/
def Region.add (r : Region) (g : Group) (v : DVal) : Group :=
  if !isExt r.kind then r.tally g v 1
  else if v = .nan then { g with nan := g.nan + 1 }
  else
    let v := r.held v
    if g.mult = 0 ∨ r.beyond v g.val then { g with val := v, mult := 1 }
    else if v = g.val then { g with mult := g.mult + 1 } else g

/-- withdraw of R120, R121 and R124; whether a rescan starts. -/
def Region.withdraw (r : Region) (g : Group) (v : DVal) : Group × Bool :=
  if !isExt r.kind then (r.tally g v (-1), false)
  else if v = .nan then ({ g with nan := g.nan - 1 }, false)
  else if g.mult ≠ 0 ∧ r.held v = g.val then ({ g with mult := g.mult - 1 }, g.mult == 1) else (g, false)

/-- An element changes: new is added, then old is withdrawn (R118). -/
def Region.change (r : Region) (g : Group) (old new : DVal) : Group × Bool := r.withdraw (r.add g new) old

/-! ### Publishing (R120, R121, R125, R126) -/

/-- The largest value of a BSCALE target, m * 2^e. -/
def maxrep (tfmt : Nat) : Nat × Int := if tfmt = 3 then (31, -1) else if tfmt = 5 then (7, 6) else (7, 13)

/-- n * 2^x ≤ m * 2^y. -/
def scaledLe (n : Nat) (x : Int) (m : Nat) (y : Int) : Bool :=
  let e := min x y
  n <<< (x - e).toNat ≤ m <<< (y - e).toNat

/-- bscale before its clamp (R125). [DEDUCED, log 66] -/
def bscale (tfmt : Nat) (a : DVal) : Int :=
  match a with
  | .fin _ 0 => 127
  | .fin _ m =>
    let (k, x) := maxrep tfmt
    let e0 : Int := (bitLen m : Int) - 160 - bitLen k - x - 1
    127 + (([e0, e0 + 1, e0 + 2].find? fun e => scaledLe m (-160) k (x + e)).getD (e0 + 3))
  | .inf _ => 254
  | .nan => 127

def clampCode (c : Int) : Nat := (max 0 (min c 254)).toNat

def qnan : W32 := 0x7FC00000

/-- The magnitude of an extreme group: 0 when it is EMPTY. -/
def Group.extreme (g : Group) : DVal := if g.mult = 0 then .fin false 0 else g.val

/-- What a group publishes (R120, R121, R124-R126); a POISON group has AUX 0 and the NaN and infinity counts of the bytes its
rescan read. [DEDUCED, log 66; DESIGN CHOICE, log 86] -/
def Region.pub (r : Region) (g : Group) : Pub :=
  let k := r.kind
  if g.pois then
    { val := if k = kHIST then 0 else if k = kBSCALE then 127 else qnan, aux := 0,
      nan := if k = kHIST then 0 else g.nan, pinf := g.pinf, ninf := g.ninf, bins := [] }
  else if k = kHIST then { val := 0, aux := 0, nan := g.nan, pinf := 0, ninf := 0, bins := g.bins }
  else if k = kSUM ∨ k = kSUMSQ then
    let v : W32 :=
      if 0 < g.nan ∨ (0 < g.pinf ∧ 0 < g.ninf) then qnan
      else if 0 < g.pinf then 0x7F800000
      else if 0 < g.ninf then 0xFF800000
      else r32 (.fin (decide (g.acc < 0)) g.acc.natAbs (if k = kSUM then -160 else -320))
    { val := v, aux := 0, nan := g.nan, pinf := g.pinf, ninf := g.ninf, bins := [] }
  else if k = kBSCALE then
    { val := BitVec.ofNat 32 (clampCode (bscale (declTfmt r.decl) g.extreme)), aux := g.extreme.f32, nan := g.nan, pinf := 0,
      ninf := 0, bins := [] }
  else
    { val := if 0 < g.nan then qnan else g.extreme.f32, aux := BitVec.ofNat 32 g.mult, nan := g.nan, pinf := 0, ninf := 0,
      bins := [] }

/-- What a group that was never published reads as (R123). -/
def Region.blank (r : Region) : Pub :=
  { val := if r.kind = kBSCALE then 127 else 0, aux := 0, nan := 0, pinf := 0, ninf := 0, bins := [] }

/-- The value a read finds now (R123). [DEDUCED, log 64] -/
def Region.read (r : Region) (g : Group) : Pub := if g.pend then g.last.getD r.blank else r.pub g

/-! ### Steps (R118) and rescans (R122) -/

/-- A group becomes PENDING: what it published last is kept. [DEDUCED, log 64] -/
def Group.start (g : Group) (pub : Option Pub) : Group := if g.pend then g else { g with pend := true, last := pub }

def DSet.region (d : DSet) (k : Nat) : Option Region := mget none d.regions k
def DSet.setRegion (d : DSet) (k : Nat) (r : Option Region) : DSet := { d with regions := mset none d.regions k r }

/-- One entry of a batch: d0 is the set before the step. -/
def DSet.entry (d0 d : DSet) (b : Batch) (e : Delta) : DSet :=
  match d.region e.slot, d0.region e.slot with
  | some r, some r0 =>
    if r.gen ≠ e.gen then d
    else
      let i := r.groupOf e.elem
      let g := r.group i
      if g.pend then
        d.setRegion e.slot (some (r.setGroup i { g with queued := g.queued ++ [{ src := b.src, seq := b.seq, old := e.old,
                                                                                 new := e.new }] }))
      else if b.seq ≤ mget 0 g.rseq b.src then d
      else
        let (g', restart) := r.change g e.old e.new
        d.setRegion e.slot (some (r.setGroup i (if restart then g'.start (some (r0.pub (r0.group i))) else g')))
  | _, _ => d

/-- apply_step (R118). [DEDUCED, log 64] -/
def DSet.apply (d : DSet) (b : Batch) : DSet :=
  let x := b.entries.foldl (fun y e => DSet.entry d y b e) d
  { x with step := x.step + 1 }

/-- The groups of a set that are PENDING, by slot and group. -/
def DSet.pendings (d : DSet) : List (Nat × Nat) :=
  d.list.flatMap fun (k, r) => r.groups.filterMap fun (g, x) => if x.pend then some (k, g) else none

/-- A set changes: groups that became PENDING join the rescans that wait, and those of dropped regions leave (R122, R132). -/
def State.putSet (s : State) (set : Nat) (d : DSet) : State :=
  let now := d.pendings
  let kept := s.rescans.filter fun (k, x) => k != set || now.contains x
  { s.setDset set d with
    rescans := kept ++ (now.filter fun x => !s.rescans.contains (set, x)).map fun x => (set, x) }

/-- DELTA_BATCH (R118): the oldest batch of a set is applied. [DESIGN CHOICE, log 24] -/
def execDeltaBatch (set : Nat) (s : State) : Out :=
  let d := s.dset set
  match d.queue with
  | b :: t => if b.rebuild.isSome then .next s else .next (s.putSet set { d.apply b with queue := t })
  | [] => .next s

/-- Every group of a region that covers a line, and is to be rescanned (R126). -/
def Region.rescanLine (r : Region) (line : Nat) : Region :=
  (r.lineGroups line).foldl (fun r g => r.setGroup g ((r.group g).start (some (r.pub (r.group g))))) r

/-- REBUILD_REQUEST (R126): it takes its turn among the batches, and counts no STEP. [DESIGN CHOICE, log 85] -/
def execRebuildRequest (set line : Nat) (s : State) : Out :=
  let d := s.dset set
  match d.queue with
  | b :: t =>
    if b.rebuild = some line then
      .next (s.putSet set { d with queue := t, regions := d.regions.map fun (k, r) => (k, r.map fun r => r.rescanLine line) })
    else .next s
  | [] => .next s

/-- Queued entries newer than a rescan's reads are applied; the rest of the list when one starts a new rescan. -/
def Region.reconcile (r : Region) : List QDelta → Group → Group × Bool
  | [], g => (g, false)
  | q :: t, g =>
    if q.seq ≤ mget 0 g.rseq q.src then r.reconcile t g
    else
      let (g', restart) := r.change g q.old q.new
      if restart then ({ g' with queued := t }, true) else r.reconcile t g'

/-- A group rebuilt from its elements' values (R122). -/
def Region.rebuilt (r : Region) (g : Group) (vals : List DVal) (rseq : SMap Nat) (bad : Bool) : Group :=
  let x := vals.foldl r.add { Group.reset with pois := bad, rseq := rseq, pend := true, last := g.last, unpred := g.unpred }
  match r.reconcile g.queued x with
  | (y, true) => y
  | (y, false) => { y with pend := false, last := none }

/-- The home lines of a group. -/
def Region.groupLines (r : Region) (g : Nat) : List Nat := ((r.groupElems g).map (· / 128)).eraseDups

/-- A rescan of one group (R122): its elements are read at their homes, and it is rebuilt. [DEDUCED, log 65] -/
def State.rescan (s : State) (set slot g : Nat) : State :=
  match (s.dset set).region slot with
  | none => s
  | some r =>
    let ls := r.groupLines g
    let s := ls.foldl State.engineLine s
    let bad := ls.any fun l => s.lineBad l != 0
    let s := ls.foldl (fun s l => s.noteBad l (s.lineBad l)) s
    let vals := (r.groupElems g).map fun p =>
      toDVal (decodeElem r.fmt (lineGet (s.homeData (p / 128)) (p % 128) (elemSize r.fmt)))
    let homes := (ls.map fun l => homeOf (128 * l)).eraseDups
    let rseq := homes.foldl (fun m h => mset 0 m h (mget 0 s.dseq (set * 512 + h)).toNat) []
    let d := s.dset set
    ({ s with rescans := s.rescans.erase (set, slot, g) } : State).putSet set
      { d.setRegion slot (some (r.setGroup g (r.rebuilt (r.group g) vals rseq bad))) with step := d.step + 1 }

/-- The rescans a set home slice runs: the first 4 of those that wait there (R122). -/
def State.running (s : State) (home : Nat) : List (Nat × Nat × Nat) :=
  (s.rescans.filter fun x => setHome x.1 == home).take 4

/-- RESCAN_DONE (R122): a rescan that runs ends. -/
def execRescanDone (set slot group : Nat) (s : State) : Out :=
  match (s.dset set).region slot with
  | none => .next s
  | some r =>
    if (s.running (setHome set)).contains (set, slot, group) && !((r.groupElems group).any s.pageAway) then
      .next (s.rescan set slot group)
    else .next s

/-- Groups of a region that are PENDING. -/
def Region.pending (r : Region) : Bool := r.groups.any fun e => e.2.pend

/-- The selector of a set, with a slot (R109, R149). -/
def selector (set slot : Nat) : W64 := BitVec.ofNat 64 (set % 4096 + slot * 2 ^ 12 + set / 4096 * 2 ^ 16)

/-- [DESIGN CHOICE, log 96] -/
def State.postReady (s : State) (set slot die n : Nat) : State :=
  let d := s.dset set
  s.postOst die n (d.ctx.getD 0)
    (mkRec 0x20 stOK (set / 4096) 2 (set % 64) 0 0 (selector set slot) d.step)

/-- DERIVED_READY (R112, R113): a build whose groups are all rebuilt, or a rebuild of the whole set, is reported. -/
def execDerivedReady (set slot : Nat) (s : State) : Out :=
  let d := s.dset set
  match d.region slot with
  | none => .next s
  | some r =>
    if r.building && !r.pending then
      .next ((s.setDset set (d.setRegion slot (some { r with building := false }))).postReady set slot r.die r.n)
    else
      match d.rebuild with
      | some (die, n) =>
        if d.list.any fun e => e.2.pending then .next s
        else .next ((s.setDset set { d with rebuild := none }).postReady set 0 die n)
      | none => .next s

/-! ### Declaring, dropping and rebuilding (R111-R113) -/

/-- The set a selector names, its slot and group. -/
def selSet (v : Nat) : Nat := bits v 18 16 * 4096 + bits v 11 0
def selReg (v : Nat) : Nat := bits v 14 12
def selGroup (v : Nat) : Nat := bits v 63 32

/-- Virtual addresses of a record's elements in layout order; none where a position has no address. -/
def layVas (l : Lay) (emap : Nat) : Option (List Nat) :=
  (List.range l.total).mapM fun n =>
    match l.addr emap (l.index n) with
    | .ok a => some a
    | .error _ => none

/-- Physical addresses of base elements, every page readable and DER; none otherwise (R111). -/
def State.basePas (s : State) (vas : List Nat) : Option (List Nat) :=
  vas.mapM fun a =>
    match s.lookup s.agent s.ctxId a with
    | .error _ => none
    | .ok t => if aDER t.attr then some (t.addr a) else none

/-- The translations of some addresses are kept, or their walks have read what they could (R169, R170, R188). -/
def State.walkVas (s : State) (vas : List Nat) : State := vas.foldl (fun s a => s.walkOne s.agent s.ctxId a) s

/-- No base line would be covered by more than 8 sets (R111). -/
def State.coverOk (s : State) (set : Nat) (pas : List Nat) : Bool :=
  ((pas.map (· / 128)).eraseDups).all fun l => ((s.covering l).filter (· != set)).length < 8

/-- Base format codes a region accepts (R111). -/
def baseFmt (f : Nat) : Bool := [0, 1, 2, 3, 5, 6, 8, 9, 10].contains f

/-- Shadow bytes of a group (R111). -/
def shadowSize (kind bins : Nat) : Nat :=
  if kind = kSUM then 64 else if kind = kSUMSQ then 128 else if kind = kHIST then (4 * (bins + 1) + 15) / 16 * 16 else 16

/-- Edges are not NaN and strictly ascending (R111). -/
def edgesOk : List W32 → Bool
  | [] => true
  | [e] => !(fp e).isNan
  | e :: f :: t => !(fp e).isNan && !(fp f).isNan && Val.lt (fp e) (fp f) && edgesOk (f :: t)

/-- A new region's groups: all PENDING, never published. -/
def newGroups (n : Nat) : SMap Group := (List.range n).map fun g => (g, { Group.reset with pend := true })

/-- The last checks of DDECL, in the order of R111, over a block, record and edges that were read; emap is none where the
extent map of the record cannot be. [DEDUCED, log 65] -/
def State.declare (s : State) (v : Nat) (b : BitVec 512) (lay : Lay) (emap : Option Nat) (edges : List W32) : Nat × State :=
  let set := selSet v
  let d := s.dset set
  let kind := (b.extractLsb' 128 3).toNat
  let grp := (b.extractLsb' 131 2).toNat
  if d.ctx.isSome && d.ctx != some s.ctxId then (stBUSY, s)
  else if d.rebuild.isSome then (stBUSY, s)
  else if (d.region (selReg v)).isSome then (stEXISTS, s)
  else if kind = 7 ∨ grp = 3 ∨ !lay.ok ∨ !baseFmt lay.fmt then (stBADARG, s)
  else
    match emap.bind (layVas lay) with
    | none => (stBADARG, s)
    | some vas =>
      if !vas.Nodup || vas.any fun a => a % elemSize lay.fmt != 0 then (stBADARG, s)
      else
        let r : Region := { born := d.gens, gen := d.gens, decl := b, lay := lay, vas := vas, elems := vas, shadow := [], edges := edges,
                            groups := [], building := true, die := s.who.die, n := s.who.n }
        if 65536 < r.per || (kind == kBSCALE && grp != 1) then (stBADARG, s)
        else if kind == kHIST && !edgesOk edges then (stBADARG, s)
        else if kind == kBSCALE && !([3, 5, 6].contains (declTfmt b)) then (stBADARG, s)
        else
          let t := s
          let s := t.walkVas vas
          match t.basePas vas with
          | none => (stBADARG, s)
          | some pas =>
            let size := r.count * shadowSize kind (declBins b)
            if declShadow b % 128 ≠ 0 then (stBADARG, s)
            else
              let s := s.walkRange s.agent s.ctxId (declShadow b) size
              match s.rangesOf s.agent s.ctxId (fun t => aW t.attr && !aDER t.attr) (declShadow b) size with
              | none => (stBADARG, s)
              | some sh =>
                if !s.coverOk set pas then (stNOSPACE, s)
                else
                  let r := { r with elems := pas, shadow := sh, groups := newGroups r.count }
                  let d := if d.ctx.isNone then { d with ctx := some s.ctxId, step := 0, unpred := false } else d
                  (stOK, s.putSet set { d.setRegion (selReg v) (some r) with gens := d.gens + 1 })

/-- The tables that map the base elements or the shadow area of a declaration are away (R95). -/
def State.declAway (s : State) (b : BitVec 512) (lay : Lay) (emap : Nat) : Bool :=
  let kind := (b.extractLsb' 128 3).toNat
  let vas := (layVas lay emap).getD []
  let r : Region := { born := 0, gen := 0, decl := b, lay := lay, vas := vas, elems := vas, shadow := [], edges := [], groups := [],
                      building := true, die := 0, n := 0 }
  vas.any (s.walkAway s.agent s.ctxId ·) ||
    (declShadow b % 128 == 0 && s.tablesAway s.agent s.ctxId (declShadow b) (r.count * shadowSize kind (declBins b)))

/-- DDECL (R111, R112). -/
def execDdecl (d a b : Reg) (s : State) : Out :=
  let i : Instr := .ddecl d a b
  .next ((s.readBlock (s.rx b).toNat 64 64).orBad i d fun x t =>
    let blk := BitVec.ofNat 512 x
    (t.readBlock (declLayout blk) 192 64).orBad i d fun y t =>
      let lay : Lay := BitVec.ofNat 1536 y
      let n := if (blk.extractLsb' 128 3).toNat = kHIST then declBins blk - 1 else 0
      (if n = 0 then .ok 0 t else t.readBlock (declEdges blk) (4 * n) 4).orBad i d fun e t =>
        let edges := (List.range n).map fun k => BitVec.ofNat 32 (e >>> (32 * k))
        let v := (s.rx a).toNat
        match if lay.ok && lay.ext then t.readBlock lay.extmap 272 16 else .ok 0 t with
        | .ok m t => if lay.ok && baseFmt lay.fmt && t.declAway blk lay m then t.waitOn i 1 []
                     else
                       let r := t.declare v blk lay (some m) edges
                       r.2.status d r.1
        | .wait t => t.waitOn i 1 []
        | .trap _ _ t => let r := t.declare v blk lay none edges
                         r.2.status d r.1)

/-- The issuer may use a set (R128). -/
def State.ownSet (s : State) (set : Nat) : Bool := (s.dset set).ctx.isSome && (s.dset set).ctx == s.cur.ctx

/-- A set without regions is empty: unbound, with nothing queued (R108, R113). -/
def State.emptySet (s : State) (set : Nat) : State :=
  ({ s with dseq := s.dseq.filter fun e => e.1 / 512 != set } : State).putSet set { DSet.reset with gens := (s.dset set).gens }

/-- A batch without the entries of a region that was dropped; none when nothing of it is left for the set (R113). -/
def DSet.withoutRegion (d : DSet) (slot : Nat) (b : Batch) : Option Batch :=
  match b.rebuild with
  | some l => if d.covers l then some b else none
  | none =>
    let es := b.entries.filter fun e => e.slot != slot
    if es = [] then none else some { b with entries := es }

/-- A set loses a region: its queued batches are discarded, those of a translation before DREB too (R113). -/
def DSet.drop (d : DSet) (slot : Nat) : DSet :=
  match d.region slot with
  | none => d
  | some _ =>
    let x := d.setRegion slot none
    { x with queue := d.queue.filterMap (x.withoutRegion slot) }

/-- DDROP (R113); a set that another context owns has no slot of the issuer's. [DESIGN CHOICE, log 87] -/
def execDdrop (d a : Reg) (s : State) : Out :=
  let v := (s.rx a).toNat
  let set := selSet v
  if !s.ownSet set || ((s.dset set).region (selReg v)).isNone then .next (s.status d stBADARG)
  else
    let x := (s.dset set).drop (selReg v)
    .next (((if x.regions = [] then s.emptySet set else s.putSet set x).freeActive (set / 4096)).status d stOK)

/-- A published value that nothing fixes (R126). [DEDUCED, log 38] -/
def State.freePub (s : State) : Pub × State :=
  let r := s.freeBytes 272
  ({ val := BitVec.ofNat 32 r.1, aux := BitVec.ofNat 32 (r.1 >>> 32), nan := bits r.1 95 64, pinf := bits r.1 97 96,
     ninf := bits r.1 99 98, bins := iter (fun k m => mset 0 m k (bits r.1 (159 + 32 * k) (128 + 32 * k))) 64 [] }, r.2)

/-- Every group of a region is to be rescanned; in an unpredictable set what it published is free (R113, R126).
[DEDUCED, log 38] -/
def State.markRegion (s : State) (set slot : Nat) : State :=
  match (s.dset set).region slot with
  | none => s
  | some r =>
    (List.range r.count).foldl (fun s g =>
      match (s.dset set).region slot with
      | none => s
      | some r =>
        let x := r.group g
        let (p, s) := if (s.dset set).unpred || x.unpred then s.freePub else (r.read x, s)
        s.putSet set ((s.dset set).setRegion slot
          (some (r.setGroup g { x with pend := true, last := some p, queued := [], unpred := false })))) s

/-- Rescans that run when a set is rebuilt complete first (R132). [DEDUCED, log 65] -/
def State.finishRescans (s : State) (set : Nat) : State :=
  ((s.running (setHome set)).filter fun x => x.1 == set).foldl (fun s (k, slot, g) => s.rescan k slot g) s

/-- DREB (R113, R132): batches of the old translation no longer change its regions, which are all read again.
[DESIGN CHOICE, log 87] -/
def execDreb (d a : Reg) (s : State) : Out :=
  let set := selSet (s.rx a).toNat
  let x := s.dset set
  if !s.ownSet set then .next (s.status d stBADARG)
  else if x.rebuild.isSome then .next (s.status d stBUSY)
  else if x.list.any fun (_, r) => r.vas.any (s.walkAway s.agent s.ctxId ·) then .next (s.waitOn (.dreb d a) 1 [])
  else
    let t := s.walkVas (x.list.flatMap fun e => e.2.vas)
    match x.list.mapM fun (k, r) => (s.basePas r.vas).map fun p => (k, p) with
    | none => .next (t.status d stBADARG)
    | some l =>
      if l.any fun (_, p) => !s.coverOk set p then .next (t.status d stNOSPACE)
      else if x.list.any fun (_, r) => r.elems.any s.pageAway then .next (s.waitOn (.dreb d a) 1 [])
      else
        let t := t.finishRescans set
        let t := l.foldl (fun t (k, p) =>
          match (t.dset set).region k with
          | some r =>
            let d := t.dset set
            t.setDset set { d.setRegion k (some { r with elems := p, gen := d.gens }) with gens := d.gens + 1 }
          | none => t) t
        let t := l.foldl (fun t (k, _) => t.markRegion set k) t
        .next ((t.setDset set { t.dset set with rebuild := some (s.who.die, s.who.n), unpred := false }).status d stOK)

/-! ### Reading (R127-R131, R389, R390) -/

/-- The base homes of a set. -/
def DSet.homes (d : DSet) : List Nat := (d.list.flatMap fun (_, r) => r.elems.map homeOf).eraseDups

/-- Every marker has been answered, and the batches up to the answers are applied (R128). -/
def State.synced (s : State) (set : Nat) (marks : List (Nat × Nat)) : Bool :=
  (s.dset set).homes.all fun h =>
    match marks.find? fun m => m.1 == h with
    | some (_, n) => (s.dset set).queue.all fun b => !(b.src == h && b.seq ≤ n)
    | none => false

/-- The marks of a waiting read for the regions it selected: beyond the homes', a slot with the region's number. -/
def State.bornMarks (s : State) (set : Nat) (slots : List Nat) : List (Nat × Nat) :=
  slots.filterMap fun k => ((s.dset set).region k).map fun r => (2 ^ 20 + k, r.born)

/-- The slots a read selected when it was issued still hold the same regions (R113). -/
def State.sameRegions (s : State) (set : Nat) (slots : List Nat) : Bool :=
  match s.cur.wait with
  | none => true
  | some w => slots.all fun k =>
    match w.marks.find? fun m => m.1 == 2 ^ 20 + k with
    | some (_, b) => ((s.dset set).region k).any fun r => r.born == b
    | none => true

/-- The waits of the derived reads (R390, R389): phase 1 for the issuer's own deltas, phase 2 for DSYNC and PENDING. -/
def State.derivedWait (s : State) (i : Instr) (set : Nat) (slots : List Nat) (sync : Bool) (pend : Bool) (f : State) : State :=
  if s.phaseOf ≠ 2 && !s.deltasDone s.agent then s.waitOn i 1 (s.bornMarks set slots)
  else if !sync then f
  else if s.phaseOf ≠ 2 then s.waitOn i 2 (s.bornMarks set slots)
  else if s.synced set ((s.cur.wait.map (·.marks)).getD []) && !pend then f
  else s

/-- DSYNC_MARKER (R128): a base home answers every reader that waits for its batch number. -/
def execDsyncMarker (set home : Nat) (s : State) : Out :=
  let wants (i : Instr) (o : Ostler) : Bool :=
    let sel (a : Reg) : Bool := selSet (if a = 0 then 0 else (mget 0 o.x a.toNat).toNat) == set
    match i with
    | .drds _ a _ => sel a
    | .dsnap _ a _ => sel a
    | .dsync _ a => sel a
    | .qscale _ a _ => sel a
    | _ => false
  .next { s with ost := s.ost.map fun (k, o) =>
    match o.wait with
    | some w =>
      if w.phase = 2 && wants w.instr o && !(w.marks.any fun m => m.1 == home) then
        (k, { o with wait := some { w with marks := w.marks ++ [(home, (mget 0 s.dseq (set * 512 + home)).toNat)] } })
      else (k, o)
    | none => (k, o) }

/-- The read record of a group (R127), and the state with what it drew in an unpredictable set. [DEDUCED, log 38] -/
def State.readRecord (s : State) (set slot g : Nat) (r : Region) : List Byte × State :=
  let d := s.dset set
  let x := r.group g
  let (p, s) := if d.unpred || x.unpred then s.freePub else (r.read x, s)
  let sums := r.kind == kSUM || r.kind == kSUMSQ
  let flags := b2n x.pend * 2 ^ 8 + b2n (0 < p.nan) * 2 ^ 9 + b2n (sums && 0 < p.pinf) * 2 ^ 10 + b2n (sums && 0 < p.ninf) * 2 ^ 11 +
    b2n x.pois * 2 ^ 12
  let head := r.kind + r.grp * 2 ^ 3 + slot * 2 ^ 5 + flags + g * 2 ^ 32 + d.step.toNat * 2 ^ 64
  (if r.kind = kHIST then
    toBytes 16 head ++ ((List.range 64).flatMap fun k => toBytes 4 (if k < declBins r.decl then mget 0 p.bins k else 0)) ++
      toBytes 4 p.nan ++ toBytes 12 0
  else toBytes 32 (head + p.val.toNat * 2 ^ 128 + p.aux.toNat * 2 ^ 160 + p.nan % 2 ^ 32 * 2 ^ 192), s)

/-- Records of several slots, one after another at 32-byte boundaries. -/
def State.readRecords (s : State) (set g : Nat) (slots : List Nat) : List Byte × State :=
  slots.foldl (fun (b, s) k =>
    match (s.dset set).region k with
    | some r => let x := s.readRecord set k g r
                (b ++ x.1, x.2)
    | none => (b, s)) ([], s)

/-- The bytes of the records of some slots. -/
def DSet.recBytes (d : DSet) (slots : List Nat) : Nat :=
  slots.foldl (fun n k => n + (match d.region k with
    | some r => if r.kind = kHIST then 288 else 32
    | none => 0)) 0

/-- A derived read writes its records on, packet by packet, and then returns its status (R117, R127). -/
def State.readOn (s : State) (i : Instr) (d : Reg) (va : Nat) (ps : Pieces) (st : Nat) : State :=
  s.goOn i [(st, 0)] ps (·.status d st) fun c t => t.trap c (BitVec.ofNat 64 (badAddr c va))

/-- DRD, DRDS and DSNAP (R127, R128): the checks, the waits, the record, then xd. The order of BADARG, RANGE and the fault of
the record, and that the fault precedes the waits, are the model's. [DESIGN CHOICE, log 87] -/
def State.derivedRead (s : State) (i : Instr) (d : Reg) (v va : Nat) (slots : List Nat) (sync : Bool) : State :=
  let set := selSet v
  let x := s.dset set
  let g := selGroup v
  if s.phaseOf = 4 then s.readOn i d va s.todo (((s.cur.wait.bind fun w => w.marks.head?).map Prod.fst).getD stOK)
  else if va % 32 ≠ 0 ∨ !s.ownSet set ∨ slots = [] ∨ (slots.any fun k => (x.region k).isNone) ∨ !s.sameRegions set slots then
    s.status d stBADARG
  else if slots.any fun k => ((x.region k).map fun r => decide (r.count ≤ g)).getD true then s.status d stRANGE
  else if s.tablesAway s.agent s.ctxId va (x.recBytes slots) then
    (if s.phaseOf = 2 then s else s.waitOn i 1 (s.bornMarks set slots))
  else
    match s.piecesOf s.agent s.ctxId true va (x.recBytes slots) with
    | .error (c, a) => (s.walkRange s.agent s.ctxId va (x.recBytes slots)).trap c (BitVec.ofNat 64 (badAddr c a))
    | .ok _ =>
      let pend := slots.any fun k => ((x.region k).map fun r => (r.group g).pend).getD false
      s.derivedWait i set slots sync pend
        (let (b, t) := s.readRecords set g slots
         match t.writeBlock va b with
         | .ok _ u => u.status d (if pend then stPENDING else stOK)
         | .fault c a u => u.trap c (BitVec.ofNat 64 a)
         | .wait => match t.blockPieces va b with
           | some ps => t.readOn i d va ps (if pend then stPENDING else stOK)
           | none => if s.phaseOf = 2 then s else s.waitOn i 1 (s.bornMarks set slots))

/-- DRD (R128). -/
def execDrd (d a b : Reg) (s : State) : Out :=
  .next (s.derivedRead (.drd d a b) d (s.rx a).toNat (s.rx b).toNat [selReg (s.rx a).toNat] false)
/-- DRDS (R128). -/
def execDrds (d a b : Reg) (s : State) : Out :=
  .next (s.derivedRead (.drds d a b) d (s.rx a).toNat (s.rx b).toNat [selReg (s.rx a).toNat] true)
/-- DSNAP (R128). -/
def execDsnap (d a b : Reg) (s : State) : Out :=
  let v := (s.rx a).toNat
  .next (s.derivedRead (.dsnap d a b) d v (s.rx b).toNat ((List.range 8).filter fun k => bit v (24 + k)) true)

/-- DSYNC (R128): an empty slot gives BADARG to it as to the reads. -/
def execDsync (d a : Reg) (s : State) : Out :=
  let v := (s.rx a).toNat
  let set := selSet v
  if !s.ownSet set || ((s.dset set).region (selReg v)).isNone || !s.sameRegions set [selReg v] then .next (s.status d stBADARG)
  else .next (s.derivedWait (.dsync d a) set [selReg v] true false (s.status d stOK))

/-- The code and status of QSCALE for a magnitude (R131). -/
def qscaleOf (ctl : Nat) (sat : W64) (a : DVal) : Nat × Nat :=
  match a with
  | .nan => (0xFF, stRANGE)
  | a => (clampCode (bscale (ctl % 16) a + bits ctl 7 4 + (if bit ctl 8 && sat != 0 then 1 else 0)), stOK)

/-- The FP32 value a group publishes, as a value. -/
def dvalOf (x : W32) : DVal := toDVal (fp x)

/-- QSCALE (R131). A GROUP that the region does not have, for which R131 names nothing, returns RANGE with code 0 before any wait.
[DEDUCED, log 66; DESIGN CHOICE, log 97] -/
def execQscale (d a b : Reg) (s : State) : Out :=
  let v := (s.rx a).toNat
  let ctl := (s.rx b).toNat
  let set := selSet v
  let g := selGroup v
  match (s.dset set).region (selReg v) with
  | none => .next (s.status d stBADARG)
  | some r =>
    if !s.ownSet set || !s.sameRegions set [selReg v] || !(r.kind == kAMAX || r.kind == kBSCALE) || !([3, 5, 6].contains (ctl % 16)) then .next (s.status d stBADARG)
    else if r.count ≤ g then
      let t := if bit ctl 9 then s.setCur { s.cur with satcnt := 0 } else s
      .next (t.status d stRANGE)
    else
      let x := r.group g
      .next (s.derivedWait (.qscale d a b) set [selReg v] true x.pend
        (let free := (s.dset set).unpred || x.unpred
         let (p, t) := if free then s.freePub else (r.pub x, s)
         let m := if r.kind = kAMAX ∨ free then dvalOf p.val
           else if x.pois then .fin false 0 else x.extreme
         let (code, st) := qscaleOf ctl t.cur.satcnt m
         let t := if bit ctl 9 then t.setCur { t.cur with satcnt := 0 } else t
         t.ret d (BitVec.ofNat 64 (code * 256 + st))))

end Sys2Proof.Machine
end

