-- ==== Sys2Proof/Machine/Reset.lean ====
section
/-! DEFINITION. Function-level and module reset (R8, R159, R242-R244), bring-up (R436), power and temperature (R432, R433),
and the failures of links and peers (R229, R244, R430). -/

namespace Sys2Proof.Machine

/-! ### Module reset and bring-up (R244, R436) -/

/-- Bytes of this module's DRAM hold no defined value after a reset; host and peer memory are not the module's.
[DESIGN CHOICE, log 27] -/
def State.lostDram (s : State) : List Host.Cell :=
  (s.mem.filter fun e => isHbm e.1).zipIdx.foldl (fun m (e, i) =>
    Memory.set m e.1 ((Config.freeWord (s.freeCtr + i)).setWidth 8)) (s.mem.filter fun e => !isHbm e.1)

/-- A module reset (R244). The turns still to come and the messages already sent are not the module's, and an ABSENT stall
stays absent (R173). [DESIGN CHOICE, log 27] -/
def State.moduleReset (s : State) : State :=
  { State.reset with mem := s.lostDram, agenda := s.agenda.filter (fun t => !t.posts), msgs := s.msgs, stalls := s.stalls.filter fun e => e.2 == .absent,
                     freeCtr := s.freeCtr + (s.mem.filter fun e => isHbm e.1).length }

/-- MODULE_RESET (R244). -/
def execModuleReset (s : State) : Out := .next s.moduleReset

/-- The two conditions on which the ROM accepts a firmware image (R434). [DESIGN CHOICE, log 23] -/
def fwAccepts (f : Firmware) : Bool :=
  Config.ecdsaOk f.key (Config.sha384 f.image) f.sig && Config.sha384 (toBytes 96 f.key.toNat) == Config.fusedKey

/-- BRING_UP (R434, R436, R426): the next stage of 0..5. Power that returns after a trip starts at stage 0; a failed check leaves the
device in recovery; the state clear sets READY. [DESIGN CHOICE, log 23] -/
def execBringUp (fw : Firmware) (s : State) : Out :=
  .next (
    if s.tripped then s.moduleReset
    else if s.pf.ready || s.pf.fwfail then s
    else
      match s.pf.stage with
      | 0 => { s with pf := { s.pf with stage := 1 } }
      | 1 => if fwAccepts fw then { s with pf := { s.pf with stage := 2 } } else { s with pf := { s.pf with fwfail := true } }
      | 2 => { s with pf := { s.pf with stage := 3 } }
      | 3 => { s with pf := { s.pf with stage := 4 } }
      | _ => { s.moduleReset with pf := { Pf.reset with ready := true, stage := 5 } })

/-! ### Function-level reset (R159, R242) -/

/-- The contexts bound to a function. -/
def State.ctxsOf (s : State) (func : Nat) : List Nat :=
  s.ctxs.filterMap fun (c, x) => if x.valid && x.func == func then some c else none

/-- The lines of this module's HBM that anything has written. -/
def State.writtenLines (s : State) : List Nat :=
  let ls : List Nat := (s.mem.map fun (e : Host.Cell) => e.1 / 128) ++ s.l2.map Prod.fst ++ s.caches.map fun (e : Nat × Option CLine) => e.1 % 2 ^ 46
  ls.eraseDups.filter fun l => isHbm (128 * l)

/-- A chunk record that stands in memory when its owner is reset publishes nothing, whether a contribution has come or not (R376);
a line that a program writes anew holds a new record. -/
def State.killChunks (s : State) (c : Nat) : State :=
  (s.writtenLines.filter fun l => s.chunkCtx (s.coherent l).toNat == c).foldl (fun s l =>
    let t := s.seen l
    t.setDir l { t.dirOf l with dead := true }) s

/-- Port commands, stream programs and NVMe commands of a context end without a record (R159). [DEDUCED, log 73] -/
def State.resetStreams (s : State) (c : Nat) : State :=
  { s with portQ := (s.portQ.map fun (k, l) => (k, l.filter fun x => x.ctx != c)).filter fun e => e.2 != [],
           portBind := s.portBind.filter fun (_, v) => match v with
             | some k => (s.prog k).ctx != c
             | none => false,
           progs := s.progs.filter fun (_, g) => !(g.busy && g.ctx == c),
           recs := (s.recs.map fun (k, l) => (k, l.filter fun x => x.ctx != c)).filter fun e => e.2 != [],
           timers := s.timers.filter fun (pa, _) => match (s.physRead pa 128).1 with
             | .ok r => s.chunkCtx r != c
             | .error _ => true,
           pubs := s.pubs.filter fun x => x.ctx != c,
           arrs := s.arrs.map fun x => if x.slot.any fun k => (s.prog k).ctx == c then { x with slot := none } else x,
           combs := s.combs.filter fun x => x.ctx != c, nvme := s.nvme.filter fun x => x.ctx != c }

/-- The pens of a context are swept and released, and its jobs and active slots go; R54 names no gathering here. -/
def State.resetPens (s : State) (c : Nat) : State :=
  let ks := s.pens.filterMap fun (k, p) => if p.valid && p.ctx == c then some k else none
  let s := ks.foldl (fun s k => (s.leaveDomain k).vacate k) s
  { s with jobs := s.jobs.filter fun j => jrCtx j.jr != c, active := s.active.filter fun e => e.2 != some c }

/-- Posts from a context's sources that wait at any ostler or host ring go (R159). -/
def State.dropPosters (s : State) (c : Nat) : State :=
  { s with ost := s.ost.map fun (k, o) => (k, { o with posters := o.posters.filter fun p => p.ctx != c }),
           fns := s.fns.map fun (f, x) => (f, { x with posts := x.posts.filter fun p => p.ctx != c }),
           agenda := s.agenda.filter fun t => match t with
             | .post _ _ _ x _ => x != c
             | _ => true }

/-- The ostlers of a context stop with their CSRs at their reset values, their caches written back and empty; a stop that the
physical function asked for ends with them (R429). -/
def State.resetOstlers (s : State) (c : Nat) : State :=
  let s := s.dropPosters c
  let ks := s.ost.filterMap fun (k, o) => if o.ctx == some c then some k else none
  ks.foldl (fun s k =>
    let a := agentOst (k / 32) (k % 32)
    let s := s.flushAgent a
    let s := { s with maint := s.maint.filter fun m => m.agent != a,
                      pf := if (s.ostler k).stopReq then { s.pf with cwbusy := false } else s.pf,
                      routine := s.routine.filter fun r => ostKey r.die r.n != k }
    let s := s.bootOstler k c
    let o := s.ostler k
    s.setOstler k { o with run := if o.run = .neverRun then .neverRun else .stopped, pens := [] }) s

/-- Entries of a context's offload table return to RESIDENT without readers (R179). [DEDUCED, log 73] -/
def State.resetOffl (s : State) (c : Nat) : State :=
  let s := { s with offl := s.offl.filter fun x => x.ctx != c }
  (List.range (s.ctx c).otn).foldl (fun s i =>
    if !s.otReady 0 c i then (if s.offlClear.contains (c, i) then s else { s with offlClear := s.offlClear ++ [(c, i)] })
    else
      match s.otRead 0 c i with
      | (none, t) => t
      | (some e, t) =>
        if bits e 161 160 = 0 ∧ otReaders e = 0 then s else t.otSet 0 c i e 0 0) s

/-- Locks, derived sets, log entries, merges, routines, handovers and banks of a context go (R242). [DEDUCED, log 73] -/
def State.resetTables (s : State) (c : Nat) : State :=
  let s := (s.dsets.filterMap fun (k, d) => if d.ctx == some c then some k else none).foldl State.emptySet s
  let s := (s.logs.flatMap fun (h, l) => l.filterMap fun e => if e.ctx == c then some (h, e) else none).foldl
    (fun s (h, e) => s.dropEntry h e) s
  { s with pins := s.pins.filter fun e => e.2 != some c, merges := s.merges.filter fun m => m.ctx != c,
           routines := s.routines.filter fun (_, r) => match r with
             | some x => x.ctx != c
             | none => false,
           hovers := s.hovers.filter fun h => h.ctx != c, banks := s.banks.filter fun (_, b) => b.ctx != some c,
           tlb := (s.tlb.map fun (a, l) => (a, l.filter fun t => t.ctx != c)).filter fun e => e.2 != [] }

/-- One context of a function under reset. [DEDUCED, log 73] -/
def State.resetCtx (s : State) (c : Nat) : State :=
  (((((s.killChunks c).resetStreams c).resetPens c).resetOstlers c).resetOffl c).resetTables c

/-- FUNCTION_LEVEL_RESET (R242, R243): the PF's is a module reset; another's changes no telemetry counter (R189). -/
def execFunctionLevelReset (func : Nat) (s : State) : Out :=
  if func = 0 then .next s.moduleReset
  else .next { (s.ctxsOf func).foldl State.resetCtx (s.setFn func Fn.reset) with tele := s.tele }

/-! ### Power and temperature (R432, R433) -/

/-- The fabric clock in MHz steps down or up by 25 within 300..600. [DEDUCED, log 30] -/
def stepClock (mhz : Nat) (down : Bool) : Nat := if down then max 300 (mhz - 25) else min 600 (mhz + 25)

/-- POWER_STEP (R432): down while the average is above the limit. [DEDUCED, log 30] -/
def execPowerStep (watts : Nat) (s : State) : Out := .next { s with clock := stepClock s.clock (decide (s.limit < watts)) }

/-- POWER_LIMIT_SET (R432). -/
def execPowerLimitSet (watts : Nat) (s : State) : Out := .next (if watts ≤ 4500 then { s with limit := watts } else s)

/-- CURRENT_SURGE (R432): the clocks are stretched while it lasts; no count and no value changes. -/
def execCurrentSurge (on : Bool) (s : State) : Out := .next { s with surge := on }

/-- THERMAL_THROTTLE (R433). -/
def execThermalThrottle (s : State) : Out := .next { s with clock := stepClock s.clock true }

/-- THERMAL_TRIP (R433): all state is lost, and no clock runs until power returns. [DESIGN CHOICE, log 42] -/
def execThermalTrip (s : State) : Out := .next { s.moduleReset with tripped := true }

/-! ### Links and peers (R229, R244, R430) -/

/-- LINK_PORT_FAILURE (R430). -/
def execLinkPortFailure (port : Nat) (s : State) : Out :=
  .next (if port < 18 ∧ !s.portDown.contains port then { s with portDown := port :: s.portDown } else s)

/-- The port LINK_DOWN names: the last one that failed, or a free choice. [DESIGN CHOICE, log 31] -/
def State.downPort (s : State) : W64 × State :=
  match s.portDown with
  | p :: _ => (BitVec.ofNat 64 p, s)
  | [] => (BitVec.ofNat 64 ((Config.freeReg s.freeCtr).toNat % 18), { s with freeCtr := s.freeCtr + 1 })

/-- The lowest valid context of the PF, or a number no context has (R158). [DESIGN CHOICE, log 31] -/
def State.pfCtx (s : State) : Nat := ((s.ctxs.find? fun (_, x) => x.valid && x.func == 0).map Prod.fst).getD 256

/-- LINK_PATH_TIMEOUT (R430). A link belongs to no die and no command: SDIE and TAG of LINK_DOWN are 0.
[DESIGN CHOICE, log 31] -/
def execLinkPathTimeout (peer : Nat) (s : State) : Out :=
  if s.peerDown.contains peer ∨ 512 ≤ peer then .next s
  else
    let (p, t) := s.downPort
    .next (({ t with peerDown := peer :: t.peerDown } : State).postHost 0 t.pfCtx
      (mkRec 0x60 stOK 0 7 0 0 0 p (BitVec.ofNat 64 peer)))

/-- The address register and offset of an ostler access (R281, R382). -/
def Instr.accessOf : Instr → Option (Reg × BitVec 16)
  | .ldb _ a o => some (a, o)
  | .ldbu _ a o => some (a, o)
  | .ldh _ a o => some (a, o)
  | .ldhu _ a o => some (a, o)
  | .ldw _ a o => some (a, o)
  | .ldwu _ a o => some (a, o)
  | .ldd _ a o => some (a, o)
  | .stb _ a o => some (a, o)
  | .sth _ a o => some (a, o)
  | .stw _ a o => some (a, o)
  | .std _ a o => some (a, o)
  | .ldaq _ a _ => some (a, 0)
  | .strl _ a _ => some (a, 0)
  | .aadd _ a _ _ => some (a, 0)
  | .aand _ a _ _ => some (a, 0)
  | .aor _ a _ _ => some (a, 0)
  | .axor _ a _ _ => some (a, 0)
  | .amin _ a _ _ _ => some (a, 0)
  | .amax _ a _ _ _ => some (a, 0)
  | .axchg _ a _ _ => some (a, 0)
  | .acas _ a _ _ => some (a, 0)
  | .afadd _ a _ => some (a, 0)
  | .arun _ a _ _ => some (a, 0)
  | _ => none

/-- A virtual address of a context lies in a peer's memory. -/
def State.atPeer (s : State) (ag c va peer : Nat) : Bool :=
  match s.lookup ag c va with
  | .ok t => isPeer (t.addr va) && peerOf (t.addr va) == peer
  | .error _ => false

/-- An ostler access outstanding to a peer. -/
def State.ostAtPeer (s : State) (k : Nat) (o : Ostler) (peer : Nat) : Bool :=
  match o.wait with
  | some w =>
    match Instr.accessOf w.instr with
    | some (a, off) =>
      let x : W64 := if a = 0 then 0 else mget 0 o.x a.toNat
      w.phase == 1 && s.atPeer (agentOst (k / 32) (k % 32)) (o.ctx.getD 0) (x + simm off).toNat peer
    | none => false
  | none => false

/-- A pen access outstanding to a peer takes RESET. -/
def State.irrReset (s : State) (k peer : Nat) (x : Irr) : Irr :=
  if x.ready then x
  else
    match x.addrs.find? fun (_, a) => s.atPeer (agentYard (k / 128)) (s.pen k).ctx a peer with
    | some (_, a) => { x with ready := true, cause := cRESET, faddr := a }
    | none => x

/-- PEER_RESET (R244, R229): ostler accesses, pen accesses and chunk transfers outstanding to the peer take RESET. -/
def execPeerReset (peer : Nat) (s : State) : Out :=
  let ost := s.ost.map fun (k, o) =>
    if s.ostAtPeer k o peer then (k, { o with wait := o.wait.map fun w => { w with phase := 2 } }) else (k, o)
  let pes := s.pes.map fun (k, p) => (k, { p with irr := p.irr.map (s.irrReset (k / 2048) peer) })
  let ks := s.progs.filterMap fun (k, g) =>
    match g.dest with
    | .chunk va _ =>
      if g.busy && g.xfer.isSome && g.done.isNone && s.atPeer (progAgent k) g.ctx va peer then some (k, va) else none
    | _ => none
  .next (ks.foldl (fun s (k, va) => s.faultProg k cRESET va) { s with ost := ost, pes := pes })

end Sys2Proof.Machine
end

