-- ==== Sys2Proof/Machine/Waits.lean ====
section
/-! DEFINITION. The end of an ostler's wait (R276): the waiting instruction is evaluated again, and completes, faults or
keeps waiting. -/

namespace Sys2Proof.Machine

/-- A waiting instruction is evaluated again; only those that can wait (R276 and their own entries) stand here.
[DEDUCED, log 76] -/
def State.resume (s : State) (i : Instr) : Out :=
  match i with
  | .ldb d a o => execLdb d a o s
  | .ldbu d a o => execLdbu d a o s
  | .ldh d a o => execLdh d a o s
  | .ldhu d a o => execLdhu d a o s
  | .ldw d a o => execLdw d a o s
  | .ldwu d a o => execLdwu d a o s
  | .ldd d a o => execLdd d a o s
  | .ldaq d a q => execLdaq d a q s
  | .stb q a o => execStb q a o s
  | .sth q a o => execSth q a o s
  | .stw q a o => execStw q a o s
  | .std q a o => execStd q a o s
  | .strl q a c => execStrl q a c s
  | .fence k q => execFence k q s
  | .wait a => execWait a s
  | .eqwait d a => execEqwait d a s
  | .eqpop d a => execEqpop d a s
  | .eqpeek d a => execEqpeek d a s
  | .eqpost d a b c => execEqpost d a b c s
  | .rplace d a => execRplace d a s
  | .rload d a b => execRload d a b s
  | .rcfg d a b c => execRcfg d a b c s
  | .rstart d a => execRstart d a s
  | .rstop d a => execRstop d a s
  | .rrel d a => execRrel d a s
  | .radj d a b c => execRadj d a b c s
  | .jraise d a b => execJraise d a b s
  | .jdone d a b => execJdone d a b s
  | .jwait d a b => execJwait d a b s
  | .launch d a b => execLaunch d a b s
  | .sq d a b => execSq d a b s
  | .sprog d a b c => execSprog d a b c s
  | .clean d a b => execClean d a b s
  | .inval d a b => execInval d a b s
  | .flush d a b => execFlush d a b s
  | .lock d a b => execLock d a b s
  | .unlock d a b => execUnlock d a b s
  | .hover d a b c => execHover d a b c s
  | .lmrg d a b c => execLmrg d a b c s
  | .recfl d a => execRecfl d a s
  | .scomb d a => execScomb d a s
  | .bwait d a b c => execBwait d a b c s
  | .aadd d a b w => execAadd d a b w s
  | .aand d a b w => execAand d a b w s
  | .aor d a b w => execAor d a b w s
  | .axor d a b w => execAxor d a b w s
  | .amin d a b q w => execAmin d a b q w s
  | .amax d a b q w => execAmax d a b q w s
  | .axchg d a b w => execAxchg d a b w s
  | .acas d a b c => execAcas d a b c s
  | .afadd d a b => execAfadd d a b s
  | .arun d a b c => execArun d a b c s
  | .rdef d a b => execRdef d a b s
  | .lapp d a b c => execLapp d a b c s
  | .ddecl d a b => execDdecl d a b s
  | .drd d a b => execDrd d a b s
  | .drds d a b => execDrds d a b s
  | .dsnap d a b => execDsnap d a b s
  | .dsync d a => execDsync d a s
  | .dreb d a => execDreb d a s
  | .qscale d a b => execQscale d a b s
  | .kinf d a b c => execKinf d a b c s
  | .kfb d a b c => execKfb d a b c s
  | .kld d a b c => execKld d a b c s
  | .kst d a b c => execKst d a b c s
  | .kvote d a b => execKvote d a b s
  | .ksync d a b => execKsync d a b s
  | .nvrd d a b c => execNvrd d a b c s
  | .nvwr d a b c => execNvwr d a b c s
  | .offl d a => execOffl d a s
  | .recall d a => execRecall d a s
  | .xloc d a b => execXloc d a b s
  | _ => .next s

/-- OSTLER_WAIT_END (R276). [DEDUCED, log 76] -/
def execOstlerWaitEnd (die n : Nat) (s : State) : Out :=
  match (s.ostler (ostKey die n)).wait with
  | none => .next s
  | some w => ({ s with who := { s.who with die := die, n := n } } : State).resume w.instr

end Sys2Proof.Machine
end

