-- ==== Sys2Proof/Machine/Fetch.lean ====
section
/-! DEFINITION. The fetch of an ostler word (R275, R82) and the turns of a step. The meanings come in as the argument ex, which
Step.lean takes from Dispatch.lean. -/

namespace Sys2Proof.Machine

/-! ### Fetching (R82, R275) -/

/-- How a fetch ends: with the word, or with a fault taken or a page awaited. -/
inductive Fetched where
  | word (w : W32) (s : State)
  | stop (s : State)
  deriving DecidableEq, Repr

/-- A fetch from an address that is not mapped executable, or is no multiple of 4. [DEDUCED, log 14, 15] -/
def State.fetchFault (s : State) : State := (s.walked s.agent s.ctxId s.cur.pc.toNat).trap cFETCH s.cur.pc

/-- An instruction cache of 16 KiB keeps a line; another leaves a full one (R69, R82). [DESIGN CHOICE, log 84] -/
def State.keepCode (s : State) (ag l : Nat) (d : Line) : State :=
  let ls := s.icache.filterMap fun (k, _) => if k / 2 ^ 46 = ag then some (k % 2 ^ 46) else none
  let s := if ls.length < Config.ostLines then s
    else match s.pickLine ls with
      | (some v, t) => { t with icache := mset none t.icache (ckey ag v) none }
      | (none, t) => t
  { s with icache := mset none s.icache (ckey ag l) (some d) }

/-- The line of a fetch that the instruction cache does not hold is filled from its home; a bad one faults (R103, R105).
[DEDUCED, log 36] -/
def State.fetchFill (s : State) (pa : Nat) : Fetched :=
  let l := pa / 128
  if s.linkDown pa then .stop (s.trap cLINK s.cur.pc)
  else if s.pageAway pa then .stop s
  else if s.isShadow pa then
    let (k, t) := s.draw
    .word ((Config.freeBits k).setWidth 32) t
  else
    let t := (s.drain l (some s.agent)).touch l
    let bad := t.lineBad l
    if bad ≠ 0 then .stop ((s.metBad [] l bad).trap bad (BitVec.ofNat 64 (badAddr bad s.cur.pc.toNat)))
    else
      .word (BitVec.ofNat 32 (lineGet (t.homeData l) (pa % 128) 4))
        (t.keepCode s.agent l (t.homeData l))

/-- The word at the executing ostler's pc. [DEDUCED, log 14] -/
def State.fetchWord (s : State) : Fetched :=
  let va := s.cur.pc.toNat
  if va % 4 ≠ 0 then .stop (s.trap cFETCH s.cur.pc)
  else if s.walkAway s.agent s.ctxId va then .stop s
  else
    match s.lookup s.agent s.ctxId va with
    | .error c => .stop (if c = cTRANSL then s.fetchFault
        else (s.walked s.agent s.ctxId va).trap c (BitVec.ofNat 64 (badAddr c va)))
    | .ok t =>
      if !aX t.attr then .stop s.fetchFault
      else
        let pa := t.addr va
        let s := s.keepTlb s.agent Config.tlbOst t
        match mget none s.icache (ckey s.agent (pa / 128)) with
        | some d => .word (BitVec.ofNat 32 (lineGet d (pa % 128) 4)) s
        | none => s.fetchFill pa

/-- The instruction a word stands for: one that decodes to nothing is the ILLEGAL of R274. -/
def wordInstr (w : W32) : Instr :=
  match decodeOstler w with
  | .ok i => i
  | .error _ => .illegal w

/-! ### Turns -/

/-- The machine as an ostler acts. -/
def State.asOstler (s : State) (die n : Nat) : State := { s with who := { s.who with die := die, n := n } }

/-- An ostler's turn (R275, R276): a stop that was asked for, a wait evaluated again, or the next word.
[DESIGN CHOICE, log 25] -/
def State.ostlerTurn (ex : Instr → State → Out) (s : State) (die n : Nat) : Out :=
  let s := s.asOstler die n
  if s.cur.run ≠ .running then .next (s.stopNow s.me)
  else
    match s.cur.wait with
    | some w => ex w.instr s
    | none =>
      if s.cur.stopReq then .next (s.stopNow s.me)
      else
        match s.fetchWord with
        | .stop t => .next t
        | .word w t => ex (wordInstr w) { t with ir := w }

/-- The next word of a slice routine (R180, R384); words past its end do not exist in a routine that RDEF accepted.
[DEDUCED, log 82] -/
def State.routineTurn (ex : Instr → State → Out) (s : State) (r : Routine) : Out :=
  let s := s.asOstler r.die r.n
  match r.words[r.at_]? with
  | some w => ex (wordInstr w) { s with ir := w }
  | none => .next { s with routine := none }

/-- The host writes its own memory, at a bus address (R98, R100, R112). [DESIGN CHOICE, log 20] -/
def State.hostStore (s : State) (bus : Nat) (data : List Byte) : State :=
  if bus + data.length ≤ hostBase then
    (cuts (hostBase + bus) data).foldl (fun s (l, off, b) => s.noteShadow l (byteMask off b.length))
      { s with mem := Memory.write s.mem (hostBase + bus) data }
  else s

/-- One turn. [DESIGN CHOICE, log 5, 24] -/
def State.turn (ex : Instr → State → Out) (s : State) : Turn → Out
  | .ostler die n => s.ostlerTurn ex die n
  | .domain die gang => .next (s.domainTurn ex (s.wanted die gang) die gang)
  | .slot die eng k => s.slotTurn ex die eng k
  | .ahead die eng k => .next (s.fetchAhead die eng k)
  | .event i => ex i s
  | .nvme idx => execNvmeCompletion idx 0 [] s
  | .copy ctx idx => s.otGo ctx idx
  | .page p => execPageHandover p [] s
  | .arrive pa => .next (s.arrStep pa)
  | .post _ _ q c r => .next (s.postTo c r q)
  | .ack line agent => execDrainAck line agent s
  | .maint die n => .next (s.maintOne (agentOst die n))
  | .hostStore bus data => .next (s.hostStore bus data)
  | .tick => .next s.tickOc.sweepDue

end Sys2Proof.Machine
end

