-- ==== Sys2Proof/Machine/Agenda.lean ====
section
/-! DEFINITION. The steps of the part that are due, the order of the turns of one oc (R83), the next turn, and the placing of a
first instruction. -/

namespace Sys2Proof.Machine

/-! ### The turns of one oc when none are laid down -/

/-- Steps of ostlers, their queues and the rings. -/
def State.ostEvents (s : State) : List Instr :=
  (s.ost.filterMap fun (k, o) => if o.posters != [] then some (.eventPost (k / 32) (k % 32)) else none) ++
    (s.fns.flatMap fun (f, x) =>
      (if x.posts != [] then [.hostRingPost f] else []) ++ (if x.hkbusy then [.kickDone f] else []) ++
        (if x.htbusy then [.htcmdDone f] else [])) ++
    (if s.pf.atbusy then [.attestationDone] else [])

/-- Steps of derived sets, logs and merges. -/
def State.derivedEvents (s : State) : List Instr :=
  (s.dsets.flatMap fun (k, d) =>
    (match d.queue with
      | [] => []
      | b :: _ => match b.rebuild with
        | some l => [.rebuildRequest k l]
        | none => [.deltaBatch k]) ++
      (d.list.flatMap fun (slot, r) =>
        (if r.building || d.rebuild.isSome then [.derivedReady k slot] else [])) ++
      (d.list.flatMap fun (_, r) => r.elems.map homeOf).eraseDups.map fun h => .dsyncMarker k h) ++
    ((s.rescans.filter fun x => (s.running (setHome x.1)).contains x).map fun (k, slot, g) => .rescanDone k slot g) ++
    (if s.merges = [] then [] else (s.merges.flatMap fun m => m.homes.map Prod.fst).eraseDups.map fun h => .logMerge h) ++
    (s.ost.filterMap fun (k, _) => (s.lappHome k).map fun h => .logAppend h)

/-- Steps of pages back from another module whose requests wait (R95), of contributions at their chunks (R375), of NVMe commands whose
completion entry has come or that send nothing, of copies and of entries a reset has left, and of releasers that have been drained
(R155, R241, R179, R90). -/
def State.copyTurns (s : State) : List Turn :=
  ((s.pageReqs.map PageReq.page).eraseDups.filter (fun p => !s.pageAway (65536 * p))).map Turn.page ++
    (s.arrs.map Arrival.pa).eraseDups.map Turn.arrive ++
  (s.nvme.zipIdx.filterMap fun (x, i) => if x.entry.isSome || x.failed != 0 then some (.nvme i) else none) ++
    (s.offl.filterMap fun x => if x.copied then none else some (.copy x.ctx x.idx)) ++
    (s.offlClear.map fun (c, i) => .copy c i) ++
    (s.dir.flatMap fun (l, d) => d.releases.filterMap fun r => if r.drained then some (.ack l r.agent) else none)

/-- Steps of stream engines, combine units, chunk timers, handovers and banks. -/
def State.engineEvents (s : State) : List Instr :=
  (s.portQ.map fun (k, _) => .commandDispatch (k / 64 / 128) (k / 64 % 128) (k % 64)) ++
    (s.progs.flatMap fun (k, g) =>
      (if g.xfer.isSome || (g.busy && g.sq && g.done.isNone) then [.streamTile (k / 256) (k / 16 % 16) (k % 16)] else []) ++
        (if (g.xfer.bind Xfer.acked).isSome then [.chunkAck (k / 256) (k / 16 % 16) (k % 16) stOK] else []) ++
        (if g.done.isSome then [.streamCommandDone (k / 256) (k / 16 % 16) (k % 16)] else [])) ++
    (List.range s.combs.length).flatMap (fun i => [.combinePacket i, .combineDone i]) ++
    (s.timers.filterMap fun (pa, d) => if d ≤ s.fcycle.toNat then some (.chunkDeadline pa) else none) ++
    (s.pubs.map fun p => .chunkDeadline p.pa) ++
    (if s.hovers = [] then [] else [.hoverDone 0]) ++
    (s.banks.flatMap fun (k, b) =>
      (if b.training.isSome then [.sampleCommit k] else []) ++ (if b.fbq != [] then [.sampleFeedback k] else []) ++
        (if b.inf.isSome then [.inferenceDone k] else []) ++ (if b.vote.isSome then [.kvoteSample k] else []))

/-- Steps of pens and of the yard. -/
def State.yardEvents (s : State) : List Instr :=
  (s.pes.flatMap fun (k, p) =>
    let die := k / 2048 / 128
    let pen := k / 2048 % 128
    (if p.irr.any (Irr.waits · true) then [.loadReply die pen (k % 2048)] else []) ++
      (if p.irr.any (Irr.waits · false) then [.storeTranslationDone die pen (k % 2048)] else []) ++
      (if p.mpd.isSome then [.mpassdFetch die pen (k % 2048)] else [])) ++
    (s.pens.flatMap fun (k, p) =>
      let die := k / 128
      (if p.stop != .none && p.run == 1 then [.penFaultSave die (k % 128)] else []) ++
        (if p.halting then [.penRetire die (k % 128)] else []) ++
        (if p.pre then [.restore die (k % 128)] else if p.run == 1 then [.preemption die (k % 128)] else [])) ++
    ((s.jobs.map Job.die ++ s.fns.filterMap fun (_, f) => f.hlwait.map Prod.fst).eraseDups.map fun d => .taskPlacement d)

/-- The timing domains that run, by die and lowest pen. -/
def State.gangs (s : State) : List (Nat × Nat) :=
  (s.pens.filterMap fun (k, p) => if p.valid && p.run == 1 then some (k / 128, p.gang) else none).eraseDups

/-- The turns of one oc: the part's steps that are due, in an even oc the timing domains, then every slot and ostler; they are
taken in the order of R83 (takeTurn). [DESIGN CHOICE, log 5] -/
def State.schedule (s : State) : List Turn :=
  ((s.ostEvents ++ s.derivedEvents ++ s.engineEvents ++ s.yardEvents).map Turn.event) ++
    (if s.phase then [] else s.gangs.map fun (d, g) => .domain d g) ++
    s.copyTurns ++ (s.progs.map fun (k, _) => .slot (k / 256) (k / 16 % 16) (k % 16)) ++
    (s.ost.map fun (k, _) => .ostler (k / 32) (k % 32)) ++ [.tick]

/-! ### The order of one oc (R83) -/

/-- The word an ostler executes when its turn comes. -/
def State.nextInstr (s : State) (die n : Nat) : Option Instr :=
  let s := s.asOstler die n
  if s.cur.run ≠ .running then none
  else match s.cur.wait with
    | some w => some w.instr
    | none => match s.fetchWord with
      | .word w _ => some (wordInstr w)
      | .stop _ => none

/-- Classes of the turns of an oc, in the order they are taken: reads of EQCOUNT, which see no post of their own oc (R52); the
rows of the timing domains, which see no engine transition of their own fc (R164, R78); the agents of the compute dies and the
home slices; the words that come after what they meet, a CSR write after a gathering (R187) and a derived read after a step (R118)
and SCANCEL after a last tile (R376); the I/O dies; the links; the hosts; then LAUNCH, and RPLACE, whose numbers follow those of the hosts (R139, R144). -/
def oCount : Nat := 0
def oRows : Nat := 1
def oDies : Nat := 2
def oLate : Nat := 3
def oIo : Nat := 4
def oLink : Nat := 5
def oHost : Nat := 6
def oLaunch : Nat := 7
def oPlace : Nat := 8

/-- NFCNT and SATCNT (R46). -/
def isGathered (c : BitVec 12) : Bool := c == 0x060 || c == 0x061

/-- The class of a CSR write: its old value of EQCOUNT is a read too (R52, R292). -/
def csrClass (c : BitVec 12) : Nat := if c = 0x041 then oCount else if isGathered c then oLate else oDies

/-- The class of an ostler's word. -/
def ostClass : Instr → Nat
  | .csrr _ c => if c = 0x041 then oCount else oDies
  | .csrw _ _ c => csrClass c
  | .csrs _ _ c => csrClass c
  | .csrc _ _ c => csrClass c
  | .drd _ _ _ => oLate
  | .drds _ _ _ => oLate
  | .dsnap _ _ _ => oLate
  | .qscale _ _ _ => oLate
  | .scancel _ _ => oLate
  | .launch _ _ _ => oLaunch
  | .rplace _ _ => oPlace
  | _ => oDies

/-- The address of the access a word makes at its home (R83, R313). -/
def homeReg : Instr → Option (Reg × BitVec 16)
  | .jraise _ a _ => some (a, 0)
  | .jdone _ a _ => some (a, 0)
  | .jwait _ a _ => some (a, 0)
  | i => Instr.accessOf i

/-- The die of the home of a context's address, as an agent translates it; a given die where it has none. -/
def State.dieOf (s : State) (ag c va die : Nat) : Nat :=
  match s.lookup ag c va with
  | .ok t => homeOf (t.addr va) / 64
  | .error _ => die

/-- The die of the home an ostler's word accesses, or of the queue it posts to; its own die where the word accesses none. -/
def State.homeDie (s : State) (die n : Nat) (i : Instr) : Nat :=
  let s := s.asOstler die n
  match i with
  | .eqpost _ a _ _ => if (s.rx a).getLsbD 8 then die else bits (s.rx a).toNat 7 5
  | i =>
    match homeReg i with
    | some (a, off) => s.dieOf s.agent s.ctxId (s.rx a + simm off).toNat die
    | none => die

/-- A place in the order of an oc: class, then home by home the slice-engine routines, the agents of the home's own die, and those of the
other dies. -/
def placeKey (cls home rank die agent : Nat) : Nat := cls * 2 ^ 40 + home * 2 ^ 33 + rank * 2 ^ 31 + die * 2 ^ 20 + agent

/-- The place of an agent of a compute die. -/
def orderKey (cls home die agent : Nat) : Nat := placeKey cls home (if die = home then 1 else 2) die agent

/-- The first address that a slot's transfer reads next, or that its next word stands at. -/
def Prog.nextVa (g : Prog) : Nat :=
  match g.xfer with
  | some x =>
    match x.pend with
    | some p => p.va
    | none => match x.addrs with
      | .ok (a :: _) => a
      | _ => g.next
  | none => g.next

/-- The die of the home a program slot accesses next. -/
def State.progHome (s : State) (k : Nat) : Nat := s.dieOf (progAgent k) (s.prog k).ctx (s.prog k).nextVa (progDie k)

/-- The die of the home that the oldest outstanding access of a PE goes to, a load or a store. -/
def State.irrHome (s : State) (k i : Nat) (load : Bool) : Nat :=
  match (s.pe k i).irr.find? (Irr.waits · load) with
  | some x =>
    match x.addrs with
    | (_, a) :: _ => s.dieOf (penTlb k) (s.pen k).ctx a (k / 128)
    | [] => k / 128
  | none => k / 128

/-- The die of the home of the operand row that a PE's MPASSD fetches next. -/
def State.mpdHome (s : State) (k i : Nat) : Nat :=
  match (s.pe k i).mpd with
  | some m => s.dieOf (penTlb k) (s.pen k).ctx (m.addr ((s.pe k i).nextRow m) 0) (k / 128)
  | none => k / 128

/-- The die of the home of the oldest pending CLEAN or INVAL of an ostler. -/
def State.maintHome (s : State) (die n : Nat) : Nat :=
  match s.maint.find? fun m => m.agent == agentOst die n with
  | some m => (m.lines.head?.map fun l => homeOf (128 * l) / 64).getD die
  | none => die

/-- The place of a step of the part, or of an input. -/
def State.eventKey (s : State) (i : Instr) : Nat :=
  let own (die agent : Nat) : Nat := orderKey oDies die die agent
  let set (k : Nat) : Nat := own (setHome k / 64) (128 + setHome k % 64)
  let home (h : Nat) : Nat := own (h / 64) (128 + h % 64)
  let pe (die pen i h : Nat) : Nat := orderKey oDies h die (s.peAgent (penKey die pen) i % 4096)
  let eng (die e slot : Nat) : Nat := orderKey oDies (s.progHome (progKey die e slot)) die (32 + e)
  match i with
  | .loadReply d p i => pe d p i (s.irrHome (penKey d p) i true)
  | .mpassdFetch d p i => pe d p i (s.mpdHome (penKey d p) i)
  | .storeTranslationDone d p i => pe d p i (s.irrHome (penKey d p) i false)
  | .deferredStoreFault d p i => pe d p i d
  | .matrixPassComplete d p i => pe d p i d
  | .penRetire d _ => own d 52
  | .penFaultSave d _ => own d 52
  | .taskPlacement d => own d 52
  | .preemption d _ => own d 52
  | .restore d _ => own d 52
  | .compaction d _ _ => own d 52
  | .watchdog d _ => own d 52
  | .eventPost d _ => own d 52
  | .commandDispatch d _ _ => own d 52
  | .streamTile d e k => eng d e k
  | .streamCommandDone d e k => orderKey oDies (s.prog (progKey d e k)).die d (32 + e)
  | .chunkAck d e k _ => eng d e k
  | .combinePacket _ => own 0 64
  | .combineDone _ => own 0 64
  | .deltaBatch k => set k
  | .rescanDone k _ _ => set k
  | .rebuildRequest k _ => set k
  | .derivedReady k _ => set k
  | .dsyncMarker k _ => set k
  | .logAppend h => home h
  | .logMerge h => home h
  | .chunkDeadline pa => home (homeOf pa)
  | .sampleFeedback b => own (b / 4) (48 + b % 4)
  | .sampleCommit b => own (b / 4) (48 + b % 4)
  | .inferenceDone b => own (b / 4) (48 + b % 4)
  | .kvoteSample b => own (b / 4) (48 + b % 4)
  | .homeAccess ag pa _ _ => orderKey oDies (homeOf pa / 64) (ag / 4096) (ag % 4096)
  | .hoverDone _ => orderKey oIo 0 0 0
  | .nvmeCompletion _ _ _ => orderKey oIo 0 0 0
  | .offloadTransferDone _ _ _ _ => orderKey oIo 0 0 0
  | .drainAck _ _ => orderKey oDies 0 0 0
  | .kickDone _ => orderKey oIo 0 0 0
  | .htcmdDone _ => orderKey oIo 0 0 0
  | .hostRingPost _ => orderKey oIo 0 0 0
  | .attestationDone => orderKey oIo 0 0 0
  | .pageRequest _ _ _ => orderKey oLink 0 0 0
  | .pageHandover _ _ => orderKey oLink 0 0 0
  | .splitwMerge _ _ _ _ => orderKey oLink 0 0 0
  | .chunkArrival _ _ _ _ => orderKey oLink 0 0 0
  | .hlcmd f _ _ => orderKey oHost 0 0 f
  | _ => orderKey oHost 0 0 0

/-- The place of a turn in its oc (R83). Where turns of one oc meet at no home, this order is the model's.
[DESIGN CHOICE, log 5] -/
def State.turnKey (s : State) : Turn → Nat
  | .ostler die n =>
    match s.nextInstr die n with
    | some (.arun d a b c) => placeKey oDies (s.homeDie die n (.arun d a b c)) 0 die n
    | some i => orderKey (ostClass i) (s.homeDie die n i) die n
    | none => orderKey oDies die die n
  | .domain die g => orderKey oRows die die g
  | .slot die e k => orderKey oDies (s.progHome (progKey die e k)) die (32 + e)
  | .ahead die e k => orderKey oDies (s.progHome (progKey die e k)) die (32 + e)
  | .event i => s.eventKey i
  | .nvme _ => orderKey oIo 0 0 0
  | .copy _ _ => orderKey oIo 0 0 0
  | .ack _ _ => orderKey oDies 0 0 0
  | .page _ => orderKey oLink 0 0 0
  | .arrive pa => orderKey oDies (homeOf pa / 64) (homeOf pa / 64) (128 + homeOf pa % 64)
  | .post die pe q _ _ => orderKey oDies ((q.map Prod.fst).getD die) die pe
  | .maint die n => orderKey oDies (s.maintHome die n) die n
  | .hostStore _ _ => orderKey oHost 0 0 0
  | .tick => 0

/-- The first of the turns with the least key, and the others in their order. -/
def State.firstTurn (s : State) (t : Turn) : List Turn → Turn × List Turn
  | [] => (t, [])
  | u :: l =>
    let r := State.firstTurn s u l
    if s.turnKey t ≤ s.turnKey r.1 then (t, u :: l) else (r.1, t :: r.2)

/-- The turns of the oc in progress, up to the tick that ends it. -/
def inOc : List Turn → List Turn
  | [] => []
  | t :: l => if t = .tick then [] else t :: inOc l

/-- The next turn: of the agenda's turns of this oc the first in the order of R83, or the tick; with an empty agenda, of the turns
that are due. [DESIGN CHOICE, log 5] -/
def State.takeTurn (s : State) : Turn × State :=
  let l := if s.agenda = [] then s.schedule else s.agenda
  match l with
  | [] => (.tick, s)
  | t :: rest =>
    match inOc l with
    | [] => (t, { s with agenda := rest })
    | [_] => (t, { s with agenda := rest })
    | u :: oc =>
      let r := s.firstTurn u oc
      (r.1, { s with agenda := r.2 ++ l.drop (oc.length + 1) })

/-- After a thermal trip only a bring-up acts. [DESIGN CHOICE, log 42] -/
def State.bringsUp (s : State) : Bool :=
  match s.takeTurn.1 with
  | .event (.bringUp _) => true
  | _ => false

/-! ### Placing a first instruction -/

/-- Bytes placed in DRAM, in every cache's absence. -/
def State.placeBytes (s : State) (pa : Nat) (b : List Byte) : State :=
  let ls := rangeLines [(pa, b.length)]
  let s := ls.foldl (fun s l => (s.l2Clean l).setL2 l none) s
  { s with mem := Memory.write s.mem pa b, chk := ls.foldl (fun m l => mset 0 m (l / 2) 0) s.chk,
           poison := ls.foldl (fun m l => mset false m l false) s.poison,
           dir := ls.foldl (fun m l => mset Dir.reset m l Dir.reset) s.dir,
           pages := mset .home s.pages (pa / 65536) .home }

/-- Page-table root of context 0: virtual addresses below 2^30 are the same physical ones, readable, writable and executable. -/
def codeRoot : Nat := 0x100000

/-- Context 0 with that page table, and no translation held. -/
def State.placeContext (s : State) : State :=
  let s := (s.placeBytes codeRoot (toBytes 8 (codeRoot + 0x1000 + 1))).placeBytes (codeRoot + 0x1000) (toBytes 8 0x47)
  { s with ctxs := mset Ctx.reset s.ctxs 0 { s.ctx 0 with valid := true, root := codeRoot, live := codeRoot },
           tlb := [], pf := { s.pf with ready := true, stage := 5 }, routine := none, tripped := false }

/-- An ostler word at address 0, and ostler (0, 0) running there (R429). [DESIGN CHOICE, log 6] -/
def State.placeOstler (s : State) (w : Nat) : State :=
  let s := s.placeContext.placeBytes 0 (toBytes 4 w)
  { s.setOstler 0 { s.ostler 0 with run := .running, ctx := some 0, pc := 0, wait := none, stopReq := false } with
    icache := [], agenda := [.ostler 0 0] }

/-- A stream word at address 0, and program slot (0, 0, 0) about to fetch it (R370). [DESIGN CHOICE, log 6] -/
def State.placeSlot (s : State) (w : Nat) : State :=
  let s := s.placeContext.placeBytes 0 (toBytes 8 w)
  { s.setProg 0 { Prog.reset with busy := true } with agenda := [.slot 0 0 0] }

/-- A running pen 0 of one stall on die 0 whose PE (0, 0) holds a row word in row 0, every other PE NOP (R304, R306).
[DESIGN CHOICE, log 6] -/
def State.placePen (s : State) (w : Nat) : State :=
  let s := s.placeContext
  let p : Pen := { Pen.reset with valid := true, run := 1, lena := 64, hasImage := true }
  let s := s.setPen 0 p
  let s := p.peList.foldl (fun s i =>
    s.setPe 0 i { PE.reset with rowA := mset haltfWord [] 0 (if i = 0 then BitVec.ofNat 128 w else 0) }) s
  { s with stalls := mset .free s.stalls 0 (.held 0), agenda := [.domain 0 0] }

/-- The machine whose next step runs the instruction with these bits. [DESIGN CHOICE, log 6] -/
def State.placeWord (s : State) (nbits w : Nat) : State :=
  if nbits ≤ 32 then s.placeOstler w else if nbits ≤ 64 then s.placeSlot w else s.placePen w

end Sys2Proof.Machine
end

