-- ==== Sys2Proof/Machine/RowCvt.lean ====
section
/-! DEFINITION. Conversions and random draws (R336-R339, R199-R208, R185). -/

namespace Sys2Proof.Machine

/-- The draw for element e of lane k (R201). -/
def srDraw (x : RowCx) (imm : W64) (k e : Nat) : Nat :=
  let d := (rng (imm ^^^ x.id) (BitVec.ofNat 64 (2 ^ 63 + (e / 2) * 2 ^ 62 + x.idx * 2 ^ 38 + x.q * 2 ^ 6 + k))).toNat
  if e % 2 = 0 then bits d 31 16 else bits d 15 0

/-- The conversion of element e of lane k to a format code, in a mode. -/
def cvtAt (x : RowCx) (imm : W64) (code mode k e : Nat) (v : Val) : Cvt :=
  cvt code mode (imm.getLsbD 63) (if mode = 4 then srDraw x imm k e else 0) v

/-- Counts of the elements on the given lanes. -/
def countCvt (per : Nat) (lanes : W64) (f : Nat → Cvt) : Nat × Nat :=
  (List.range (64 * per)).foldl (fun (n, t) i =>
    if lanes.getLsbD (i / per) then (n + (f i).nfc, t + (f i).satc) else (n, t)) (0, 0)

/-- A conversion op: element i of the result, for elements of a width, on given lanes. -/
def State.cvtOp (s : State) (o : Op) (w : RowMods) (width : Nat) (lanes : W64) (f : RowCx → Nat → Cvt) : State :=
  s.row o w fun x t =>
    let c := countCvt (32 / width) (x.mask &&& lanes) (f x)
    .go t (some (mkElems width fun i => (f x i).bits)) (x.mask &&& lanes) c.1 c.2

/-- A value times a power of two, NaN under the NaN scale. -/
def scaled (sc : Nat) (sign : Int) (v : Val) : Val :=
  if sc = 0xFF then .nan else Val.shift (sign * ((sc : Int) - 127)) v

/-- The block scale of a source: of the packet a window reads, 127 of any other (R197, R204). -/
def RowCx.winScale (x : RowCx) (c : BitVec 6) : Nat :=
  if 44 ≤ c.toNat ∧ c.toNat < 48 then packetScale (x.pe.winHdr (c.toNat - 44)) else 127

/-- VCVT (R336): equal formats copy; else the decoded value of R197, a packet's block scale included, is converted (R198).
[DEDUCED, log 46] -/
def execVcvt (w : RowMods) (s : State) : Out :=
  let src := bits (auxOf w) 2 0
  let n := fmtWidth w.fmt.toNat
  .next (s.cvtOp .vcvt w n (BitVec.allOnes 64) fun x i =>
    if src = w.fmt.toNat then ⟨elem n x.a i, 0, 0⟩
    else cvtAt x w.imm (fmtCode w.fmt.toNat) (bits x.aux 5 3) (i / (32 / n)) (i % (32 / n))
      (scaled (x.winScale w.sa) 1 (decodeElem (fmtCode src) (elem n x.a i))))

/-- The block-scale code of VPACK, VUNPK and VBFLY: lane 0 of the source, 127 when its code is 48 (R337, R338). -/
def scaleOf (code : BitVec 6) (v : Vec) : Nat := if code = 48 then 127 else (lane v 0).toNat % 256

/-- The lanes an 8-bit VPACK writes (R337). -/
def packLanes (w : RowMods) : W64 :=
  if fmtWidth w.fmt.toNat = 16 then BitVec.allOnes 64
  else if w.imm.getLsbD 62 then 0xFFFFFFFF00000000 else 0x00000000FFFFFFFF

/-- VPACK (R337). -/
def execVpack (w : RowMods) (s : State) : Out :=
  let n := fmtWidth w.fmt.toNat
  let per := 32 / n
  .next (s.cvtOp .vpack w n (packLanes w) fun x i =>
    let k := i / per
    let j := if n = 16 then i else 4 * (k % 32) + i % 4
    let r := if j < 64 then lane x.a j else lane x.b (j - 64)
    cvtAt x w.imm (fmtCode w.fmt.toNat) (bits x.aux 5 3) k (i % per)
      (scaled (scaleOf w.sc x.c) (-1) (decodeElem (fmtCode (bits x.aux 2 0)) r.toNat)))

/-- VUNPK (R337). -/
def execVunpk (w : RowMods) (s : State) : Out :=
  .next (s.cvtOp .vunpk w 32 (BitVec.allOnes 64) fun x k =>
    let src := bits x.aux 2 0
    let r := elem (fmtWidth src) x.a (64 * bits w.imm.toNat 62 61 + k)
    cvtAt x w.imm (fmtCode w.fmt.toNat) (bits x.aux 5 3) k 0
      (scaled (scaleOf w.sc x.c) 1 (decodeElem (fmtCode src) r)))

/-- One stage of the butterfly over 256 values (R207). -/
def bflyStage (t : Nat) (y : List W32) : List W32 :=
  (List.range 256).map fun a =>
    let v (i : Nat) : Val := fp (y.getD i 0)
    if a % 2 ^ (t + 1) < 2 ^ t then r32 (Val.add (v a) (v (a + 2 ^ t)))
    else r32 (Val.add (v (a - 2 ^ t)) (v a).neg)

/-- The mode of VBFLY's own code (R338). -/
def bflyMode (c : Nat) : Nat := if c = 2 then 4 else c

/-- The 256 transformed values of registers a..a+3 (R207, R208, R338). -/
def bflyBlock (x : RowCx) (sa st : Nat) : List W32 :=
  let y := (List.range 256).map fun n => lane (mget 0 x.pe.v (sa + n / 64)) (n % 64)
  let y := iter bflyStage st y
  if st % 2 = 1 then y.map fun v => r32 (Val.mul (fp v) (fp 0x3F3504F3)) else y

/-- VBFLY (R338, R207, R208). -/
def execVbfly (w : RowMods) (s : State) : Out :=
  let st := bits (auxOf w) 3 0
  .next (s.row .vbfly w fun x t =>
    let c := scaleOf w.sb x.b
    let y := bflyBlock x w.sa.toNat st
    let down : Int := if c < st / 2 then (c : Int) - ((st / 2 : Nat) : Int) else 0
    let f (i : Nat) : Cvt := cvtAt x w.imm (fmtCode w.fmt.toNat) (bflyMode (bits x.aux 5 4)) (i / 4) (i % 4)
      (Val.shift down (scaled c (-1) (fp (y.getD i 0))))
    let n := countCvt 4 x.mask f
    .go t (some (mkElems 8 fun i => (f i).bits)) x.mask n.1 n.2)

/-- VRNG (R339, R185). -/
def execVrng (w : RowMods) (s : State) : Out :=
  .next (s.vec .vrng w fun x => mkLanes fun k =>
    rng (w.imm ^^^ x.id) (BitVec.ofNat 64 (x.idx * 2 ^ 38 + x.q * 2 ^ 6 + k)))

end Sys2Proof.Machine
end

