-- ==== Sys2Proof/Machine/RowFp.lean ====
section
/-! DEFINITION. Floating-point row ops (R331-R333): the exact result, rounded once to FMT (R193). -/

namespace Sys2Proof.Machine

/-- An op on the exact values of the elements of a, b and c. -/
def State.fpOp (s : State) (o : Op) (w : RowMods) (f : Val → Val → Val → Val) : State :=
  let c := fmtCode w.fmt.toNat
  let n := fmtWidth w.fmt.toNat
  s.vec o w fun x => mkElems n fun i =>
    rne c (f (decodeElem c (elem n x.a i)) (decodeElem c (elem n x.b i)) (decodeElem c (elem n x.c i)))

def execVfadd (w : RowMods) (s : State) : Out := .next (s.fpOp .vfadd w fun a b _ => Val.add a b)
def execVfsub (w : RowMods) (s : State) : Out := .next (s.fpOp .vfsub w fun a b _ => Val.add a b.neg)
def execVfmul (w : RowMods) (s : State) : Out := .next (s.fpOp .vfmul w fun a b _ => Val.mul a b)
def execVfma (w : RowMods) (s : State) : Out := .next (s.fpOp .vfma w fun a b c => Val.add (Val.mul a b) c)
def execVfmin (w : RowMods) (s : State) : Out := .next (s.fpOp .vfmin w fun a b _ => Val.minMax false a b)
def execVfmax (w : RowMods) (s : State) : Out := .next (s.fpOp .vfmax w fun a b _ => Val.minMax true a b)
def execVfabs (w : RowMods) (s : State) : Out := .next (s.fpOp .vfabs w fun a _ _ => a.abs)
def execVfneg (w : RowMods) (s : State) : Out := .next (s.fpOp .vfneg w fun a _ _ => a.neg)
def execVrcp (w : RowMods) (s : State) : Out := .next (s.fpOp .vrcp w fun a _ _ => vrcp a)
def execVrsq (w : RowMods) (s : State) : Out := .next (s.fpOp .vrsq w fun a _ _ => vrsq a)
def execVexp2 (w : RowMods) (s : State) : Out := .next (s.fpOp .vexp2 w fun a _ _ => vexp2 a)
def execVlog2 (w : RowMods) (s : State) : Out := .next (s.fpOp .vlog2 w fun a _ _ => vlog2 a)

/-- VFCMP (R332): all ones or zero. -/
def execVfcmp (w : RowMods) (s : State) : Out :=
  let c := fmtCode w.fmt.toNat
  let n := fmtWidth w.fmt.toNat
  .next (s.vec .vfcmp w fun x => mkElems n fun i =>
    if cmpVal (bits (auxOf w) 2 0) (decodeElem c (elem n x.a i)) (decodeElem c (elem n x.b i)) then 2 ^ n - 1 else 0)

/-- The angle of lane pair m (R333). -/
def ropeOf (x : RowCx) (m : Nat) : Option (W32 × W32) := ropeAngle (lane x.b (2 * m)).toNat (lane x.c (2 * m))

/-- The rotation of R216, lane k. -/
def ropeLane (x : RowCx) (k : Nat) : W32 :=
  let a := fp (lane x.a (k / 2 * 2))
  let b := fp (lane x.a (k / 2 * 2 + 1))
  match ropeOf x (k / 2) with
  | none => 0x7FC00000
  | some (cs, sn) =>
    if k % 2 = 0 then r32 (Val.add (Val.mul a (fp cs)) (Val.mul b (fp sn)).neg)
    else r32 (Val.add (Val.mul a (fp sn)) (Val.mul b (fp cs)))

/-- VROPE (R333): an invalid frequency counts NFC for each enabled output. -/
def execVrope (w : RowMods) (s : State) : Out :=
  .next (s.vecCount .vrope w fun x =>
    (mkLanes (ropeLane x),
     ((List.range 64).filter fun k => x.mask.getLsbD k && (ropeOf x (k / 2)).isNone).length, 0))

end Sys2Proof.Machine
end

