-- ==== Sys2Proof/Machine/RowInt.lean ====
section
/-! DEFINITION. Integer row ops (R328-R330). -/

namespace Sys2Proof.Machine

/-- Element width of an integer row: 8 for FMT 6, 32 for FMT 7 (R328). -/
def intWidth (w : RowMods) : Nat := if w.fmt = 6 then 8 else 32

/-- An op on the elements of a and b, with their width; the result wraps modulo 2^w (R328). -/
def State.intOp (s : State) (o : Op) (w : RowMods) (f : Nat → Nat → Nat → Nat) : State :=
  s.vec o w fun x => mkElems (intWidth w) fun n => f (intWidth w) (elem (intWidth w) x.a n) (elem (intWidth w) x.b n)

def execVadd (w : RowMods) (s : State) : Out := .next (s.intOp .vadd w fun _ a b => a + b)
def execVsub (w : RowMods) (s : State) : Out := .next (s.intOp .vsub w fun n a b => a + (2 ^ n - b))
def execVmul (w : RowMods) (s : State) : Out := .next (s.intOp .vmul w fun _ a b => a * b)
/-- The high half of the signed product. -/
def execVmulh (w : RowMods) (s : State) : Out :=
  .next (s.intOp .vmulh w fun n a b => umod n (sgn n a * sgn n b / ((2 ^ n : Nat) : Int)))
def execVand (w : RowMods) (s : State) : Out := .next (s.intOp .vand w fun _ a b => a &&& b)
def execVor (w : RowMods) (s : State) : Out := .next (s.intOp .vor w fun _ a b => a ||| b)
def execVxor (w : RowMods) (s : State) : Out := .next (s.intOp .vxor w fun _ a b => a ^^^ b)
def execVshl (w : RowMods) (s : State) : Out := .next (s.intOp .vshl w fun n a b => a <<< (b % n))
def execVshr (w : RowMods) (s : State) : Out := .next (s.intOp .vshr w fun n a b => a >>> (b % n))
/-- Sign fill: the floor of sa / 2^(b mod w). -/
def execVsra (w : RowMods) (s : State) : Out :=
  .next (s.intOp .vsra w fun n a b => umod n (sgn n a / ((2 ^ (b % n) : Nat) : Int)))
def execVmin (w : RowMods) (s : State) : Out := .next (s.intOp .vmin w fun n a b => if sgn n b < sgn n a then b else a)
def execVmax (w : RowMods) (s : State) : Out := .next (s.intOp .vmax w fun n a b => if sgn n a < sgn n b then b else a)
def execVabs (w : RowMods) (s : State) : Out := .next (s.intOp .vabs w fun n a _ => (sgn n a).natAbs)

/-- VCMP (R329): all ones or zero. -/
def execVcmp (w : RowMods) (s : State) : Out :=
  .next (s.intOp .vcmp w fun n a b => if cmpInt (bits (auxOf w) 2 0) n a b then 2 ^ n - 1 else 0)

/-- One lane of VQRS (R330, R214). -/
def qrsLane (w : RowMods) (a b : W32) : Int × Bool :=
  if w.fmt = 6 then rescale a.toInt b.toInt (auxOf w) (-128) 127
  else rescale a.toInt b.toInt (auxOf w) (-2147483648) 2147483647

/-- VQRS (R330): SATC counts each clamped enabled lane. -/
def execVqrs (w : RowMods) (s : State) : Out :=
  .next (s.vecCount .vqrs w fun x =>
    (mkLanes fun k => BitVec.ofInt 32 (qrsLane w (lane x.a k) (lane x.b k)).1, 0,
     ((List.range 64).filter fun k => x.mask.getLsbD k && (qrsLane w (lane x.a k) (lane x.b k)).2).length))

end Sys2Proof.Machine
end

