-- ==== Sys2Proof/Machine/RowLane.lean ====
section
/-! DEFINITION. Lane ops, reductions and the attention merge (R340-R342, R357, R358). -/

namespace Sys2Proof.Machine

/-- VSHUF (R340). -/
def execVshuf (w : RowMods) (s : State) : Out :=
  .next (s.vec .vshuf w fun x => mkLanes fun k =>
    if (lane x.b k).getLsbD 7 then 0 else lane x.a ((lane x.b k).toNat % 64))

/-- VROTL (R340). -/
def execVrotl (w : RowMods) (s : State) : Out :=
  .next (s.vec .vrotl w fun x => mkLanes fun k => lane x.a ((k + x.aux) % 64))

/-- VBCAST (R341). -/
def execVbcast (w : RowMods) (s : State) : Out := .next (s.vec .vbcast w fun x => splat (lane x.a 0))

/-- The operation of VRED, VSCAN and TRED (R342). -/
def redOp (op : Nat) (a b : W32) : W32 :=
  match op with
  | 0 => r32 (Val.add (fp a) (fp b))
  | 1 => r32 (Val.minMax true (fp a) (fp b))
  | 2 => r32 (Val.minMax false (fp a) (fp b))
  | 3 => a + b
  | 4 => if b.slt a then a else b
  | _ => if a.slt b then a else b

/-- The identity for disabled lanes (R342). -/
def redId (op : Nat) : W32 :=
  match op with
  | 1 => 0xFF800000
  | 2 => 0x7F800000
  | 4 => 0x80000000
  | 5 => 0x7FFFFFFF
  | _ => 0

def redIn (x : RowCx) (op k : Nat) : W32 := if x.mask.getLsbD k then lane x.a k else redId op

/-- One halving of the tree of VRED. -/
def redHalf (op : Nat) (l : List W32) : List W32 := (l.take (l.length / 2)).zipWith (redOp op) (l.drop (l.length / 2))

/-- VRED (R342): a fixed tree over 64 lanes. -/
def execVred (w : RowMods) (s : State) : Out :=
  let op := bits (auxOf w) 2 0
  .next (s.vec .vred w fun x =>
    splat ((iter (fun _ l => redHalf op l) 6 ((List.range 64).map (redIn x op))).headD 0))

/-- VSCAN's running values (R342). -/
def scanFrom (op : Nat) (y : W32) : List W32 → List W32
  | [] => []
  | a :: t => redOp op y a :: scanFrom op (redOp op y a) t

/-- VSCAN (R342). -/
def execVscan (w : RowMods) (s : State) : Out :=
  let op := bits (auxOf w) 2 0
  .next (s.vec .vscan w fun x =>
    let l := scanFrom op (redId op) ((List.range 64).map (redIn x op))
    mkLanes fun k => l.getD k 0)

/-- TRED (R357). -/
def execTred (w : RowMods) (s : State) : Out :=
  let op := bits (auxOf w) 2 0
  .next (s.vec .tred w fun x => mkLanes fun k => redOp op (lane x.a k) (lane x.b k))

/-- The factor of one side of a merge (R217). -/
def mergeFactor (m mx : W32) : W32 :=
  if m = 0xFF800000 then 0 else r32 (vexp2 (fp (r32 (Val.add (fp m) (fp mx).neg))))

/-- a1 * p + a2 * q, rounded once. -/
def mergeSum (a1 p a2 q : W32) : W32 := r32 (Val.add (Val.mul (fp a1) (fp p)) (Val.mul (fp a2) (fp q)))

/-- TMERGE (R358, R217). -/
def execTmerge (w : RowMods) (s : State) : Out :=
  .next (s.vec .tmerge w fun x =>
    let m1 := lane x.c 0
    let l1 := lane x.c 1
    let m2 := lane x.c 2
    let l2 := lane x.c 3
    let nan := (fp m1).isNan || (fp m2).isNan
    let none_ := m1 = 0xFF800000 ∧ m2 = 0xFF800000
    let m := r32 (Val.minMax true (fp m1) (fp m2))
    let a1 := mergeFactor m1 m
    let a2 := mergeFactor m2 m
    let o (p q : W32) : W32 := if nan then 0x7FC00000 else if none_ then 0 else mergeSum a1 p a2 q
    if bit x.aux 0 then mkLanes fun k => if k = 0 then m else if k = 1 then o l1 l2 else 0
    else mkLanes fun k => o (lane x.a k) (lane x.b k))

end Sys2Proof.Machine
end

