-- ==== Sys2Proof/Machine/Dispatch.lean ====
section
/-! DEFINITION. One arm per instruction: its meaning, or its rejection by name. -/

namespace Sys2Proof.Machine

def exec (i : Instr) (s : State) : Host.Outcome State Fault Refusal :=
  match i with
  | .add d a b => Sys2Proof.Machine.execAdd d a b s
  | .sub d a b => Sys2Proof.Machine.execSub d a b s
  | .and d a b => Sys2Proof.Machine.execAnd d a b s
  | .or d a b => Sys2Proof.Machine.execOr d a b s
  | .xor d a b => Sys2Proof.Machine.execXor d a b s
  | .sll d a b => Sys2Proof.Machine.execSll d a b s
  | .srl d a b => Sys2Proof.Machine.execSrl d a b s
  | .sra d a b => Sys2Proof.Machine.execSra d a b s
  | .mul d a b => Sys2Proof.Machine.execMul d a b s
  | .mulh d a b => Sys2Proof.Machine.execMulh d a b s
  | .mulhu d a b => Sys2Proof.Machine.execMulhu d a b s
  | .div d a b => Sys2Proof.Machine.execDiv d a b s
  | .divu d a b => Sys2Proof.Machine.execDivu d a b s
  | .rem d a b => Sys2Proof.Machine.execRem d a b s
  | .remu d a b => Sys2Proof.Machine.execRemu d a b s
  | .slt d a b => Sys2Proof.Machine.execSlt d a b s
  | .sltu d a b => Sys2Proof.Machine.execSltu d a b s
  | .min d a b => Sys2Proof.Machine.execMin d a b s
  | .max d a b => Sys2Proof.Machine.execMax d a b s
  | .minu d a b => Sys2Proof.Machine.execMinu d a b s
  | .maxu d a b => Sys2Proof.Machine.execMaxu d a b s
  | .clz d a => Sys2Proof.Machine.execClz d a s
  | .popc d a => Sys2Proof.Machine.execPopc d a s
  | .bext d a b => Sys2Proof.Machine.execBext d a b s
  | .bins d a b c => Sys2Proof.Machine.execBins d a b c s
  | .sel d a b c => Sys2Proof.Machine.execSel d a b c s
  | .addi d a imm => Sys2Proof.Machine.execAddi d a imm s
  | .andi d a imm => Sys2Proof.Machine.execAndi d a imm s
  | .ori d a imm => Sys2Proof.Machine.execOri d a imm s
  | .xori d a imm => Sys2Proof.Machine.execXori d a imm s
  | .slti d a imm => Sys2Proof.Machine.execSlti d a imm s
  | .shi d a k n => Sys2Proof.Machine.execShi d a k n s
  | .lui d imm => Sys2Proof.Machine.execLui d imm s
  | .idf d a l => Sys2Proof.Machine.execIdf d a l s
  | .ldb d a o => Sys2Proof.Machine.execLdb d a o s
  | .ldbu d a o => Sys2Proof.Machine.execLdbu d a o s
  | .ldh d a o => Sys2Proof.Machine.execLdh d a o s
  | .ldhu d a o => Sys2Proof.Machine.execLdhu d a o s
  | .ldw d a o => Sys2Proof.Machine.execLdw d a o s
  | .ldwu d a o => Sys2Proof.Machine.execLdwu d a o s
  | .ldd d a o => Sys2Proof.Machine.execLdd d a o s
  | .ldaq d a q => Sys2Proof.Machine.execLdaq d a q s
  | .stb q a o => Sys2Proof.Machine.execStb q a o s
  | .sth q a o => Sys2Proof.Machine.execSth q a o s
  | .stw q a o => Sys2Proof.Machine.execStw q a o s
  | .std q a o => Sys2Proof.Machine.execStd q a o s
  | .strl q a c => Sys2Proof.Machine.execStrl q a c s
  | .beq a b o => Sys2Proof.Machine.execBeq a b o s
  | .bne a b o => Sys2Proof.Machine.execBne a b o s
  | .blt a b o => Sys2Proof.Machine.execBlt a b o s
  | .bge a b o => Sys2Proof.Machine.execBge a b o s
  | .bltu a b o => Sys2Proof.Machine.execBltu a b o s
  | .bgeu a b o => Sys2Proof.Machine.execBgeu a b o s
  | .jal l o => Sys2Proof.Machine.execJal l o s
  | .jalr d a o => Sys2Proof.Machine.execJalr d a o s
  | .loop a o => Sys2Proof.Machine.execLoop a o s
  | .loopi n o => Sys2Proof.Machine.execLoopi n o s
  | .trap imm => Sys2Proof.Machine.execTrap imm s
  | .csrr d c => Sys2Proof.Machine.execCsrr d c s
  | .csrw d a c => Sys2Proof.Machine.execCsrw d a c s
  | .csrs d a c => Sys2Proof.Machine.execCsrs d a c s
  | .csrc d a c => Sys2Proof.Machine.execCsrc d a c s
  | .fence k q => Sys2Proof.Machine.execFence k q s
  | .wait a => Sys2Proof.Machine.execWait a s
  | .eqpop d a => Sys2Proof.Machine.execEqpop d a s
  | .eqpeek d a => Sys2Proof.Machine.execEqpeek d a s
  | .eqwait d a => Sys2Proof.Machine.execEqwait d a s
  | .eqpost d a b c => Sys2Proof.Machine.execEqpost d a b c s
  | .rplace d a => Sys2Proof.Machine.execRplace d a s
  | .rload d a b => Sys2Proof.Machine.execRload d a b s
  | .rcfg d a b c => Sys2Proof.Machine.execRcfg d a b c s
  | .rstart d a => Sys2Proof.Machine.execRstart d a s
  | .rstop d a => Sys2Proof.Machine.execRstop d a s
  | .rstat d a => Sys2Proof.Machine.execRstat d a s
  | .rrel d a => Sys2Proof.Machine.execRrel d a s
  | .radj d a b c => Sys2Proof.Machine.execRadj d a b c s
  | .jraise d a b => Sys2Proof.Machine.execJraise d a b s
  | .jdone d a b => Sys2Proof.Machine.execJdone d a b s
  | .jwait d a b => Sys2Proof.Machine.execJwait d a b s
  | .launch d a b => Sys2Proof.Machine.execLaunch d a b s
  | .sq d a b => Sys2Proof.Machine.execSq d a b s
  | .sprog d a b c => Sys2Proof.Machine.execSprog d a b c s
  | .scancel d a => Sys2Proof.Machine.execScancel d a s
  | .sstat d a => Sys2Proof.Machine.execSstat d a s
  | .recfl d a => Sys2Proof.Machine.execRecfl d a s
  | .scomb d a => Sys2Proof.Machine.execScomb d a s
  | .bwait d a b c => Sys2Proof.Machine.execBwait d a b c s
  | .bset d a b => Sys2Proof.Machine.execBset d a b s
  | .clean d a b => Sys2Proof.Machine.execClean d a b s
  | .inval d a b => Sys2Proof.Machine.execInval d a b s
  | .flush d a b => Sys2Proof.Machine.execFlush d a b s
  | .lock d a b => Sys2Proof.Machine.execLock d a b s
  | .unlock d a b => Sys2Proof.Machine.execUnlock d a b s
  | .hover d a b c => Sys2Proof.Machine.execHover d a b c s
  | .aadd d a b w => Sys2Proof.Machine.execAadd d a b w s
  | .aand d a b w => Sys2Proof.Machine.execAand d a b w s
  | .aor d a b w => Sys2Proof.Machine.execAor d a b w s
  | .axor d a b w => Sys2Proof.Machine.execAxor d a b w s
  | .amin d a b q w => Sys2Proof.Machine.execAmin d a b q w s
  | .amax d a b q w => Sys2Proof.Machine.execAmax d a b q w s
  | .axchg d a b w => Sys2Proof.Machine.execAxchg d a b w s
  | .acas d a b c => Sys2Proof.Machine.execAcas d a b c s
  | .afadd d a b => Sys2Proof.Machine.execAfadd d a b s
  | .arun d a b c => Sys2Proof.Machine.execArun d a b c s
  | .rdef d a b => Sys2Proof.Machine.execRdef d a b s
  | .lapp d a b c => Sys2Proof.Machine.execLapp d a b c s
  | .lmrg d a b c => Sys2Proof.Machine.execLmrg d a b c s
  | .lld d a => Sys2Proof.Machine.execLld d a s
  | .lst a b => Sys2Proof.Machine.execLst a b s
  | .ldone a => Sys2Proof.Machine.execLdone a s
  | .ddecl d a b => Sys2Proof.Machine.execDdecl d a b s
  | .ddrop d a => Sys2Proof.Machine.execDdrop d a s
  | .drd d a b => Sys2Proof.Machine.execDrd d a b s
  | .drds d a b => Sys2Proof.Machine.execDrds d a b s
  | .dsnap d a b => Sys2Proof.Machine.execDsnap d a b s
  | .dsync d a => Sys2Proof.Machine.execDsync d a s
  | .dreb d a => Sys2Proof.Machine.execDreb d a s
  | .qscale d a b => Sys2Proof.Machine.execQscale d a b s
  | .kinf d a b c => Sys2Proof.Machine.execKinf d a b c s
  | .kfb d a b c => Sys2Proof.Machine.execKfb d a b c s
  | .kseed d a b c => Sys2Proof.Machine.execKseed d a b c s
  | .kld d a b c => Sys2Proof.Machine.execKld d a b c s
  | .kst d a b c => Sys2Proof.Machine.execKst d a b c s
  | .kcfg d a b => Sys2Proof.Machine.execKcfg d a b s
  | .kvote d a b => Sys2Proof.Machine.execKvote d a b s
  | .ksync d a b => Sys2Proof.Machine.execKsync d a b s
  | .kclr d a => Sys2Proof.Machine.execKclr d a s
  | .rkey a b => Sys2Proof.Machine.execRkey a b s
  | .rdraw d => Sys2Proof.Machine.execRdraw d s
  | .nvrd d a b c => Sys2Proof.Machine.execNvrd d a b c s
  | .nvwr d a b c => Sys2Proof.Machine.execNvwr d a b c s
  | .offl d a => Sys2Proof.Machine.execOffl d a s
  | .recall d a => Sys2Proof.Machine.execRecall d a s
  | .xloc d a b => Sys2Proof.Machine.execXloc d a b s
  | .nop w => Sys2Proof.Machine.execNop w s
  | .rowHalt w => Sys2Proof.Machine.execRowHalt w s
  | .haltf w => Sys2Proof.Machine.execHaltf w s
  | .cond w => Sys2Proof.Machine.execCond w s
  | .epost w => Sys2Proof.Machine.execEpost w s
  | .mov w => Sys2Proof.Machine.execMov w s
  | .rowSel w => Sys2Proof.Machine.execRowSel w s
  | .limm w => Sys2Proof.Machine.execLimm w s
  | .vadd w => Sys2Proof.Machine.execVadd w s
  | .vsub w => Sys2Proof.Machine.execVsub w s
  | .vmul w => Sys2Proof.Machine.execVmul w s
  | .vmulh w => Sys2Proof.Machine.execVmulh w s
  | .vand w => Sys2Proof.Machine.execVand w s
  | .vor w => Sys2Proof.Machine.execVor w s
  | .vxor w => Sys2Proof.Machine.execVxor w s
  | .vshl w => Sys2Proof.Machine.execVshl w s
  | .vshr w => Sys2Proof.Machine.execVshr w s
  | .vsra w => Sys2Proof.Machine.execVsra w s
  | .vmin w => Sys2Proof.Machine.execVmin w s
  | .vmax w => Sys2Proof.Machine.execVmax w s
  | .vabs w => Sys2Proof.Machine.execVabs w s
  | .vcmp w => Sys2Proof.Machine.execVcmp w s
  | .vqrs w => Sys2Proof.Machine.execVqrs w s
  | .vfadd w => Sys2Proof.Machine.execVfadd w s
  | .vfsub w => Sys2Proof.Machine.execVfsub w s
  | .vfmul w => Sys2Proof.Machine.execVfmul w s
  | .vfma w => Sys2Proof.Machine.execVfma w s
  | .vfmin w => Sys2Proof.Machine.execVfmin w s
  | .vfmax w => Sys2Proof.Machine.execVfmax w s
  | .vfabs w => Sys2Proof.Machine.execVfabs w s
  | .vfneg w => Sys2Proof.Machine.execVfneg w s
  | .vfcmp w => Sys2Proof.Machine.execVfcmp w s
  | .vrcp w => Sys2Proof.Machine.execVrcp w s
  | .vrsq w => Sys2Proof.Machine.execVrsq w s
  | .vexp2 w => Sys2Proof.Machine.execVexp2 w s
  | .vlog2 w => Sys2Proof.Machine.execVlog2 w s
  | .vrope w => Sys2Proof.Machine.execVrope w s
  | .vnfc w => Sys2Proof.Machine.execVnfc w s
  | .vopt w => Sys2Proof.Machine.execVopt w s
  | .vcvt w => Sys2Proof.Machine.execVcvt w s
  | .vpack w => Sys2Proof.Machine.execVpack w s
  | .vunpk w => Sys2Proof.Machine.execVunpk w s
  | .vbfly w => Sys2Proof.Machine.execVbfly w s
  | .vrng w => Sys2Proof.Machine.execVrng w s
  | .vshuf w => Sys2Proof.Machine.execVshuf w s
  | .vrotl w => Sys2Proof.Machine.execVrotl w s
  | .vbcast w => Sys2Proof.Machine.execVbcast w s
  | .vred w => Sys2Proof.Machine.execVred w s
  | .vscan w => Sys2Proof.Machine.execVscan w s
  | .lds w => Sys2Proof.Machine.execLds w s
  | .ldss w => Sys2Proof.Machine.execLdss w s
  | .sts w => Sys2Proof.Machine.execSts w s
  | .ldg w => Sys2Proof.Machine.execLdg w s
  | .stg w => Sys2Proof.Machine.execStg w s
  | .gath w => Sys2Proof.Machine.execGath w s
  | .scat w => Sys2Proof.Machine.execScat w s
  | .back w => Sys2Proof.Machine.execBack w s
  | .lapr w => Sys2Proof.Machine.execLapr w s
  | .mldw w => Sys2Proof.Machine.execMldw w s
  | .mpass w => Sys2Proof.Machine.execMpass w s
  | .mpassd w => Sys2Proof.Machine.execMpassd w s
  | .mwait w => Sys2Proof.Machine.execMwait w s
  | .mrd w => Sys2Proof.Machine.execMrd w s
  | .mclr w => Sys2Proof.Machine.execMclr w s
  | .msprs w => Sys2Proof.Machine.execMsprs w s
  | .tmerge w => Sys2Proof.Machine.execTmerge w s
  | .tred w => Sys2Proof.Machine.execTred w s
  | .loadReply die pen pe => Sys2Proof.Machine.execLoadReply die pen pe s
  | .mpassdFetch die pen pe => Sys2Proof.Machine.execMpassdFetch die pen pe s
  | .penRetire die pen => Sys2Proof.Machine.execPenRetire die pen s
  | .penFaultSave die pen => Sys2Proof.Machine.execPenFaultSave die pen s
  | .taskPlacement die => Sys2Proof.Machine.execTaskPlacement die s
  | .preemption die pen => Sys2Proof.Machine.execPreemption die pen s
  | .restore die pen => Sys2Proof.Machine.execRestore die pen s
  | .eventPost die n => Sys2Proof.Machine.execEventPost die n s
  | .hostRingPost func => Sys2Proof.Machine.execHostRingPost func s
  | .commandDispatch die pen port => Sys2Proof.Machine.execCommandDispatch die pen port s
  | .streamTile die eng slot => Sys2Proof.Machine.execStreamTile die eng slot s
  | .streamCommandDone die eng slot => Sys2Proof.Machine.execStreamCommandDone die eng slot s
  | .spat h => Sys2Proof.Machine.execSpat h s
  | .sdstPort port pen die => Sys2Proof.Machine.execSdstPort port pen die s
  | .sdstMem h => Sys2Proof.Machine.execSdstMem h s
  | .sgoSet dim start count => Sys2Proof.Machine.execSgoSet dim start count s
  | .sgoSetgo dim start count => Sys2Proof.Machine.execSgoSetgo dim start count s
  | .sxpose on => Sys2Proof.Machine.execSxpose on s
  | .scmb h => Sys2Proof.Machine.execScmb h s
  | .sloop dim stp passes => Sys2Proof.Machine.execSloop dim stp passes s
  | .swaith port pen die st nm1 => Sys2Proof.Machine.execSwaith port pen die st nm1 s
  | .sevt tag => Sys2Proof.Machine.execSevt tag s
  | .speer chunk cidx => Sys2Proof.Machine.execSpeer chunk cidx s
  | .chunkDeadline chunk => Sys2Proof.Machine.execChunkDeadline chunk s
  | .chunkAck die eng slot status => Sys2Proof.Machine.execChunkAck die eng slot status s
  | .combinePacket cmd => Sys2Proof.Machine.execCombinePacket cmd s
  | .combineDone cmd => Sys2Proof.Machine.execCombineDone cmd s
  | .deltaBatch set => Sys2Proof.Machine.execDeltaBatch set s
  | .rescanDone set slot group => Sys2Proof.Machine.execRescanDone set slot group s
  | .rebuildRequest set line => Sys2Proof.Machine.execRebuildRequest set line s
  | .derivedReady set slot => Sys2Proof.Machine.execDerivedReady set slot s
  | .dsyncMarker set home => Sys2Proof.Machine.execDsyncMarker set home s
  | .logAppend home => Sys2Proof.Machine.execLogAppend home s
  | .logMerge home => Sys2Proof.Machine.execLogMerge home s
  | .hoverDone idx => Sys2Proof.Machine.execHoverDone idx s
  | .sampleFeedback bank => Sys2Proof.Machine.execSampleFeedback bank s
  | .sampleCommit bank => Sys2Proof.Machine.execSampleCommit bank s
  | .inferenceDone bank => Sys2Proof.Machine.execInferenceDone bank s
  | .kvoteSample bank => Sys2Proof.Machine.execKvoteSample bank s
  | .kickDone func => Sys2Proof.Machine.execKickDone func s
  | .htcmdDone func => Sys2Proof.Machine.execHtcmdDone func s
  | .illegal w => Sys2Proof.Machine.execIllegal w s
  | .storeTranslationDone die pen pe => Sys2Proof.Machine.execStoreTranslationDone die pen pe s
  | .homeAccess agent pa len wr => Sys2Proof.Machine.execHomeAccess agent pa len wr s
  | .lineRecall line => Sys2Proof.Machine.execLineRecall line s
  | .drainRequest line agent => Sys2Proof.Machine.execDrainRequest line agent s
  | .drainAck line agent => Sys2Proof.Machine.execDrainAck line agent s
  | .writeback agent line => Sys2Proof.Machine.execWriteback agent line s
  | .eviction agent line => Sys2Proof.Machine.execEviction agent line s
  | .leaseExpiry agent line => Sys2Proof.Machine.execLeaseExpiry agent line s
  | .backgroundSweep agent line => Sys2Proof.Machine.execBackgroundSweep agent line s
  | .patrolScrub line fixed => Sys2Proof.Machine.execPatrolScrub line fixed s
  | .l2Scrub line fixed => Sys2Proof.Machine.execL2Scrub line fixed s
  | .uncorrectableError place => Sys2Proof.Machine.execUncorrectableError place s
  | .pageRequest peer page write => Sys2Proof.Machine.execPageRequest peer page write s
  | .pageHandover page lines => Sys2Proof.Machine.execPageHandover page lines s
  | .splitwMerge peer line data mask => Sys2Proof.Machine.execSplitwMerge peer line data mask s
  | .nvmeCompletion idx status data => Sys2Proof.Machine.execNvmeCompletion idx status data s
  | .offloadTransferDone ctx idx status data => Sys2Proof.Machine.execOffloadTransferDone ctx idx status data s
  | .toDevice func ctx => Sys2Proof.Machine.execToDevice func ctx s
  | .toHost func ctx => Sys2Proof.Machine.execToHost func ctx s
  | .hlcmd func die ctx => Sys2Proof.Machine.execHlcmd func die ctx s
  | .hetail func value => Sys2Proof.Machine.execHetail func value s
  | .htcmd func ctx => Sys2Proof.Machine.execHtcmd func ctx s
  | .cwdata value => Sys2Proof.Machine.execCwdata value s
  | .cwostStart die n ctx => Sys2Proof.Machine.execCwostStart die n ctx s
  | .cwostStop die n => Sys2Proof.Machine.execCwostStop die n s
  | .cwostStopDone die n => Sys2Proof.Machine.execCwostStopDone die n s
  | .ataddr value => Sys2Proof.Machine.execAtaddr value s
  | .msixUnmask func vec => Sys2Proof.Machine.execMsixUnmask func vec s
  | .registerWrite func off value => Sys2Proof.Machine.execRegisterWrite func off value s
  | .functionLevelReset func => Sys2Proof.Machine.execFunctionLevelReset func s
  | .bringUp fw => Sys2Proof.Machine.execBringUp fw s
  | .powerStep watts => Sys2Proof.Machine.execPowerStep watts s
  | .powerLimitSet watts => Sys2Proof.Machine.execPowerLimitSet watts s
  | .currentSurge on => Sys2Proof.Machine.execCurrentSurge on s
  | .linkPortFailure port => Sys2Proof.Machine.execLinkPortFailure port s
  | .linkPathTimeout peer => Sys2Proof.Machine.execLinkPathTimeout peer s
  | .peerReset peer => Sys2Proof.Machine.execPeerReset peer s
  | .peSramScrub die stall fixed => Sys2Proof.Machine.execPeSramScrub die stall fixed s
  | .attestationDone => Sys2Proof.Machine.execAttestationDone s
  | .telemetrySnapshot => Sys2Proof.Machine.execTelemetrySnapshot s
  | .moduleReset => Sys2Proof.Machine.execModuleReset s
  | .thermalThrottle => Sys2Proof.Machine.execThermalThrottle s
  | .thermalTrip => Sys2Proof.Machine.execThermalTrip s
  | .fetch => Sys2Proof.Machine.execFetch s
  | .chunkArrival chunk cidx fmt data => Sys2Proof.Machine.execChunkArrival chunk cidx fmt data s
  | .heldFc die gang => Sys2Proof.Machine.execHeldFc die gang s
  | .watchdog die pen => Sys2Proof.Machine.execWatchdog die pen s
  | .matrixPassComplete die pen pe => Sys2Proof.Machine.execMatrixPassComplete die pen pe s
  | .deferredStoreFault die pen pe => Sys2Proof.Machine.execDeferredStoreFault die pen pe s
  | .compaction die pen origin => Sys2Proof.Machine.execCompaction die pen origin s
  | .ostlerWaitEnd die n => Sys2Proof.Machine.execOstlerWaitEnd die n s
  | .sgoGo => Sys2Proof.Machine.execSgoGo s
  | .sendl => Sys2Proof.Machine.execSendl s
  | .sfence => Sys2Proof.Machine.execSfence s
  | .sdone => Sys2Proof.Machine.execSdone s
  | .lpop => Sys2Proof.Machine.execLpop s
  | .eret => Sys2Proof.Machine.execEret s
  | .halt => Sys2Proof.Machine.execHalt s

end Sys2Proof.Machine
end

