-- ==== Sys2Proof/Machine/Step.lean ====
section
/-! DEFINITION. One step of the model: the next turn of its agenda, or of the turns of this oc. -/

namespace Sys2Proof.Machine

/-- One step. A slice routine in progress runs to its end first (R384); after a thermal trip no clock runs (R433).
[DESIGN CHOICE, log 5, 42] -/
def step (s : State) : Host.Outcome State Fault Refusal :=
  if s.tripped && !s.bringsUp then .fault .clocksStopped
  else
    match s.routine with
    | some r => s.routineTurn exec r
    | none => s.takeTurn.2.turn exec s.takeTurn.1

/-- s with an instruction stored where the next step fetches it. [DESIGN CHOICE, log 6] -/
def State.withFetchWord (s : State) (nbits w : Nat) : State := s.placeWord nbits w

end Sys2Proof.Machine
end

