-- ==== Sys2Proof/Safety.lean ====
section
/-! DEFINITION. The terms the statements use: how an instruction completes, what one ostler word may change, the bytes
of memory as the caches and homes hold them, and what it is for the machine to be in good order. -/

namespace Sys2Proof.Machine

/-- The memory keeps its one canonical form. -/
def State.memWf (s : State) : Bool := Memory.wf s.mem

end Sys2Proof.Machine

namespace Sys2Proof.Claims

open Sys2Proof.Machine

/-- An instruction answers a next state of which P holds. -/
def Completes (i : Instr) (s : State) (P : State → Prop) : Prop := ∃ t, exec i s = .next t ∧ P t

/-- Nothing differs but the executing ostler. -/
def OnlyCur (s t : State) : Prop := t = { s with ost := t.ost } ∧ ∀ k, k ≠ s.me → t.ostler k = s.ostler k

/-- Register d of the executing core takes v, a write of x0 being discarded, and every other register keeps its value. -/
def RegSet (s t : State) (d : Reg) (v : W64) : Prop :=
  ∀ r, t.rx r = if r = 0 then 0 else if r = d then v else s.rx r

/-- The word wrote register d and nothing else: on an ostler the pc and the loop stack then move as after_commit
says (R288), and in a slice routine the next word follows. -/
def Wrote (s t : State) (d : Reg) (v : W64) : Prop :=
  RegSet s t d v ∧
  match s.routine with
  | none => OnlyCur s t ∧ t.cur = { s.cur.commit with x := t.cur.x }
  | some rt => ∃ x, t = { s with routine := some { rt with x := x, at_ := rt.at_ + 1 } }

/-- The executing ostler alone changed, to o, and then committed its word with register d set to v. -/
def WroteFrom (s t : State) (o : Ostler) (d : Reg) (v : W64) : Prop :=
  RegSet s t d v ∧ OnlyCur s t ∧ t.cur = { o.commit with x := t.cur.x }

/-- The word trapped outside a handler (R48): EPC, CAUSE and TVAL are written, the state is pushed, nothing else moves. -/
def Trapped (s t : State) (cause : Nat) (tval : W64) : Prop :=
  OnlyCur s t ∧ t.cur = { s.cur with
    epc := s.cur.pc, cause := BitVec.ofNat 64 cause, tval := tval, status := t.cur.status, ldepth := 0,
    pc := s.cur.tvec &&& ~~~3, wait := none } ∧
  t.cur.status.getLsbD 0 = true ∧ t.cur.status.getLsbD 1 = s.cur.status.getLsbD 0 ∧
  (s.cur.ldepth ≤ 4 → (t.cur.status.extractLsb' 4 3).toNat = s.cur.ldepth)

/-- The word keeps its ostler waiting on it, in the machine u, in which nothing else changes (R276). -/
def Waits (u t : State) (i : Instr) : Prop :=
  OnlyCur u t ∧ t.cur = { u.cur with wait := t.cur.wait } ∧ ∃ w, t.cur.wait = some w ∧ w.instr = i

/-- Byte n of a number, lowest first (R5). -/
def byteOf (v n : Nat) : Byte := BitVec.ofNat 8 (v / 256 ^ n)

/-- A byte of memory as the machine holds it now: the owner's copy of its line where a cache owns it, else the home's. -/
def byteAt (s : State) (pa : Nat) : Byte :=
  match (s.dirOf (pa / 128)).owner with
  | none => lineByte (s.homeData (pa / 128)) (pa % 128)
  | some a =>
    match s.cacheOf a (pa / 128) with
    | none => lineByte (s.homeData (pa / 128)) (pa % 128)
    | some c => if c.owned then lineByte c.data (pa % 128) else lineByte (s.homeData (pa / 128)) (pa % 128)

/-- The caches and the directory agree (R86): an owned copy is its owner's, only owned copies are dirty, an owned copy
agrees with the home outside its dirty bytes, an L2 copy agrees with memory beneath it outside its own (R412), every line
named exists, and memory and the tables of copies are canonical. -/
def Coherent (s : State) : Prop :=
  mwf none s.caches = true ∧ mwf none s.l2 = true ∧ Memory.wf s.mem = true ∧
  (∀ l c, s.l2Of l = some c → l < 2 ^ 46 ∧
    ∀ i, i < 128 → c.mask.getLsbD i = false → lineByte c.data i = lineByte (s.dramLine l) i) ∧
  (∀ a l c, l < 2 ^ 46 → s.cacheOf a l = some c →
    (c.owned = true → (s.dirOf l).owner = some a) ∧ (c.mask ≠ 0 → c.owned = true) ∧
    (c.owned = true → ∀ i, i < 128 → c.mask.getLsbD i = false → lineByte c.data i = lineByte (s.homeData l) i)) ∧
  ∀ l r m, r ∈ (s.dirOf l).releases → m ∈ r.lines → m < 2 ^ 46

/-- No cache owns the line, no release stands on it, and its poison and check are good. -/
def Quiet (s : State) (l : Nat) : Prop :=
  (s.dirOf l).owner = none ∧ (s.dirOf l).releases = [] ∧ s.lineBad l = 0

end Sys2Proof.Claims
end

