-- ==== Sys2Proof/Certificates/Slice0/Obligations.lean ====
section
/-! DEFINITION. The statements for the provers, family by family in the order of the opcode table, with the terms each
needs stated from the spec's own formulas. -/

namespace Sys2Proof.Claims

open Sys2Proof.Machine

/-! ### Terms: the integer operations as R278-R280 give them -/

/-- The field position and length of BEXT and BINS (R278). -/
def fieldP (b : W64) : Nat := b.toNat % 64
def fieldL (b : W64) : Nat := min (b.toNat / 256 % 128) 64

/-- A truth value as a register holds it. -/
def flag (p : Bool) : W64 := if p then 1 else 0

/-- Leading zero bits (R278). -/
def leadingZeros (a : W64) : Nat := if a = 0 then 64 else 63 - a.toNat.log2

/-- Width k of the WIDW register (R53). -/
def widthOf (s : State) (k : Nat) : Nat := s.cur.widw.toNat / 2 ^ (7 * k) % 128

/-- The six widths, and the bits below a level. -/
def widthSum (s : State) : Nat → Nat
  | 0 => 0
  | n + 1 => widthSum s n + widthOf s n

/-- IDF (R280). -/
def idfValue (s : State) (a : W64) (level : Nat) : W64 :=
  if 64 < widthSum s 6 ∨ (List.range 6).any (fun k => 64 < widthOf s k) then 0
  else if (List.range (level + 1)).any (fun k => widthOf s k = 0) then 0
  else BitVec.ofNat 64 (a.toNat / 2 ^ widthSum s level % 2 ^ widthOf s level)

/-- Destination and result of the register forms of R278 but BINS. -/
def intResult (s : State) : Instr → Option (Reg × W64)
  | .add d a b => some (d, BitVec.ofNat 64 ((s.rx a).toNat + (s.rx b).toNat))
  | .sub d a b => some (d, BitVec.ofInt 64 ((s.rx a).toNat - (s.rx b).toNat : Int))
  | .and d a b => some (d, s.rx a &&& s.rx b)
  | .or d a b => some (d, s.rx a ||| s.rx b)
  | .xor d a b => some (d, s.rx a ^^^ s.rx b)
  | .sll d a b => some (d, BitVec.ofNat 64 ((s.rx a).toNat * 2 ^ ((s.rx b).toNat % 64)))
  | .srl d a b => some (d, BitVec.ofNat 64 ((s.rx a).toNat / 2 ^ ((s.rx b).toNat % 64)))
  | .sra d a b => some (d, BitVec.ofInt 64 ((s.rx a).toInt / 2 ^ ((s.rx b).toNat % 64)))
  | .mul d a b => some (d, BitVec.ofNat 64 ((s.rx a).toNat * (s.rx b).toNat))
  | .mulh d a b => some (d, BitVec.ofInt 64 ((s.rx a).toInt * (s.rx b).toInt / 2 ^ 64))
  | .mulhu d a b => some (d, BitVec.ofNat 64 ((s.rx a).toNat * (s.rx b).toNat / 2 ^ 64))
  | .div d a b => some (d, if s.rx b = 0 then BitVec.ofInt 64 (-1) else BitVec.ofInt 64 ((s.rx a).toInt.tdiv (s.rx b).toInt))
  | .divu d a b => some (d, if s.rx b = 0 then BitVec.ofInt 64 (-1) else BitVec.ofNat 64 ((s.rx a).toNat / (s.rx b).toNat))
  | .rem d a b => some (d, if s.rx b = 0 then s.rx a else BitVec.ofInt 64 ((s.rx a).toInt.tmod (s.rx b).toInt))
  | .remu d a b => some (d, if s.rx b = 0 then s.rx a else BitVec.ofNat 64 ((s.rx a).toNat % (s.rx b).toNat))
  | .slt d a b => some (d, flag ((s.rx a).toInt < (s.rx b).toInt))
  | .sltu d a b => some (d, flag ((s.rx a).toNat < (s.rx b).toNat))
  | .min d a b => some (d, BitVec.ofInt 64 (min (s.rx a).toInt (s.rx b).toInt))
  | .max d a b => some (d, BitVec.ofInt 64 (max (s.rx a).toInt (s.rx b).toInt))
  | .minu d a b => some (d, BitVec.ofNat 64 (min (s.rx a).toNat (s.rx b).toNat))
  | .maxu d a b => some (d, BitVec.ofNat 64 (max (s.rx a).toNat (s.rx b).toNat))
  | .clz d a => some (d, BitVec.ofNat 64 (leadingZeros (s.rx a)))
  | .popc d a => some (d, BitVec.ofNat 64 ((List.range 64).filter fun k => (s.rx a).getLsbD k).length)
  | .bext d a b => some (d, BitVec.ofNat 64 ((s.rx a).toNat / 2 ^ fieldP (s.rx b) % 2 ^ fieldL (s.rx b)))
  | .sel d a b c => some (d, if s.rx c = 0 then s.rx b else s.rx a)
  | _ => none

/-- Destination and result of the immediate and identifier forms (R279, R280). -/
def immResult (s : State) : Instr → Option (Reg × W64)
  | .addi d a i => some (d, BitVec.ofInt 64 ((s.rx a).toNat + i.toInt))
  | .andi d a i => some (d, BitVec.ofNat 64 ((s.rx a).toNat &&& i.toNat))
  | .ori d a i => some (d, BitVec.ofNat 64 ((s.rx a).toNat ||| i.toNat))
  | .xori d a i => some (d, BitVec.ofNat 64 ((s.rx a).toNat ^^^ i.toNat))
  | .slti d a i => some (d, flag ((s.rx a).toInt < i.toInt))
  | .shi d a k n =>
    if k = 0 then some (d, BitVec.ofNat 64 ((s.rx a).toNat * 2 ^ n.toNat))
    else if k = 1 then some (d, BitVec.ofNat 64 ((s.rx a).toNat / 2 ^ n.toNat))
    else if k = 2 then some (d, BitVec.ofInt 64 ((s.rx a).toInt / 2 ^ n.toNat))
    else none
  | .lui d i => some (d, BitVec.ofInt 64 (i.toInt * 2 ^ 16))
  | .idf d a l => if l.toNat ≤ 5 then some (d, idfValue s (s.rx a) l.toNat) else none
  | _ => none

/-- When a branch is taken (R285), and its offset in words. -/
def branchTaken (s : State) : Instr → Option (Bool × BitVec 16)
  | .beq a b o => some (s.rx a = s.rx b, o)
  | .bne a b o => some (s.rx a ≠ s.rx b, o)
  | .blt a b o => some ((s.rx a).toInt < (s.rx b).toInt, o)
  | .bge a b o => some ((s.rx b).toInt ≤ (s.rx a).toInt, o)
  | .bltu a b o => some ((s.rx a).toNat < (s.rx b).toNat, o)
  | .bgeu a b o => some ((s.rx b).toNat ≤ (s.rx a).toNat, o)
  | _ => none

/-- Loop entry n holds an address (R288). -/
def inLoop (o : Ostler) (n : Nat) (t : W64) : Prop := mget 0 o.lstart n ≤ t ∧ t ≤ mget 0 o.lend n

/-- The ostler has gone to t under the unwind rule: exactly the live entries that do not hold t are popped, from
the top, and a popped entry keeps its registers. -/
def Unwound (o p : Ostler) (t : W64) : Prop :=
  p = { o with pc := t, ldepth := p.ldepth, wait := none } ∧ p.ldepth ≤ o.ldepth ∧
  (p.ldepth = 0 ∨ inLoop o (p.ldepth - 1) t) ∧ ∀ n, p.ldepth ≤ n → n < o.ldepth → ¬ inLoop o n t

/-- Where a word ends, pc in a routine being an index (R257, R385): taken, by a number of words; else the next word. -/
def Branched (s t : State) (taken : Bool) (o : BitVec 16) : Prop :=
  match s.routine with
  | none => OnlyCur s t ∧ if taken then Unwound s.cur t.cur (BitVec.ofInt 64 (s.cur.pc.toNat + 4 * o.toInt))
      else t.cur = s.cur.commit
  | some rt => ∃ n, t = { s with routine := some { rt with at_ := n } } ∧
      if taken then (o.toInt ≥ 0 → n = rt.at_ + o.toNat) else n = rt.at_ + 1

/-! ### Terms: memory words of an ostler -/

/-- The loads of R281: destination, address, width and the extension of the bytes read. -/
def loadForm (s : State) : Instr → Option (Reg × Nat × Nat × (Nat → W64))
  | .ldb d a o => some (d, s.addr a o, 1, fun v => BitVec.ofInt 64 (BitVec.ofNat 8 v).toInt)
  | .ldbu d a o => some (d, s.addr a o, 1, BitVec.ofNat 64)
  | .ldh d a o => some (d, s.addr a o, 2, fun v => BitVec.ofInt 64 (BitVec.ofNat 16 v).toInt)
  | .ldhu d a o => some (d, s.addr a o, 2, BitVec.ofNat 64)
  | .ldw d a o => some (d, s.addr a o, 4, fun v => BitVec.ofInt 64 (BitVec.ofNat 32 v).toInt)
  | .ldwu d a o => some (d, s.addr a o, 4, BitVec.ofNat 64)
  | .ldd d a o => some (d, s.addr a o, 8, BitVec.ofNat 64)
  | .ldaq d a c => if c.toNat ≤ 4 then some (d, (s.rx a).toNat, 8, BitVec.ofNat 64) else none
  | _ => none

/-- The plain stores of R281: source, address and width. -/
def storeForm (s : State) : Instr → Option (Reg × Nat × Nat)
  | .stb r a o => some (r, s.addr a o, 1)
  | .sth r a o => some (r, s.addr a o, 2)
  | .stw r a o => some (r, s.addr a o, 4)
  | .std r a o => some (r, s.addr a o, 8)
  | _ => none

/-- The executing ostler, outside a routine, and a root of its context that is a physical address (R72, R181). -/
def Rooted (s : State) : Prop := s.routine = none ∧ s.who.n < 32 ∧ (s.ctx s.ctxId).live < 2 ^ 52

/-- Every cached translation leads to a physical address (R72). -/
def TlbBounded (s : State) : Prop := ∀ a e, e ∈ mget [] s.tlb a → e.pa + e.size ≤ 2 ^ 52

/-- An access that translates, is allowed and aligned, need not wait, and touches no shadow area, at its physical address. -/
def Allowed (s : State) (va n : Nat) (store : Bool) (tl : Tlb) : Prop :=
  Rooted s ∧ s.walkAway s.agent s.ctxId va = false ∧ s.checkAcc va n store = .ok tl ∧ s.gate (tl.addr va) = .go ∧
  (∀ k, k < n → s.isShadow (tl.addr va + k) = false) ∧ tl.addr va % n = 0 ∧ tl.addr va < 2 ^ 52

/-- Nothing in memory, in L2 or in a private copy is poisoned or mismatched, and no maintenance is pending. -/
def Sound (s : State) : Prop :=
  s.poison = [] ∧ s.chk = [] ∧ s.maint = [] ∧ (s.caches.all fun e => !((e.2.map CLine.bad).getD false)) = true ∧
  (s.l2.all fun e => !((e.2.map fun c => c.pois || c.mis).getD false)) = true

/-- No request for the page of a physical address waits (R95). -/
def Unasked (s : State) (pa : Nat) : Prop := ∀ r ∈ s.pageReqs, r.page ≠ pa / 65536

/-- The whole lines of the range [x(a), x(a) + x(b)) (R380): where they begin and how many bytes they take. -/
def lineVa (s : State) (a : Reg) : Nat := (s.rx a).toNat - (s.rx a).toNat % 128
def lineLen (s : State) (a b : Reg) : Nat := ((s.rx a).toNat + (s.rx b).toNat + 127) / 128 * 128 - lineVa s a

/-- A range of some bytes whose translations can all be found now (R95), and the machine in which a word has found them (R169). -/
def LinesHere (s : State) (a b : Reg) : Prop :=
  (s.rx b).toNat ≠ 0 ∧ s.tablesAway s.agent s.ctxId (lineVa s a) (lineLen s a b) = false
def found (s : State) (a b : Reg) : State := s.walkRange s.agent s.ctxId (lineVa s a) (lineLen s a b)

/-- The units that a plain memory word leaves alone: other ostlers, pens, PEs, engines, sets' values, pages, host blocks. -/
def MemoryOnly (s t : State) : Prop :=
  t.pens = s.pens ∧ t.pes = s.pes ∧ t.stalls = s.stalls ∧ t.jobs = s.jobs ∧ t.progs = s.progs ∧ t.portQ = s.portQ ∧
  t.banks = s.banks ∧ t.nvme = s.nvme ∧ t.fns = s.fns ∧ t.pf = s.pf ∧ t.ctxs = s.ctxs ∧ t.fcycle = s.fcycle ∧
  (∀ k, k ≠ s.me → t.ostler k = s.ostler k)

/-- The atomics of R382: destination, base register, width, and what the operation makes of the old value. -/
def atomicForm (s : State) : Instr → Option (Reg × Reg × Nat × (Nat → Nat))
  | .aadd d a b w => let n := if w = 1 then 8 else 4
    some (d, a, n, fun v => (v + (s.rx b).toNat) % 256 ^ n)
  | .aand d a b w => let n := if w = 1 then 8 else 4
    some (d, a, n, fun v => v &&& (s.rx b).toNat % 256 ^ n)
  | .aor d a b w => let n := if w = 1 then 8 else 4
    some (d, a, n, fun v => v ||| (s.rx b).toNat % 256 ^ n)
  | .axor d a b w => let n := if w = 1 then 8 else 4
    some (d, a, n, fun v => v ^^^ (s.rx b).toNat % 256 ^ n)
  | .amin d a b sg w => let n := if w = 1 then 8 else 4
    some (d, a, n, fun v => if sg = 1 then umod (8 * n) (min (sgn (8 * n) v) (sgn (8 * n) (s.rx b).toNat))
      else min v ((s.rx b).toNat % 256 ^ n))
  | .amax d a b sg w => let n := if w = 1 then 8 else 4
    some (d, a, n, fun v => if sg = 1 then umod (8 * n) (max (sgn (8 * n) v) (sgn (8 * n) (s.rx b).toNat))
      else max v ((s.rx b).toNat % 256 ^ n))
  | .axchg d a b w => let n := if w = 1 then 8 else 4
    some (d, a, n, fun _ => (s.rx b).toNat % 256 ^ n)
  | .acas d a b c => some (d, a, 8, fun v => if v = (s.rx b).toNat then (s.rx c).toNat else v)
  | .afadd d a b => some (d, a, 4, fun v => rne 0 (Val.add (decodeElem 0 v) (decodeElem 0 ((s.rx b).toNat % 2 ^ 32))))
  | _ => none

/-- n bytes of memory as a number, lowest first (R5). -/
def memNat (s : State) (pa : Nat) : Nat → Nat
  | 0 => 0
  | n + 1 => memNat s pa n + (byteAt s (pa + n)).toNat * 256 ^ n

/-- n bytes from pa now hold v, and no other byte of memory changed. -/
def BytesSet (s t : State) (pa n v : Nat) : Prop :=
  ∀ a, a < 2 ^ 53 → byteAt t a = if pa ≤ a ∧ a < pa + n then byteOf v (a - pa) else byteAt s a

/-- The words of R292 that write a CSR: destination, CSR number, and the value written from the old one. -/
def csrForm (s : State) : Instr → Option (Reg × Nat × (W64 → W64))
  | .csrw d a c => some (d, c.toNat, fun _ => s.rx a)
  | .csrs d a c => some (d, c.toNat, fun v => v ||| s.rx a)
  | .csrc d a c => some (d, c.toNat, fun v => v &&& ~~~(s.rx a))
  | _ => none

/-- The CSRs that software may write (R46), by number, as the ostler holds them. -/
def csrRW (o : Ostler) (c : Nat) : Option W64 :=
  if c = 0x000 then some o.status else if c = 0x001 then some o.tvec else if c = 0x002 then some o.epc
  else if c = 0x003 then some o.cause else if c = 0x004 then some o.tval
  else if c = 0x020 then some o.rngkey else if c = 0x021 then some o.rngctr
  else if 0x030 ≤ c ∧ c < 0x034 then some (mget 0 o.lstart (c - 0x030))
  else if 0x034 ≤ c ∧ c < 0x038 then some (mget 0 o.lend (c - 0x034))
  else if 0x038 ≤ c ∧ c < 0x03C then some (mget 0 o.lcount (c - 0x038))
  else if c = 0x03C then some (BitVec.ofNat 64 o.ldepth)
  else if c = 0x050 then some o.wid else if c = 0x051 then some o.widw
  else if c = 0x060 then some o.nfcnt else if c = 0x061 then some o.satcnt
  else if c = 0x071 then some o.tier else if c = 0x072 then some o.dline
  else none

/-- The CSRs that ignore a write (R46): CTXID, CYCLE, FCYCLE, EQHEAD, EQCOUNT and LOCKQ. -/
def csrRO (s : State) (c : Nat) : Option W64 :=
  if c = 0x010 then some (BitVec.ofNat 64 (s.cur.ctx.getD 0))
  else if c = 0x011 then some (2 * s.fcycle + flag s.phase)
  else if c = 0x012 then some s.fcycle
  else if c = 0x040 then some (BitVec.ofNat 64 s.cur.eqhead) else if c = 0x041 then some (BitVec.ofNat 64 s.cur.eqcount)
  else if c = 0x070 then some (BitVec.ofNat 64 ((s.ctx s.ctxId).quota % 2 ^ 32 +
    (s.pins.filter fun e => e.2 == some s.ctxId).length % 2 ^ 32 * 2 ^ 32))
  else none

/-- What a writable CSR holds after v is written to it: reserved bits read 0, LDEPTH is held to 4 (R49), TIER is no
lower than the context's cap (R56). -/
def csrHeld (s : State) (c : Nat) (v : W64) : W64 :=
  if c = 0x000 then v &&& 0x73 else if c = 0x003 then v &&& 0xFFFF00FF else if c = 0x051 then v &&& 0x1FFFFFFFFFFF
  else if c = 0x03C then BitVec.ofNat 64 (min v.toNat 4)
  else if c = 0x071 then BitVec.ofNat 64 (max (v.toNat % 4) (s.ctx s.ctxId).tcap) else v

/-- An event record as its fields (R148). -/
def recFields (kind status sdie scls sid ssub : Nat) (tag aux0 aux1 : W64) (r : EvRec) : Prop :=
  (r.extractLsb' 0 8).toNat = kind ∧ (r.extractLsb' 8 8).toNat = status ∧ (r.extractLsb' 16 3).toNat = sdie ∧
  (r.extractLsb' 20 4).toNat = scls ∧ (r.extractLsb' 24 8).toNat = sid ∧ (r.extractLsb' 32 8).toNat = ssub ∧
  r.extractLsb' 64 64 = tag ∧ r.extractLsb' 128 64 = aux0 ∧ r.extractLsb' 192 64 = aux1

/-- A record reached an ostler's queue (R150): behind those queued there, or, with no room, behind the waiting posters. -/
def Posted (o p : Ostler) (ctx : Nat) (r : EvRec) : Prop :=
  if o.eqcount < 256 ∧ o.posters = [] then
    p = { o with queue := mset 0 o.queue ((o.eqhead + o.eqcount) % 256) r, eqcount := o.eqcount + 1 }
  else p = { o with posters := o.posters ++ [{ ev := r, ctx := ctx }] }

/-- Of the ostlers only number k changed, by a record posted to it. -/
def PostedTo (s t : State) (k ctx : Nat) (r : EvRec) : Prop :=
  Posted (s.ostler k) (t.ostler k) ctx r ∧ ∀ q, q ≠ k → t.ostler q = s.ostler q

/-- The instruction only changed what u already holds, and then returned a status (R246, R247). -/
def Returned (u t : State) (d : Reg) (st : Nat) : Prop := Wrote u t d (BitVec.ofNat 64 st)

/-- The append-log entry LAPP makes (R153, R386). -/
def lappEntry (s : State) (a b c : Reg) (tl : Tlb) : LogEnt :=
  { pa := tl.addr (s.rx a).toNat, op := (s.rx c).toNat % 16, w8 := (s.rx c).getLsbD 4, value := s.rx b,
    split := aSPLITW tl.attr, sdie := s.who.die, src := 128 + s.who.n, spe := 0, seq := s.cur.logSeq.toNat, ctx := s.ctxId }

/-- The operands LAPP accepts: an operation and a width it lists, an aligned, mapped and writable address (R386). -/
def lappGood (s : State) (a c : Reg) (tl : Tlb) : Prop :=
  s.walkAway s.agent s.ctxId (s.rx a).toNat = false ∧
  let op := (s.rx c).toNat % 16
  op < 7 ∧ ((s.rx c).getLsbD 4 = true → op ≠ 2 ∧ op ≠ 5 ∧ op ≠ 6) ∧
  (s.rx a).toNat % (if (s.rx c).getLsbD 4 then 8 else 4) = 0 ∧ s.lookup s.agent s.ctxId (s.rx a).toNat = .ok tl ∧
  aW tl.attr = true

/-- What an append-log entry makes of the old value of its bytes (R153, R386); none for an operation or width it does not list. -/
def mergeForm (e : LogEnt) : Option (Nat → Nat) :=
  let n := if e.w8 then 8 else 4
  let v := e.value.toNat % 256 ^ n
  if e.op = 0 then some fun _ => v
  else if e.op = 1 then some fun x => (x + v) % 256 ^ n
  else if e.op = 2 then (if e.w8 then none else some fun x => rne 0 (Val.add (decodeElem 0 x) (decodeElem 0 v)))
  else if e.op = 3 then some fun x => umod (8 * n) (max (sgn (8 * n) x) (sgn (8 * n) v))
  else if e.op = 4 then some fun x => umod (8 * n) (min (sgn (8 * n) x) (sgn (8 * n) v))
  else if e.op = 5 then (if e.w8 then none else some fun x => rne 0 (Val.minMax true (decodeElem 0 x) (decodeElem 0 v)))
  else if e.op = 6 then (if e.w8 then none else some fun x => rne 0 (Val.minMax false (decodeElem 0 x) (decodeElem 0 v)))
  else none

/-- The fields of a job record that R137 asks of R17 and R18: T is 0..6, the widths sum to at most 64, every existing level has a
count from 1 to what its width holds, and no later level has a width or a count. -/
def jobFields (r : Line) : Bool :=
  decide (jrT r ≤ 6) && ((List.range 6).all fun l => decide (jrWidth r l ≤ 64)) && decide (((List.range 6).map (jrWidth r)).sum ≤ 64) &&
    (List.range 6).all fun l =>
      if (List.range (l + 1)).all fun k => jrWidth r k != 0 then decide (1 ≤ jrCount r l ∧ jrCount r l ≤ 2 ^ jrWidth r l)
      else jrWidth r l == 0 && jrCount r l == 0

/-! ### Terms: row words -/

/-- No window of the row's sources faults, and the word has a lane to run (R59: with PR 0 and PN 1 a word commits only its routes
and holds). -/
def RowGood (s : State) (o : Op) (w : RowMods) : Prop := s.rowWindow o w = none ∧ deadRowWord w = false

/-- The row word committed in its PE and nowhere else: p is the PE with what the op itself wrote, and then the row's
counts, consumption, result and passed tokens follow (R29, R31, R64, R320); u is the machine with what the op's walks and reads
left. Where the pen has NFT and the row would count a nonfinite, it faults NONFINITE and commits nothing (R64). -/
def RowCommitsFrom (s u t : State) (o : Op) (w : RowMods) (p : PE) (res : Option Vec) (lanes : W64) (nfc satc : Nat) : Prop :=
  let n := nfc + nanCount o w (rowCx o w s)
  if s.myPen.nft = true ∧ n ≠ 0 then t = s.rowFault w 0x0F 0 0
  else t = { u with pes := t.pes } ∧ (∀ k, k ≠ peKey s.penK s.who.pe → mget PE.reset t.pes k = mget PE.reset u.pes k) ∧
    t.myPe = p.finishRow s.myPe o w (if ignored o s.myPen s.who.pe then [] else usedSources o w) res lanes n satc

/-- The same for an op that leaves nothing else behind. -/
def RowCommits (s t : State) (o : Op) (w : RowMods) (p : PE) (res : Option Vec) (lanes : W64) (nfc satc : Nat) : Prop :=
  RowCommitsFrom s s t o w p res lanes nfc satc

/-- No NONFINITE stops a row that itself counts nothing (R64). -/
def RowFinite (s : State) (o : Op) (w : RowMods) : Prop := s.myPen.nft = true → nanCount o w (rowCx o w s) = 0

/-- The row computed one result for its enabled lanes, whose n-bit element i is f i, modulo 2^n. -/
def RowResult (s t : State) (o : Op) (w : RowMods) (n : Nat) (f : Nat → Nat) (nfc satc : Nat) : Prop :=
  ∃ v, RowCommits s t o w s.myPe (some v) (s.myPe.mask w) nfc satc ∧ ∀ i, i < 2048 / n → elem n v i = f i % 2 ^ n

/-- The integer rows of R328 and R329: op, word, and the element they make of the elements of a and b at a width. -/
def intRow : Instr → Option (Op × RowMods × (Nat → Nat → Nat → Nat))
  | .vadd w => some (.vadd, w, fun _ a b => a + b)
  | .vsub w => some (.vsub, w, fun n a b => umod n ((a : Int) - b))
  | .vmul w => some (.vmul, w, fun _ a b => a * b)
  | .vmulh w => some (.vmulh, w, fun n a b => umod n (sgn n a * sgn n b / (2 ^ n : Nat)))
  | .vand w => some (.vand, w, fun _ a b => a &&& b)
  | .vor w => some (.vor, w, fun _ a b => a ||| b)
  | .vxor w => some (.vxor, w, fun _ a b => a ^^^ b)
  | .vshl w => some (.vshl, w, fun n a b => a * 2 ^ (b % n))
  | .vshr w => some (.vshr, w, fun n a b => a / 2 ^ (b % n))
  | .vsra w => some (.vsra, w, fun n a b => umod n (sgn n a / (2 ^ (b % n) : Nat)))
  | .vmin w => some (.vmin, w, fun n a b => umod n (min (sgn n a) (sgn n b)))
  | .vmax w => some (.vmax, w, fun n a b => umod n (max (sgn n a) (sgn n b)))
  | .vabs w => some (.vabs, w, fun n a _ => (sgn n a).natAbs)
  | .vcmp w => some (.vcmp, w, fun n a b =>
    let r := auxOf w % 8
    if (r = 0 ∧ a = b) ∨ (r = 1 ∧ a ≠ b) ∨ (r = 2 ∧ sgn n a < sgn n b) ∨ (r = 3 ∧ sgn n a ≤ sgn n b) ∨ (r = 4 ∧ a < b) ∨
      (5 ≤ r ∧ a ≤ b) then 2 ^ n - 1 else 0)
  | _ => none

/-- The operation of VRED, VSCAN and TRED on two lanes, and its identity (R342). -/
def reduceStep (op : Nat) (a b : W32) : W32 :=
  let f (v : Val) : W32 := BitVec.ofNat 32 (rne 0 v)
  let x := decodeElem 0 a.toNat
  let y := decodeElem 0 b.toNat
  if op = 0 then f (Val.add x y)
  else if op = 1 then f (Val.minMax true x y)
  else if op = 2 then f (Val.minMax false x y)
  else if op = 3 then a + b
  else if op = 4 then (if a.toInt < b.toInt then b else a)
  else (if b.toInt < a.toInt then b else a)

def reduceUnit (op : Nat) : W32 :=
  if op = 1 then 0xFF800000 else if op = 2 then 0x7F800000 else if op = 4 then 0x80000000 else if op = 5 then 0x7FFFFFFF else 0

/-- The floating-point rows of R331: op, word, and the exact value that is rounded once. -/
def fpRow : Instr → Option (Op × RowMods × (Val → Val → Val → Val))
  | .vfadd w => some (.vfadd, w, fun a b _ => Val.add a b)
  | .vfsub w => some (.vfsub, w, fun a b _ => Val.add a b.neg)
  | .vfmul w => some (.vfmul, w, fun a b _ => Val.mul a b)
  | .vfma w => some (.vfma, w, fun a b c => Val.add (Val.mul a b) c)
  | .vfmin w => some (.vfmin, w, fun a b _ => Val.minMax false a b)
  | .vfmax w => some (.vfmax, w, fun a b _ => Val.minMax true a b)
  | .vfabs w => some (.vfabs, w, fun a _ _ => a.abs)
  | .vfneg w => some (.vfneg, w, fun a _ _ => a.neg)
  | .vrcp w => some (.vrcp, w, fun a _ _ => vrcp a)
  | .vrsq w => some (.vrsq, w, fun a _ _ => vrsq a)
  | .vexp2 w => some (.vexp2, w, fun a _ _ => vexp2 a)
  | .vlog2 w => some (.vlog2, w, fun a _ _ => vlog2 a)
  | _ => none

/-- A PE outside column 0 of a systolic pen takes no operands of its own in a pass (R354). -/
def passSkips (s : State) : Prop := s.myPen.sys = true ∧ s.who.pe % 64 ≠ 0

/-- Scale and BFLY of an operand half of a pass (R350, R351, R354). -/
def passHalf (s : State) (o : Op) (w : RowMods) (c : BitVec 6) : Nat × Nat :=
  if s.myPen.sys = true ∧ s.who.pe % 64 ≠ 0 then (127, 0) else (rowCx o w s).half c

/-- A weight row that a pass meets does not pair with its operand (R209, R210, R354). -/
def passMismatch (s : State) (w : RowMods) (bfLo bfHi : Nat) : Bool :=
  !(s.myPen.sys && s.who.pe % 64 != 0) &&
    (rowPes s.myPen s.who.pe).any fun i => badWeights (s.pe s.penK i) w.fmt.toNat bfLo bfHi

/-- A weight row that a pass meets is poisoned (R105). -/
def passPoisoned (s : State) : Bool := (rowPes s.myPen s.who.pe).any fun i => poisonedWeights (s.pe s.penK i)

/-- STS writes a whole vector, or none of it, and so meets no poison (R105). -/
def stsWhole (s : State) (w : RowMods) : Bool :=
  s.myPe.mask w == 0 || (w.pl != 1 && s.myPe.mask w == BitVec.allOnes 64)

/-- The sources a row word reads as it commits, as its op takes them (R318). -/
def srcA (s : State) (o : Op) (w : RowMods) : Vec := (rowCx o w s).a
def srcB (s : State) (o : Op) (w : RowMods) : Vec := (rowCx o w s).b
def srcC (s : State) (o : Op) (w : RowMods) : Vec := (rowCx o w s).c

end Sys2Proof.Claims

open Sys2Proof Sys2Proof.Machine Sys2Proof.Claims

/-! ### The machine at reset, its steps, and its encodings -/

/-- R8, R44-R56, R133, R150, R158, R188. After a module reset no ostler runs or has run, every writable CSR with a stated reset
value holds it, no event, pen, job, stream program or command, combine command, handover, chunk, drive command, copy, derived set,
log entry, timer or host command exists, every stall is free, every port's path stands, and the telemetry and cycle counters are 0. The model's own choices it meets are in log 95. -/
def Obligations.ResetState : Prop :=
  (∀ k, let o := State.reset.ostler k
    o.run = .neverRun ∧ o.ctx = none ∧ o.status = 0 ∧ o.tvec = 0 ∧ o.cause = 0 ∧ o.tval = 0 ∧ o.rngkey = 0 ∧
    o.rngctr = 0 ∧ o.ldepth = 0 ∧ o.eqhead = 0 ∧ o.eqcount = 0 ∧ o.posters = [] ∧ o.wid = 0 ∧ o.widw = 0 ∧
    o.nfcnt = 0 ∧ o.satcnt = 0 ∧ o.dline.toNat = 2 ^ 64 - 1 ∧ o.wait = none) ∧
  (∀ k, (State.reset.pen k).valid = false) ∧ (∀ k, mget Stall.free State.reset.stalls k = Stall.free) ∧
  State.reset.fcycle = 0 ∧ State.reset.cycle = 0 ∧ (∀ k, mget 0 State.reset.tele k = 0) ∧
  State.reset.jobs = [] ∧ State.reset.progs = [] ∧ State.reset.dsets = [] ∧ State.reset.logs = [] ∧
  State.reset.merges = [] ∧ State.reset.nvme = [] ∧ State.reset.timers = [] ∧ State.reset.routine = none ∧
  (∀ k, mget [] State.reset.portQ k = [] ∧ mget none State.reset.portBind k = none) ∧ State.reset.combs = [] ∧
  State.reset.hovers = [] ∧ State.reset.pubs = [] ∧ State.reset.arrs = [] ∧ State.reset.offl = [] ∧ State.reset.pageReqs = [] ∧
  (∀ f, let x := State.reset.fn f
    x.hkbusy = false ∧ x.htbusy = false ∧ x.hlbusy = false ∧ x.hlwait = none ∧ x.posts = []) ∧
  State.reset.pf.ready = false ∧ State.reset.pf.cwbusy = false ∧ State.reset.pf.atbusy = false ∧
  State.reset.portDown = [] ∧ State.reset.peerDown = []

/-- The reset memory has its canonical form, and the caches and the directory agree.
The model's own choices it meets are in log 3. -/
def Obligations.ResetInOrder : Prop := State.reset.memWf = true ∧ Coherent State.reset ∧ Sound State.reset

/-- R274, R275. When the next turn is ostler (die, n)'s, it runs and waits on nothing, no stop is asked for, and the word at its
pc is fetched, a step is exec of the instruction that word decodes to, or of ILLEGAL where it decodes to none, in the machine
with the word kept for TVAL. When it waits on a word, a step is exec of that word again (R276). The turn leaves the agenda and
nothing is added around exec. The model's own choices it meets are in log 5, 25 and 76. -/
def Obligations.StepRunsDecoded : Prop :=
  ∀ (s v u : State) (die n : Nat) (w : W32),
    s.tripped = false → s.routine = none → s.takeTurn = (.ostler die n, v) → (v.asOstler die n).cur.run = .running →
    ((v.asOstler die n).cur.wait = none → (v.asOstler die n).cur.stopReq = false →
      (v.asOstler die n).fetchWord = .word w u →
      (∀ i, decodeOstler w = .ok i → step s = exec i { u with ir := w }) ∧
      ∀ e, decodeOstler w = .error e → step s = exec (.illegal w) { u with ir := w }) ∧
    ∀ wt, (v.asOstler die n).cur.wait = some wt → step s = exec wt.instr (v.asOstler die n)

/-- R384, R83. A slice routine in progress runs its next word before any other turn, and a step of the part whose turn is the
next is exec of that step, in the machine whose agenda has moved on. The next turn is, of the turns before the next tick, one
of the least place in the order of the oc, a single one whatever its place; at one home slice-engine routines come first, then the
agents of the home's own die before all others, and those of a die in the order of their numbers.
The model's own choices it meets are in log 5, 24 and 82. -/
def Obligations.StepRunsRoutineAndEvents : Prop :=
  (∀ (s : State) (r : Routine) (w : W32) (i : Instr), s.tripped = false → s.routine = some r → r.words[r.at_]? = some w →
    decodeOstler w = .ok i → step s = exec i { s.asOstler r.die r.n with ir := w }) ∧
  (∀ (s v : State) (i : Instr), s.tripped = false → s.routine = none → s.takeTurn = (.event i, v) → step s = exec i v) ∧
  (∀ (s : State) t rest, s.agenda = t :: rest → rest = [] ∨ rest.head? = some .tick →
    s.takeTurn = (t, { s with agenda := rest })) ∧
  (∀ (s : State) rest, s.agenda = .tick :: rest → s.takeTurn = (.tick, { s with agenda := rest })) ∧
  (∀ (s : State) t, t ∈ inOc s.agenda → s.takeTurn.1 ∈ inOc s.agenda ∧ s.turnKey s.takeTurn.1 ≤ s.turnKey t) ∧
  (∀ cls home d die a b, d < 8 → a < 4096 → placeKey cls home 0 d a < orderKey cls home die b) ∧
  (∀ cls home die a b, home < 8 → a < 4096 → die ≠ home → orderKey cls home home a < orderKey cls home die b) ∧
  ∀ cls home die a b, a < b → orderKey cls home die a < orderKey cls home die b

/-- R433. After a thermal trip no clock runs: a step stops under that name unless the part is brought up again.
The model's own choices it meets are in log 42. -/
def Obligations.TrippedStops : Prop :=
  (∀ s, Completes .thermalTrip s fun t => t.tripped = true) ∧
  (∀ s, s.tripped = true → s.bringsUp = false → step s = .fault .clocksStopped) ∧
  ∀ s, s.tripped = false → ∀ r, step s ≠ .fault r ∧ ∀ q, step s ≠ .refused q

/-- R252-R256, R264, R271, R278-R300. The worked encodings of the spec decode to the instructions they stand for. -/
def Obligations.DecodeWords : Prop :=
  decodeOstler 0x04A63800 = .ok (.add 5 6 7) ∧ decodeOstler 0x04A63A19 = .ok (.sel 5 6 7 8) ∧
  decodeOstler 0x1CA60083 = .ok (.shi 5 6 2 3) ∧ decodeOstler 0x50A6FFF8 = .ok (.ldw 5 6 0xFFF8) ∧
  decodeOstler 0x88A6FFFE = .ok (.blt 5 6 0xFFFE) ∧ decodeOstler 0x9A000004 = .ok (.jal 1 4) ∧
  decodeOstler 0xA4080003 = .ok (.loopi 8 3) ∧ decodeOstler 0xC0A60213 = .ok (.csrw 5 6 0x021) ∧
  decodeOstler 0xC0000146 = .ok (.fence 2 4) ∧ decodeOstler 0xC4A63A03 = .ok (.eqpost 5 6 7 8) ∧
  decodeOstler 0xD8A638C4 = .ok (.amin 5 6 7 1 1) ∧ decodeOstler 0x00000000 = .error .reservedMajor

/-- R252-R258. Every well-formed ostler instruction is read back from the word that encodes it, every operand at every
value its field holds, and every word decodes to a well-formed instruction or is refused by name. -/
def Obligations.OstlerRoundTrip : Prop :=
  (∀ i w, i.wellFormed = true → encodeOstler i = some w → decodeOstler w = .ok i) ∧
  ∀ w i, decodeOstler w = .ok i → i.wellFormed = true ∧ (encodeOstler i).isSome = true

/-- R259-R264. Every row op is read back from its 128-bit word, with every modifier field at every value. -/
def Obligations.RowRoundTrip : Prop :=
  (∀ i w, encodeRow i = some w → decodeRow w = .ok i) ∧ ∀ w i, decodeRow w = .ok i → encodeRow i = some w

/-- R271, R372. Every well-formed stream command is read back from its 64-bit word, and a word that decodes is its own encoding. -/
def Obligations.StreamRoundTrip : Prop :=
  (∀ i w, i.wellFormed = true → encodeStream i = some w → decodeStream w = .ok i) ∧
  ∀ w i, decodeStream w = .ok i → encodeStream i = some w

/-- Every step keeps memory in its canonical form, from every state that has it. -/
def Obligations.StepKeepsMemory : Prop := ∀ s t, s.memWf = true → step s = .next t → t.memWf = true

/-- Every instruction answers a next state in every state: none stops the machine. -/
def Obligations.EveryInstructionAnswers : Prop := ∀ i s, ∃ t, exec i s = .next t

/-! ### Integer, branch, jump and loop words -/

/-- R278-R280. Every integer register, immediate and identifier form writes its destination with its table's result, and
nothing else, on an ostler and in a slice routine, with x0 as any operand or destination; BINS replaces bits p..p+l-1,
dropping those above 63; SHI kind 3 and IDF levels 6 and 7 trap ILLEGAL. -/
def Obligations.IntegerWords : Prop :=
  (∀ i s d v, intResult s i = some (d, v) → Completes i s fun t => Wrote s t d v) ∧
  (∀ (d a b c : Reg) (s : State), Completes (.bins d a b c) s fun t => ∃ v, Wrote s t d v ∧
    ∀ k, k < 64 → v.getLsbD k = if fieldP (s.rx b) ≤ k ∧ k < fieldP (s.rx b) + fieldL (s.rx b)
      then (s.rx c).getLsbD (k - fieldP (s.rx b)) else (s.rx a).getLsbD k) ∧
  (∀ i s d v, immResult s i = some (d, v) → Completes i s fun t => Wrote s t d v) ∧
  (∀ d a n s, s.cur.tm = false → Completes (.shi d a 3 n) s fun t => Trapped s t 0x01 (s.ir.setWidth 64)) ∧
  ∀ (d a : Reg) (l : BitVec 3) (s : State), 5 < l.toNat → s.cur.tm = false →
    Completes (.idf d a l) s fun t => Trapped s t 0x01 (s.ir.setWidth 64)

/-- R285, R286, R288. A branch goes by its offset in words, under the unwind rule, exactly when its condition holds, and else to
the next word; JAL and JALR go to their target under the unwind rule; the link is pc + 4, JALR's target is formed before
xd is written; nothing else changes. A target is formed modulo 2^64 on a pc of 64 bits, which is the model's choice.
The model's own choices it meets are in log 14. -/
def Obligations.BranchesAndJumps : Prop :=
  (∀ i s taken o, branchTaken s i = some (taken, o) → Completes i s fun t => Branched s t taken o) ∧
  (∀ l o s, s.routine = none → Completes (.jal l o) s fun t =>
    RegSet s t (if l = 1 then 31 else 0) (s.cur.pc + 4) ∧ OnlyCur s t ∧
    Unwound { s.cur with x := t.cur.x } t.cur (BitVec.ofInt 64 (s.cur.pc.toNat + 4 * o.toInt))) ∧
  ∀ d a o s, s.routine = none → Completes (.jalr d a o) s fun t =>
    RegSet s t d (s.cur.pc + 4) ∧ OnlyCur s t ∧
    ∃ g, Unwound { s.cur with x := t.cur.x } t.cur g ∧
      g.toNat = (BitVec.ofInt 64 ((s.rx a).toNat + o.toInt)).toNat / 4 * 4

/-- R288. After a word that does not redirect: with no live entry ending at the word, the next word; a live top entry
ending there counts down and repeats while its count stays above 0, or is popped and the entry below acts next. A taken
branch pops the entries that do not hold its target and counts none. LOOP, LOOPI, ERET and TRAP set pc themselves, TRAP with
EPC the pc this rule gives. -/
def Obligations.LoopStackRule : Prop :=
  (∀ o : Ostler, o.ldepth = 0 ∨ mget 0 o.lend (o.ldepth - 1) ≠ o.pc → o.commit = { o with pc := o.pc + 4, wait := none }) ∧
  (∀ o : Ostler, 0 < o.ldepth → mget 0 o.lend (o.ldepth - 1) = o.pc → mget 0 o.lcount (o.ldepth - 1) ≠ 1 →
    o.commit = { o with lcount := o.commit.lcount, pc := mget 0 o.lstart (o.ldepth - 1), wait := none } ∧
    ∀ k, mget 0 o.commit.lcount k = mget 0 o.lcount k - (if k = o.ldepth - 1 then 1 else 0)) ∧
  (∀ o : Ostler, 0 < o.ldepth → mget 0 o.lend (o.ldepth - 1) = o.pc → mget 0 o.lcount (o.ldepth - 1) = 1 →
    o.commit = { o with lcount := mset 0 o.lcount (o.ldepth - 1) 0, ldepth := o.ldepth - 1 }.commit) ∧
  (∀ (o : Ostler) (t : W64), Unwound o (o.redirect t) t) ∧
  (∀ m s, s.routine = none → s.cur.tm = false → Completes (.trap m) s fun t => t.cur.epc = s.cur.commit.pc ∧
    t.cur.pc = s.cur.tvec &&& ~~~3) ∧
  (∀ s, s.cur.tm = true → Completes .eret s fun t => t.cur.pc = s.cur.epc) ∧
  (∀ a (o : BitVec 16) s, 0 < o.toInt → s.cur.ldepth = 0 → s.rx a ≠ 0 → s.routine = none →
    Completes (.loop a o) s fun t => t.cur.pc = s.cur.pc + 4) ∧
  ∀ (n : BitVec 10) (o : BitVec 16) s, 0 < o.toInt → s.cur.ldepth = 0 → n ≠ 0 → s.routine = none →
    Completes (.loopi n o) s fun t => t.cur.pc = s.cur.pc + 4

/-- R287. LOOP, of major 0x28 with its count in x(a), and LOOPI, of major 0x29 with its own count, push an entry whose
body starts at the next word and ends at the label, nested in the top entry; a count of 0 skips the body; a label that is not ahead, a full stack or a range outside the top entry traps ILLEGAL. -/
def Obligations.LoopPush : Prop :=
  (∀ w : W32, w.toNat / 2 ^ 26 = 0x28 → decodeOstler w = .ok (.loop (w.extractLsb' 21 5) (w.extractLsb' 0 16))) ∧
  (∀ w : W32, w.toNat / 2 ^ 26 = 0x29 → decodeOstler w = .ok (.loopi (w.extractLsb' 16 10) (w.extractLsb' 0 16))) ∧
  ∀ (i : Instr) (o : BitVec 16) (c : W64) (s : State), (∃ a, i = .loop a o ∧ c = s.rx a) ∨ (∃ n : BitVec 10, i = .loopi n o ∧ c = n.setWidth 64) →
    let st := s.cur.pc + 4
    let e := BitVec.ofInt 64 (s.cur.pc.toNat + 4 * o.toInt)
    let ok := 0 < o.toInt ∧ s.cur.ldepth < 4 ∧
      (0 < s.cur.ldepth → mget 0 s.cur.lstart (s.cur.ldepth - 1) ≤ st ∧ e ≤ mget 0 s.cur.lend (s.cur.ldepth - 1))
    (ok → c = 0 → Completes i s fun t => OnlyCur s t ∧ t.cur = { s.cur with pc := e + 4 }) ∧
    (ok → c ≠ 0 → Completes i s fun t => OnlyCur s t ∧
      t.cur = { s.cur with lstart := t.cur.lstart, lend := t.cur.lend, lcount := t.cur.lcount,
                           ldepth := s.cur.ldepth + 1, pc := st } ∧
      ∀ k, mget 0 t.cur.lstart k = (if k = s.cur.ldepth then st else mget 0 s.cur.lstart k) ∧
        mget 0 t.cur.lend k = (if k = s.cur.ldepth then e else mget 0 s.cur.lend k) ∧
        mget 0 t.cur.lcount k = (if k = s.cur.ldepth then c else mget 0 s.cur.lcount k)) ∧
    (¬ ok → s.cur.tm = false → Completes i s fun t => Trapped s t 0x01 (s.ir.setWidth 64))

/-- R289. Every word of major 0x2A, 0xA800_0000 among them, is LPOP: it drops the top entry where one is live, changes no
other state, and then its own address is compared with the end of the new top entry. -/
def Obligations.LoopPop : Prop :=
  (∀ w : W32, w.toNat / 2 ^ 26 = 0x2A → decodeOstler w = .ok .lpop) ∧
  ∀ s, s.routine = none → Completes .lpop s fun t => OnlyCur s t ∧
    t.cur = { s.cur with ldepth := if s.cur.ldepth = 0 then 0 else s.cur.ldepth - 1 }.commit

/-! ### Loads, stores and atomics -/

/-- R281-R283, R86, R87, R90, R91. A load that translates, is allowed and aligned and meets good memory completes: its
destination takes the bytes of its live copy of the line, or, from a home whose line no cache owns, the bytes of memory, or, from one
that another cache owns, the bytes of the home's own copy, since a load recalls no owner (R86), extended as the form says; no byte of
memory changes, the caches stay in order, and LDAQ leaves no leased copy.
The model's own choices it meets are in log 13 and 76. -/
def Obligations.LoadResult : Prop :=
  ∀ i s d va n ext tl, loadForm s i = some (d, va, n, ext) → Allowed s va n false tl → Sound s → Coherent s →
    Completes i s fun t => ∃ v, RegSet s t d (ext v) ∧ t.cur = { s.cur.commit with x := t.cur.x } ∧ MemoryOnly s t ∧
      (∀ a, a < 2 ^ 53 → byteAt t a = byteAt s a) ∧ Coherent t ∧
      (∀ c, s.liveCopy s.agent (tl.addr va / 128) = some c → v = lineGet c.data (tl.addr va % 128) n) ∧
      (s.liveCopy s.agent (tl.addr va / 128) = none → (s.dirOf (tl.addr va / 128)).owner = none → v = memNat s (tl.addr va) n) ∧
      (s.liveCopy s.agent (tl.addr va / 128) = none → (s.dirOf (tl.addr va / 128)).releases = [] →
        s.tlbHolds s.agent s.ctxId va = true → (s.l2Of (tl.addr va / 128)).isSome = true →
        v = lineGet (s.homeData (tl.addr va / 128)) (tl.addr va % 128) n) ∧
      ((∃ a c, i = .ldaq d a c) → ∀ l c, l < 2 ^ 46 → t.cacheOf s.agent l = some c → c.owned = true)

/-- R281, R282, R74, R86. A plain store that translates, is allowed and aligned and meets good memory writes the low
bytes of its source at its address, lowest first, and no other byte of memory; it writes no register, and afterwards the
issuer owns the line, or, on a page with DER, no cache of the issuer holds it, where no module waits for the page.
The model's own choices it meets are in log 76. -/
def Obligations.StoreResult : Prop :=
  ∀ i s r va n tl, storeForm s i = some (r, va, n) → Allowed s va n true tl → Sound s → Coherent s →
    (aDER tl.attr = true → s.deltaFull (tl.addr va / 128) = false) →
    Completes i s fun t => BytesSet s t (tl.addr va) n (s.rx r).toNat ∧ Coherent t ∧ MemoryOnly s t ∧
      t.cur = s.cur.commit ∧ (∀ q, t.rx q = s.rx q) ∧
      (Unasked s (tl.addr va) → if aDER tl.attr then t.cacheOf s.agent (tl.addr va / 128) = none
      else (t.dirOf (tl.addr va / 128)).owner = some s.agent)

/-- R284, R89, R92, R117. STRL whose writer has no delta waiting stores the doubleword at its line's home, changes no other byte, and
adds a release record of the issuer there; where derived sets cover the line, each gets at most one batch of the issuer's, behind
those it has; at SYSTEM scope no other peer-window line is left dirty in the issuer's cache, and memory has what was dirty there;
while the writer has deltas waiting, or their queue is full, it waits; scopes 5..7 trap ILLEGAL. The model's own choices it meets
are in log 39 and 83. -/
def Obligations.ReleaseStore : Prop :=
  (∀ (r a : Reg) (c : BitVec 3) s tl, let pa := tl.addr (s.rx a).toNat
    c.toNat ≤ 4 → Allowed s (s.rx a).toNat 8 true tl → Sound s → Coherent s → Unasked s pa →
    s.deltasDone s.agent = true → s.deltaFull (pa / 128) = false →
    Completes (.strl r a c) s fun t => BytesSet s t pa 8 (s.rx r).toNat ∧ Coherent t ∧
      MemoryOnly s t ∧ t.cur = s.cur.commit ∧ (∀ q, t.rx q = s.rx q) ∧
      (∃ k ∈ (t.dirOf (pa / 128)).releases, k.agent = s.agent ∧ k.drained = false) ∧
      (mwf DSet.reset s.dsets = true → ∀ k, (t.dset k).queue = (s.dset k).queue ∨ k ∈ s.covering (pa / 128) ∧
        ∃ b : Batch, (t.dset k).queue = (s.dset k).queue ++ [b] ∧ b.writer = s.agent ∧ b.src = homeOf (128 * (pa / 128)) ∧ b.rebuild = none) ∧
      (c.toNat = 4 → ∀ l, isPeer (128 * l) = true → l ≠ pa / 128 →
        (∀ x, t.cacheOf s.agent l = some x → x.mask = 0) ∧
        ∀ x, s.cacheOf s.agent l = some x → x.mask ≠ 0 → ∀ i, i < 128 → lineByte (t.dramLine l) i = byteAt s (128 * l + i))) ∧
  (∀ (r a : Reg) (c : BitVec 3) s tl, c.toNat ≤ 3 → Allowed s (s.rx a).toNat 8 true tl → Sound s → Coherent s →
    s.deltasDone s.agent = false ∨ s.deltaFull (tl.addr (s.rx a).toNat / 128) = true →
    Completes (.strl r a c) s fun t => t.cur = { s.cur with wait := t.cur.wait } ∧ (∃ w, t.cur.wait = some w ∧ w.instr = .strl r a c) ∧
      MemoryOnly s t ∧ ∀ n, n < 2 ^ 53 → byteAt t n = byteAt s n) ∧
  ∀ (r a : Reg) (c : BitVec 3) s, 4 < c.toNat → s.cur.tm = false →
    Completes (.strl r a c) s (fun t => Trapped s t 0x01 (s.ir.setWidth 64)) ∧
    Completes (.ldaq r a c) s (fun t => Trapped s t 0x01 (s.ir.setWidth 64))

/-- R382, R83. An atomic that translates, is allowed, aligned and not in the host window returns the old value of its
bytes, zero-extended, and leaves there the table's new value, low bytes first, in one access: no other byte of memory,
no other register and no unit but the memory changes. -/
def Obligations.AtomicResult : Prop :=
  ∀ i s d a n f tl, atomicForm s i = some (d, a, n, f) → Allowed s (s.rx a).toNat n true tl → Sound s → Coherent s →
    isHost (tl.addr (s.rx a).toNat) = false → s.cur.wait = none → s.deltasDone s.agent = true →
    s.covering (tl.addr (s.rx a).toNat / 128) = [] →
    Completes i s fun t => RegSet s t d (BitVec.ofNat 64 (memNat s (tl.addr (s.rx a).toNat) n)) ∧
      t.cur = { s.cur.commit with x := t.cur.x } ∧ MemoryOnly s t ∧ Coherent t ∧
      BytesSet s t (tl.addr (s.rx a).toNat) n (f (memNat s (tl.addr (s.rx a).toNat) n))

/-- R282, R230, R169. The checks of a load, a store or an atomic come in one order, TRANSL, of an address above 2^56 or one whose walk
ends at an entry that is not valid, then PERM of a store to a page without W, then ALIGN; the first that fails is a precise trap with the address in TVAL, and the walk has read its entries. An atomic on host
memory traps PERM (R382). -/
def Obligations.AccessFaults : Prop :=
  (∀ (s : State) va n st, 2 ^ 56 ≤ va → s.checkAcc va n st = .error (0x03, va)) ∧
  (∀ (s : State) va n st c, va < 2 ^ 56 → s.tlbHolds s.agent s.ctxId va = false → s.walk s.ctxId va = .error c →
    s.checkAcc va n st = .error (c, if c = 0x08 then va / 256 * 256 else va)) ∧
  (∀ (s : State) c va, let e := (s.ctx c).live + 8 * (va / 2 ^ 39 % 2 ^ 17)
    (s.seen (e / 128)).lineBad (e / 128) = 0 → (lineGet ((s.seen (e / 128)).homeData (e / 128)) (e % 128) 8).testBit 0 = false →
    s.walk c va = .error 0x03) ∧
  (∀ (s : State) va n (tl : Tlb), s.lookup s.agent s.ctxId va = .ok tl → aW tl.attr = false → s.checkAcc va n true = .error (0x04, va)) ∧
  (∀ (s : State) va n st (tl : Tlb), s.lookup s.agent s.ctxId va = .ok tl → (st = true → aW tl.attr = true) → va % n ≠ 0 →
    s.checkAcc va n st = .error (0x05, va)) ∧
  (∀ i s d va n ext c tv, loadForm s i = some (d, va, n, ext) → s.walkAway s.agent s.ctxId va = false →
    s.checkAcc va n false = .error (c, tv) → s.cur.tm = false →
    Completes i s fun t => Trapped (s.walked s.agent s.ctxId va) t c (BitVec.ofNat 64 tv)) ∧
  (∀ i s r va n c tv, storeForm s i = some (r, va, n) → s.walkAway s.agent s.ctxId va = false →
    s.checkAcc va n true = .error (c, tv) → s.cur.tm = false →
    Completes i s fun t => Trapped (s.walked s.agent s.ctxId va) t c (BitVec.ofNat 64 tv)) ∧
  (∀ i s d a n f c tv, atomicForm s i = some (d, a, n, f) → s.walkAway s.agent s.ctxId (s.rx a).toNat = false →
    s.checkAcc (s.rx a).toNat n true = .error (c, tv) → s.cur.wait = none → s.cur.tm = false →
    Completes i s fun t => Trapped (s.walked s.agent s.ctxId (s.rx a).toNat) t c (BitVec.ofNat 64 tv)) ∧
  ∀ i s d a n f (tl : Tlb), atomicForm s i = some (d, a, n, f) → s.walkAway s.agent s.ctxId (s.rx a).toNat = false →
    s.checkAcc (s.rx a).toNat n true = .ok tl → isHost (tl.addr (s.rx a).toNat) = true → s.cur.wait = none →
    s.cur.tm = false → Completes i s fun t => Trapped (s.walked s.agent s.ctxId (s.rx a).toNat) t 0x04 (s.rx a)

/-! ### Traps, CSRs and system words -/

/-- R48, R290, R291. TRAP commits, the loop stack acts, and then the handler is entered with EPC the pc that gives and the
immediate in CAUSE; ERET, inside a handler, takes LDEPTH, TM and the pc back from PLD, PTM and EPC; outside it traps ILLEGAL.
The model's own choices it meets are in log 15. -/
def Obligations.TrapAndReturn : Prop :=
  (∀ (m : BitVec 16) s, s.routine = none → s.cur.tm = false → Completes (.trap m) s fun t => OnlyCur s t ∧
    t.cur = { s.cur.commit with epc := s.cur.commit.pc, cause := BitVec.ofNat 64 (0x12 + m.toNat * 65536), tval := 0,
                                status := t.cur.status, ldepth := 0, pc := s.cur.tvec &&& ~~~3, wait := none } ∧
    t.cur.status.getLsbD 0 = true ∧ t.cur.status.getLsbD 1 = false ∧
    (s.cur.ldepth ≤ 4 → (t.cur.status.extractLsb' 4 3).toNat = s.cur.commit.ldepth)) ∧
  (∀ s, s.cur.tm = true → (s.cur.status.extractLsb' 4 3).toNat ≤ 4 → Completes .eret s fun t => OnlyCur s t ∧
    t.cur = { s.cur with ldepth := (s.cur.status.extractLsb' 4 3).toNat, status := t.cur.status, pc := s.cur.epc, wait := none } ∧
    ∀ k, k < 64 → t.cur.status.getLsbD k = if k = 0 then s.cur.status.getLsbD 1 else s.cur.status.getLsbD k) ∧
  ∀ s, s.cur.tm = false → Completes .eret s fun t => Trapped s t 0x01 (s.ir.setWidth 64)

/-- R48, R149, R230, R231, R274, R275. A word that is no instruction traps ILLEGAL with the word in TVAL, and a fetch from an address
that is not mapped executable traps FETCH with the address in EPC and TVAL; nothing else changes. Inside a handler the
ostler stops instead, its trap registers kept; OSTLER_STOP goes to its context's function's host ring with the cause, and
AUX0 and AUX1 carry the first trap's EPC and CAUSE, TAG 0. The model's own choices it meets are in log 14 and 96. -/
def Obligations.FaultWords : Prop :=
  (∀ (w : W32) s, s.cur.tm = true → let f := (s.ctx s.ctxId).func
      Completes (.illegal w) s fun t => t.cur = { s.cur with run := .stopped, wait := none } ∧
        (∀ k, k ≠ s.me → t.ostler k = s.ostler k) ∧ t.pens = s.pens ∧ t.pes = s.pes ∧ t.caches = s.caches ∧
        ∃ r, recFields 0x70 0x01 (s.who.die % 8) 6 (s.who.n % 256) 0 0 s.cur.epc s.cur.cause r ∧
          if (s.fn f).ringFull = true ∨ (s.fn f).posts ≠ [] then
            t.mem = s.mem ∧ (t.fn f).posts = (s.fn f).posts ++ [{ ev := r, ctx := s.ctxId }]
          else (t.fn f).hehead = ((s.fn f).hehead + 1) % 2 ^ (s.fn f).hesize ∧ (t.fn f).posts = (s.fn f).posts ∧
            ∀ k, k < 32 → Memory.byte t.mem (hostBase + (s.fn f).hebase.toNat + 32 * (s.fn f).hehead + k) = byteOf r.toNat k) ∧
  (∀ (w : W32) s, s.cur.tm = false → Completes (.illegal w) s fun t => Trapped s t 0x01 (w.setWidth 64)) ∧
  ∀ s, s.cur.tm = false → Completes .fetch s fun t => Trapped s t 0x02 s.cur.pc

/-- R46, R49, R50, R56, R292. CSRR of every number the table lists reads that register into xd and changes nothing else, CYCLE being
twice FCYCLE and the phase. CSRW, CSRS and CSRC return the old value; the loop stack acts on the registers as they were, and
then a writable register holds the new value, with reserved bits 0 and the clamps of LDEPTH and TIER, and every other CSR and
all the rest of the ostler are as after any other word; a read-only number
ignores the write, and an unlisted one traps ILLEGAL. The model's own choices it meets are in log 26 and 74. -/
def Obligations.CsrWords : Prop :=
  ((∀ (d : Reg) (c : BitVec 12) s v, csrRW s.cur c.toNat = some v ∨ csrRO s c.toNat = some v →
      Completes (.csrr d c) s fun t => Wrote s t d v) ∧
    ∀ (d : Reg) (c : BitVec 12) s, csrRW s.cur c.toNat = none → csrRO s c.toNat = none → s.cur.tm = false →
      Completes (.csrr d c) s fun t => Trapped s t 0x01 (s.ir.setWidth 64)) ∧
  (∀ i s d c f old, csrForm s i = some (d, c, f) → csrRW s.cur c = some old → s.routine = none →
    Completes i s fun t => RegSet s t d old ∧ OnlyCur s t ∧ csrRW t.cur c = some (csrHeld s c (f old)) ∧
      (∀ k, k ≠ c → csrRW t.cur k = csrRW s.cur.commit k) ∧ t.cur.pc = s.cur.commit.pc ∧ t.cur.run = s.cur.run ∧
      t.cur.ctx = s.cur.ctx ∧ t.cur.wait = none ∧ t.cur.queue = s.cur.queue ∧ t.cur.eqhead = s.cur.eqhead ∧
      t.cur.eqcount = s.cur.eqcount ∧ t.cur.pens = s.cur.pens) ∧
  (∀ i s d c f old, csrForm s i = some (d, c, f) → csrRO s c = some old → s.routine = none →
    Completes i s fun t => Wrote s t d old) ∧
  ∀ i s d c f, csrForm s i = some (d, c, f) → csrRW s.cur c = none → csrRO s c = none → s.cur.tm = false →
    Completes i s fun t => Trapped s t 0x01 (s.ir.setWidth 64)

/-- R293, R91, R92. A fence whose writer has no pending maintenance and no delta waiting completes: ACQ leaves the issuer no
leased copy, REL no dirty line, FULL neither, and at SYSTEM scope a release leaves no peer line dirty in L2 (R97); no byte of
memory and no register changes; kind 3 and scopes 5..7 trap ILLEGAL. The model's own choices it meets are in log 83. -/
def Obligations.FenceResult : Prop :=
  (∀ (k : BitVec 2) (c : BitVec 3) s, k.toNat ≤ 2 → c.toNat ≤ 4 → s.routine = none → Sound s → Coherent s →
    s.deltasDone s.agent = true → Completes (.fence k c) s fun t =>
      t.cur = s.cur.commit ∧ MemoryOnly s t ∧ (∀ a, a < 2 ^ 53 → byteAt t a = byteAt s a) ∧ Coherent t ∧
      (c.toNat = 4 → k.toNat ≠ 0 → t.peerDirty = []) ∧
      (k.toNat ≠ 1 → ∀ l x, l < 2 ^ 46 → t.cacheOf s.agent l = some x → x.owned = true) ∧
      (k.toNat ≠ 0 → ∀ l x, l < 2 ^ 46 → t.cacheOf s.agent l = some x → x.mask = 0)) ∧
  ∀ (k : BitVec 2) (c : BitVec 3) s, k.toNat = 3 ∨ 4 < c.toNat → s.cur.tm = false →
    Completes (.fence k c) s fun t => Trapped s t 0x01 (s.ir.setWidth 64)

/-- R294, R276, R295. WAIT commits at once when FCYCLE has reached x(a) or a record is queued, and otherwise leaves the ostler
waiting on the word at the same pc; it writes and acquires nothing. R295. HALT commits and stops its ostler's fetching; it
posts nothing and changes nothing else, pens and engines included.
The model's own choices it meets are in log 75 and 76. -/
def Obligations.WaitAndHalt : Prop :=
  (∀ a s, s.routine = none → (s.rx a).toNat ≤ s.fcycle.toNat ∨ 0 < s.cur.eqcount →
    Completes (.wait a) s fun t => OnlyCur s t ∧ t.cur = s.cur.commit) ∧
  (∀ a s, s.fcycle.toNat < (s.rx a).toNat → s.cur.eqcount = 0 → Completes (.wait a) s fun t => OnlyCur s t ∧
    t.cur = { s.cur with wait := t.cur.wait } ∧ ∃ w, t.cur.wait = some w ∧ w.instr = .wait a) ∧
  ∀ s, s.routine = none → Completes .halt s fun t => OnlyCur s t ∧ t.cur = { s.cur.commit with run := .halted }

/-- R300, R301, R51. RKEY writes RNGKEY and RNGCTR together; RDRAW writes the draw of the key and the counter, zero-extended,
and adds 1 to the counter, modulo 2^64. The first draw of key 0 at counter 1 is 0x666B5633. RKEY is fn 0 and RDRAW fn 1 of
major 0x39, whose other fields they do not read. -/
def Obligations.RandomDraws : Prop :=
  (∀ w : W32, w.toNat / 2 ^ 26 = 0x39 → w.toNat % 64 = 0 → decodeOstler w = .ok (.rkey (w.extractLsb' 16 5) (w.extractLsb' 11 5))) ∧
  (∀ w : W32, w.toNat / 2 ^ 26 = 0x39 → w.toNat % 64 = 1 → decodeOstler w = .ok (.rdraw (w.extractLsb' 21 5))) ∧
  (∀ a b s, s.routine = none → Completes (.rkey a b) s fun t => OnlyCur s t ∧
    t.cur = { s.cur with rngkey := s.rx a, rngctr := s.rx b }.commit) ∧
  (∀ d s, s.routine = none → Completes (.rdraw d) s fun t => WroteFrom s t
    { s.cur with rngctr := BitVec.ofNat 64 (s.cur.rngctr.toNat + 1) } d ((rng s.cur.rngkey s.cur.rngctr).setWidth 64)) ∧
  rng 0 1 = 0x666B5633

/-! ### Events -/

/-- R296-R298, R52. With a record queued and a writable, aligned buffer that is the issuer's own and quiet, EQPOP writes the
record's 32 bytes there, moves the head, drops one from the count, returns STATUS, KIND and OK, and acquires, so that no leased
copy stays; EQPEEK writes and returns the same and leaves the queue; a misaligned or unwritable buffer gives BADARG and an empty
queue BUSY, with nothing changed but what the walk of the buffer's address reads. R298.
EQWAIT returns OK at once with a record queued, BUSY once FCYCLE has reached x(a), and else waits; x0 polls. -/
def Obligations.EventTake : Prop :=
  (∀ d a s, 0 < s.cur.eqcount → Completes (.eqwait d a) s fun t => Wrote s t d 0) ∧
  (∀ d a s, s.cur.eqcount = 0 → (s.rx a).toNat ≤ s.fcycle.toNat → Completes (.eqwait d a) s fun t => Wrote s t d 1) ∧
  (∀ d a s, s.cur.eqcount = 0 → s.fcycle.toNat < (s.rx a).toNat → Completes (.eqwait d a) s fun t => OnlyCur s t ∧
    t.cur = { s.cur with wait := t.cur.wait } ∧ t.cur.wait.isSome = true) ∧
  (∀ (d a : Reg) s, (s.rx a).toNat % 32 ≠ 0 →
    Completes (.eqpop d a) s (fun t => Wrote s t d 4) ∧ Completes (.eqpeek d a) s (fun t => Wrote s t d 4)) ∧
  (∀ (d a : Reg) s, let u := s.walkRange s.agent s.ctxId (s.rx a).toNat 32
    (s.rx a).toNat % 32 = 0 → s.tablesAway s.agent s.ctxId (s.rx a).toNat 32 = false →
    (s.writable (s.rx a).toNat 32 = false →
      Completes (.eqpop d a) s (fun t => Wrote u t d 4) ∧ Completes (.eqpeek d a) s (fun t => Wrote u t d 4)) ∧
    (s.writable (s.rx a).toNat 32 = true → s.cur.eqcount = 0 →
      Completes (.eqpop d a) s (fun t => Wrote u t d 1) ∧ Completes (.eqpeek d a) s (fun t => Wrote u t d 1))) ∧
  ∀ (d a : Reg) s pa, (s.rx a).toNat % 32 = 0 → s.tablesAway s.agent s.ctxId (s.rx a).toNat 32 = false → pa % 32 = 0 → pa < 2 ^ 52 → s.routine = none → Sound s → Coherent s →
    s.rangesOf s.agent s.ctxId (fun t => aW t.attr) (s.rx a).toNat 32 = some [(pa, 32)] → s.gate pa = .go → s.dsets = [] →
    isPeer pa = false → 0 < s.cur.eqcount → s.cur.eqhead < 256 → let r := mget 0 s.cur.queue s.cur.eqhead
    let v := BitVec.ofNat 64 ((r.extractLsb' 8 8).toNat * 65536 + (r.extractLsb' 0 8).toNat * 256)
    Completes (.eqpop d a) s (fun t => BytesSet s t pa 32 r.toNat ∧ RegSet s t d v ∧
      t.cur.eqhead = (s.cur.eqhead + 1) % 256 ∧ t.cur.eqcount = s.cur.eqcount - 1 ∧ t.cur.pc = s.cur.commit.pc ∧
      (∀ l x, l < 2 ^ 46 → t.cacheOf s.agent l = some x → x.owned = true) ∧ ∀ k, k ≠ s.me → t.ostler k = s.ostler k) ∧
    Completes (.eqpeek d a) s (fun t => BytesSet s t pa 32 r.toNat ∧ RegSet s t d v ∧
      t.cur = { s.cur.commit with x := t.cur.x } ∧ ∀ k, k ≠ s.me → t.ostler k = s.ostler k)

/-- R299, R150, R148, R158. EQPOST to an ostler of the issuer's context that has room puts a USER record, from the issuer with
AUX0 x(b) and TAG x(c), behind the records queued there, and returns OK; a full queue gives BUSY and a target of another
context BADARG, with nothing posted. Once its queue has room, the oldest waiting poster of an ostler, or of a host ring,
enters it and the others keep their order; with no room nothing moves. The model's own choices it meets are in log 81. -/
def Obligations.EventSend : Prop :=
  (∀ (d a b c : Reg) s, let k := (s.rx a).toNat / 32 % 8 * 32 + (s.rx a).toNat % 32
    s.routine = none → s.cur.wait = none → (s.rx a).getLsbD 8 = false → (s.ostler k).ctx.getD 0 = s.ctxId →
    s.maint = [] → s.dirtyLines s.agent = [] → s.deltasDone s.agent = true → (s.ostler k).posters = [] →
    ((s.ostler k).eqcount < 256 → Completes (.eqpost d a b c) s fun t => RegSet s t d 0 ∧
      (t.ostler k).eqcount = (s.ostler k).eqcount + 1 ∧ (t.ostler k).eqhead = (s.ostler k).eqhead ∧
      (∃ r, recFields 0x50 0 (s.who.die % 8) 6 (s.who.n % 256) 0 (s.rx c) (s.rx b) 0 r ∧
        ∀ q, mget 0 (t.ostler k).queue q = if q = ((s.ostler k).eqhead + (s.ostler k).eqcount) % 256 then r
          else mget 0 (s.ostler k).queue q) ∧
      (∀ q, q ≠ k → q ≠ s.me → t.ostler q = s.ostler q) ∧ t = { s with ost := t.ost }) ∧
    ((s.ostler k).eqcount = 256 → Completes (.eqpost d a b c) s fun t => Wrote s t d 1)) ∧
  (∀ (d a b c : Reg) s, let f := (s.ctx s.ctxId).func
    s.routine = none → s.cur.wait = none → (s.rx a).getLsbD 8 = true → s.maint = [] → s.dirtyLines s.agent = [] →
    s.deltasDone s.agent = true → (s.fn f).posts = [] → (s.fn f).ringFull = false →
    Completes (.eqpost d a b c) s fun t => RegSet s t d 0 ∧ (t.fn f).hehead = ((s.fn f).hehead + 1) % 2 ^ (s.fn f).hesize ∧
      ∃ r, recFields 0x50 0 (s.who.die % 8) 6 (s.who.n % 256) 0 (s.rx c) (s.rx b) 0 r ∧
        ∀ k, k < 32 → Memory.byte t.mem (hostBase + (s.fn f).hebase.toNat + 32 * (s.fn f).hehead + k) = byteOf r.toNat k) ∧
  (∀ (d a b c : Reg) s, let k := (s.rx a).toNat / 32 % 8 * 32 + (s.rx a).toNat % 32
    s.cur.wait = none → (s.rx a).getLsbD 8 = false → (s.ostler k).ctx.getD 0 ≠ s.ctxId →
    Completes (.eqpost d a b c) s fun t => Wrote s t d 4) ∧
  (∀ die n s p rest, (s.ostler (die * 32 + n)).posters = p :: rest → (s.ostler (die * 32 + n)).eqcount < 256 →
    Completes (.eventPost die n) s fun t => t = { s with ost := t.ost } ∧
      (∀ q, q ≠ die * 32 + n → t.ostler q = s.ostler q) ∧ (t.ostler (die * 32 + n)).posters = rest ∧
      (t.ostler (die * 32 + n)).eqcount = (s.ostler (die * 32 + n)).eqcount + 1 ∧
      mget 0 (t.ostler (die * 32 + n)).queue (((s.ostler (die * 32 + n)).eqhead + (s.ostler (die * 32 + n)).eqcount) % 256) = p.ev) ∧
  (∀ die n s, 256 ≤ (s.ostler (die * 32 + n)).eqcount → Completes (.eventPost die n) s fun t =>
    ∀ q, t.ostler q = s.ostler q) ∧
  (∀ f s p rest, (s.fn f).posts = p :: rest → (s.fn f).ringFull = false → Completes (.hostRingPost f) s fun t =>
    (t.fn f).posts = rest ∧ (t.fn f).hehead = ((s.fn f).hehead + 1) % 2 ^ (s.fn f).hesize ∧ t.ost = s.ost ∧ t.pens = s.pens ∧
    ∀ k, k < 32 → Memory.byte t.mem (hostBase + (s.fn f).hebase.toNat + 32 * (s.fn f).hehead + k) = byteOf p.ev.toNat k) ∧
  ∀ f s, (s.fn f).posts = [] ∨ (s.fn f).ringFull = true → Completes (.hostRingPost f) s fun t => t = s

/-! ### Cache maintenance, pins and handover -/

/-- R380. Over 0 bytes CLEAN, INVAL and FLUSH do nothing and return OK, and over a range with an unmapped page they return
BADARG, with nothing changed but what the walk reads, and while a table of its pages is away they wait; else CLEAN and INVAL queue
their lines for the issuer and return OK, and FLUSH leaves the issuer no copy of them, as data or as code, and every byte of memory as it was. The model's own choices it meets are in log 80. -/
def Obligations.MaintenanceIssue : Prop :=
  (∀ (d a b : Reg) s, (s.rx b).toNat = 0 → Completes (.clean d a b) s (fun t => Returned s t d 0) ∧
    Completes (.inval d a b) s (fun t => Returned s t d 0) ∧ Completes (.flush d a b) s fun t => Returned s t d 0) ∧
  (∀ (d a b : Reg) s, (s.rx b).toNat ≠ 0 → s.tablesAway s.agent s.ctxId (lineVa s a) (lineLen s a b) = true →
    Completes (.clean d a b) s (fun t => Waits s t (.clean d a b)) ∧ Completes (.inval d a b) s (fun t => Waits s t (.inval d a b)) ∧
    Completes (.flush d a b) s fun t => Waits s t (.flush d a b)) ∧
  (∀ (d a b : Reg) s, let u := found s a b
    LinesHere s a b → u.lineRange (s.rx a).toNat (s.rx b).toNat = none →
    Completes (.clean d a b) s (fun t => Returned u t d 4) ∧ Completes (.inval d a b) s (fun t => Returned u t d 4) ∧
    Completes (.flush d a b) s fun t => Returned u t d 4) ∧
  (∀ (d a b : Reg) s ls, let u := found s a b
    LinesHere s a b → u.lineRange (s.rx a).toNat (s.rx b).toNat = some ls →
    Completes (.clean d a b) s (fun t => Returned
      { u with maint := u.maint ++ [{ agent := s.agent, inval := false, lines := ls }] } t d 0) ∧
    Completes (.inval d a b) s fun t => Returned
      { u with maint := u.maint ++ [{ agent := s.agent, inval := true, lines := ls }] } t d 0) ∧
  ∀ (d a b : Reg) s ls, LinesHere s a b → (found s a b).lineRange (s.rx a).toNat (s.rx b).toNat = some ls →
    (∀ l ∈ ls, l < 2 ^ 46) → s.routine = none → Sound s → Coherent s → Completes (.flush d a b) s fun t =>
      RegSet s t d 0 ∧ MemoryOnly s t ∧ Coherent t ∧ (∀ n, n < 2 ^ 53 → byteAt t n = byteAt s n) ∧
      ∀ l ∈ ls, t.cacheOf s.agent l = none ∧ mget none t.icache (ckey s.agent l) = none

/-- R380, R412. A CLEAN of a line, once performed, leaves DRAM with the line as memory holds it and every copy valid; an INVAL
of a line leaves no copy in L2, in the issuer's cache or with an owner, so that memory reads as DRAM.
The model's own choices it meets are in log 80. -/
def Obligations.MaintenancePerformed : Prop :=
  (∀ (s : State) a l i, l < 2 ^ 46 → i < 128 → Sound s → Coherent s →
    let t := s.doMaint { agent := a, inval := false, lines := [l] }
    lineByte (t.dramLine l) i = byteAt s (128 * l + i) ∧ byteAt t (128 * l + i) = byteAt s (128 * l + i) ∧ t.memWf = true) ∧
  ∀ (s : State) a l i, l < 2 ^ 46 → i < 128 → Sound s → Coherent s →
    let t := s.doMaint { agent := a, inval := true, lines := [l] }
    t.l2Of l = none ∧ t.cacheOf a l = none ∧ (t.dirOf l).owner = none ∧ t.mem = s.mem ∧
    byteAt t (128 * l + i) = lineByte (s.dramLine l) i

/-- R84, R380. LOCK brings every line of its range into its slice and pins it to the issuer's context when all are in HBM, none is
pinned by another, the quota holds and no set would pin more than 12 ways; a range outside HBM gives BADARG, one over the quota
QUOTA, one pinned by another context BUSY, one that would pin more than 12 ways of a set NOSPACE, and then nothing is pinned.
UNLOCK unpins the range, and gives BADARG where a line is not its own. Over 0 bytes both do nothing and return OK, and over a range
with an unmapped page they return BADARG. The model's own choices it meets are in log 35 and 59. -/
def Obligations.PinAndUnpin : Prop :=
  (∀ (d a b : Reg) s, (s.rx b).toNat = 0 →
    Completes (.lock d a b) s (fun t => Returned s t d 0) ∧ Completes (.unlock d a b) s fun t => Returned s t d 0) ∧
  (∀ (d a b : Reg) s, LinesHere s a b → (found s a b).lineRange (s.rx a).toNat (s.rx b).toNat = none →
    Completes (.lock d a b) s (fun t => Returned (found s a b) t d 4) ∧
    Completes (.unlock d a b) s fun t => Returned (found s a b) t d 4) ∧
  (∀ (d a b : Reg) s ls, let u := found s a b
    let ways := fun l => (s.pins.filter fun e => l2SetOf e.1 == l2SetOf l).length +
      (ls.filter fun m => l2SetOf m == l2SetOf l && s.pinOf m != some s.ctxId).length
    LinesHere s a b → u.lineRange (s.rx a).toNat (s.rx b).toNat = some ls →
    ((∀ l ∈ ls, isHbm (128 * l) = true ∧ (s.pinOf l = none ∨ s.pinOf l = some s.ctxId)) →
      s.used s.ctxId + ls.length ≤ (s.ctx s.ctxId).quota → (∀ l ∈ ls, ways l ≤ 12) → Sound s → Coherent s →
      Completes (.lock d a b) s fun t => RegSet s t d 0 ∧ (∀ l, t.pinOf l = if l ∈ ls then some s.ctxId else s.pinOf l) ∧
        (∀ l ∈ ls, s.pinOf l = none → (t.l2Of l).isSome = true) ∧
        MemoryOnly s t ∧ Coherent t ∧ ∀ n, n < 2 ^ 53 → byteAt t n = byteAt s n) ∧
    ((∃ l ∈ ls, isHbm (128 * l) = false) → Completes (.lock d a b) s fun t => Returned u t d 4) ∧
    ((∀ l ∈ ls, isHbm (128 * l) = true ∧ s.pinOf l = none) → ls.Nodup → (s.ctx s.ctxId).quota < s.used s.ctxId + ls.length →
      Completes (.lock d a b) s fun t => Returned u t d 2) ∧
    ((∀ l ∈ ls, isHbm (128 * l) = true) → (∃ l ∈ ls, ∃ c, s.pinOf l = some c ∧ c ≠ s.ctxId) →
      s.used s.ctxId + ls.length ≤ (s.ctx s.ctxId).quota → Completes (.lock d a b) s fun t => Returned u t d 1) ∧
    ((∀ l ∈ ls, isHbm (128 * l) = true ∧ (s.pinOf l = none ∨ s.pinOf l = some s.ctxId)) →
      s.used s.ctxId + ls.length ≤ (s.ctx s.ctxId).quota → ls.Nodup → mwf none s.pins = true →
      (∃ l ∈ ls, s.pinOf l = none ∧ 12 < ways l) → Completes (.lock d a b) s fun t => Returned u t d 3)) ∧
  ∀ (d a b : Reg) s ls, let u := found s a b
    LinesHere s a b → u.lineRange (s.rx a).toNat (s.rx b).toNat = some ls →
    ((∀ l ∈ ls, s.pinOf l = some s.ctxId) → Completes (.unlock d a b) s fun t => RegSet s t d 0 ∧
      (∀ l, t.pinOf l = if l ∈ ls then none else s.pinOf l) ∧ t.mem = u.mem ∧ t.caches = u.caches ∧ t.l2 = u.l2) ∧
    ((∃ l ∈ ls, s.pinOf l ≠ some s.ctxId) → Completes (.unlock d a b) s fun t => Returned u t d 4)

/-- R381, R98, R99. HOVER queues a handover of a whole-page host range and returns OK, BADARG for a bad operand, RANGE outside
the host window and BUSY with four of the ostler's running; at its end HOVER_DONE is posted with the tag, from the yard controller, a
source the model chooses. A kick command of a function sets LAST to BUSY while one runs, to BADARG for no length or a context that is
not the function's, to RANGE for a range that is not host memory, or becomes busy until its end sets OK, first waiting for tables
held elsewhere; before READY it is ignored; a handover leaves its lines in no L2 slice.
The model's own choices it meets are in log 28, 80 and 105. -/
def Obligations.HandoverAndKick : Prop :=
  (∀ (d a b c : Reg) s, let va := (s.rx a).toNat
    let n := (s.rx b).toNat
    let op := (s.rx c).toNat % 4
    let u := s.walkRange s.agent s.ctxId va n
    (op = 0 ∨ op = 3 ∨ n = 0 ∨ n % 65536 ≠ 0 ∨ va % 65536 ≠ 0 → Completes (.hover d a b c) s fun t => Returned s t d 4) ∧
    (op = 1 ∨ op = 2 → n ≠ 0 → n % 65536 = 0 → va % 65536 = 0 →
      (s.tablesAway s.agent s.ctxId va n = true → Completes (.hover d a b c) s fun t => Waits s t (.hover d a b c)) ∧
      (s.tablesAway s.agent s.ctxId va n = false → u.rangesOf s.agent s.ctxId (fun _ => true) va n = none →
        Completes (.hover d a b c) s fun t => Returned u t d 7) ∧
      (s.tablesAway s.agent s.ctxId va n = false → ∀ rs, u.rangesOf s.agent s.ctxId (fun _ => true) va n = some rs →
        ((∃ r ∈ rs, isHost r.1 = false) → Completes (.hover d a b c) s fun t => Returned u t d 7) ∧
        ((∀ r ∈ rs, isHost r.1 = true) → 4 ≤ (s.hovers.filter fun h => h.die == s.who.die && h.n == s.who.n).length →
          Completes (.hover d a b c) s fun t => Returned u t d 1) ∧
        ((∀ r ∈ rs, isHost r.1 = true) → (s.hovers.filter fun h => h.die == s.who.die && h.n == s.who.n).length < 4 →
          Completes (.hover d a b c) s fun t => Returned { u with hovers := s.hovers ++
            [{ ctx := s.ctxId, die := s.who.die, n := s.who.n, op := op, va := va, len := n, pas := rs, tag := s.rx c >>> 8 }] }
            t d 0)))) ∧
  (∀ idx (s : State) h, s.hovers[idx]? = some h → Completes (.hoverDone idx) s fun t =>
    ∃ r, recFields 0x22 0 (h.die % 8) 3 0 0 h.tag (BitVec.ofNat 64 h.va) (BitVec.ofNat 64 h.len) r ∧
      PostedTo (s.handover h.op h.pas) t (h.die * 32 + h.n) h.ctx r ∧ t.hovers = (s.handover h.op h.pas).hovers.eraseIdx idx) ∧
  (∀ (s : State) op pas l, l ∈ rangeLines pas → l < 2 ^ 46 → (s.handover op pas).l2Of l = none) ∧
  (∀ i f c op s, (i = .toDevice f c ∧ op = 1) ∨ (i = .toHost f c ∧ op = 2) →
    let x := s.fn f
    let va := x.hkaddr.toNat
    let n := x.hklen.toNat * 65536
    let u := s.walkRange (agentYard 0) c va n
    let set := fun (u t : State) y => t = { u with fns := t.fns } ∧ t.fn f = y ∧ ∀ g, g ≠ f → t.fn g = s.fn g
    (s.pf.ready = false → Completes i s fun t => t = s) ∧
    (s.pf.ready = true → x.hkbusy = true → Completes i s fun t => set s t { x with hklast := 1 }) ∧
    (s.pf.ready = true → x.hkbusy = false → x.hklen = 0 ∨ (s.ctx c).valid = false ∨ (s.ctx c).func ≠ f →
      Completes i s fun t => set s t { x with hklast := 4 }) ∧
    (s.pf.ready = true → x.hkbusy = false → x.hklen ≠ 0 → (s.ctx c).valid = true → (s.ctx c).func = f →
      (s.tablesAway (agentYard 0) c va n = true → Completes i s fun t =>
        set s t { x with hkbusy := true, hkwant := some (va, n), hkop := op, hkctx := c }) ∧
      (s.tablesAway (agentYard 0) c va n = false →
        (s.rangesOf (agentYard 0) c (fun _ => true) va n = none → Completes i s fun t => set u t { x with hklast := 7 }) ∧
        ∀ rs, s.rangesOf (agentYard 0) c (fun _ => true) va n = some rs →
          ((∃ r ∈ rs, isHost r.1 = false) → Completes i s fun t => set u t { x with hklast := 7 }) ∧
          ((∀ r ∈ rs, isHost r.1 = true) → Completes i s fun t =>
            set u t { x with hkbusy := true, hkpas := rs, hkop := op, hkctx := c })))) ∧
  ∀ f s, (s.fn f).hkbusy = true → (s.fn f).hkwant = none → Completes (.kickDone f) s fun t =>
    (t.fn f).hkbusy = false ∧ (t.fn f).hklast = 0 ∧ t.ost = (s.handover (s.fn f).hkop (s.fn f).hkpas).ost

/-! ### Slice routines and append logs -/

/-- R180, R383, R384. RDEF of a routine whose words are all allowed puts them in its slot, for the issuer's context, in the place of
a routine of that context there, and gives BADARG for a length outside 1..16, for a block that is misaligned, unmapped or bad, and for
words outside the subset, BUSY for another context's slot; ARUN that passes an atomic's checks starts the slot's
routine with the line locked, x1 and x2 its operands and every other register 0, and gives BADARG where the context has none.
The model's own choices it meets are in log 103. -/
def Obligations.RoutineStart : Prop :=
  (∀ (d a b : Reg) s, (s.rx b).toNat / 256 % 256 = 0 ∨ 16 < (s.rx b).toNat / 256 % 256 →
    Completes (.rdef d a b) s fun t => Returned s t d 4) ∧
  (∀ (d a b : Reg) s, let n := (s.rx b).toNat / 256 % 256
    0 < n → n ≤ 16 →
    ((s.rx a).toNat % 4 ≠ 0 → Completes (.rdef d a b) s fun t => Returned s t d 4) ∧
    (∀ c v u, s.readBlock (s.rx a).toNat (4 * n) 4 = .trap c v u → Completes (.rdef d a b) s fun t => Returned u t d 4) ∧
    ∀ u, s.readBlock (s.rx a).toNat (4 * n) 4 = .wait u → Completes (.rdef d a b) s fun t => Waits u t (.rdef d a b)) ∧
  (∀ (d a b : Reg) s x u, let n := (s.rx b).toNat / 256 % 256
    let slot := (s.rx b).toNat % 256
    0 < n → n ≤ 16 → s.readBlock (s.rx a).toNat (4 * n) 4 = .ok x u →
    (routineOk (wordsOf x n) = false → Completes (.rdef d a b) s fun t => Returned u t d 4) ∧
    (routineOk (wordsOf x n) = true → (∀ r, mget none u.routines slot = some r → r.ctx = u.ctxId) →
      Completes (.rdef d a b) s fun t => Returned
        { u with routines := mset none u.routines slot (some { ctx := u.ctxId, words := wordsOf x n }) } t d 0) ∧
    ∀ r, routineOk (wordsOf x n) = true → mget none u.routines slot = some r → r.ctx ≠ u.ctxId →
      Completes (.rdef d a b) s fun t => Returned u t d 1) ∧
  (∀ (d a b c : Reg) s tl r, Allowed s (s.rx a).toNat 8 true tl → Sound s → isHost (tl.addr (s.rx a).toNat) = false →
    s.cur.wait = none → s.covering (tl.addr (s.rx a).toNat / 128) = [] →
    mget none s.routines ((s.rx c).toNat % 256) = some r → s.cur.ctx = some r.ctx → Coherent s →
    Completes (.arun d a b c) s fun t => ∃ rt, t.routine = some rt ∧ rt.words = r.words ∧ rt.at_ = 0 ∧ rt.buf = [] ∧
      rt.dst = d ∧ rt.line = tl.addr (s.rx a).toNat / 128 ∧ rt.die = s.who.die ∧ rt.n = s.who.n ∧
      (∀ k : Reg, t.rx k = if k = 1 then s.rx a else if k = 2 then s.rx b else 0) ∧
      (t.dirOf rt.line).owner = none ∧ (∀ n, n < 2 ^ 53 → byteAt t n = byteAt s n) ∧
      t.cur = { s.cur with wait := t.cur.wait } ∧ t.cur.wait.isSome = true) ∧
  ∀ (d a b c : Reg) s tl, Allowed s (s.rx a).toNat 8 true tl → isHost (tl.addr (s.rx a).toNat) = false → s.cur.wait = none →
    (∀ r, mget none s.routines ((s.rx c).toNat % 256) = some r → some r.ctx ≠ s.cur.ctx) →
    Completes (.arun d a b c) s fun t => Returned (s.walked s.agent s.ctxId (s.rx a).toNat) t d 4

/-- R257, R385. In a routine, LLD reads the doubleword of the locked line that x(a) selects, a buffered store to it first, and a free
value where a shadow area holds it (R112);
LST buffers a store and memory keeps; LDONE writes every buffered doubleword at the line's home, ends the routine, and its
issuer's destination takes the result. On an ostler each of the three traps ILLEGAL.
The model's own choices it meets are in log 17 and 82. -/
def Obligations.RoutineWords : Prop :=
  (∀ (d a : Reg) s rt, let k := (s.rx a).toNat / 8 % 16
    s.routine = some rt →
    (∀ x, mget none rt.buf k = some x → Completes (.lld d a) s fun t => Wrote s t d x) ∧
    (mget none rt.buf k = none → (∀ j, j < 8 → s.isShadow (128 * rt.line + 8 * k + j) = false) →
      Completes (.lld d a) s fun t => Wrote s t d (BitVec.ofNat 64 (lineGet (s.homeData rt.line) (8 * k) 8))) ∧
    (mget none rt.buf k = none → (∃ j, j < 8 ∧ s.isShadow (128 * rt.line + 8 * k + j) = true) →
      Completes (.lld d a) s fun t => ∃ v, RegSet s t d v ∧ t = { s with routine := t.routine, freeCtr := t.freeCtr })) ∧
  (∀ (a b : Reg) s rt, s.routine = some rt → Completes (.lst a b) s fun t => ∃ f,
    t = { s with routine := some { rt with buf := f, at_ := rt.at_ + 1 } } ∧
    ∀ k, mget none f k = if k = (s.rx a).toNat / 8 % 16 then some (s.rx b) else mget none rt.buf k) ∧
  (∀ (a : Reg) s rt, s.routine = some rt → mwf none rt.buf = true → (∀ k, 16 ≤ k → mget none rt.buf k = none) →
    s.covering rt.line = [] → s.deltasDone (agentOst rt.die rt.n) = true → s.poison = [] →
    Completes (.ldone a) s fun t => t.routine = none ∧
      (∀ i, i < 128 → lineByte (t.homeData rt.line) i = match mget none rt.buf (i / 8) with
        | some x => byteOf x.toNat (i % 8)
        | none => lineByte (s.homeData rt.line) i) ∧
      (∀ l, l ≠ rt.line → t.homeData l = s.homeData l) ∧ t.caches = s.caches ∧ t.dir = s.dir ∧
      (rt.dst ≠ 0 → mget 0 (t.ostler (rt.die * 32 + rt.n)).x rt.dst.toNat = BitVec.ofNat 64 ((s.rx a).toNat * 256)) ∧
      ∀ k, k ≠ rt.die * 32 + rt.n → t.ostler k = s.ostler k) ∧
  ∀ (d a b : Reg) s, s.routine = none → s.cur.tm = false →
    Completes (.lld d a) s (fun t => Trapped s t 0x01 (s.ir.setWidth 64)) ∧
    Completes (.lst a b) s (fun t => Trapped s t 0x01 (s.ir.setWidth 64)) ∧
    Completes (.ldone a) s (fun t => Trapped s t 0x01 (s.ir.setWidth 64))

/-- R386, R153. LAPP appends one entry at the home of its address, after those there, counts its own sequence number, returns
OK and changes no byte of memory; an operation that is not listed, or not for 8 bytes, and a misaligned, unmapped or unwritable
address give BADARG; a full log
keeps the ostler waiting until that home has room, when LOG_APPEND appends the entry.
The model's own choices it meets are in log 76. -/
def Obligations.AppendLog : Prop :=
  (∀ (d a b c : Reg) s tl, lappGood s a c tl → Rooted s → Sound s → Coherent s →
    s.logLacks (homeOf (tl.addr (s.rx a).toNat)) 1 = false → Completes (.lapp d a b c) s fun t =>
      RegSet s t d 0 ∧ MemoryOnly s t ∧ (∀ n, n < 2 ^ 53 → byteAt t n = byteAt s n) ∧ t.cur.logSeq = s.cur.logSeq + 1 ∧
      t.logOf (homeOf (tl.addr (s.rx a).toNat)) = s.logOf (homeOf (tl.addr (s.rx a).toNat)) ++ [lappEntry s a b c tl] ∧
      ∀ h, h ≠ homeOf (tl.addr (s.rx a).toNat) → t.logOf h = s.logOf h) ∧
  (∀ (d a b c : Reg) s, let op := (s.rx c).toNat % 16
    let w8 := (s.rx c).getLsbD 4
    (7 ≤ op ∨ w8 = true ∧ (op = 2 ∨ op = 5 ∨ op = 6) ∨ (s.rx a).toNat % (if w8 then 8 else 4) ≠ 0 →
      Completes (.lapp d a b c) s fun t => Returned s t d 4) ∧
    (op < 7 → (w8 = true → op ≠ 2 ∧ op ≠ 5 ∧ op ≠ 6) → (s.rx a).toNat % (if w8 then 8 else 4) = 0 →
      s.walkAway s.agent s.ctxId (s.rx a).toNat = false →
      (∀ e, s.lookup s.agent s.ctxId (s.rx a).toNat = .error e →
        Completes (.lapp d a b c) s fun t => Returned (s.walked s.agent s.ctxId (s.rx a).toNat) t d 4) ∧
      ∀ tl, s.lookup s.agent s.ctxId (s.rx a).toNat = .ok tl → aW tl.attr = false →
        Completes (.lapp d a b c) s fun t => Returned (s.keepTlb s.agent 64 tl) t d 4)) ∧
  (∀ (d a b c : Reg) s tl, lappGood s a c tl → s.logLacks (homeOf (tl.addr (s.rx a).toNat)) 1 = true →
    Completes (.lapp d a b c) s fun t =>
      OnlyCur s t ∧ t.cur = { s.cur with wait := t.cur.wait } ∧ t.cur.wait.isSome = true) ∧
  ∀ (home k : Nat) (s : State) w d a b c tl, let u := { s with who := { s.who with die := k / 32, n := k % 32 } }
    s.ost.map Prod.fst = [k] → s.lappHome k = some home → (s.ostler k).wait = some w → w.instr = .lapp d a b c →
    lappGood u a c tl → s.routine = none → homeOf (tl.addr (u.rx a).toNat) = home → s.logLacks home 1 = false →
    Completes (.logAppend home) s fun t => t.who = s.who ∧ (t.ostler k).wait = none ∧ t.pens = s.pens ∧
      t.logOf home = s.logOf home ++ [lappEntry u a b c tl]

/-- R387, R154, R386. LMRG starts a merge of what each home's log holds for the context and range, of home 0 where every log is
empty, and gives BADARG for an unwritable range. A home applies its first entry in key order, as the entry's operation says
(STORE, IADD, FADD, IMAX, IMIN, FMAX, FMIN), at the entry's width, to the old value, and takes it out of the log; the last home, with
nothing left to apply, posts MERGE_DONE with the counts, and one that is not the last leaves the merge.
The model's own choices it meets are in log 63. -/
def Obligations.LogMerges : Prop :=
  (∀ (d a b c : Reg) s, s.tablesAway s.agent s.ctxId (s.rx a).toNat (s.rx b).toNat = true →
    Completes (.lmrg d a b c) s fun t => Waits s t (.lmrg d a b c)) ∧
  (∀ (d a b c : Reg) s, let u := s.walkRange s.agent s.ctxId (s.rx a).toNat (s.rx b).toNat
    s.tablesAway s.agent s.ctxId (s.rx a).toNat (s.rx b).toNat = false →
    (u.rangesOf s.agent s.ctxId (fun t => aW t.attr) (s.rx a).toNat (s.rx b).toNat = none →
      Completes (.lmrg d a b c) s fun t => Returned u t d 4) ∧
    ∀ rs, u.rangesOf s.agent s.ctxId (fun t => aW t.attr) (s.rx a).toNat (s.rx b).toNat = some rs →
      Completes (.lmrg d a b c) s fun t => Returned { u with merges := s.merges ++
        [{ id := s.mergeId, ctx := s.ctxId, die := s.who.die, n := s.who.n, tag := s.rx c, ranges := rs,
           homes := if s.logs = [] then [(0, 0)] else s.logs.map fun e => (e.1, e.2.length), applied := 0, left := 0 }] } t d 0) ∧
  (∀ home s m n e f, s.merges = [m] → m.homes = [(home, n)] → nextEntry m ((s.logOf home).take n) = some e →
    mergeForm e = some f → e.pa < 2 ^ 52 → e.pa % (if e.w8 then 8 else 4) = 0 → s.pageAway e.pa = false → s.dsets = [] →
    Sound s → Coherent s → Completes (.logMerge home) s fun t =>
      BytesSet s t e.pa (if e.w8 then 8 else 4) (f (memNat s e.pa (if e.w8 then 8 else 4))) ∧ t.logOf home = (s.logOf home).erase e ∧
      (∃ k, t.merges = [k] ∧ k.applied = m.applied + 1 ∧ k.left = m.left) ∧ t.ost = s.ost) ∧
  (∀ home s m n, s.merges = [m] → m.homes.find? (fun h => h.1 == home) = some (home, n) → 1 < m.homes.length →
    nextEntry m ((s.logOf home).take n) = none → Completes (.logMerge home) s fun t => t = { s with merges := t.merges } ∧
      t.merges = [{ m with homes := m.homes.filter fun h => h.1 != home }]) ∧
  ∀ home s m n, s.merges = [m] → m.homes = [(home, n)] → nextEntry m ((s.logOf home).take n) = none →
    s.slicesDone = true → Completes (.logMerge home) s fun t => t.merges = [] ∧ t.logs = s.logs ∧
      ∃ r, recFields 0x21 (if m.left = 0 then 0 else 6) (home / 64 % 8) 2 (home % 64) 0 m.tag (BitVec.ofNat 64 m.applied)
        (BitVec.ofNat 64 (s.logs.flatMap fun e => e.2.filter m.takes).length) r ∧ PostedTo s t (m.die * 32 + m.n) m.ctx r

/-! ### The homes, the caches, errors and the pages between modules -/

/-- R83, R86, R87, R90, R93, R412, R437. The steps of homes and caches move lines and change no byte of memory: a recall leaves
no owner, a drain request leaves the releaser's lines clean and its record drained, an acknowledgement clears that record,
a write-back or a sweep leaves the copy clean, an eviction leaves none, an expired lease leaves its cache; a home write
stores exactly its bytes. The model's own choices it meets are in log 13 and 57. -/
def Obligations.HomeSteps : Prop :=
  (∀ agent pa len s, pa % 128 + len ≤ 128 → pa < 2 ^ 52 → s.pageAway pa = false → Coherent s → Sound s →
    Completes (.homeAccess agent pa len none) s fun t => Coherent t ∧ (t.dirOf (pa / 128)).owner = none ∧
      ∀ a, a < 2 ^ 53 → byteAt t a = byteAt s a) ∧
  (∀ agent pa b sp s, pa % 128 + b.length ≤ 128 → pa < 2 ^ 52 → s.pageAway pa = false → s.covering (pa / 128) = [] →
    Sound s → Coherent s → Completes (.homeAccess agent pa b.length (some { bytes := b, split := sp })) s fun t =>
      Coherent t ∧ BytesSet s t pa b.length (ofBytes b)) ∧
  (∀ l s, l < 2 ^ 46 → Sound s → Coherent s → Completes (.lineRecall l) s fun t => Coherent t ∧ (t.dirOf l).owner = none ∧
    ∀ a, a < 2 ^ 53 → byteAt t a = byteAt s a) ∧
  (∀ l a s r, l < 2 ^ 46 → Sound s → Coherent s → (s.dirOf l).releases = [r] → r.agent = a →
    Completes (.drainRequest l a) s fun t => (t.dirOf l).releases = [{ r with drained := true }] ∧
      (∀ m ∈ r.lines, ∀ c, t.cacheOf a m = some c → c.mask = 0) ∧ ∀ n, n < 2 ^ 53 → byteAt t n = byteAt s n) ∧
  (∀ l a s, Completes (.drainAck l a) s fun t => t = { s with dir := t.dir } ∧ (t.dirOf l).owner = (s.dirOf l).owner ∧
    (t.dirOf l).releases = (s.dirOf l).releases.filter fun r => !(r.agent == a && r.drained)) ∧
  (∀ a l s, l < 2 ^ 46 → Sound s → Coherent s →
    Completes (.writeback a l) s (fun t => Coherent t ∧ (∀ c, t.cacheOf a l = some c → c.mask = 0) ∧
      ((t.cacheOf a l).isSome = (s.cacheOf a l).isSome) ∧ ∀ n, n < 2 ^ 53 → byteAt t n = byteAt s n) ∧
    Completes (.backgroundSweep a l) s (fun t => Coherent t ∧ (∀ c, t.cacheOf a l = some c → c.mask = 0) ∧
      ((t.cacheOf a l).isSome = (s.cacheOf a l).isSome) ∧ ∀ n, n < 2 ^ 53 → byteAt t n = byteAt s n) ∧
    Completes (.eviction (some a) l) s fun t => Coherent t ∧ t.cacheOf a l = none ∧
      ∀ n, n < 2 ^ 53 → byteAt t n = byteAt s n) ∧
  (∀ l s, l < 2 ^ 46 → Sound s → Coherent s → s.pinOf l = none →
    Completes (.eviction none l) s fun t => Coherent t ∧ t.l2Of l = none ∧ ∀ n, n < 2 ^ 53 → byteAt t n = byteAt s n) ∧
  (∀ l s c, s.pinOf l = some c → Completes (.eviction none l) s fun t => t = s) ∧
  ∀ a l s c, l < 2 ^ 46 → s.cacheOf a l = some c → c.owned = false → 4096 ≤ (s.cycle - c.since).toNat →
    Completes (.leaseExpiry a l) s fun t => t.cacheOf a l = none ∧ t = { s with caches := t.caches } ∧
      ∀ q m, m < 2 ^ 46 → (q, m) ≠ (a, l) → t.cacheOf q m = s.cacheOf q m

/-- R42, R105, R106, R188. A corrected error counts in its telemetry counter and changes nothing else; an uncorrectable one
poisons its line in memory or in L2, the copy of a cache or a vector of a PE's SRAM, and counts; the snapshot copies every counter with
the time. A memory error counts on the die of the line's home. The model's own choices it meets are in log 78 and 88. -/
def Obligations.ErrorsAndTelemetry : Prop :=
  (∀ l s, isHbm (128 * l) = true → Completes (.patrolScrub l true) s fun t => t = { s with tele := t.tele } ∧
    ∀ k, mget 0 t.tele k = mget 0 s.tele k + if k = homeOf (128 * l) / 64 * 16 then 1 else 0) ∧
  (∀ l s, (s.l2Of l).isSome = true → Completes (.l2Scrub l true) s fun t => t = { s with tele := t.tele } ∧
    ∀ k, mget 0 t.tele k = mget 0 s.tele k + if k = homeOf (128 * l) / 64 * 16 + 1 then 1 else 0) ∧
  (∀ die stall s, mget Stall.free s.stalls (die * 128 + stall) ≠ .absent → Completes (.peSramScrub die stall true) s fun t =>
    t = { s with tele := t.tele } ∧ ∀ k, mget 0 t.tele k = mget 0 s.tele k + if k = die * 16 + 2 then 1 else 0) ∧
  (∀ l s, Completes (.patrolScrub l false) s (fun t => t = s) ∧ Completes (.l2Scrub l false) s fun t => t = s) ∧
  (∀ l s, Completes (.uncorrectableError (.memory l)) s fun t => t = { s with poison := t.poison, tele := t.tele } ∧
    (∀ k, mget false t.poison k = if k = l then true else mget false s.poison k) ∧ (s.l2Of l = none → t.lineBad l = 0x09) ∧
    ∀ k, mget 0 t.tele k = mget 0 s.tele k + if k = homeOf (128 * l) / 64 * 16 + 3 then 1 else 0) ∧
  (∀ l c s, s.l2Of l = some c → Completes (.uncorrectableError (.l2 l)) s fun t =>
    t = { s with l2 := t.l2, tele := t.tele } ∧ (∀ m, t.l2Of m = if m = l then some { c with pois := true } else s.l2Of m) ∧
    t.lineBad l = 0x09 ∧ ∀ k, mget 0 t.tele k = mget 0 s.tele k + if k = homeOf (128 * l) / 64 * 16 + 3 then 1 else 0) ∧
  (∀ l a c s, s.cacheOf a l = some c → Completes (.uncorrectableError (.copy a l)) s fun t =>
    t = { s with caches := t.caches, tele := t.tele } ∧ t.cacheOf a l = some { c with bad := true } ∧
    (∀ q m, l < 2 ^ 46 → m < 2 ^ 46 → (q, m) ≠ (a, l) → t.cacheOf q m = s.cacheOf q m) ∧
    ∀ k, mget 0 t.tele k = mget 0 s.tele k + if k = a / 4096 * 16 + 3 then 1 else 0) ∧
  (∀ die pen i v s, i < 2048 → Completes (.uncorrectableError (.sram die pen i v)) s fun t =>
    t = { s with pes := t.pes, tele := t.tele } ∧ (∀ q j, j < 2048 → (q, j) ≠ (penKey die pen, i) → t.pe q j = s.pe q j) ∧
    t.pe (penKey die pen) i = { s.pe (penKey die pen) i with ecc := (t.pe (penKey die pen) i).ecc } ∧
    (∀ x, mget false (t.pe (penKey die pen) i).ecc x =
      if x = v then true else mget false (s.pe (penKey die pen) i).ecc x) ∧
    ∀ k, mget 0 t.tele k = mget 0 s.tele k + if k = die * 16 + 3 then 1 else 0) ∧
  ∀ s, Completes .telemetrySnapshot s fun t => t = { s with teleSnap := s.tele, teleStamp := s.fcycle }

/-- R95, R96, R97. A peer's read makes a page SHARED with it, a peer's write takes it EXCL, with no copy of its lines left in
this module's caches; while another module holds the page, or older requests for it stand, a request waits behind them. A returned page
is HOME with the lines given, and the requests that waited are served in the order they came, up to one of this module's ostlers, which
is served by that ostler's access; a page of a peer's window leaves no copy here when it is handed over; bytes of an SPLITW line are
merged under their mask. The model's own choices it meets are in log 18. -/
def Obligations.PageSteps : Prop :=
  (∀ p g s, (∀ r ∈ s.pageReqs, r.page ≠ g) → (∀ n, s.page g ≠ .excl n) → Completes (.pageRequest p g false) s fun t =>
    t = { s with pages := t.pages } ∧ (s.page g = .home → t.page g = .shared [p]) ∧
    (∀ l, s.page g = .shared l → t.page g = .shared (if p ∈ l then l else l ++ [p])) ∧
    ∀ q, q ≠ g → t.page q = s.page q) ∧
  (∀ p g w s, (∃ r ∈ s.pageReqs, r.page = g ∧ s.stands r = true) ∨ (∃ n, s.page g = .excl n ∧ n ≠ p) →
    Completes (.pageRequest p g w) s fun t =>
      t = { s with pageReqs := s.pageReqs ++ [{ page := g, own := false, who := p, write := w }] }) ∧
  (∀ p g w s, (∀ r ∈ s.pageReqs, r.page ≠ g) → s.page g = .excl p → Completes (.pageRequest p g w) s fun t => t = s) ∧
  (∀ p g s, (∀ r ∈ s.pageReqs, r.page ≠ g) → (∀ n, s.page g ≠ .excl n) → Sound s → Coherent s →
    Completes (.pageRequest p g true) s fun t => t.page g = .excl p ∧ (∀ q, q ≠ g → t.page q = s.page q) ∧
    (∀ a l, l < 2 ^ 46 → l / 512 = g → t.cacheOf a l = none) ∧ ∀ n, n < 2 ^ 53 → byteAt t n = byteAt s n) ∧
  (∀ g l d n s, isPeer (65536 * g) = false → s.page g = .excl n → l / 512 = g → l < 2 ^ 46 → (s.dirOf l).owner = none →
    Sound s → Coherent s →
    let got := fun (t : State) => ∀ a, a < 2 ^ 53 → byteAt t a = if a / 128 = l then lineByte d (a % 128) else byteAt s a
    ((∀ r ∈ s.pageReqs, r.page ≠ g) → Completes (.pageHandover g [(l, d)]) s fun t => t.page g = .home ∧
      t.pageReqs = s.pageReqs ∧ got t) ∧
    (∀ q, s.pageReqs = [{ page := g, own := false, who := q, write := false }] → Completes (.pageHandover g [(l, d)]) s fun t =>
      t.page g = .shared [q] ∧ t.pageReqs = [] ∧ got t) ∧
    ∀ r rest, s.pageReqs = r :: rest → r.page = g → r.own = true → s.stands r = true →
      Completes (.pageHandover g [(l, d)]) s fun t => t.page g = .home ∧ t.pageReqs = s.pageReqs ∧ got t) ∧
  (∀ g ls s, isPeer (65536 * g) = true → Sound s → Coherent s → Completes (.pageHandover g ls) s fun t =>
    (∀ l, l / 512 = g → t.l2Of l = none) ∧ (∀ a l, l < 2 ^ 46 → l / 512 = g → t.cacheOf a l = none) ∧
    ∀ n, n < 2 ^ 53 → byteAt t n = byteAt s n) ∧
  ∀ p l d m s, s.page (l / 512) = .home → l < 2 ^ 46 → (s.dirOf l).owner = none → Sound s → Coherent s →
    Completes (.splitwMerge p l d m) s fun t => t.page (l / 512) = .shared [p] ∧
    ∀ a, a < 2 ^ 53 → byteAt t a = if a / 128 = l ∧ m.getLsbD (a % 128) = true then lineByte d (a % 128) else byteAt s a

/-! ### Pens, jobs and the yard -/

/-- R302, R303, R308, R309, R34. A pen operand the issuer does not own gives BADARG, and bit 63 from RSTAT; RPLACE puts a new
pen of the asked shape at the first place of the scan that is open and not kept for the entry served next, holds its stalls and takes
the lowest free id and ownership slot, BUSY without a slot and NOSPACE without a place; RSTAT reports a pen and changes nothing; RREL
of an idle pen frees it. The model's own choices it meets are in log 16 and 72. -/
def Obligations.PenPlacement : Prop :=
  (∀ (d a b c : Reg) s, s.ownPen (s.rx a) = none →
    Completes (.rload d a b) s (fun t => Returned s t d 4) ∧ Completes (.rcfg d a b c) s (fun t => Returned s t d 4) ∧
    Completes (.rstop d a) s (fun t => Returned s t d 4) ∧ Completes (.rrel d a) s (fun t => Returned s t d 4) ∧
    Completes (.radj d a b c) s (fun t => Returned s t d 4) ∧
    Completes (.rstat d a) s fun t => Wrote s t d (BitVec.ofNat 64 (2 ^ 63))) ∧
  (∀ (d a : Reg) s, (∀ j, j < 4 → mget none s.cur.pens j ≠ none) → Completes (.rplace d a) s fun t => Returned s t d 1) ∧
  (∀ (d a : Reg) s, s.cur.freeSlot.isSome = true → s.parkedReady s.who.die = true →
    s.scanRest s.who.die ((s.rx a).toNat % 8 + 1) ((s.rx a).toNat / 8 % 16 + 1) = none →
    Completes (.rplace d a) s fun t => Returned s t d 3) ∧
  (∀ (d a : Reg) s j o id off, let h := (s.rx a).toNat % 8 + 1
    let w := (s.rx a).toNat / 8 % 16 + 1
    let k := s.who.die * 128 + id
    s.routine = none → s.cur.freeSlot = some j → s.parkedReady s.who.die = true →
    s.scanRest s.who.die h w = some o → (∀ i ∈ rect o h w, s.stall s.who.die i = .free) →
    s.freePen s.who.die = some id → s.allocArea s.ctxId (16 * h * w) = some off →
    Completes (.rplace d a) s fun t => RegSet s t d (BitVec.ofNat 64 (j * 65536 + id * 256)) ∧
      ((t.pen k).valid = true ∧ (t.pen k).origin = o ∧ (t.pen k).hm1 = h - 1 ∧ (t.pen k).wm1 = w - 1 ∧
        (t.pen k).owner = s.who.n ∧ (t.pen k).ctx = s.ctxId ∧ (t.pen k).slot = j ∧ (t.pen k).tier = s.cur.tier.toNat % 4 ∧
        (t.pen k).hasImage = false ∧ (t.pen k).run = 0) ∧
      (∀ i, t.stall s.who.die i = if i ∈ rect o h w then .held id else s.stall s.who.die i) ∧
      (∀ q, q ≠ k → t.pen q = s.pen q) ∧ mget none t.cur.pens j = some id ∧ t.mem = s.mem ∧ t.pes = s.pes ∧
      ∀ q, q ≠ s.me → t.ostler q = s.ostler q) ∧
  (∀ (d a : Reg) s k, s.ownPen (s.rx a) = some k → Completes (.rstat d a) s fun t => Wrote s t d (BitVec.ofNat 64
    ((s.pen k).pstate + (if (s.pen k).pre then 2 ^ 62 else (s.pen k).origin * 2 ^ 32) + (s.pen k).hm1 * 2 ^ 39 +
      (s.pen k).wm1 * 2 ^ 42 + (s.pen k).slot * 2 ^ 46))) ∧
  ∀ (d a : Reg) s k, s.ownPen (s.rx a) = some k →
    ((s.pen k).busy = true → Completes (.rrel d a) s fun t => Returned s t d 1) ∧
    ((s.pen k).busy = false → s.storesIdle k = true → Completes (.rrel d a) s fun t => Returned (s.release k) t d 0 ∧
      (t.pen k).valid = false ∧ ∀ i, i < 128 → t.stall (k / 128) i ≠ .held (k % 128))

/-- R57, R79, R80, R302, R304-R307, R311. RLOAD and RCFG give BUSY for a running or pre-empted pen and BADARG for a misaligned image,
wait for stores and for pages held elsewhere, and report where an image fails; RLOAD gives BADARG for one that cannot be read. A sound
image is installed: RLOAD sweeps the pen and leaves every register, count, slot, scratchpad word, full bit and weight of its PEs 0,
RCFG keeps the registers, counts, scratchpads and weights, and refuses another split or a port that does not match; RSTART starts the
loaded pens its mask names as one gang, or resumes a whole stopped domain whose causes allow it where its stalls can be had and what
is parked there can be saved, and gives BADARG for a mask with an empty slot; RSTOP stops a running domain at its boundary, RUN 3, waits
while a HALT or a fault of it is being finished, gives BUSY for a pre-empted pen, and finds a stopped one stopped.
The model's own choices it meets are in log 67 and 68. -/
def Obligations.PenLife : Prop :=
  (∀ (d a b c : Reg) s k, s.ownPen (s.rx a) = some k → (s.pen k).busy = true →
    Completes (.rload d a b) s (fun t => Returned s t d 1) ∧ Completes (.rcfg d a b c) s fun t => Returned s t d 1) ∧
  (∀ (d a b c : Reg) s k, s.ownPen (s.rx a) = some k → (s.pen k).busy = false → (s.rx b).toNat % 64 ≠ 0 →
    Completes (.rload d a b) s (fun t => Returned s t d 4) ∧ Completes (.rcfg d a b c) s fun t => Returned s t d 4) ∧
  (∀ (d a b c : Reg) s k, s.ownPen (s.rx a) = some k → (s.pen k).busy = false → (s.rx b).toNat % 64 = 0 →
    s.storesIdle k = false ∨
      s.readImage (agentYard s.who.die) (s.pen k).ctx (s.rx b).toNat (s.pen k).hm1 (s.pen k).wm1 = .error .away →
    Completes (.rload d a b) s (fun t => OnlyCur s t ∧ t.cur = { s.cur with wait := t.cur.wait } ∧ t.cur.wait.isSome = true) ∧
    ((s.pen k).hasImage = true → Completes (.rcfg d a b c) s fun t => OnlyCur s t ∧
      t.cur = { s.cur with wait := t.cur.wait } ∧ t.cur.wait.isSome = true)) ∧
  (∀ (d a b : Reg) s k va n, s.ownPen (s.rx a) = some k → (s.pen k).busy = false → (s.rx b).toNat % 64 = 0 →
    s.storesIdle k = true →
    s.readImage (agentYard s.who.die) (s.pen k).ctx (s.rx b).toNat (s.pen k).hm1 (s.pen k).wm1 = .error (.unreadable va n) →
    Completes (.rload d a b) s fun t => Returned
      (s.engineTouch (agentYard s.who.die) (s.pen k).ctx (s.rx b).toNat (va + n - (s.rx b).toNat)) t d 4) ∧
  (∀ (d a b : Reg) s k pe r n, s.ownPen (s.rx a) = some k → (s.pen k).busy = false → (s.rx b).toNat % 64 = 0 →
    s.storesIdle k = true →
    s.readImage (agentYard s.who.die) (s.pen k).ctx (s.rx b).toNat (s.pen k).hm1 (s.pen k).wm1 = .error (.bad pe r n) →
    Completes (.rload d a b) s fun t => RegSet s t d (BitVec.ofNat 64 (11 + pe * 2 ^ 16 + (match r with
        | some (row, b) => row * 2 ^ 27 + (if b then 2 ^ 33 else 0) + 2 ^ 34
        | none => 0))) ∧
      (t.pen k).run = 3 ∧ (t.pen k).hasImage = false ∧ (t.pen k).valid = true) ∧
  (∀ (d a b : Reg) s k x n, s.ownPen (s.rx a) = some k → (s.pen k).busy = false → (s.rx b).toNat % 64 = 0 →
    s.storesIdle k = true →
    s.readImage (agentYard s.who.die) (s.pen k).ctx (s.rx b).toNat (s.pen k).hm1 (s.pen k).wm1 = .ok (x, n) →
    Completes (.rload d a b) s fun t => Returned (((((s.gather k).leaveDomain k).sweepPen k 0).engineTouch
      (agentYard s.who.die) (s.pen k).ctx (s.rx b).toNat n).loadPen k x (s.rx b).toNat) t d 0 ∧
      (t.pen k).hasImage = true ∧ (t.pen k).image = (s.rx b).toNat ∧ (t.pen k).run = 0 ∧ (t.pen k).rc = 0 ∧
      (t.pen k).nft = false ∧
      ∀ e ∈ x.cols, let p := t.pe k e.pe
        p.v = [] ∧ p.a = [] ∧ p.p = [] ∧ p.c = [] ∧ p.prg = 0 ∧ p.nfc = 0 ∧ p.satc = 0 ∧ p.slots = [] ∧ p.spad = [] ∧ p.full = 0 ∧
        p.w = [] ∧ p.adj = [] ∧ p.q = [] ∧ p.lat = []) ∧
  (∀ (d a b c : Reg) s k x n, s.ownPen (s.rx a) = some k → (s.pen k).busy = false → (s.rx b).toNat % 64 = 0 →
    (s.pen k).hasImage = true → s.storesIdle k = true →
    s.readImage (agentYard s.who.die) (s.pen k).ctx (s.rx b).toNat (s.pen k).hm1 (s.pen k).wm1 = .ok (x, n) →
    (x.split = (s.pen k).split → (∀ j, j < 64 → bit (s.rx c).toNat j = true → s.keepsPort k x j = true) →
      Completes (.rcfg d a b c) s fun t =>
        (t.pen k).hasImage = true ∧ (t.pen k).image = (s.rx b).toNat ∧ (t.pen k).run = 0 ∧ (t.pen k).rc = 0 ∧
        (t.pen k).nft = (s.rx a).getLsbD 7 ∧ RegSet s t d 0 ∧
        ∀ i, let p := s.pe k i
          let q := t.pe k i
          q.v = p.v ∧ q.a = p.a ∧ q.p = p.p ∧ q.c = p.c ∧ q.prg = p.prg ∧ q.nfc = p.nfc ∧ q.satc = p.satc ∧ q.spad = p.spad ∧
          q.full = p.full ∧ q.w = p.w) ∧
    (x.split ≠ (s.pen k).split ∨ (∃ j, j < 64 ∧ bit (s.rx c).toNat j = true ∧ s.keepsPort k x j = false) →
      Completes (.rcfg d a b c) s fun t =>
        Wrote (s.engineTouch (agentYard s.who.die) (s.pen k).ctx (s.rx b).toNat n) t d 11)) ∧
  (∀ (d a : Reg) s, s.maskPens ((s.rx a).toNat % 16) = none ∨ s.maskPens ((s.rx a).toNat % 16) = some [] →
    Completes (.rstart d a) s fun t => Returned s t d 4) ∧
  (∀ (d a : Reg) s ks, s.maskPens ((s.rx a).toNat % 16) = some ks → ks ≠ [] → (∀ k ∈ ks, (s.pen k).loaded = true) →
    Completes (.rstart d a) s fun t => Returned ((s.handTo ks).startGang ks s.cur.wid) t d 0 ∧
      ∀ k ∈ ks, (t.pen k).run = 1 ∧ (t.pen k).wid = s.cur.wid ∧ (t.pen k).gang = (ks.map (· % 128)).foldl min 127) ∧
  (∀ (d a : Reg) s ks, s.maskPens ((s.rx a).toNat % 16) = some ks → ks ≠ [] →
    (∀ k ∈ ks, ∃ c, (s.pen k).stopCause = some c ∧ resumable c = true) → (∀ k ∈ ks, ∀ j, j ∈ s.stoppedPens k ↔ j ∈ ks) →
    (s.parkedReady s.who.die = false → Completes (.rstart d a) s fun t => Waits s t (.rstart d a)) ∧
    (s.parkedReady s.who.die = true → ks.foldl (fun (r : Option State) j => r.bind fun s => s.unpark j) (some s) = none →
      Completes (.rstart d a) s fun t => Returned s t d 3) ∧
    ∀ u, s.parkedReady s.who.die = true → ks.foldl (fun (r : Option State) j => r.bind fun s => s.unpark j) (some s) = some u →
      Completes (.rstart d a) s fun t => Returned ((u.handTo ks).resumeGang ks) t d 0) ∧
  (∀ (d a : Reg) s k, s.ownPen (s.rx a) = some k → s.cur.wait = none → (s.pen k).pre = true →
    Completes (.rstop d a) s fun t => Returned s t d 1) ∧
  (∀ (d a : Reg) s k, s.ownPen (s.rx a) = some k → s.cur.wait = none → (s.pen k).pre = false → (s.pen k).run ≠ 1 →
    Completes (.rstop d a) s fun t => Returned s t d 0) ∧
  (∀ (d a : Reg) s k, let u := s.stopPens (s.domainPens (k / 128) (s.pen k).gang)
    s.ownPen (s.rx a) = some k → s.cur.wait = none → (s.pen k).pre = false → (s.pen k).run = 1 → s.gangPre k = false →
    s.late (s.domainPens (k / 128) (s.pen k).gang) = none →
    (u.gangRuns k = false → Completes (.rstop d a) s fun t => Returned u t d 0 ∧ (t.pen k).run = 3) ∧
    (u.gangRuns k = true → Completes (.rstop d a) s fun t => OnlyCur u t ∧ t.cur = { u.cur with wait := t.cur.wait } ∧
      t.cur.wait.isSome = true)) ∧
  ∀ (d a : Reg) s k, s.ownPen (s.rx a) = some k → s.phaseOf = 1 →
    (s.gangRuns k = false → Completes (.rstop d a) s fun t => Returned s t d 0) ∧
    (s.gangRuns k = true → Completes (.rstop d a) s fun t => OnlyCur s t ∧ t.cur = { s.cur with wait := t.cur.wait } ∧
      t.cur.wait.isSome = true)

/-- R17, R18, R137, R138, R172, R222, R310, R312-R315. JRAISE adds to a live JCB's expected total, gives RANGE for a sum above 64 bits
and traps JCBLATE on a completed one; JDONE, after its release wait, counts; JWAIT returns OK for a completed, PARTIAL for a failed and
BUSY for a late JCB; none leaves the issuer a copy of the JCB. LAUNCH returns what the checks of the launch queue say: in their order
BADARG, RANGE or NOSPACE with nothing queued, or OK with the job queued, its total added to the JCB, stamped with the time, and its
effective deadline the later of the time and the earlier of its deadline and the tier's age. RADJ writes the backward image of an
adjoint pen, whose rows are the backward rows of the forward rows from the last down, padded to one length, or reports the row that
has no adjoint. The model's own choices it meets are in log 70 and 71. -/
def Obligations.JobWords : Prop :=
  (∀ (d a b : Reg) s, s.walkAway s.agent s.ctxId (s.rx a).toNat = false → s.jcbAt s.agent s.ctxId (s.rx a).toNat true = none →
    let u := s.jcbMiss s.agent s.ctxId (s.rx a).toNat
    Completes (.jraise d a b) s (fun t => Returned u t d 4) ∧ Completes (.jdone d a b) s fun t => Returned u t d 4) ∧
  (∀ (d a b : Reg) s pa v x, s.walkAway s.agent s.ctxId (s.rx a).toNat = false →
    s.jcbAt s.agent s.ctxId (s.rx a).toNat true = some pa → s.jcbReady pa = true →
    (s.walkRange s.agent s.ctxId (s.rx a).toNat 64).jcbRead pa = (v, x) → let u := x.noJcbCopy pa
    (jcbCmpl v = true → s.cur.tm = false → Completes (.jraise d a b) s fun t => Trapped u t 0x0A (s.rx a)) ∧
    (jcbCmpl v = false → 2 ^ 64 ≤ jcbExpect v + (s.rx b).toNat → Completes (.jraise d a b) s fun t => Returned u t d 7) ∧
    (jcbCmpl v = false → jcbExpect v + (s.rx b).toNat < 2 ^ 64 → Completes (.jraise d a b) s fun t =>
      Returned (u.jcbWrite s.agent pa (insBits v 0 64 (jcbExpect v + (s.rx b).toNat))) t d 0)) ∧
  (∀ (d a b : Reg) s p pa w st u, s.walkAway s.agent s.ctxId (s.rx a).toNat = false →
    s.jcbAt s.agent s.ctxId (s.rx a).toNat true = some p →
    (s.walkRange s.agent s.ctxId (s.rx a).toNat 64).releaseWait = (w, true) →
    w.jcbAt w.agent w.ctxId (s.rx a).toNat true = some pa → w.jcbReady pa = true →
    w.jcbCount w.agent w.ctxId (s.rx a).toNat pa (w.rx b).toNat = (st, u) →
    Completes (.jdone d a b) s fun t => Returned (u.noJcbCopy pa) t d st) ∧
  (∀ (s : State) ag c va pa n v u, s.jcbRead pa = (v, u) →
    (jcbCmpl v = true ∨ jcbExpect v < jcbDone v + n → s.jcbCount ag c va pa n = (7, u)) ∧
    (jcbCmpl v = false → jcbDone v + n < jcbExpect v →
      s.jcbCount ag c va pa n = (0, u.jcbWrite ag pa (insBits v 64 64 (jcbDone v + n)))) ∧
    (jcbCmpl v = false → jcbDone v + n = jcbExpect v → let x := insBits (insBits v 64 64 (jcbDone v + n)) 128 1 1
      s.jcbCount ag c va pa n = (0, (u.jcbWrite ag pa x).jobDone c va pa x))) ∧
  (∀ (s : State) pa l, l < 2 ^ 46 → pa / 128 < 2 ^ 46 → (s.noJcbCopy pa).cacheOf s.agent l = if l = pa / 128 then none else s.cacheOf s.agent l) ∧
  (∀ (d a b : Reg) s, s.walkAway s.agent s.ctxId (s.rx a).toNat = false → s.jcbAt s.agent s.ctxId (s.rx a).toNat false = none →
    Completes (.jwait d a b) s fun t => Returned (s.jcbMiss s.agent s.ctxId (s.rx a).toNat) t d 4) ∧
  (∀ (d a b : Reg) s pa v x, s.walkAway s.agent s.ctxId (s.rx a).toNat = false →
    s.jcbAt s.agent s.ctxId (s.rx a).toNat false = some pa → s.pageAway pa = false →
    (s.walkRange s.agent s.ctxId (s.rx a).toNat 64).jcbRead pa = (v, x) → let u := x.noJcbCopy pa
    (jcbCmpl v = true → Completes (.jwait d a b) s fun t => Returned (u.dropLeased u.agent) t d 0) ∧
    (jcbCmpl v = false → jcbFaild v = true → Completes (.jwait d a b) s fun t => Returned u t d 6) ∧
    (jcbCmpl v = false → jcbFaild v = false → (s.rx b).toNat ≤ s.fcycle.toNat →
      Completes (.jwait d a b) s fun t => Returned u t d 1)) ∧
  (∀ (d a b : Reg) s st u, let r := s.writebackAll s.agent
    r.submit ((r.rx b).toNat % 8) r.ctxId (r.rx a).toNat (.launch r.me) = some (st, u) →
    Completes (.launch d a b) s fun t => Returned u t d st) ∧
  (∀ (s : State) die c va from_, let ag := agentYard die
    (va % 128 ≠ 0 ∨ (s.ctx c).valid = false → s.submit die c va from_ = some (4, s)) ∧
    (va % 128 = 0 → (s.ctx c).valid = true →
      (∀ e x u, s.vread ag c va 128 = .fault e x u → s.submit die c va from_ = some (4, { s with tele := u.tele })) ∧
      ∀ b u, s.vread ag c va 128 = .ok b u → let r : Line := BitVec.ofNat 1024 (ofBytes b)
        let oen := jrOen r = true ∧ (u.ostler (jrOdie r * 32 + jrOst r)).ctx ≠ some c
        (jrCtx r ≠ c ∨ oen → s.submit die c va from_ = some (4, u)) ∧
        (jrCtx r = c → ¬ oen → jobFields r = false ∨ 2 ^ 64 ≤ jrTasks r → s.submit die c va from_ = some (7, u)) ∧
        (jrCtx r = c → ¬ oen → jobFields r = true → jrTasks r < 2 ^ 64 →
          (u.scan die (jrH r) (jrW r) (fun _ => true) = none → s.submit die c va from_ = some (4, u)) ∧
          ((u.scan die (jrH r) (jrW r) (fun _ => true)).isSome = true → u.walkAway ag c (jrJcb r) = false →
            (u.jcbAt ag c (jrJcb r) true = none → s.submit die c va from_ = some (4, u.jcbMiss ag c (jrJcb r))) ∧
            ∀ pa v w, u.jcbAt ag c (jrJcb r) true = some pa → u.jcbReady pa = true → u.jcbRead pa = (v, w) →
              (jcbCmpl v = true → s.submit die c va from_ = some (4, w)) ∧
              (jcbCmpl v = false → 2 ^ 64 ≤ jcbExpect v + jrTasks r → s.submit die c va from_ = some (7, w)) ∧
              (jcbCmpl v = false → jcbExpect v + jrTasks r < 2 ^ 64 →
                ((w.freeActive die).activeFor die c = none → s.submit die c va from_ = some (3, w.freeActive die)) ∧
                (256 ≤ (w.jobs.filter fun j => j.die == die && jrCtx j.jr == c && j.queued).length →
                  ∃ x, s.submit die c va from_ = some (3, x)) ∧
                (((w.freeActive die).activeFor die c).isSome = true →
                  (w.jobs.filter fun j => j.die == die && jrCtx j.jr == c && j.queued).length < 256 →
                  ∃ x j tier n, s.submit die c va from_ = some (0, x) ∧ x.jobs = w.jobs ++ [j] ∧
                    tier = max (jrTier r) (w.ctx c).tcap ∧
                    j = { die := die, jr := r, enq := w.fcycle.toNat, tier := tier, seq := n,
                          eff := max w.fcycle.toNat (min (jrDeadline r)
                            (min (w.fcycle.toNat + mget 0 (w.ctx c).age tier) (2 ^ 64 - 1))),
                          jcbPa := some pa, tasks := jrTasks r, issued := 0, running := 0, failed := none, dropped := 0 })))))) ∧
  (∀ (d a b c : Reg) s k blk u, s.cur.wait = none → s.ownPen (s.rx a) = some k → (s.pen k).busy = false → (s.pen k).hasImage = true →
    (s.pen k).adj = true → (s.pen k).lenb = 0 → (s.pen k).tape ≠ 0 → (s.rx b).toNat % 4096 = 0 → (s.rx c).toNat % 64 = 0 →
    s.vread (agentYard s.who.die) (s.pen k).ctx (s.rx b).toNat 4096 = .ok blk u →
    (∀ pe n, u.backAll k (ofBytes blk) (u.imageStage k) (s.pen k).lena (.ok ([], [], 0)) = .error (pe, n) →
      Completes (.radj d a b c) s fun t => Wrote (u.setAdj k (ofBytes blk)) t d
        (BitVec.ofNat 64 (8 + pe * 2 ^ 16 + n * 2 ^ 27 + 2 ^ 34))) ∧
    ∀ spans rows total w, u.backAll k (ofBytes blk) (u.imageStage k) (s.pen k).lena (.ok ([], [], 0)) = .ok (spans, rows, total) →
      u.writeBlock (s.rx c).toNat (u.backImage k spans rows (total + 1)) = .ok () w →
      Completes (.radj d a b c) s fun t => Returned (w.setAdj k (ofBytes blk)) t d 0) ∧
  (∀ (s : State) k blk g n spans rows total, (s.pen k).wm1 < 16 → s.backAll k blk g n (.ok ([], [], 0)) = .ok (spans, rows, total) →
    total < 64 ∧ ∀ m i, m < n → i ∈ (s.pen k).peList → ∃ l, backRows blk ((s.pe k i).rowWord false m)
        (if (s.pen k).present 0 = true ∧ ((s.pen k).level 0).sqs ≤ m ∧ m ≤ ((s.pen k).level 0).sqe then
          g - (rowMods ((s.pe k i).rowWord false m)).stg.toNat else 0) = some l ∧
      let (st, len) := mget (0, 0) spans m
      l.length ≤ len ∧ st + len = (if m = 0 then total else (mget (0, 0) spans (m - 1)).1) ∧
      ∀ q, q < len → (mget [] rows i)[st + q]? = some (l.getD q 0)) ∧
  ∀ (s : State) k spans rows total, let p := s.pen k
    let h := ofBytes ((s.backImage k spans rows total).take 64)
    p.hm1 < 8 → p.wm1 < 16 → total < 128 → p.present 0 = false → p.ports.length < 128 → p.split < 4 →
    h % 2 ^ 32 = 0x39444D4E ∧ h / 2 ^ 40 % 8 = p.hm1 ∧ h / 2 ^ 43 % 16 = p.wm1 ∧ h / 2 ^ 47 % 128 = 1 ∧ h / 2 ^ 54 % 128 = total ∧
    h / 2 ^ 61 % 128 = 0 ∧ h / 2 ^ 68 % 128 = p.ports.length ∧ h / 2 ^ 75 % 4 = p.split

/-- R30, R36, R39, R54, R140, R142, R143, R145, R229, R234, R237, R238. The yard's steps, each where its rule lets it happen. A held
fc counts and commits nothing; a watchdog stops its domain with WATCHDOG, unless a pre-emption is due; a fault save writes the areas,
sets RUN 3 and posts PEN_FAULT, and PEN_STOP for the others of the domain, or of a launched task ends it; a pen retires with its counts
gathered and cleared, RUN 2 and PEN_HALT, or a launched task's pen is released; the task served first is placed, loaded and started,
or its job fails with the image; a pre-empted domain is PARKED, its pens become restore entries with their place in the ready order, and
PEN_PREEMPT is posted; a restored pen holds stalls again and is no entry any more, and an item that its save area still holds keeps its
value; a compaction moves a pen with all its PEs hold. Nothing changes where the pen is not valid or nothing is served.
The model's own choices it meets are in log 16, 24, 69, 70, 72, 93, 96 and 99. -/
def Obligations.YardSteps : Prop :=
  (∀ die g s x, s.holder (s.domainPens die g) = some x → Completes (.heldFc die g) s fun t =>
    t = { s with pens := t.pens, tele := t.tele } ∧ (∀ k, k ∈ s.domainPens die g → (s.domainPens die g).Nodup →
      t.pen k = { s.pen k with held := (s.pen k).held + 1 }) ∧ (∀ k, k ∉ s.domainPens die g → t.pen k = s.pen k) ∧
    ∀ k, s.domainPens die g = [k] → ∀ n, mget 0 t.tele n = mget 0 s.tele n + if n = k / 128 * 16 + 5 then 1 else 0) ∧
  (∀ die g s, s.holder (s.domainPens die g) = none → Completes (.heldFc die g) s fun t => t = s) ∧
  (∀ die pen s j i, s.holder (s.domainPens die (s.pen (die * 128 + pen)).gang) = some (j, i) →
    ((s.pen j).held < 2 ^ 30 ∨ s.wanted die (s.pen (die * 128 + pen)).gang = true → Completes (.watchdog die pen) s fun t => t = s) ∧
    ((s.pen j).run = 1 → (s.pen j).stop = .none → 2 ^ 30 ≤ (s.pen j).held →
      s.wanted die (s.pen (die * 128 + pen)).gang = false → Completes (.watchdog die pen) s fun t =>
      ∃ r : FaultRec, r.cause = 0x0E ∧ r.row = (s.pen j).rc ∧ r.sel = (s.pen j).sel ∧ r.pe = i ∧ r.defer_ = false ∧ r.addr = 0 ∧
        r.word = (s.pe j i).rowWord (s.pen j).sel (s.pen j).rc ∧ r.size = 1 ∧
        t = s.domainStop j r ∧ (t.pen j).stop = .fault r ∧
        ∀ l ∈ s.domainPens (j / 128) (s.pen j).gang, l ≠ j → (t.pen l).stop = .stopped (j % 128) 0x0E)) ∧
  (∀ die pen s r, let k := die * 128 + pen
    let ks := s.faultPens k
    let tag := fun j => match (s.pen j).job with
      | some (x, _) => jrTag x
      | none => (0 : W64)
    (s.pen k).stop = .fault r → (s.pen k).valid = true → (s.pen k).run = 1 → s.taskReady k = true →
    (∀ j ∈ ks, s.penQuiet j = true ∧ s.faultReady j = true) → pen < 128 →
    ((s.pen k).owner < 32 → Completes (.penFaultSave die pen) s fun t =>
      (∀ j, t.pen j = if j ∈ ks then { s.pen j with run := 3 } else s.pen j) ∧ t.pes = s.pes ∧ t.stalls = s.stalls ∧
      t.mem = (ks.foldl (fun u j => u.saveArea j (if j = k then some r else none)) (ks.foldl State.penWriteback s)).mem ∧
      (ks = [k] → ∃ x, recFields 0x02 (r.cause % 256) (die % 8) 0 pen 0 (tag k) (BitVec.ofNat 64 (s.areaVa k))
        (BitVec.ofNat 64 r.addr) x ∧ PostedTo s t (die * 32 + (s.pen k).owner) (s.pen k).ctx x) ∧
      ∀ j, ks.filter (fun l => l != k) = [j] → (s.pen j).owner = (s.pen k).owner → (s.pen j).ctx = (s.pen k).ctx →
        let q := die * 32 + (s.pen k).owner
        ∃ x y o, recFields 0x02 (r.cause % 256) (die % 8) 0 pen 0 (tag k) (BitVec.ofNat 64 (s.areaVa k)) (BitVec.ofNat 64 r.addr) x ∧
          recFields 0x03 0 (j / 128 % 8) 0 (j % 128) 0 (tag j) (BitVec.ofNat 64 pen) 0 y ∧
          Posted (s.ostler q) o (s.pen k).ctx x ∧ Posted o (t.ostler q) (s.pen k).ctx y ∧ ∀ n, n ≠ q → t.ostler n = s.ostler n) ∧
    (32 ≤ (s.pen k).owner → Completes (.penFaultSave die pen) s fun t => (t.pen k).valid = false ∧
      ∀ i, i < 128 → t.stall die i ≠ .held pen)) ∧
  (∀ die pen s, let k := die * 128 + pen
    let u := (((s.finishAhead k).finishSlots k).closeIrr k).penWriteback k
    let sum := fun (f : PE → W32) => (((u.pen k).peList.map fun i => (f (u.pe k i)).toNat).sum)
    (s.pen k).valid = true → (s.pen k).run = 1 → (s.pen k).halting = true → (s.pen k).stop = .none → (s.pen k).pre = false →
    (((s.finishAhead k).finishSlots k).closeIrr k).late [k] = none →
    (∀ i ∈ (s.pen k).peList, ((((s.finishAhead k).finishSlots k).closeIrr k).pe k i).mpd = none ∧
      ((((s.finishAhead k).finishSlots k).closeIrr k).pe k i).irr = []) →
    u.outgoing k = false → u.penQuiet k = true → u.taskReady k = true → pen < 128 →
    ((u.pen k).owner < 32 → Completes (.penRetire die pen) s fun t => let q := die * 32 + (u.pen k).owner
      t.pen k = { u.pen k with run := 2, halting := false, held := 0 } ∧ (∀ j, j ≠ k → t.pen j = u.pen j) ∧
      (∀ i ∈ (u.pen k).peList, (t.pe k i).nfc = 0 ∧ (t.pe k i).satc = 0) ∧ t.stalls = u.stalls ∧
      ∃ o x, o = { u.ostler q with nfcnt := BitVec.ofNat 64 (min ((u.ostler q).nfcnt.toNat + sum PE.nfc) (2 ^ 64 - 1)),
                                   satcnt := BitVec.ofNat 64 (min ((u.ostler q).satcnt.toNat + sum PE.satc) (2 ^ 64 - 1)) } ∧
        recFields 0x01 0 (die % 8) 0 pen 0 (match (u.pen k).job with
          | some (j, _) => jrTag j
          | none => 0) (BitVec.ofNat 64 (t.pen k).pstate) 0 x ∧
        Posted o (t.ostler q) (u.pen k).ctx x ∧ ∀ n, n ≠ q → t.ostler n = u.ostler n) ∧
    (32 ≤ (u.pen k).owner → Completes (.penRetire die pen) s fun t => (t.pen k).valid = false ∧
      ∀ i, i < 128 → t.stall die i ≠ .held pen)) ∧
  (∀ die s t, s.acceptHost die = some t → Completes (.taskPlacement die) s fun u => u = t) ∧
  (∀ die s j o, s.acceptHost die = none → s.served die = some (.job j, o) → s.parkedReady die = true → s.jobReady j = true →
    let r := j.jr
    let img := s.readImage (agentYard die) (jrCtx r) (jrImage r) (jrH r - 1) (jrW r - 1)
    (∀ x n id off, jrImage r % 64 = 0 → img = .ok (x, n) → s.freePen die = some id →
      s.allocArea (jrCtx r) (16 * jrH r * jrW r) = some off → let k := die * 128 + id
      Completes (.taskPlacement die) s fun t =>
        t.jobs = (s.jobs.map fun y => if y.die = die ∧ y.seq = j.seq then { j with issued := j.issued + 1, running := j.running + 1 } else y) ∧
        (t.pen k).valid = true ∧ (t.pen k).origin = o ∧ (t.pen k).hm1 = jrH r - 1 ∧ (t.pen k).wm1 = jrW r - 1 ∧
        (t.pen k).owner = 32 ∧ (t.pen k).ctx = jrCtx r ∧ (t.pen k).tier = j.tier ∧ (t.pen k).eff = j.eff ∧ (t.pen k).accNo = j.seq ∧
        (t.pen k).job = some (r, j.seq) ∧ (t.pen k).first = BitVec.ofNat 64 (jrFirst r 6 0 j.issued) ∧ (t.pen k).run = 1 ∧
        (t.pen k).gang = id ∧ (t.pen k).start = s.fcycle.toNat ∧ (t.pen k).hasImage = true ∧ (t.pen k).image = jrImage r ∧
        (∀ i ∈ rect o (jrH r) (jrW r), t.stall die i = .held id) ∧
        ∀ i ∈ (t.pen k).peList, ∀ q, q < 4 → mget 0 (t.pe k i).c q = jrArg r q) ∧
    (∀ st, (jrImage r % 64 ≠ 0 ∧ st = 4) ∨ (jrImage r % 64 = 0 ∧ ∃ va n, img = .error (.unreadable va n) ∧ st = 4) ∨
        (jrImage r % 64 = 0 ∧ ∃ pe row n, img = .error (.bad pe row n) ∧ st = 11) → j.failed = none →
      (j.running ≠ 0 → Completes (.taskPlacement die) s fun t => t.ost = s.ost ∧ t.jobs = s.jobs.map fun y =>
        if y.die = die ∧ y.seq = j.seq then { j with failed := some st, dropped := j.tasks - j.issued } else y) ∧
      (j.running = 0 → Completes (.taskPlacement die) s fun t => t.pens = s.pens ∧
        (t.jobs = s.jobs.filter fun y => !(y.die == die && y.seq == j.seq)) ∧
        ∀ d n, jrTargets r = [some (d, n)] → ∃ x, recFields 0x06 st (die % 8) 3 0 0 (jrTag r) (BitVec.ofNat 64 (jrJcb r))
          (BitVec.ofNat 64 (j.tasks - j.issued)) x ∧ PostedTo s t (d * 32 + n) (jrCtx r) x))) ∧
  (∀ die pen s, let k := die * 128 + pen
    let ks := (s.victims die (s.pen k).gang).flatMap (s.domainPens die)
    let u := ks.foldl State.rushStores s
    k ∈ s.domainPens die (s.pen k).gang → ks ≠ [] →
    (∀ j ∈ ks, s.yardReady die (s.pen j).ctx (s.areaVa j) (areaSize (s.pen j).pes) = true) → s.late ks = none →
    (∀ j ∈ ks, u.penQuiet j = true ∧ u.taskReady j = true) → u.late ks = none → pen < 128 →
    Completes (.preemption die pen) s fun t =>
      (∀ j, t.pen j = if j ∈ ks then { u.pen j with pre := true, held := 0, boundary := false, savedSpad := false } else u.pen j) ∧
      (ks = [k] → (∀ i ∈ (u.pen k).rect, t.stall die i = .parked pen) ∧ ((u.pen k).valid = true → Ready.pen k ∈ t.ready die) ∧
        ((u.pen k).owner < 32 → ∃ x, recFields 0x04 0 (die % 8) 0 pen 0 (match (u.pen k).job with
            | some (j, _) => jrTag j
            | none => 0) (BitVec.ofNat 64 (u.areaVa k)) 0 x ∧ PostedTo u t (die * 32 + (u.pen k).owner) (u.pen k).ctx x))) ∧
  (∀ die pen s o, let k := die * 128 + pen
    s.served die = some (.pen k, o) → s.parkedReady die = true → pen < 128 → Completes (.restore die pen) s fun t =>
      (t.pen k).pre = false ∧ (t.pen k).held = 0 ∧ (t.pen k).valid = (s.pen k).valid ∧ (t.pen k).run = (s.pen k).run ∧
      (t.pen k).origin = (if s.allParked k then (s.pen k).origin else o) ∧ (t.pen k).eff = (s.pen k).eff ∧
      (∀ i ∈ rect (t.pen k).origin (s.pen k).h (s.pen k).w, t.stall die i = .held pen) ∧
      ((s.pen k).valid = true → (s.pen k).run = 1 → (t.pen k).start = s.fcycle.toNat)) ∧
  (∀ (s : State) k i (l : List Item), (∀ e ∈ l, ∀ v, s.view (agentYard (k / 128)) (s.pen k).ctx
      (s.areaVa k + (s.pen k).block i + e.1) e.2.1 = some v → sameItem e.1 v (e.2.2.1 (s.pe k i)) = true) → s.readItems k i l = s) ∧
  (∀ die pen g s, (s.pen (die * 128 + pen)).boundary = false → Completes (.compaction die pen g) s fun t => t = s) ∧
  (∀ die pen g s, let k := die * 128 + pen
    let ks := s.domainPens die (s.pen k).gang
    k ∈ ks → (∀ j ∈ ks, (s.pen j).boundary = true ∧ s.penQuiet j = true) → g / 16 + (s.pen k).h ≤ 8 → g % 16 + (s.pen k).w ≤ 16 →
    (∀ i ∈ rect g (s.pen k).h (s.pen k).w, s.stall die i = .held pen ∨ s.stall die i = .free ∧ i ∉ s.reserved die) →
    s.wanted die (s.pen k).gang = false → s.late ks = none → pen < 128 → Completes (.compaction die pen g) s fun t =>
      t = ((ks.foldl State.finishArrays s).movePen k g).follow (ks.filter fun j => j != k) ∧
      (ks = [k] → (t.pen k).origin = g ∧ t.pes = (s.finishArrays k).pes ∧
        (∀ i ∈ rect g (s.pen k).h (s.pen k).w, t.stall die i = .held pen) ∧
        ∀ i, i < 128 → i ∉ rect g (s.pen k).h (s.pen k).w → t.stall die i ≠ .held pen)) ∧
  (∀ k o (s : State), ((s.movePen k o).pen k).origin = o ∧ (s.movePen k o).pes = s.pes ∧
    (∀ j, j ≠ k → (s.movePen k o).pen j = s.pen j) ∧
    ∀ i ∈ rect o (s.pen k).h (s.pen k).w, (s.movePen k o).stall (k / 128) i = .held (k % 128)) ∧
  (∀ die pen g s, (s.pen (die * 128 + pen)).valid = false → mwf Pen.reset s.pens = true →
    Completes (.penFaultSave die pen) s (fun t => t = s) ∧ Completes (.penRetire die pen) s (fun t => t = s) ∧
    Completes (.preemption die pen) s (fun t => t = s) ∧ Completes (.compaction die pen g) s fun t => t = s) ∧
  ∀ die s, s.served die = none → (∀ pen, Completes (.restore die pen) s fun t => t = s) ∧
    (s.acceptHost die = none → Completes (.taskPlacement die) s fun t => t = s)

/-! ### Row words -/

/-- R31, R64, R65, R205, R206, R320, R328-R330. A row word of any op whose window's packet faults stops its domain before it with that
cause (ECC, SCALESTEP, CHECK) and the packet's address, and one that would count a nonfinite in a pen with NFT faults NONFINITE,
also in the statements of the other families; otherwise an integer row writes nothing at its commit: its result, element by element the table's value
modulo 2^w, enters a slot for its destination with its enabled lanes, latency and routes, behind the slots in flight, and
its counts rise and stop at their limit; no other PE and no other part of the machine changes.
The model's own choices it meets are in log 47 and 48. -/
def Obligations.RowInteger : Prop :=
  (∀ i s o w c a, opOf i = some (o, w) → o ≠ .haltf → deadRowWord w = false → s.rowWindow o w = some (c, a) → Completes i s fun t =>
    t = (s.count s.who.die 10 (if c = 0x08 then s.rowMismatches o w else 0)).rowFault w c a 256) ∧
  (∀ (p : PE) k f v, p.winVec k = some v → let h := p.winHdr k
    (mget false p.ecc v = true → p.winFault k f = some (0x09, 256 * v)) ∧
    (mget false p.ecc v = false → mget false p.bad v = true → p.winFault k f = some (0x07, 256 * v)) ∧
    (mget false p.ecc v = false → mget false p.bad v = false → h ≠ 0 →
      (12 ≤ hdrFormat h ∨ 9 ≤ hdrBfly h ∨ p.mismatch v h = true ∨ (∃ x, f = some x ∧ accepts x (hdrFormat h) = false)) →
      p.winFault k f = some (0x08, 256 * v)) ∧
    (mget false p.ecc v = false → mget false p.bad v = false → h ≠ 0 → hdrFormat h < 12 → hdrBfly h < 9 → p.mismatch v h = false →
      (∀ x, f = some x → accepts x (hdrFormat h) = true) → p.winFault k f = none)) ∧
  (∀ i s o w f, intRow i = some (o, w, f) → RowGood s o w → Completes i s fun t =>
    let n := if w.fmt = 6 then 8 else 32
    RowResult s t o w n (fun k => f n (elem n (srcA s o w) k) (elem n (srcB s o w) k)) 0 0) ∧
  (∀ w s, RowGood s .vqrs w → Completes (.vqrs w) s fun t =>
    let q (k : Nat) := qrsLane w (lane (srcA s .vqrs w) k) (lane (srcB s .vqrs w) k)
    RowResult s t .vqrs w 32 (fun k => umod 32 (q k).1) 0
      ((List.range 64).filter fun k => (s.myPe.mask w).getLsbD k && (q k).2).length) ∧
  ∀ (p p0 : PE) o w srcs res lanes n m, let q := p.finishRow p0 o w srcs res lanes n m
    q.v = p.v ∧ q.a = p.a ∧ q.p = p.p ∧ q.c = p.c ∧ q.prg = p.prg ∧ q.spad = p.spad ∧ q.full = p.full ∧ q.w = p.w ∧
    q.passes = p.passes ∧ q.mpd = p.mpd ∧ q.irr = p.irr ∧ q.rowA = p.rowA ∧ q.rowB = p.rowB ∧ q.lat = p.lat ∧
    q.nfc.toNat = min (p.nfc.toNat + n) (2 ^ 32 - 1) ∧ q.satc.toNat = min (p.satc.toNat + m) (2 ^ 32 - 1) ∧
    q.slots = p.slots ++ (match res with
      | some v => [{ dst := w.dst.toNat, lanes := lanes, left := latency o, route := fwdRoutes w, pl := w.pl.toNat, value := v,
                     pending := loads o }]
      | none => []) ++ passSlots p0 w

/-- R193, R331-R333, R336-R339. Each element of a floating-point row is the exact result rounded once to FMT; a compare gives
all ones or zero; a conversion rounds each element in its mode, with its counts; VROPE rotates lane pairs, and VRNG draws by
lane, step and PE. The model's own choices it meets are in log 12. -/
def Obligations.RowFloat : Prop :=
  (∀ i s o w f, fpRow i = some (o, w, f) → RowGood s o w → Completes i s fun t =>
    let c := fmtCode w.fmt.toNat
    let n := fmtWidth w.fmt.toNat
    RowResult s t o w n (fun k => rne c (f (decodeElem c (elem n (srcA s o w) k)) (decodeElem c (elem n (srcB s o w) k))
      (decodeElem c (elem n (srcC s o w) k)))) 0 0) ∧
  (∀ w s, RowGood s .vfcmp w → Completes (.vfcmp w) s fun t =>
    let c := fmtCode w.fmt.toNat
    let n := fmtWidth w.fmt.toNat
    RowResult s t .vfcmp w n (fun k => if cmpVal (auxOf w % 8) (decodeElem c (elem n (srcA s .vfcmp w) k))
      (decodeElem c (elem n (srcB s .vfcmp w) k)) then 2 ^ n - 1 else 0) 0 0) ∧
  (∀ w s, RowGood s .vrope w → Completes (.vrope w) s fun t =>
    RowResult s t .vrope w 32 (fun k => (ropeLane (rowCx .vrope w s) k).toNat)
      ((List.range 64).filter fun k => (s.myPe.mask w).getLsbD k && (ropeOf (rowCx .vrope w s) (k / 2)).isNone).length 0) ∧
  (∀ w s, RowGood s .vrng w → Completes (.vrng w) s fun t =>
    RowResult s t .vrng w 32 (fun k => (rng (w.imm ^^^ (rowCx .vrng w s).id)
      (BitVec.ofNat 64 (s.who.pe * 2 ^ 38 + s.myPen.q w.stg.toNat * 2 ^ 6 + k))).toNat) 0 0) ∧
  (∀ w s, RowGood s .vcvt w → auxOf w % 8 = w.fmt.toNat → Completes (.vcvt w) s fun t =>
    RowResult s t .vcvt w (fmtWidth w.fmt.toNat) (fun k => elem (fmtWidth w.fmt.toNat) (srcA s .vcvt w) k) 0 0) ∧
  (∀ w s, RowGood s .vcvt w → auxOf w % 8 ≠ w.fmt.toNat → Completes (.vcvt w) s fun t =>
    let n := fmtWidth w.fmt.toNat
    let f (k : Nat) := cvtAt (rowCx .vcvt w s) w.imm (fmtCode w.fmt.toNat) (bits (rowCx .vcvt w s).aux 5 3) (k / (32 / n)) (k % (32 / n))
      (scaled ((rowCx .vcvt w s).winScale w.sa) 1 (decodeElem (fmtCode (bits (auxOf w) 2 0)) (elem n (srcA s .vcvt w) k)))
    let c := countCvt (32 / n) (s.myPe.mask w) f
    RowResult s t .vcvt w n (fun k => (f k).bits) c.1 c.2) ∧
  (∀ w s, RowGood s .vpack w → Completes (.vpack w) s fun t =>
    let n := fmtWidth w.fmt.toNat
    let f (i : Nat) : Cvt := let k := i / (32 / n)
      let j := if n = 16 then i else 4 * (k % 32) + i % 4
      cvtAt (rowCx .vpack w s) w.imm (fmtCode w.fmt.toNat) (bits (auxOf w) 5 3) k (i % (32 / n))
        (scaled (scaleOf w.sc (srcC s .vpack w)) (-1) (decodeElem (fmtCode (bits (auxOf w) 2 0))
          (if j < 64 then elem 32 (srcA s .vpack w) j else elem 32 (srcB s .vpack w) (j - 64))))
    ∃ v, RowCommits s t .vpack w s.myPe (some v) (s.myPe.mask w &&& packLanes w)
      (countCvt (32 / n) (s.myPe.mask w &&& packLanes w) f).1 (countCvt (32 / n) (s.myPe.mask w &&& packLanes w) f).2 ∧
      ∀ i, i < 2048 / n → elem n v i = (f i).bits % 2 ^ n) ∧
  (∀ w s, RowGood s .vunpk w → Completes (.vunpk w) s fun t =>
    let src := bits (rowCx .vunpk w s).aux 2 0
    let f (k : Nat) := cvtAt (rowCx .vunpk w s) w.imm (fmtCode w.fmt.toNat) (bits (rowCx .vunpk w s).aux 5 3) k 0
      (scaled (scaleOf w.sc (srcC s .vunpk w)) 1 (decodeElem (fmtCode src)
        (elem (fmtWidth src) (srcA s .vunpk w) (64 * bits w.imm.toNat 62 61 + k))))
    let c := countCvt 1 (s.myPe.mask w) f
    RowResult s t .vunpk w 32 (fun k => (f k).bits) c.1 c.2) ∧
  ∀ w s, RowGood s .vbfly w → Completes (.vbfly w) s fun t =>
    let st := auxOf w % 16
    let c := scaleOf w.sb (srcB s .vbfly w)
    let down : Int := if c < st / 2 then (c : Int) - ((st / 2 : Nat) : Int) else 0
    let f (i : Nat) : Cvt := cvtAt (rowCx .vbfly w s) w.imm (fmtCode w.fmt.toNat) (bflyMode (bits (auxOf w) 5 4)) (i / 4) (i % 4)
      (Val.shift down (scaled c (-1) (fp ((bflyBlock (rowCx .vbfly w s) w.sa.toNat st).getD i 0))))
    RowResult s t .vbfly w 8 (fun i => (f i).bits) (countCvt 4 (s.myPe.mask w) f).1 (countCvt 4 (s.myPe.mask w) f).2

/-- R324-R327, R334, R340-R342, R357, R358. Moves, selects, immediates, shuffles, broadcasts, reductions and scans give each
lane its rule's value; a word of PR 0 and PN 1 commits only its routes (R59); NOP changes only its routes; HALT marks its pen, HALTF faults RUNOFF; COND keeps the first select of
its row, and a later one does nothing; VNFC reads, and may clear, the counts; EPOST posts a record of its lanes to its pen's owner or to
the ostler and the host ring of its job, each at its place in the order of R83, and nothing where its pen has no target.
The model's own choice of that turn is in log 5. -/
def Obligations.RowMoveAndControl : Prop :=
  (∀ w s, RowGood s .mov w → Completes (.mov w) s fun t => RowResult s t .mov w 32 (fun k => elem 32 (srcA s .mov w) k) 0 0) ∧
  (∀ w s, RowGood s .sel w → Completes (.rowSel w) s fun t => RowResult s t .sel w 32 (fun k =>
    if elem 32 (srcC s .sel w) k % 2 = 1 then elem 32 (srcA s .sel w) k else elem 32 (srcB s .sel w) k) 0 0) ∧
  (∀ w s, RowGood s .limm w → w.dst.toNat < 56 → Completes (.limm w) s fun t => RowResult s t .limm w 32 (fun k =>
    if k % 2 = 0 then w.imm.toNat % 2 ^ 32 else w.imm.toNat / 2 ^ 32) 0 0) ∧
  (∀ w s, RowGood s .limm w → 56 ≤ w.dst.toNat → Completes (.limm w) s fun t => RowResult s t .limm w 32 (fun k =>
    if w.imm.getLsbD k then 1 else 0) 0 0) ∧
  (∀ i s o w, opOf i = some (o, w) → o ≠ .haltf → deadRowWord w = true → Completes i s fun t =>
    t = s.setMyPe (s.myPe.deadRow s.myPe o w)) ∧
  (∀ w s, RowGood s .vshuf w → Completes (.vshuf w) s fun t => RowResult s t .vshuf w 32 (fun k =>
    if (elem 32 (srcB s .vshuf w) k).testBit 7 then 0 else elem 32 (srcA s .vshuf w) (elem 32 (srcB s .vshuf w) k % 64)) 0 0) ∧
  (∀ w s, RowGood s .vrotl w → Completes (.vrotl w) s fun t => RowResult s t .vrotl w 32 (fun k =>
    elem 32 (srcA s .vrotl w) ((k + (rowCx .vrotl w s).aux) % 64)) 0 0) ∧
  (∀ w s, RowGood s .vbcast w → Completes (.vbcast w) s fun t => RowResult s t .vbcast w 32 (fun _ =>
    elem 32 (srcA s .vbcast w) 0) 0 0) ∧
  (∀ w s, RowGood s .tred w → Completes (.tred w) s fun t => RowResult s t .tred w 32 (fun k =>
    (reduceStep (bits (auxOf w) 2 0) (lane (srcA s .tred w) k) (lane (srcB s .tred w) k)).toNat) 0 0) ∧
  (∀ w s, RowGood s .vred w → bits (auxOf w) 2 0 = 3 → Completes (.vred w) s fun t => RowResult s t .vred w 32 (fun _ =>
    ((List.range 64).map fun k => if (s.myPe.mask w).getLsbD k then elem 32 (srcA s .vred w) k else 0).sum) 0 0) ∧
  (∀ w s, let op := bits (auxOf w) 2 0
    RowGood s .vred w → Completes (.vred w) s fun t => ∃ f : Nat → Nat → W32,
      (∀ k, k < 64 → f 0 k = if (s.myPe.mask w).getLsbD k then lane (srcA s .vred w) k else reduceUnit op) ∧
      (∀ n k, n < 6 → k < 2 ^ (5 - n) → f (n + 1) k = reduceStep op (f n k) (f n (k + 2 ^ (5 - n)))) ∧
      RowResult s t .vred w 32 (fun _ => (f 6 0).toNat) 0 0) ∧
  (∀ w s, RowGood s .vscan w → bits (auxOf w) 2 0 = 3 → Completes (.vscan w) s fun t => RowResult s t .vscan w 32 (fun j =>
    ((List.range (j + 1)).map fun k => if (s.myPe.mask w).getLsbD k then elem 32 (srcA s .vscan w) k else 0).sum) 0 0) ∧
  (∀ w s, let op := bits (auxOf w) 2 0
    RowGood s .vscan w → Completes (.vscan w) s fun t => ∃ y : Nat → W32, y 0 = reduceUnit op ∧
      (∀ k, k < 64 → y (k + 1) = reduceStep op (y k) (if (s.myPe.mask w).getLsbD k then lane (srcA s .vscan w) k else reduceUnit op)) ∧
      RowResult s t .vscan w 32 (fun k => (y (k + 1)).toNat) 0 0) ∧
  (∀ w s, RowGood s .tmerge w → Completes (.tmerge w) s fun t =>
    let c (k : Nat) := lane (srcC s .tmerge w) k
    let m := r32 (Val.minMax true (fp (c 0)) (fp (c 2)))
    let o (p q : W32) : W32 := if (fp (c 0)).isNan || (fp (c 2)).isNan then 0x7FC00000
      else if c 0 = 0xFF800000 ∧ c 2 = 0xFF800000 then 0 else mergeSum (mergeFactor (c 0) m) p (mergeFactor (c 2) m) q
    RowResult s t .tmerge w 32 (fun k => if (auxOf w).testBit 0 then
        (if k = 0 then m else if k = 1 then o (c 1) (c 3) else 0).toNat
      else (o (lane (srcA s .tmerge w) k) (lane (srcB s .tmerge w) k)).toNat) 0 0) ∧
  (∀ w s, RowGood s .nop w → Completes (.nop w) s fun t => RowCommits s t .nop w s.myPe none (s.myPe.mask w) 0 0) ∧
  (∀ w s, RowGood s .halt w → RowFinite s .halt w → (s.myPe.mask w).getLsbD 0 = true → Completes (.rowHalt w) s fun t =>
    t = { s with pens := t.pens, pes := t.pes } ∧ t.myPen = { s.myPen with halting := true, pval := false } ∧
    ∀ k, k ≠ s.penK → t.pen k = s.pen k) ∧
  (∀ w s, Completes (.haltf w) s fun t => t = s.rowFault w 0x06 0 0) ∧
  (∀ w s, RowGood s .cond w → s.myPen.cond = true ∨ (s.myPe.mask w).getLsbD 0 = false → Completes (.cond w) s fun t =>
    RowCommits s t .cond w s.myPe none (s.myPe.mask w) 0 0) ∧
  (∀ w s, RowGood s .cond w → RowFinite s .cond w → (s.myPe.mask w).getLsbD 0 = true → s.myPen.cond = false → Completes (.cond w) s fun t =>
    t.myPen.psel = (if (auxOf w).testBit 0 then w.imm.getLsbD 0 else elem 32 (srcA s .cond w) 0 != 0) ∧
    t.myPen.cond = true ∧ t.myPen.pval = !s.myPen.halting ∧ ∀ k, k ≠ s.penK → t.pen k = s.pen k) ∧
  (∀ w s, RowGood s .vnfc w → (auxOf w).testBit 0 = false → Completes (.vnfc w) s fun t => RowResult s t .vnfc w 32 (fun k =>
    if k = 0 then s.myPe.nfc.toNat else if k = 1 then s.myPe.satc.toNat else 0) 0 0) ∧
  (∀ w s, let c := (auxOf w).testBit 0 && (s.myPe.mask w).getLsbD 0
    RowGood s .vnfc w → Completes (.vnfc w) s fun t => ∃ v, RowCommits s t .vnfc w
      { s.myPe with nfc := if c then 0 else s.myPe.nfc, satc := if c then 0 else s.myPe.satc } (some v) (s.myPe.mask w) 0 0 ∧
      ∀ k, k < 64 → lane v k = if k = 0 then s.myPe.nfc else if k = 1 then s.myPe.satc else 0) ∧
  (∀ (p : Pen) die, (p.owner < 32 → p.targets die = [some (die, p.owner)]) ∧
    (32 ≤ p.owner → p.job = none → p.targets die = []) ∧
    ∀ r n, 32 ≤ p.owner → p.job = some (r, n) → p.targets die =
      (if r.getLsbD 704 then [some (r.toNat / 2 ^ 705 % 8, r.toNat / 2 ^ 708 % 32)] else []) ++ (if r.getLsbD 713 then [none] else [])) ∧
  (∀ w s, RowGood s .epost w → s.myPen.targets s.who.die = [] ∨ (s.myPe.mask w).getLsbD 0 = false → Completes (.epost w) s fun t =>
    RowCommits s t .epost w s.myPe none (s.myPe.mask w) 0 0) ∧
  (∀ w s, RowGood s .epost w → RowFinite s .epost w → (s.myPe.mask w).getLsbD 0 = true → s.caches = [] →
    Completes (.epost w) s fun t => t = { s with agenda := t.agenda, pes := t.pes } ∧
      ∃ r, recFields 0x50 0 (s.who.die % 8) 0 (s.who.pen % 256) (s.who.pe % 256) w.imm
        (BitVec.ofNat 64 (elem 32 (srcA s .epost w) 0 + if w.pl = 1 then 0 else elem 32 (srcA s .epost w) 1 * 2 ^ 32)) 0 r ∧
      t.agenda = (s.myPen.targets s.who.die).map (fun g =>
        Turn.post s.who.die (s.myPen.agentOf s.who.die s.who.pe % 4096) g s.myPen.ctx r) ++ s.agenda) ∧
  (∀ (s : State) die x d n c r, s.turn Machine.exec (.post die x (some (d, n)) c r) = .next (s.postOst d n c r) ∧
    (n < 32 → PostedTo s (s.postOst d n c r) (d * 32 + n) c r)) ∧
  ∀ (s : State) die x c r, s.turn Machine.exec (.post die x none c r) = .next (s.postHost (s.ctx c).func c r) ∧
    (let f := s.fn (s.ctx c).func
     f.ringFull = true ∨ f.posts ≠ [] → s.postHost (s.ctx c).func c r = s.setFn (s.ctx c).func { f with posts := f.posts ++ [{ ev := r, ctx := c }] })

/-- R77, R78, R105, R163, R206, R335, R343, R347. A scratchpad access faults ALIGN, PERM or ECC before its row commits, and a read of
a discarded packet SCALESTEP; LDS and LDSS read a vector or a word, LDSS clearing the full bits it tested where AUX asks; STS writes its enabled lanes and sets their words' full bits;
BACK returns or completes one slot; VOPT writes its weights and both moment vectors.
The model's own choices it meets are in log 48 and 55. -/
def Obligations.RowScratchpad : Prop :=
  (∀ w s c, deadRowWord w = false → s.rowWindow .lds w = none →
    padFault s.myPen s.myPe w (padAddr w (srcA s .lds w)) false = some c → Completes (.lds w) s fun t =>
    t = s.rowFault w c (padAddr w (srcA s .lds w)) (accBytes w)) ∧
  (∀ w s c, deadRowWord w = false → s.rowWindow .ldss w = none →
    padFault s.myPen s.myPe w (padAddr w (srcA s .ldss w)) false = some c → Completes (.ldss w) s fun t =>
    t = s.rowFault w c (padAddr w (srcA s .ldss w)) (accBytes w)) ∧
  (∀ w s, deadRowWord w = false → s.rowWindow .lds w = none →
    padFault s.myPen s.myPe w (padAddr w (srcA s .lds w)) false = none → s.myPe.discarded (padAddr w (srcA s .lds w)) = true →
    Completes (.lds w) s fun t => t = s.rowFault w 0x07 (padAddr w (srcA s .lds w)) (accBytes w)) ∧
  (∀ w s, deadRowWord w = false → s.rowWindow .ldss w = none →
    padFault s.myPen s.myPe w (padAddr w (srcA s .ldss w)) false = none → s.myPe.discarded (padAddr w (srcA s .ldss w)) = true →
    Completes (.ldss w) s fun t => t = s.rowFault w 0x07 (padAddr w (srcA s .ldss w)) (accBytes w)) ∧
  (∀ w s c, deadRowWord w = false → s.rowWindow .sts w = none →
    padFault s.myPen s.myPe w (padAddr w (srcB s .sts w)) (stsWhole s w) = some c → Completes (.sts w) s fun t =>
    t = s.rowFault w c (padAddr w (srcB s .sts w)) (accBytes w)) ∧
  (∀ w s, RowGood s .lds w → padFault s.myPen s.myPe w (padAddr w (srcA s .lds w)) false = none →
    s.myPe.discarded (padAddr w (srcA s .lds w)) = false → Completes (.lds w) s fun t =>
    RowCommits s t .lds w s.myPe (some (s.myPe.padLoad w (padAddr w (srcA s .lds w)))) (s.myPe.mask w) 0 0) ∧
  (∀ w s, RowGood s .ldss w → padFault s.myPen s.myPe w (padAddr w (srcA s .ldss w)) false = none →
    s.myPe.discarded (padAddr w (srcA s .ldss w)) = false → Completes (.ldss w) s fun t =>
    RowCommits s t .ldss w (if (auxOf w).testBit 0 then
        { s.myPe with full := s.myPe.full &&& ~~~(fullMask (padAddr w (srcA s .ldss w)) (accBytes w)) } else s.myPe)
      (some (s.myPe.padLoad w (padAddr w (srcA s .ldss w)))) (s.myPe.mask w) 0 0) ∧
  (∀ w s, RowGood s .sts w → padFault s.myPen s.myPe w (padAddr w (srcB s .sts w)) (stsWhole s w) = none →
    Completes (.sts w) s fun t => RowCommits s t .sts w (if w.pl = 1 then
        s.myPe.padWrite (padAddr w (srcB s .sts w) / 256)
          (if (s.myPe.mask w).getLsbD 0 then BitVec.ofNat 64 (2 ^ (padAddr w (srcB s .sts w) % 256 / 4)) else 0)
          (splat (lane (srcA s .sts w) 0))
      else s.myPe.padWrite (padAddr w (srcB s .sts w) / 256) (s.myPe.mask w) (srcA s .sts w)) none (s.myPe.mask w) 0 0) ∧
  (∀ (p : PE) v m x k, k < 64 → lane ((p.padWrite v m x).pad v) k = if m.getLsbD k then lane x k else lane (p.pad v) k) ∧
  (∀ w s, RowGood s .back w → (s.myPe.mask w).getLsbD 0 = true → Completes (.back w) s fun t =>
    RowCommits s t .back w ((s.myPe.back ((auxOf w) % 16)).noteFreed (auxOf w % 16) s.fcycle.toNat
      (s.myPe.handle (auxOf w % 16)).head) none (s.myPe.mask w) 0 0) ∧
  ∀ w s, let im := w.imm.toNat % 512
    let iv := w.imm.toNat / 65536 % 512
    let r (k : Nat) := optLane (rowCx .vopt w s) w.imm (lane (srcA s .vopt w) k) (lane (srcB s .vopt w) k)
      (lane (s.myPe.pad im) k) (lane (s.myPe.pad iv) k)
    RowGood s .vopt w → im < splitBytes s.myPen.split / 256 → iv < splitBytes s.myPen.split / 256 →
    mget false s.myPe.ecc im = false → mget false s.myPe.ecc iv = false →
    Completes (.vopt w) s fun t => ∃ v m1 m2 fin,
      RowCommits s t .vopt w ((s.myPe.padWrite im (s.myPe.mask w &&& fin) m1).padWrite iv (s.myPe.mask w &&& fin) m2) (some v)
        (s.myPe.mask w) ((List.range 64).filter fun k => (s.myPe.mask w).getLsbD k && (r k).2.isNone).length 0 ∧
      ∀ k, k < 64 → lane v k = (r k).1 ∧ fin.getLsbD k = (r k).2.isSome ∧ ∀ x y, (r k).2 = some (x, y) →
        lane m1 k = x ∧ lane m2 k = y

/-- R70, R73, R344-R346, R348, R153. LDG, STG, GATH and SCAT check alignment, and a load also its translation, before their row
commits, and then join their PE's accesses with four rows to run; a store without a lane does nothing; LAPR appends an entry of
each enabled lane in lane order. A reply or a finished store is a step of its own: a store that cannot translate changes no
memory, one that can writes exactly its masked bytes, and a late failure stops its domain.
The model's own choices it meets are in log 54, 56 and 79. -/
def Obligations.RowMemory : Prop :=
  (∀ w s, let va := ((if w.pl = 1 then elem 32 (srcA s .ldg w) 0 else elem 32 (srcA s .ldg w) 0 + elem 32 (srcA s .ldg w) 1 * 2 ^ 32) +
      w.imm.toNat) % 2 ^ 64
    let n := if w.pl = 1 then 4 else 256
    (deadRowWord w = false → s.rowWindow .ldg w = none → va % n ≠ 0 → Completes (.ldg w) s fun t => t = s.rowFault w 0x05 va n) ∧
    (∀ c, deadRowWord w = false → s.rowWindow .ldg w = none → va % n = 0 → s.peCheck s.penK s.myPen.ctx va false = .error c →
      Completes (.ldg w) s fun t => t = (s.peWalk s.penK s.myPen.ctx false [va]).rowFault w c va n) ∧
    ∀ e, RowGood s .ldg w → va % n = 0 → s.peCheck s.penK s.myPen.ctx va false = .ok e → Completes (.ldg w) s fun t =>
      RowCommitsFrom s (s.peWalk s.penK s.myPen.ctx false [va]) t .ldg w { s.myPe with irr := s.myPe.irr ++
        [irrOf w (rowCx .ldg w s) true [(0, va)] 0] } (some 0) (s.myPe.mask w) 0 0) ∧
  (∀ w s, let va := ((if w.pl = 1 then elem 32 (srcB s .stg w) 0 else elem 32 (srcB s .stg w) 0 + elem 32 (srcB s .stg w) 1 * 2 ^ 32) +
      w.imm.toNat) % 2 ^ 64
    let n := if w.pl = 1 then 4 else 256
    (deadRowWord w = false → s.rowWindow .stg w = none → va % n ≠ 0 → Completes (.stg w) s fun t => t = s.rowFault w 0x05 va n) ∧
    (RowGood s .stg w → va % n = 0 → Completes (.stg w) s fun t => RowCommits s t .stg w
      (if s.myPe.mask w = 0 then s.myPe else { s.myPe with irr := s.myPe.irr ++
        [irrOf w (rowCx .stg w s) false [(0, va)] (srcA s .stg w)] }) none (s.myPe.mask w) 0 0)) ∧
  (∀ w s, RowGood s .gath w → (auxOf w).testBit 0 = false →
    let l := ((List.range 64).filter fun k => (s.myPe.mask w).getLsbD k).map fun k =>
      (k, (w.imm + 4 * (lane (srcA s .gath w) k).signExtend 64).toNat)
    let u := s.elemWalk s.penK s.myPen.ctx false l
    (∀ c a, s.elemFault s.penK s.myPen.ctx false l = some (c, a) → Completes (.gath w) s fun t => t = u.rowFault w c a 4) ∧
    (s.elemFault s.penK s.myPen.ctx false l = none → Completes (.gath w) s fun t => RowCommitsFrom s u t .gath w
      { s.myPe with irr := s.myPe.irr ++ [irrOf w (rowCx .gath w s) true l 0] } (some 0) (s.myPe.mask w) 0 0)) ∧
  (∀ w s, deadRowWord w = false → s.rowWindow .gath w = none → (auxOf w).testBit 0 = true → w.imm.toNat % 16 ≠ 0 →
    Completes (.gath w) s fun t => t = s.rowFault w 0x05 w.imm.toNat 4) ∧
  (∀ w s c a u, deadRowWord w = false → s.rowWindow .gath w = none → (auxOf w).testBit 0 = true → w.imm.toNat % 16 = 0 →
    s.l1Read s.penK s.who.pe w.imm.toNat 272 = (.error (c, a), u) → Completes (.gath w) s fun t => t = u.rowFault w c a 4) ∧
  (∀ w s m u (f : Nat → Nat), let l := ((List.range 64).filter fun k => (s.myPe.mask w).getLsbD k).map fun k =>
      (k, (f k + (lane (srcB s .gath w) k).toNat) % 2 ^ 64)
    RowGood s .gath w → (auxOf w).testBit 0 = true → w.imm.toNat % 16 = 0 →
    s.l1Read s.penK s.who.pe w.imm.toNat 272 = (.ok m, u) →
    (∀ k, k < 64 → (s.myPe.mask w).getLsbD k = true → xloc m (lane (srcA s .gath w) k).toNat = .ok (f k)) →
    (∀ c a, u.elemFault s.penK s.myPen.ctx false l = some (c, a) → Completes (.gath w) s fun t =>
      t = (u.elemWalk s.penK s.myPen.ctx false l).rowFault w c a 4) ∧
    (u.elemFault s.penK s.myPen.ctx false l = none → Completes (.gath w) s fun t =>
      RowCommitsFrom s (u.elemWalk s.penK s.myPen.ctx false l) t .gath w
      { s.myPe with irr := s.myPe.irr ++ [irrOf w (rowCx .gath w s) true l 0] } (some 0) (s.myPe.mask w) 0 0)) ∧
  (∀ w s m u, deadRowWord w = false → s.rowWindow .gath w = none → (auxOf w).testBit 0 = true → w.imm.toNat % 16 = 0 →
    s.l1Read s.penK s.who.pe w.imm.toNat 272 = (.ok m, u) →
    (∃ k, k < 64 ∧ (s.myPe.mask w).getLsbD k = true ∧ ∃ e, xloc m (lane (srcA s .gath w) k).toNat = .error e) →
    Completes (.gath w) s fun t => t = u.rowFault w 0x0B w.imm.toNat 4) ∧
  (∀ w s, RowGood s .scat w → let l := ((List.range 64).filter fun k => (s.myPe.mask w).getLsbD k).map fun k =>
      (k, (w.imm + 4 * (lane (srcB s .scat w) k).signExtend 64).toNat)
    (∀ e, l.find? (fun e => e.2 % 4 ≠ 0) = some e → Completes (.scat w) s fun t => t = s.rowFault w 0x05 e.2 4) ∧
    (l = [] → Completes (.scat w) s fun t => RowCommits s t .scat w s.myPe none (s.myPe.mask w) 0 0) ∧
    ((∀ e ∈ l, e.2 % 4 = 0) → l ≠ [] → Completes (.scat w) s fun t => RowCommits s t .scat w
      { s.myPe with irr := s.myPe.irr ++ [irrOf w (rowCx .scat w s) false l (srcA s .scat w)] } none (s.myPe.mask w) 0 0)) ∧
  (∀ w s, RowGood s .lapr w → let l := (lanesOf (s.myPe.mask w)).map fun k => (k, elemAddr w (lane (srcB s .lapr w) k))
    let u := s.elemWalk s.penK s.myPen.ctx true l
    (∀ c a, s.elemFault s.penK s.myPen.ctx true l = some (c, a) → Completes (.lapr w) s fun t => t = u.rowFault w c a 4) ∧
    (s.elemFault s.penK s.myPen.ctx true l = none → RowFinite s .lapr w →
      Completes (.lapr w) s fun t => let es := laprEntries w (rowCx .lapr w s) s
      t = { u with pes := t.pes, logs := t.logs } ∧ t.myPe.logSeq = s.myPe.logSeq + BitVec.ofNat 32 es.length ∧
      ∀ h, t.logOf h = s.logOf h ++ es.filter fun e => homeOf e.pa == h)) ∧
  (∀ (s : State) k c write l, MemoryOnly s (s.elemWalk k c write l) ∧ (s.elemWalk k c write l).logs = s.logs) ∧
  (∀ die pen pe s x, let k := penKey die pen
    (s.pe k pe).irr.find? (fun x => x.waits true) = some x →
    ((s.pen k).takes = false ∨ s.irrAway k x = true → Completes (.loadReply die pen pe) s fun t => t = s) ∧
    (∀ v u, (s.pen k).takes = true → s.irrAway k x = false → s.irrLoad k pe x = (.ok v, u) →
      Completes (.loadReply die pen pe) s fun t =>
      t = ((u.setPe k pe { u.pe k pe with irr := replaceIrr true { x with ready := true } (u.pe k pe).irr }).landIrr k pe).landReply
        k pe (s.pe k pe).loadPlace v) ∧
    ∀ c a u, (s.pen k).takes = true → s.irrAway k x = false → s.irrLoad k pe x = (.error (c, a), u) →
      Completes (.loadReply die pen pe) s fun t => t = u.setPe k pe { u.pe k pe with
        irr := replaceIrr true { x with ready := true, cause := c, faddr := a } (u.pe k pe).irr }) ∧
  (∀ die pen pe s x, let k := penKey die pen
    (s.pe k pe).irr.find? (fun x => x.waits false) = some x →
    ((∃ e ∈ x.stores, ∃ c, s.peCheck k (s.pen k).ctx e.1 true = .error c) → s.irrAway k x = false →
      Completes (.storeTranslationDone die pen pe) s fun t =>
      t = { s.peWalk k (s.pen k).ctx true (x.stores.map Prod.fst) with pes := t.pes }) ∧
    (s.irrAway k x = true → Completes (.storeTranslationDone die pen pe) s fun t => t = s) ∧
    ∀ a d m e, x.stores = [(a, d, m)] → s.peCheck k (s.pen k).ctx a true = .ok e → s.irrAway k x = false →
      (s.irrPas k x).any s.linkDown = false → aDER e.attr = false → e.addr a < 2 ^ 52 → s.isShadow (e.addr a) = false →
      s.page (e.addr a / 65536) = .home → Sound s → Coherent s → Completes (.storeTranslationDone die pen pe) s fun t =>
        t.ost = s.ost ∧ Coherent t ∧ ∀ n, n < 2 ^ 53 → byteAt t n =
          if n / 128 = e.addr a / 128 ∧ m.getLsbD (n % 128) = true then lineByte d (n % 128) else byteAt s n) ∧
  ∀ die pen pe s, let k := penKey die pen
    (∀ r p, k ∈ s.domainPens die (s.pen k).gang → s.lateOf k pe = some (r, p) → r.defer_ = true →
      Completes (.deferredStoreFault die pen pe) s fun t => t = (s.setPe k pe p).domainStop k r) ∧
    (s.lateOf k pe = none → Completes (.deferredStoreFault die pen pe) s fun t => t = s)

/-- R61, R63, R209-R212, R350-R356. MLDW writes one weight row; MPASS and MSPRS add a pass with its occupancy, unless a weight row
breaks its pairing (CHECK) or is poisoned (ECC), in a systolic pen with the weights of the whole PE row; MPASSD starts a fetched pass at a 512-byte aligned base; MWAIT reopens a tile for MRD, which reads
two tile rows, or a free value before; MCLR zeroes a tile. A completed pass adds its groups, one at a time, to its row.
The model's own choices it meets are in log 9, 52 and 53. -/
def Obligations.RowMatrix : Prop :=
  (∀ w s, RowGood s .mldw w → (s.myPe.mask w).getLsbD 0 = true → Completes (.mldw w) s fun t =>
    let lo := (rowCx .mldw w s).half w.sa
    let hi := (rowCx .mldw w s).half w.sb
    RowCommits s t .mldw w (s.myPe.loadWeights (auxOf w % 32) 
      { set := true, lo := (rowCx .mldw w s).raw w.fmt.toNat w.sa, hi := (rowCx .mldw w s).raw w.fmt.toNat w.sb,
        fmt := w.fmt.toNat,
        scLo := lo.1, scHi := hi.1, bfLo := lo.2, bfHi := hi.2 }) none
      (s.myPe.mask w) (nanHalf w.fmt.toNat lo.1 + nanHalf w.fmt.toNat hi.1) 0) ∧
  (∀ (p : PE) r x k, r < 32 → k < 32 → mget WRow.reset (p.loadWeights r x).w k =
    if k = r then x else if (mget WRow.reset p.w k).set then mget WRow.reset p.w k else { x with set := false, lo := 0, hi := 0 }) ∧
  (∀ i o w s, (i = .mpass w ∧ o = .mpass) ∨ (i = .msprs w ∧ o = .msprs) → RowGood s o w → (s.myPe.mask w).getLsbD 0 = true →
    (passMismatch s w (passHalf s o w w.sa).2 (passHalf s o w w.sb).2 = true → Completes i s fun t => t = s.rowFault w 0x08 0 0) ∧
    (passMismatch s w (passHalf s o w w.sa).2 (passHalf s o w w.sb).2 = false → passPoisoned s = true →
      Completes i s fun t => t = s.rowFault w 0x09 0 0)) ∧
  (∀ w s, let lo := passHalf s .mpass w w.sa
    let hi := passHalf s .mpass w w.sb
    RowGood s .mpass w → (s.myPe.mask w).getLsbD 0 = true → passMismatch s w lo.2 hi.2 = false → passPoisoned s = false →
    Completes (.mpass w) s fun t => RowCommits s t .mpass w
      (s.myPe.addPass
        { tile := w.dst.toNat - 40, row := auxOf w % 32, fmt := w.fmt.toNat, lo := (rowCx .mpass w s).raw w.fmt.toNat w.sa,
          hi := (rowCx .mpass w s).raw w.fmt.toNat w.sb, scLo := lo.1, scHi := hi.1, mask := BitVec.allOnes 512, w := s.myPe.w,
          left := if fmtWidth w.fmt.toNat = 8 then 16 else 32, tail := s.myPen.tail, clears := false,
          systolic := s.myPen.sys }) none
      (s.myPe.mask w) (nanHalf w.fmt.toNat lo.1 + nanHalf w.fmt.toNat hi.1) 0) ∧
  (∀ w s, let lo := passHalf s .msprs w w.sa
    let hi := passHalf s .msprs w w.sb
    RowGood s .msprs w → (s.myPe.mask w).getLsbD 0 = true → passMismatch s w lo.2 hi.2 = false → passPoisoned s = false →
    Completes (.msprs w) s fun t => ∃ n, (n = 4 ∨ n = 8 ∨ n = 16) ∧
      (∀ q, q < 16 → ((List.range 32).filter fun e => (lane (srcC s .msprs w) q).getLsbD e).length ≤ 2 * n) ∧
      RowCommits s t .msprs w (s.myPe.addPass
        { tile := w.dst.toNat - 40, row := auxOf w % 32, fmt := w.fmt.toNat, lo := (rowCx .msprs w s).raw w.fmt.toNat w.sa,
          hi := (rowCx .msprs w s).raw w.fmt.toNat w.sb, scLo := lo.1, scHi := hi.1,
          mask := (srcC s .msprs w).extractLsb' 0 512, w := s.myPe.w, left := n, tail := s.myPen.tail, clears := false,
          systolic := s.myPen.sys })
        none (s.myPe.mask w) (nanHalf w.fmt.toNat lo.1 + nanHalf w.fmt.toNat hi.1) 0) ∧
  (∀ w s, deadRowWord w = false → s.rowWindow .mpassd w = none → (s.myPe.mask w).getLsbD 0 = true → w.imm.toNat % 512 ≠ 0 →
    Completes (.mpassd w) s fun t => t = s.rowFault w 0x05 w.imm.toNat 256) ∧
  (∀ w s, RowGood s .mpassd w → (s.myPe.mask w).getLsbD 0 = true → w.imm.toNat % 512 = 0 →
    passSkips s ∨ (lane (srcA s .mpassd w) 0).toNat % 512 = 0 → passMismatch s w 0 0 = false → passPoisoned s = false →
    Completes (.mpassd w) s fun t =>
      RowCommits s t .mpassd w { s.myPe with
        mpd := some { word := s.myPe.rowWord s.myPen.sel s.myPen.rc, row := s.myPen.rc, sel := s.myPen.sel,
                      iter := s.myPen.q w.stg.toNat, lanes := s.myPe.mask w, stride := (lane (srcA s .mpassd w) 0).toNat,
                      base := w.imm.toNat, last := auxOf w % 32, w := s.myPe.w, before := s.myPe.passes.length,
                      clears := false, void := false, fault := none, flight := [] },
        prg := prgOf 0 (w.dst.toNat - 40) true, mopen := s.myPe.mopen ||| BitVec.ofNat 4 (2 ^ (w.dst.toNat - 40)) } none
        (s.myPe.mask w) 0 0) ∧
  (∀ w s, RowGood s .mwait w → (s.myPe.mask w).getLsbD 0 = true → Completes (.mwait w) s fun t => RowCommits s t .mwait w
    { s.myPe with mopen := s.myPe.mopen &&& ~~~(BitVec.ofNat 4 (2 ^ (w.sa.toNat - 40))) } none (s.myPe.mask w) 0 0) ∧
  (∀ w s, RowGood s .mrd w → s.myPe.mopen.getLsbD (w.sa.toNat - 40) = false → Completes (.mrd w) s fun t =>
    RowResult s t .mrd w 32 (fun k => (mget 0 s.myPe.a (tileKey (w.sa.toNat - 40) (2 * (auxOf w % 16) + k / 32) (k % 32))).toNat)
      0 0) ∧
  (∀ w s, RowGood s .mrd w → s.myPe.mopen.getLsbD (w.sa.toNat - 40) = true → Completes (.mrd w) s fun t =>
    RowCommits { s with freeCtr := s.freeCtr + 1 } t .mrd w s.myPe (some (Config.freeVec s.freeCtr)) (s.myPe.mask w) 0 0) ∧
  (∀ w s, RowGood s .mclr w → (s.myPe.mask w).getLsbD 0 = true → Completes (.mclr w) s fun t =>
    RowCommits s t .mclr w (s.myPe.clearTile (w.dst.toNat - 40)) none (s.myPe.mask w) 0 0) ∧
  (∀ (p : PE) tile n, p.passes = [] → p.mpd = none → mget 0 (p.clearTile tile).a n =
    if n / 1024 = tile then 0 else mget 0 p.a n) ∧
  (∀ die pen pe s x r, let k := penKey die pen
    (s.pen k).sys = false → (s.pe k pe).passes = x :: r → (s.pe k pe).mpd = none → x.done = true → x.systolic = false →
    x.clears = false → Completes (.matrixPassComplete die pen pe) s fun t => t = { s with pes := t.pes } ∧ (t.pe k pe).passes = r ∧
      (∀ j, j < 32 → mget 0 (t.pe k pe).a (tileKey x.tile x.row j) =
        addGroups (mget 0 (s.pe k pe).a (tileKey x.tile x.row j)) (x.groupsWith x.w j)) ∧
      (∀ n, (∀ j, j < 32 → n ≠ tileKey x.tile x.row j) → mget 0 (t.pe k pe).a n = mget 0 (s.pe k pe).a n) ∧
      ∀ i, i ≠ peKey k pe → mget PE.reset t.pes i = mget PE.reset s.pes i) ∧
  (∀ die pen pe s m, let k := penKey die pen
    (s.pe k pe).mpd = some m → (s.pen k).takes = false ∨ m.before ≠ 0 ∨ m.fault ≠ none ∨ (∃ r, m.flight.getLast? = some r ∧ r.left ≠ 0) ∨
      m.last < (s.pe k pe).prgDone + m.flight.length ∨ s.mpdAway k pe = true →
    Completes (.mpassdFetch die pen pe) s fun t => t = s) ∧
  (∀ die pen pe s m r u, let k := penKey die pen
    let n := (s.pe k pe).prgDone + m.flight.length
    (s.pen k).sys = false → (s.pen k).takes = true → (s.pe k pe).mpd = some m → m.before = 0 → m.fault = none →
    (∀ r, m.flight.getLast? = some r → r.left = 0) → n ≤ m.last → s.mpdAway k pe = false →
    s.mpdRead k pe ((m.base + n * m.stride) % 2 ^ 64) = (r, u) → Completes (.mpassdFetch die pen pe) s fun t => match r with
      | .error e => t = u.setPe k pe { u.pe k pe with mpd := some { m with fault := some e } }
      | .ok v => t = u.setPe k pe { u.pe k pe with mpd := some { m with flight := m.flight ++ [
          { lo := v.1, hi := v.2, left := if fmtWidth m.fmt = 8 then 16 else 32, tail := 0 }] } }) ∧
  ∀ (p : PE) m r f, p.mpd = some m → m.flight = r :: f →
    (r.left ≠ 0 → p.finishMpd = p) ∧ (r.left = 0 → r.tail = 0 → m.void = false → m.clears = false → p.prgTile < 4 →
      p.prgDone < 65535 → m.last < 65536 →
      let q := p.finishMpd
      q = { p with a := q.a, prg := q.prg, mpd := q.mpd } ∧ q.prgTile = p.prgTile ∧ q.prgDone = p.prgDone + 1 ∧
      (p.prgDone < m.last → q.mpd = some { m with flight := f } ∧ q.prg.getLsbD 18 = true) ∧
      (m.last ≤ p.prgDone → q.mpd = none ∧ q.prg.getLsbD 18 = false) ∧
      (∀ j, j < 32 → mget 0 q.a (tileKey p.prgTile p.prgDone j) = addGroups (mget 0 p.a (tileKey p.prgTile p.prgDone j))
        (fetchedGroups m.fmt (r.lo, r.hi) m.w j)) ∧
      ∀ n, (∀ j, j < 32 → n ≠ tileKey p.prgTile p.prgDone j) → mget 0 q.a n = mget 0 p.a n)

/-! ### Streams -/

/-- R365-R369, R377-R379, R167. SQ copies its block into the port's queue, BUSY when full; SPROG takes the lowest free slot; SCANCEL
ends a running slot TRUNCATED, and with a port's command those that wait behind it; SSTAT reports and changes nothing; RECFL drops
the handle's records, memory keeping its bytes; SCOMB queues a checked command; BWAIT returns once enough slots hold the state;
BSET sets or clears RESIDENT. A block that cannot be read gives BADARG, and one another module holds is awaited.
The model's own choices it meets are in log 60, 61, 90 and 91. -/
def Obligations.StreamIssue : Prop :=
  (∀ (d a b : Reg) s, s.penUsable (targetPen (s.rx a).toNat) = false → Completes (.sq d a b) s fun t => Returned s t d 4) ∧
  (∀ (d a b : Reg) s, s.penUsable (targetPen (s.rx a).toNat) = true →
    (∀ c x u, s.readBlock (s.rx b).toNat 128 128 = .trap c x u → Completes (.sq d a b) s fun t => Returned u t d 4) ∧
    (∀ u, s.readBlock (s.rx b).toNat 128 128 = .wait u → Completes (.sq d a b) s fun t => Waits u t (.sq d a b))) ∧
  (∀ (d a b : Reg) s blk u, let pk := targetPen (s.rx a).toNat
    let port := targetPort (s.rx a).toNat
    s.penUsable pk = true → s.readBlock (s.rx b).toNat 128 128 = .ok blk u →
    (8 ≤ (s.queueOf pk port).length → Completes (.sq d a b) s fun t => Returned u t d 1) ∧
    ((s.queueOf pk port).length < 8 → Completes (.sq d a b) s fun t => Returned
      (u.setQueueOf pk port (u.queueOf pk port ++
        [{ block := BitVec.ofNat 1024 blk, va := (s.rx b).toNat, eng := bits (s.rx a).toNat 16 13, ctx := s.ctxId,
           die := s.who.die, n := s.who.n }])) t d 0)) ∧
  (∀ (d a b c : Reg) s, s.tablesAway s.agent s.ctxId (s.rx a).toNat 8 = true → Completes (.sprog d a b c) s fun t => Waits s t (.sprog d a b c)) ∧
  (∀ (d a b c : Reg) s, let u := s.walkRange s.agent s.ctxId (s.rx a).toNat 8
    s.tablesAway s.agent s.ctxId (s.rx a).toNat 8 = false →
    (s.rx a).toNat % 8 ≠ 0 ∨ u.rangesOf s.agent s.ctxId (fun _ => true) (s.rx a).toNat 8 = none →
    Completes (.sprog d a b c) s fun t => Returned u t d 4) ∧
  (∀ (d a b c : Reg) s, let u := s.walkRange s.agent s.ctxId (s.rx a).toNat 8
    let die := (s.rx b).toNat / 16 % 8
    let eng := (s.rx b).toNat % 16
    s.tablesAway s.agent s.ctxId (s.rx a).toNat 8 = false → (s.rx a).toNat % 8 = 0 →
    u.rangesOf s.agent s.ctxId (fun _ => true) (s.rx a).toNat 8 ≠ none →
    ((∀ k, k < 16 → (s.prog (progKey die eng k)).busy = true) → Completes (.sprog d a b c) s fun t => Returned u t d 1) ∧
    ∀ k, k < 16 → (s.prog (progKey die eng k)).busy = false → (∀ j, j < k → (s.prog (progKey die eng j)).busy = true) →
      Completes (.sprog d a b c) s fun t => Wrote (u.setProg (progKey die eng k)
        { Prog.reset with busy := true, ctx := s.ctxId, die := s.who.die, n := s.who.n, tag := s.rx c,
                          next := (s.rx a).toNat }) t d (BitVec.ofNat 64 (k * 256))) ∧
  (∀ (d a : Reg) s, s.selForeign (s.rx a).toNat = true →
    Completes (.scancel d a) s (fun t => Returned s t d 4) ∧ Completes (.sstat d a) s fun t => Returned s t d 4) ∧
  (∀ (d a : Reg) s, let k := selProg (s.rx a).toNat
    s.selForeign (s.rx a).toNat = false → (s.rx a).getLsbD 0 = false →
    ((s.prog k).busy = false → Completes (.scancel d a) s (fun t => Returned s t d 0) ∧
      Completes (.sstat d a) s fun t => Wrote s t d 0) ∧
    ((s.prog k).busy = true → (s.prog k).done = none → Completes (.scancel d a) s fun t => Returned (s.endProg k 5) t d 0 ∧
      (t.prog k).done = some 5) ∧
    ((s.prog k).busy = true → Completes (.sstat d a) s fun t => Wrote s t d
      (BitVec.ofNat 64 (s.progState k * 256 + (s.prog k).tiles % 2 ^ 32 * 2 ^ 32)))) ∧
  (∀ (d a : Reg) s, let pk := selPen (s.rx a).toNat
    let port := selPort (s.rx a).toNat
    s.selForeign (s.rx a).toNat = false → (s.rx a).getLsbD 0 = true →
    (s.queueOf pk port = [] → s.boundTo pk port = none → Completes (.scancel d a) s fun t => Returned s t d 0) ∧
    (∀ k, s.queueOf pk port = [] → s.boundTo pk port = some k → (s.prog k).busy = true → (s.prog k).done = none →
      Completes (.scancel d a) s fun t => Returned (s.endProg k 5) t d 0 ∧ (t.prog k).done = some 5) ∧
    (∀ c, s.queueOf pk port = [c] → s.boundTo pk port = none → s.routine = none → c.die * 32 + c.n ≠ s.me → c.n < 32 →
      Completes (.scancel d a) s fun t => RegSet s t d 0 ∧ t.queueOf pk port = [] ∧ ∃ r,
        recFields 0x10 5 (pk / 128 % 8) 1 (c.eng % 256) 0 (c.block.extractLsb' 128 64) 0 0 r ∧
        Posted (s.ostler (c.die * 32 + c.n)) (t.ostler (c.die * 32 + c.n)) c.ctx r) ∧
    (s.boundTo pk port = none → Completes (.sstat d a) s fun t => Wrote s t d (BitVec.ofNat 64
      ((if s.queueOf pk port = [] then 0 else 256) + (s.queueOf pk port).length * 2 ^ 16))) ∧
    ∀ k, s.boundTo pk port = some k → Completes (.sstat d a) s fun t => Wrote s t d (BitVec.ofNat 64
      (s.progState k * 256 + (s.queueOf pk port).length * 2 ^ 16 + (s.prog k).tiles % 2 ^ 32 * 2 ^ 32))) ∧
  (∀ (d a : Reg) s, let h := (s.rx a).toNat
    let u := s.walkRange s.agent s.ctxId h 192
    (s.rangeAway s.agent s.ctxId h 192 = true → Completes (.recfl d a) s fun t => Waits s t (.recfl d a)) ∧
    (s.rangeAway s.agent s.ctxId h 192 = false →
      (h % 64 ≠ 0 ∨ u.rangesOf s.agent s.ctxId (fun _ => true) h 192 = none →
        Completes (.recfl d a) s fun t => Returned u t d 4) ∧
      (h % 64 = 0 → u.rangesOf s.agent s.ctxId (fun _ => true) h 192 ≠ none →
        (∀ e x v, (u.writebackRange h 192).vread s.agent s.ctxId h 192 = .fault e x v →
          Completes (.recfl d a) s fun t => Returned v t d 4) ∧
        ∀ y v, (u.writebackRange h 192).vread s.agent s.ctxId h 192 = .ok y v → Rooted s → TlbBounded s → Sound s → Coherent s →
        mwf [] s.recs = true → Completes (.recfl d a) s fun t => RegSet s t d 0 ∧ t.cur = { s.cur.commit with x := t.cur.x } ∧
          MemoryOnly s t ∧ (∀ n, n < 2 ^ 53 → byteAt t n = byteAt s n) ∧ (∀ die e, e ∈ mget [] t.recs die ↔
          e ∈ mget [] s.recs die ∧ ¬(e.ctx = s.ctxId ∧ e.handle = h))))) ∧
  (∀ (d a : Reg) s,
    (∀ c x u, s.readBlock (s.rx a).toNat 64 64 = .trap c x u → Completes (.scomb d a) s fun t => Returned u t d 4) ∧
    ∀ u, s.readBlock (s.rx a).toNat 64 64 = .wait u → Completes (.scomb d a) s fun t => Waits u t (.scomb d a)) ∧
  (∀ (d a : Reg) s b u, s.readBlock (s.rx a).toNat 64 64 = .ok b u →
    bits b 63 0 % 256 ≠ 0 ∨ bits b 127 64 % 256 ≠ 0 ∨ bits b 191 128 % 256 ≠ 0 ∨ bits b 223 192 = 0 ∨ 2 ≤ bits b 227 224 ∨
      bits b 255 230 ≠ 0 ∨ bits b 511 320 ≠ 0 → Completes (.scomb d a) s fun t => Returned u t d 4) ∧
  (∀ (d a : Reg) s b u, let va := bits b 63 0
    let vb := bits b 127 64
    let vc := bits b 191 128
    let n := bits b 223 192
    let walk := fun (u : State) v => u.walkRange u.agent u.ctxId v (256 * n)
    let w := walk (walk (walk u va) vb) vc
    s.readBlock (s.rx a).toNat 64 64 = .ok b u → va % 256 = 0 → vb % 256 = 0 → vc % 256 = 0 → n ≠ 0 → bits b 227 224 < 2 →
    bits b 255 230 = 0 → bits b 511 320 = 0 →
    ((∃ v ∈ [va, vb, vc], u.tablesAway u.agent u.ctxId v (256 * n) = true) → Completes (.scomb d a) s fun t => Waits u t (.scomb d a)) ∧
    ((∀ v ∈ [va, vb, vc], u.tablesAway u.agent u.ctxId v (256 * n) = false) →
      (w.packets (fun _ => true) va n = none ∨ w.packets (fun _ => true) vb n = none ∨ w.packets (fun e => aW e.attr) vc n = none →
        Completes (.scomb d a) s fun t => Returned w t d 4) ∧
      ∀ pa pb pc, w.packets (fun _ => true) va n = some pa → w.packets (fun _ => true) vb n = some pb →
        w.packets (fun e => aW e.attr) vc n = some pc →
        ((∃ i j, i < n ∧ j < n ∧ i ≠ j ∧ (pc[i]? = pa[j]? ∨ pc[i]? = pb[j]?)) → Completes (.scomb d a) s fun t => Returned w t d 4) ∧
        ((∀ i j, i < n → j < n → pc[i]? = pa[j]? ∨ pc[i]? = pb[j]? → i = j) →
          Completes (.scomb d a) s fun t => Returned { w with combs := w.combs ++
            [{ ctx := s.ctxId, die := s.who.die, n := s.who.n, tag := BitVec.ofNat 64 (bits b 319 256), fmt := bits b 227 224,
               op := bits b 229 228, va := va, vb := vb, vc := vc, a := pa, b := pb, c := pc, done := 0 }] } t d 0))) ∧
  (∀ (d a b c : Reg) s, s.portHandle (s.rx a).toNat = none →
    Completes (.bwait d a b c) s (fun t => Returned s t d 4) ∧ Completes (.bset d a b) s fun t => Returned s t d 4) ∧
  (∀ (d a b c : Reg) s pk m h, let n := (s.rx b).toNat / 4 % 8 + 1
    let have_ := ((List.range h.slots).filter fun k => h.state k == (s.rx b).toNat % 4).length
    let drained := (s.rx b).toNat % 4 = 0 ∧ h.dirn = true
    s.routine = none → s.portHandle (s.rx a).toNat = some (pk, m, h) →
    (h.slots < n → Completes (.bwait d a b c) s fun t => Returned s t d 4) ∧
    (n ≤ h.slots → n ≤ have_ ∨ s.phaseOf = 2 → ¬drained → Completes (.bwait d a b c) s fun t => Returned s t d 0) ∧
    (n ≤ h.slots → n ≤ have_ ∨ s.phaseOf = 2 → drained → s.enginesDone = false → Completes (.bwait d a b c) s fun t =>
      Waits s t (.bwait d a b c) ∧ t.phaseOf = 2) ∧
    (n ≤ h.slots → n ≤ have_ ∨ s.phaseOf = 2 → drained → s.enginesDone = true → Completes (.bwait d a b c) s fun t =>
      RegSet s t d 0 ∧ t.cur = { s.cur.commit with x := t.cur.x } ∧
      t = { s with ost := t.ost, caches := t.caches } ∧ (∀ k, k ≠ s.me → t.ostler k = s.ostler k) ∧
      ∀ n, n < 2 ^ 53 → Coherent s → byteAt t n = byteAt s n) ∧
    (n ≤ h.slots → have_ < n → s.phaseOf ≠ 2 → (s.rx c).toNat ≤ s.fcycle.toNat → Completes (.bwait d a b c) s fun t => Returned s t d 1) ∧
    (n ≤ h.slots → have_ < n → s.phaseOf ≠ 2 → s.fcycle.toNat < (s.rx c).toNat → Completes (.bwait d a b c) s fun t =>
      Waits s t (.bwait d a b c))) ∧
  ∀ (d a b : Reg) s pk m h, s.portHandle (s.rx a).toNat = some (pk, m, h) → Completes (.bset d a b) s fun t =>
    Returned (s.setPe pk m.pe ((s.pe pk m.pe).setHandle m.h { h with res := (s.rx b).getLsbD 0 })) t d 0

/-- R271, R362, R371-R374. The words of a stream program change their own program, as R372 and R373 say, and go on to the next word:
SPAT selects and clears, SGO SET writes a window, SXPOSE and SCMB their modes, SLOOP and SENDL run their passes; SDST and SPEER
set a destination; SEVT and SFENCE wait for the engine's deltas; SWAITH waits for its slots; SDONE ends the program with OK. -/
def Obligations.StreamProgram : Prop :=
  (∀ h s, Completes (.spat h) s fun t => t = s.setMyProg
    { s.myProg with pat := h.toNat, starts := [], counts := [], srec := 0, xpose := false, next := s.myProg.next + 8 }) ∧
  (∀ dim st c s, Completes (.sgoSet dim st c) s fun t => t = s.setMyProg { s.myProg with
    starts := mset 0 s.myProg.starts dim.toNat st.toNat, counts := mset 0 s.myProg.counts dim.toNat c.toNat,
    next := s.myProg.next + 8 }) ∧
  (∀ s, s.myProg.dest = .none → Completes .sgoGo s fun t => t = s.endProg s.myProgK 4) ∧
  (∀ dim st c s, s.myProg.dest = .none → Completes (.sgoSetgo dim st c) s fun t => t = (s.setMyProg { s.myProg with
    starts := mset 0 s.myProg.starts dim.toNat st.toNat, counts := mset 0 s.myProg.counts dim.toNat c.toNat }).endProg s.myProgK 4) ∧
  (∀ s, Completes .sgoGo s fun t => t = s.startXfer s.myProgK) ∧
  (∀ dim st c s, Completes (.sgoSetgo dim st c) s fun t => t = (s.setMyProg { s.myProg with
    starts := mset 0 s.myProg.starts dim.toNat st.toNat, counts := mset 0 s.myProg.counts dim.toNat c.toNat }).startXfer s.myProgK) ∧
  (∀ b s, Completes (.sxpose b) s fun t => t = s.setMyProg { s.myProg with xpose := b == 1, next := s.myProg.next + 8 }) ∧
  (∀ h s, Completes (.scmb h) s fun t => t = s.setMyProg { s.myProg with srec := h.toNat, next := s.myProg.next + 8 }) ∧
  (∀ (dim : BitVec 3) (stp : BitVec 27) (n : BitVec 28) s,
    (s.myProg.loops.length < 4 → Completes (.sloop dim stp n) s fun t => ∃ e : SLoop, e.dim = dim.toNat ∧ e.stp = stp ∧
      e.passes = n.toNat ∧ e.first = s.myProg.next + 8 ∧ e.saved = mget 0 s.myProg.starts dim.toNat ∧
      t = s.setMyProg { s.myProg with loops := e :: s.myProg.loops, next := s.myProg.next + 8 }) ∧
    (4 ≤ s.myProg.loops.length → Completes (.sloop dim stp n) s fun t => t = s.faultProg s.myProgK 0x0C s.myProg.next)) ∧
  (∀ s, s.myProg.loops = [] → Completes .sendl s fun t => t = s.faultProg s.myProgK 0x0C s.myProg.next) ∧
  (∀ s e l, s.myProg.loops = e :: l →
    (1 < e.passes → Completes .sendl s fun t => t = s.setMyProg
      { s.myProg with next := e.first, loops := { e with passes := e.passes - 1 } :: l,
                      starts := mset 0 s.myProg.starts e.dim (umod 32 (Int.ofNat (mget 0 s.myProg.starts e.dim) + e.stp.toInt)) }) ∧
    (e.passes ≤ 1 → Completes .sendl s fun t => t = s.setMyProg
      { s.myProg with next := s.myProg.next + 8, loops := l, starts := mset 0 s.myProg.starts e.dim e.saved })) ∧
  (∀ h s, Completes (.sdstMem h) s fun t => t = s.leaveDest.setMyProg
    { s.leaveDest.myProg with dest := .mem h.toNat 0, next := s.leaveDest.myProg.next + 8 }) ∧
  (∀ c i s, Completes (.speer c i) s fun t => t = s.leaveDest.setMyProg { s.leaveDest.myProg with
    dest := .chunk (c.toNat * 128) i.toNat, next := s.leaveDest.myProg.next + 8 }) ∧
  (∀ port pen die s, let pk := penKey die.toNat pen.toNat
    let u := s.leaveDest
    (u.progPen pk = false → Completes (.sdstPort port pen die) s fun t => t = u.endProg s.myProgK 4) ∧
    (u.progPen pk = true → u.queueOf pk port.toNat = [] → u.boundTo pk port.toNat = none → Completes (.sdstPort port pen die) s fun t =>
      t.boundTo pk port.toNat = some s.myProgK ∧ t.myProg =
        { u.myProg with dest := .port die.toNat pen.toNat port.toNat, vec := 0, next := u.myProg.next + 8 } ∧ t = { u with portBind := t.portBind, progs := t.progs }) ∧
    (u.progPen pk = true → u.queueOf pk port.toNat ≠ [] ∨ u.boundTo pk port.toNat ≠ none →
      Completes (.sdstPort port pen die) s fun t => t = u)) ∧
  (∀ port pen die st n s, let pk := penKey die.toNat pen.toNat
    (s.progPen pk = false ∨ s.portOf pk port.toNat = none → Completes (.swaith port pen die st n) s fun t => t = s.endProg s.myProgK 4) ∧
    ∀ m, s.progPen pk = true → s.portOf pk port.toNat = some m →
      let h := (s.pe pk m.pe).handle m.h
      let k := ((List.range h.slots).filter fun k => h.state k == st.toNat).length
      (n.toNat + 1 ≤ k → Completes (.swaith port pen die st n) s fun t =>
        t = s.setMyProg { s.myProg with next := s.myProg.next + 8 }) ∧
      (k < n.toNat + 1 → Completes (.swaith port pen die st n) s fun t => t = s)) ∧
  (∀ s, (s.deltasDone (progAgent s.myProgK) = true → Completes .sfence s fun t =>
      t = s.setMyProg { s.myProg with next := s.myProg.next + 8 }) ∧
    (s.deltasDone (progAgent s.myProgK) = false → Completes .sfence s fun t => t = s)) ∧
  (∀ tag s, (s.deltasDone (progAgent s.myProgK) = true → Completes (.sevt tag) s fun t => ∃ r,
      recFields 0x10 0 (progDie s.myProgK % 8) 1 (s.myProgK / 16 % 16) (s.myProgK % 16) (tag.setWidth 64)
        (BitVec.ofNat 64 s.myProg.bytes) s.myProg.peers r ∧ PostedTo s t (s.myProg.die * 32 + s.myProg.n) s.myProg.ctx r ∧
      t.myProg = { s.myProg with next := s.myProg.next + 8 }) ∧
    (s.deltasDone (progAgent s.myProgK) = false → Completes (.sevt tag) s fun t => t = s)) ∧
  ∀ s, Completes .sdone s fun t => t = s.endProg s.myProgK 0 ∧ t.myProg.done = some 0

/-- R151, R152, R163, R164, R204, R206, R241, R363, R364, R371, R375, R377. A dispatch gives the head command the lowest free slot of
its engine; an engine's turns go round its slots, each to the first that has a tile to move (R152); a tile moves one packet into
a port's slot, and none without a transfer, while its pen is stopped, or before the slot is free; an ended program or command posts
its record once its deltas are applied; contributions, acknowledgements and the deadline of a chunk act once.
The model's own choices it meets are in log 24, 49, 61, 77 and 89. -/
def Obligations.StreamSteps : Prop :=
  (∀ die pen port s, let pk := penKey die pen
    (s.queueOf pk port = [] ∨ (s.boundTo pk port).isSome = true → Completes (.commandDispatch die pen port) s fun t => t = s) ∧
    ∀ c l, s.queueOf pk port = c :: l → s.boundTo pk port = none →
      (s.freeSlot die c.eng = none → Completes (.commandDispatch die pen port) s fun t => t = s) ∧
      ∀ k, s.freeSlot die c.eng = some k →
      Completes (.commandDispatch die pen port) s fun t => t = (((s.setQueueOf pk port l).setBound pk port (some k)).setProg k
        { Prog.reset with busy := true, sq := true, ctx := c.ctx, die := c.die, n := c.n, tag := c.block.extractLsb' 128 64,
                          blockVa := c.va, pat := (c.block.extractLsb' 0 64).toNat, srec := (c.block.extractLsb' 64 64).toNat,
                          starts := blockStarts c.block, counts := blockCounts c.block, xpose := c.block.getLsbD 576,
                          dest := .port die pen port }).startXfer k) ∧
  (∀ die eng slot s, let k := progKey die eng slot
    (s.skips k = true ∨ (∃ j ∈ s.before die eng slot, s.skips j = false) → Completes (.streamTile die eng slot) s fun t => t = s) ∧
    (s.skips k = false → (∀ j ∈ s.before die eng slot, s.skips j = true) → Completes (.streamTile die eng slot) s fun t =>
      t = { s.tile k with rr := t.rr } ∧
      ∀ e, mget 0 t.rr e = if e = die * 16 + eng then (slot + 1) % 16 else mget 0 (s.tile k).rr e) ∧
    (s.skips k = true ↔ (s.prog k).busy = false ∨ s.tile k = s)) ∧
  (∀ k (s : State), let g := s.prog k
    (g.done ≠ none → s.tile k = s) ∧
    (g.done = none → g.xfer = none → s.tile k = if g.busy ∧ g.sq then s.startXfer k else s) ∧
    (∀ x l dd p port, g.done = none → g.xfer = some x → x.pend = none → x.addrs = .ok l → g.dest = .port dd p port →
      (s.pen (penKey dd p)).live = false → s.tile k = s) ∧
    ∀ x y, g.done = none → g.xfer = some x → x.pos < x.total → s.otCan (progDie k) g.ctx x.readers = true → x.pend = some y →
      let r := s.push (progAgent k) y.todo
      let u := fun (z : Option Tile) => r.2.2.setProg k { r.2.2.prog k with xfer := some { x with pend := z } }
      (r.1 ≠ 0 → s.tile k = (u none).faultProg k r.1 y.va) ∧
      (r.1 = 0 → r.2.1 ≠ [] → s.tile k = u (some { y with todo := r.2.1 })) ∧
      (r.1 = 0 → r.2.1 = [] → s.tile k = (u none).tileWritten k y.m y.n)) ∧
  (∀ k (s : State) x l dd p port m b res u sc v, let g := s.prog k
    let pk := penKey dd p
    let h := (s.pe pk m.pe).handle m.h
    g.done = none → g.xfer = some x → x.pos < x.total → s.otCan (progDie k) g.ctx x.readers = true → x.pend = none → x.addrs = .ok l →
    g.dest = .port dd p port → (s.pen pk).live = true → s.portOf pk port = some m → h.dirn = false →
    (g.vec = 0 → h.takable s.fcycle.toNat = true ∨ (x.pos = 0 ∧ h.state h.fill = 1)) → s.inbound k x = false →
    s.tileRead (progAgent k) g.ctx x.es l = .ok (b, res) u → u.tileScale k x = .ok (.ok (some sc)) v →
      let n := if h.vecs ≤ g.vec + 1 then 0 else g.vec + 1
      let y := v.setPe pk m.pe ((v.pe pk m.pe).deliver m.h g.vec (vecOf b)
        (mkHdr x.lay.fmt sc (x.number x.pos / 256) x.lay.bfly l.length (crc16 b).toNat (k % 16) (k / 16 % 16) port) false
        (res && (g.resv || g.vec == 0)))
      s.tile k = (y.setProg k { y.prog k with vec := n, resv := res && (g.resv || g.vec == 0), lastFmt := x.lay.fmt,
                                              lastBfly := x.lay.bfly }).tileDone k l.length b.length) ∧
  (∀ (p : PE) h vec body hdr bad res, let x := p.handle h
    let q := p.deliver h vec body hdr bad res
    (∀ n, q.pad n = if n = x.vecAt x.fill vec ∧ bad = false then body else p.pad n) ∧
    mget false q.bad (x.vecAt x.fill vec) = bad ∧
    (bad = false → mget 0 q.hdr (x.vecAt x.fill vec) = hdr ∧ q.full = p.full ||| fullMask (256 * x.vecAt x.fill vec) 256) ∧
    (bad = true → q.hdr = p.hdr ∧ q.full = p.full ∧ q.ecc = p.ecc) ∧
    ((q.handle h).fill = if vec + 1 < x.vecs then x.fill else (x.fill + 1) % x.slots) ∧ ∀ j, j ≠ h → q.handle j = p.handle j) ∧
  (∀ die eng slot s, let k := progKey die eng slot
    ((s.prog k).done = none → Completes (.streamCommandDone die eng slot) s fun t => t = s) ∧
    (∀ st, (s.prog k).done = some st → st < 256 →
      (s.deltasDone (progAgent k) = false → Completes (.streamCommandDone die eng slot) s fun t => t = s) ∧
      (s.deltasDone (progAgent k) = true → (s.prog k).xfer = none →
        Completes (.streamCommandDone die eng slot) s fun t => t.prog k = Prog.reset ∧ ∃ r,
          recFields 0x10 st (progDie k % 8) 1 (k / 16 % 16) (k % 16) (s.prog k).tag (BitVec.ofNat 64 (s.prog k).bytes) (s.prog k).peers r ∧
          PostedTo s t ((s.prog k).die * 32 + (s.prog k).n) (s.prog k).ctx r)) ∧
    ∀ c, (s.prog k).done = some (256 + c) → c < 256 → s.deltasDone (progAgent k) = true → (s.prog k).xfer = none →
      (s.prog k).recd = true → Completes (.streamCommandDone die eng slot) s fun t => t.prog k = Prog.reset ∧ ∃ r,
        recFields 0x11 c (progDie k % 8) 1 (k / 16 % 16) (k % 16) (s.prog k).tag (BitVec.ofNat 64 (s.faultRecAt k))
          (BitVec.ofNat 64 (if (s.prog k).sq then (s.prog k).blockVa else (s.prog k).next)) r ∧
        PostedTo s t ((s.prog k).die * 32 + (s.prog k).n) (s.prog k).ctx r) ∧
  (∀ pa (s : State),
    (∀ d, s.timers.find? (fun x => x.1 == pa) = some (pa, d) →
      (s.fcycle.toNat < d ∨ s.pageAway pa = true → Completes (.chunkDeadline pa) s fun t => t = s) ∧
      (d ≤ s.fcycle.toNat → s.pageAway pa = false → Completes (.chunkDeadline pa) s fun t => t = s.publish pa 6)) ∧
    (s.timers.find? (fun x => x.1 == pa) = none → Completes (.chunkDeadline pa) s fun t => t = s.pubStep pa)) ∧
  (∀ (s : State) ag pa n v, Sound s → Coherent s → s.dsets = [] → isHbm pa = true → pa % 128 + n ≤ 128 → 0 < n →
    s.page (pa / 65536) = .home → BytesSet s (s.physWrite ag pa n v) pa n v ∧ Coherent (s.physWrite ag pa n v)) ∧
  (∀ pa ci fmt b s, (isHbm pa = true → pa % 128 = 0 → ci < 64 → Completes (.chunkArrival pa ci fmt b) s fun t =>
      t = ({ s with arrs := s.arrs ++ [{ pa := pa, ci := ci, fmt := fmt, data := b, slot := none, todo := none, st := none }] } : State).arrStep
        pa) ∧
    (isHbm pa = false ∨ pa % 128 ≠ 0 ∨ 64 ≤ ci → Completes (.chunkArrival pa ci fmt b) s fun t => t = s)) ∧
  (∀ (s : State) pa a, s.arrs.find? (fun x => x.pa == pa) = some a → let ag := agentSlice (homeOf pa / 64)
    (∀ st, a.st = some st → (s.deltasDone ag = false → s.arrStep pa = s) ∧
      (s.deltasDone ag = true → s.arrStep pa = ({ s with arrs := s.arrs.erase a } : State).ackSlot a st)) ∧
    (a.st = none → s.pageAway pa = true ∨ s.deltaFull (pa / 128) = true → s.arrStep pa = s) ∧
    (a.st = none → s.pageAway pa = false → s.deltaFull (pa / 128) = false →
      (∀ ps, a.todo = some ps → s.arrStep pa = s.arrPush a ps) ∧
      ∀ r u, a.todo = none → s.physRead pa 128 = (.ok r, u) →
        let n := r / 2 ^ 128 % 2 ^ 32 * elemSize a.fmt
        let late := r.testBit 456 ∨ r.testBit (192 + a.ci) = false ∨ (∃ p ∈ u.pubs, p.pa = pa)
        (late → s.arrStep pa = (u.physWrite ag (pa + 40) 8 (insBits (bits r 383 320) a.ci 1 1)).arrAck a a 6) ∧
        (¬late → a.data.length ≠ n ∨ a.fmt ≠ r / 2 ^ 160 % 16 → s.arrStep pa = u.arrAck a a 4) ∧
        (¬late → a.data.length = n → a.fmt = r / 2 ^ 160 % 16 →
          ∀ ps v, u.piecesAt ag (u.chunkCtx r) (r / 2 ^ 64 % 2 ^ 64 + a.ci * n) a.data = .ok ps v → s.arrStep pa = v.arrPush a ps))) ∧
  (∀ (s : State) a b st, let ag := agentSlice (homeOf a.pa / 64)
    (s.deltasDone ag = false → s.arrAck a b st = { s with arrs := s.arrs.replace a { b with st := some st } }) ∧
    (s.deltasDone ag = true → s.arrAck a b st = ({ s with arrs := s.arrs.erase a } : State).ackSlot b st) ∧
    (a.slot = none → s.ackSlot a st = s) ∧ ∀ k x, a.slot = some k → (s.prog k).xfer = some x →
      s.ackSlot a st = s.setProg k { s.prog k with xfer := some { x with acked := some st } }) ∧
  (∀ (s : State) a ps, let r := s.push (agentSlice (homeOf a.pa / 64)) ps
    let b := { a with todo := some r.2.1 }
    (r.1 ≠ 0 → s.arrPush a ps = r.2.2.arrAck a b 4) ∧
    (r.1 = 0 → r.2.1 ≠ [] ∨ r.2.2.deltaFull (a.pa / 128) = true → s.arrPush a ps = { r.2.2 with arrs := r.2.2.arrs.replace a b }) ∧
    (r.1 = 0 → r.2.1 = [] → r.2.2.deltaFull (a.pa / 128) = false → s.arrPush a ps = r.2.2.arrGot a b)) ∧
  (∀ (s : State) a b r u, s.physRead a.pa 128 = (.ok r, u) → u.arrLate a r = false →
    let got := insBits (bits r 319 256) a.ci 1 1
    let v := u.physWrite (agentSlice (homeOf a.pa / 64)) (a.pa + 32) 8 got
    let w := if bits r 319 256 = 0 ∧ (v.dirOf (a.pa / 128)).dead = false then { v with timers := v.timers ++ [(a.pa, bits r 447 384)] } else v
    s.arrGot a b = (if got = bits r 255 192 ∧ (∃ x ∈ w.timers, x.1 = a.pa) then w.publish a.pa 0 else w).arrAck a b 0) ∧
  (∀ x i, x < 2 ^ 64 → i < 64 → insBits x i 1 1 < 2 ^ 64 ∧ ∀ j, (insBits x i 1 1).testBit j = (x.testBit j || decide (j = i))) ∧
  (∀ (s : State) pa st r u, s.physRead pa 128 = (.ok r, u) → s.publish pa st = ({ u with
    timers := u.timers.filter (fun x => x.1 != pa),
    pubs := u.pubs ++ [
      { pa := pa, st := st, die := bits r 450 448, n := bits r 455 451, ctx := u.chunkCtx r, tag := BitVec.ofNat 64 (bits r 575 512),
        got := BitVec.ofNat 64 (bits r 319 256), len := r / 2 ^ 128 % 2 ^ 32 * elemSize (r / 2 ^ 160 % 16), todo := none, failed := none,
        marked := false }] } : State).pubStep pa) ∧
  (∀ (s : State) pa p, s.pubs.find? (fun x => x.pa == pa) = some p → let ag := agentSlice (homeOf pa / 64)
    (p.failed ≠ none ∨ p.marked = true → s.pubStep pa = s.pubReport p) ∧
    (p.failed = none → p.marked = false → s.pageAway pa = true → s.pubStep pa = s) ∧
    (p.failed = none → p.marked = false → s.pageAway pa = false →
      (∀ r u l v, p.todo = none → s.physRead pa 128 = (.ok r, u) → u.staged p.ctx r ag = .ok l v →
        s.pubPieces p = v.piecesAt ag p.ctx (r % 2 ^ 64) (chunkResult r l)) ∧
      (∀ ps, p.todo = some ps → s.pubPieces p = .ok ps s) ∧
      (∀ c a u, s.pubPieces p = .fault c a u → s.pubStep pa = u.pubReport { p with failed := some (c, a) }) ∧
      ∀ ps u, s.pubPieces p = .ok ps u → let r := u.push ag ps
        let q := { p with todo := some r.2.1 }
        (r.1 ≠ 0 → s.pubStep pa = r.2.2.pubReport { q with failed := some (r.1, pa) }) ∧
        (r.1 = 0 → r.2.1 = [] → s.pubStep pa = r.2.2.pubMark q) ∧ (r.1 = 0 → r.2.1 ≠ [] → s.pubStep pa = r.2.2.pubKeep q))) ∧
  (∀ r (l : List (List Byte)) i, let es := elemSize (r / 2 ^ 160 % 16)
    let fmt := r / 2 ^ 160 % 16
    (r.testBit 164 = false → chunkResult r l = l.headD []) ∧
    (r.testBit 164 = true → i < r / 2 ^ 128 % 2 ^ 32 → 0 < es →
      let x := fun (p : List Byte) => ofBytes ((p.drop (i * es)).take es)
      let v := ofBytes (((chunkResult r l).drop (i * es)).take es)
      (fmt = 10 → v = (l.map x).sum % 2 ^ 32) ∧
      (fmt ≠ 10 → ∃ y : Nat → W32, y 0 = 0 ∧ (∀ k, k < l.length →
          y (k + 1) = BitVec.ofNat 32 (rne 0 (Val.add (decodeElem 0 (y k).toNat) (decodeElem fmt (x (l.getD k [])))))) ∧
        v = if fmt = 0 then (y l.length).toNat else rne fmt (decodeElem 0 (y l.length).toNat) % 256 ^ es))) ∧
  (∀ (s : State) p b u, let ag := agentSlice (homeOf p.pa / 64)
    (s.deltaFull (p.pa / 128) = true → s.pubMark p = s.pubKeep p) ∧
    (s.deltaFull (p.pa / 128) = false → s.physRead (p.pa + 57) 1 = (.ok b, u) →
      s.pubMark p = (u.physWrite ag (p.pa + 57) 1 (insBits b 0 2 (if p.st = 6 then 3 else 1))).pubReport { p with marked := true }) ∧
    (s.deltasDone ag = false → s.pubReport p = s.pubKeep p) ∧
    (s.deltasDone ag = true → ∃ e, recFields (if p.failed = none then 0x10 else 0x11)
        ((p.failed.map Prod.fst).getD p.st % 256) (homeOf p.pa / 64 % 8) 2 (homeOf p.pa % 64) 0 p.tag
        (if p.failed = none then BitVec.ofNat 64 p.len else 0) ((p.failed.map fun x => BitVec.ofNat 64 x.2).getD p.got) e ∧
      s.pubReport p = ({ s with pubs := s.pubs.filter fun x => x.pa != p.pa } : State).postOst p.die p.n p.ctx e)) ∧
  (∀ die eng slot st s x va ci e, let k := progKey die eng slot
    let g := s.prog k
    g.xfer = some x → g.dest = .chunk va ci → g.done = none → x.total ≤ x.pos → s.otCan (progDie k) g.ctx x.readers = true →
    s.walkAway (progAgent k) g.ctx va = false → s.lookup (progAgent k) g.ctx va = .ok e → s.linkDown (e.addr va) = false →
    (x.acked.getD st = 0 → Completes (.chunkAck die eng slot st) s fun t =>
      t = (s.setProg k { g with peers := g.peers ||| BitVec.ofNat 64 (2 ^ ci) }).xferOver k x.readers) ∧
    (x.acked.getD st ≠ 0 → Completes (.chunkAck die eng slot st) s fun t => t = s.endProg k (x.acked.getD st))) ∧
  (∀ cmd s x, s.combs[cmd]? = some x →
    (x.left = 0 → Completes (.combinePacket cmd) s fun t => t = s) ∧
    (x.left ≠ 0 ∨ s.deltasDone (agentComb x.die) = false → Completes (.combineDone cmd) s fun t => t = s) ∧
    (x.left = 0 → s.deltasDone (agentComb x.die) = true → Completes (.combineDone cmd) s fun t =>
      t.combs = s.combs.eraseIdx cmd ∧ ∃ r, recFields 0x10 0 (homeOf (x.c.headD 0) / 64 % 8) 2 0 0 x.tag
        (BitVec.ofNat 64 (256 * x.done)) 0 r ∧ PostedTo s t (x.die * 32 + x.n) x.ctx r) ∧
    (x.left ≠ 0 → let pa := x.a.getD x.done 0
      let pb := x.b.getD x.done 0
      let pc := x.c.getD x.done 0
      (s.packetBad pa ≠ 0 → s.deltasDone (agentComb x.die) = true → Completes (.combinePacket cmd) s fun t =>
        t.combs = s.combs.eraseIdx cmd ∧ t.mem = s.mem ∧ ∃ r, recFields 0x11 (s.packetBad pa) (homeOf pc / 64 % 8) 2 0 0 x.tag 0
          (BitVec.ofNat 64 (x.va + 256 * x.done)) r ∧ PostedTo s t (x.die * 32 + x.n) x.ctx r) ∧
      (s.packetBad pa = 0 → s.packetBad pb = 0 → s.pageAway pa = false → s.pageAway pb = false → s.pageAway pc = false →
      s.dsets = [] → s.poison = [] → s.memWf = true → Completes (.combinePacket cmd) s fun t => t.combs = s.combs.set cmd { x with done := x.done + 1 } ∧
        (∀ h, h < 2 → pc % 256 = 0 → isHbm pc = true → t.dramLine (pc / 128 + h) =
          combLine x.fmt x.op (s.dramLine (pa / 128 + h)) (s.dramLine (pb / 128 + h))) ∧
        ∀ n, n / 256 ≠ pc / 256 → pc % 256 = 0 → Memory.byte t.mem n = Memory.byte s.mem n))) ∧
  ∀ fmt op (a b : Line) i, fmt < 2 → i < 1024 / (8 * elemSize fmt) → let w := 8 * elemSize fmt
    (combLine fmt op a b).toNat / 2 ^ (w * i) % 2 ^ w =
      combElem fmt op (a.toNat / 2 ^ (w * i) % 2 ^ w) (b.toNat / 2 ^ (w * i) % 2 ^ w)

/-! ### Derived regions, drives and offload entries -/

/-- R111-R113, R127-R132, R389, R390. DDECL declares a checked region, all of whose groups are then PENDING and to be rescanned, or
changes nothing; DDROP frees its slot and discards its batches; DREB makes every group of a set PENDING; DRD writes the record
of R127 now, DRDS and DSNAP theirs, and DSYNC and QSCALE return, once every base home has answered; a foreign set, a misaligned
buffer or an empty slot gives BADARG, a group number out of range RANGE, and a buffer that cannot be written traps.
The model's own choices it meets are in log 38, 65, 66, 87 and 97. -/
def Obligations.DerivedWords : Prop :=
  (∀ (d a b : Reg) s,
    (∀ c x u, s.readBlock (s.rx b).toNat 64 64 = .trap c x u → Completes (.ddecl d a b) s fun t => Returned u t d 4) ∧
    ∀ u, s.readBlock (s.rx b).toNat 64 64 = .wait u → Completes (.ddecl d a b) s fun t => Waits u t (.ddecl d a b)) ∧
  (∀ (d a b : Reg) s x u y v e z, let blk := BitVec.ofNat 512 x
    let lay : Lay := BitVec.ofNat 1536 y
    let n := if (blk.extractLsb' 128 3).toNat = 5 then declBins blk - 1 else 0
    let decl (q : State) (m : Option Nat) := q.declare (s.rx a).toNat blk lay m ((List.range n).map fun k => BitVec.ofNat 32 (e >>> (32 * k)))
    s.readBlock (s.rx b).toNat 64 64 = .ok x u → u.readBlock (declLayout blk) 192 64 = .ok y v →
    (n = 0 → e = 0 ∧ z = v) → (n ≠ 0 → v.readBlock (declEdges blk) (4 * n) 4 = .ok e z) →
    ((lay.ok = false ∨ lay.ext = false) → (lay.ok = true → z.declAway blk lay 0 = false) → Completes (.ddecl d a b) s fun t => Returned (decl z (some 0)).2 t d (decl z (some 0)).1) ∧
    (lay.ok = true → lay.ext = false → baseFmt lay.fmt = true → z.declAway blk lay 0 = true → Completes (.ddecl d a b) s fun t =>
      Waits z t (.ddecl d a b)) ∧
    (lay.ok = true → lay.ext = true →
      (∀ m w, z.readBlock lay.extmap 272 16 = .ok m w → w.declAway blk lay m = false → Completes (.ddecl d a b) s fun t =>
        Returned (decl w (some m)).2 t d (decl w (some m)).1) ∧
      ∀ c q w, z.readBlock lay.extmap 272 16 = .trap c q w → Completes (.ddecl d a b) s fun t =>
        Returned (decl w none).2 t d (decl w none).1)) ∧
  (∀ (s : State) v b lay em ed, let r := s.declare v b lay em ed
    let set := selSet v
    MemoryOnly s r.2 ∧ r.2.ost = s.ost ∧ r.2.logs = s.logs ∧ r.2.combs = s.combs ∧
    (r.1 ≠ 0 → r.2.dsets = s.dsets ∧ r.2.rescans = s.rescans) ∧
    (r.1 = 0 → (r.2.dset set).ctx = some s.ctxId ∧
      (∀ k, k ≠ set → r.2.dset k = s.dset k) ∧ (∀ k, k ≠ selReg v → (r.2.dset set).region k = (s.dset set).region k) ∧
      ∃ x, (r.2.dset set).region (selReg v) = some x ∧ x.decl = b ∧ x.lay = lay ∧ x.edges = ed ∧ x.building = true ∧
        x.die = s.who.die ∧ x.n = s.who.n ∧ ∀ g, g < x.count → (x.group g).pend = true ∧ (set, selReg v, g) ∈ r.2.rescans)) ∧
  (∀ (d a b : Reg) s, let v := (s.rx a).toNat
    (s.ownSet (selSet v) = false → Completes (.dreb d a) s (fun t => Returned s t d 4) ∧
      (s.phaseOf ≠ 4 → Completes (.dsnap d a b) s fun t => Returned s t d 4)) ∧
    (s.ownSet (selSet v) = false ∨ (s.dset (selSet v)).region (selReg v) = none →
      Completes (.ddrop d a) s (fun t => Returned s t d 4) ∧ Completes (.dsync d a) s (fun t => Returned s t d 4) ∧
      Completes (.qscale d a b) s (fun t => Returned s t d 4) ∧
      (s.phaseOf ≠ 4 → Completes (.drd d a b) s (fun t => Returned s t d 4) ∧ Completes (.drds d a b) s fun t => Returned s t d 4)) ∧
    ((s.rx b).toNat % 32 ≠ 0 → s.phaseOf ≠ 4 → Completes (.drd d a b) s (fun t => Returned s t d 4) ∧
      Completes (.drds d a b) s (fun t => Returned s t d 4) ∧ Completes (.dsnap d a b) s (fun t => Returned s t d 4)) ∧
    ((∀ k, k < 8 → v.testBit (24 + k) = false) ∨ (∃ k, k < 8 ∧ v.testBit (24 + k) = true ∧ (s.dset (selSet v)).region k = none) → s.phaseOf ≠ 4 →
      Completes (.dsnap d a b) s fun t => Returned s t d 4) ∧
    (∀ w x, s.cur.wait = some w → (2 ^ 20 + selReg v, x) ∈ w.marks → w.marks.find? (fun m => m.1 == 2 ^ 20 + selReg v) = some (2 ^ 20 + selReg v, x) →
      (∀ r, (s.dset (selSet v)).region (selReg v) = some r → r.born ≠ x) → w.phase ≠ 4 →
      Completes (.drd d a b) s (fun t => Returned s t d 4) ∧ Completes (.drds d a b) s (fun t => Returned s t d 4) ∧
      Completes (.dsync d a) s fun t => Returned s t d 4)) ∧
  (∀ (d a : Reg) s r, let v := (s.rx a).toNat
    s.ownSet (selSet v) = true → (s.dset (selSet v)).region (selReg v) = some r → Completes (.ddrop d a) s fun t => RegSet s t d 0 ∧
      (t.dset (selSet v)).region (selReg v) = none ∧ (∀ k, k ≠ selSet v → t.dset k = s.dset k) ∧ t.mem = s.mem ∧
      t.l2 = s.l2 ∧ t.caches = s.caches ∧ t.pes = s.pes ∧
      ∀ b ∈ (t.dset (selSet v)).queue, b.rebuild = none → ∀ e ∈ b.entries, e.slot ≠ selReg v) ∧
  (∀ (d a : Reg) s, let set := selSet (s.rx a).toNat
    s.ownSet set = true →
    ((s.dset set).rebuild ≠ none → Completes (.dreb d a) s fun t => Returned s t d 1) ∧
    ((s.dset set).rebuild = none →
      ((∃ e ∈ (s.dset set).list, ∃ va ∈ e.2.vas, s.walkAway s.agent s.ctxId va = true) → Completes (.dreb d a) s fun t => Waits s t (.dreb d a)) ∧
      ((∀ e ∈ (s.dset set).list, ∀ va ∈ e.2.vas, s.walkAway s.agent s.ctxId va = false) →
      let u := s.walkVas ((s.dset set).list.flatMap fun e => e.2.vas)
      ((s.dset set).list.mapM (fun e => (s.basePas e.2.vas).map fun p => (e.1, p)) = none → Completes (.dreb d a) s fun t =>
        Returned u t d 4) ∧
      ∀ l, (s.dset set).list.mapM (fun e => (s.basePas e.2.vas).map fun p => (e.1, p)) = some l →
        ((∃ e ∈ l, s.coverOk set e.2 = false) → Completes (.dreb d a) s fun t => Returned u t d 3) ∧
        ((∀ e ∈ l, s.coverOk set e.2 = true) →
          ((∃ e ∈ (s.dset set).list, e.2.elems.any s.pageAway = true) → Completes (.dreb d a) s fun t => Waits s t (.dreb d a)) ∧
          ((∀ e ∈ (s.dset set).list, e.2.elems.any s.pageAway = false) → Completes (.dreb d a) s fun t =>
            (t.dset set).rebuild = some (s.who.die, s.who.n) ∧ (t.dset set).unpred = false ∧ RegSet s t d 0 ∧
            ∀ k r, (t.dset set).region k = some r → ∀ g, g < r.count → (r.group g).pend = true))))) ∧
  (∀ (s : State) set k g r, let n := ofBytes (s.readRecords set g [k]).1
    let x := r.group g
    let p := r.read x
    (s.dset set).region k = some r → r.kind ≠ 5 → (s.dset set).unpred = false → x.unpred = false → k < 8 → g < 2 ^ 32 →
    bits n 2 0 = r.kind ∧ bits n 4 3 = r.grp ∧ bits n 7 5 = k ∧ n.testBit 8 = x.pend ∧ n.testBit 9 = decide (0 < p.nan) ∧
      n.testBit 12 = x.pois ∧ bits n 31 13 = 0 ∧ bits n 63 32 = g ∧ bits n 127 64 = (s.dset set).step.toNat ∧
      bits n 159 128 = p.val.toNat ∧ bits n 191 160 = p.aux.toNat ∧ bits n 223 192 = p.nan % 2 ^ 32 ∧ bits n 255 224 = 0) ∧
  (∀ (d a b : Reg) s r, let v := (s.rx a).toNat
    let n := (s.dset (selSet v)).recBytes [selReg v]
    (s.rx b).toNat % 32 = 0 → s.ownSet (selSet v) = true → (s.dset (selSet v)).region (selReg v) = some r → s.phaseOf ≠ 4 →
    s.sameRegions (selSet v) [selReg v] = true →
    (r.count ≤ selGroup v → Completes (.drd d a b) s (fun t => Returned s t d 7) ∧
      Completes (.drds d a b) s (fun t => Returned s t d 7)) ∧
    (selGroup v < r.count → s.tablesAway s.agent s.ctxId (s.rx b).toNat n = true → s.phaseOf ≠ 2 →
      Completes (.drd d a b) s (fun t => Waits s t (.drd d a b)) ∧ Completes (.drds d a b) s (fun t => Waits s t (.drds d a b))) ∧
    ∀ c x, selGroup v < r.count → s.tablesAway s.agent s.ctxId (s.rx b).toNat n = false →
      s.piecesOf s.agent s.ctxId true (s.rx b).toNat n = .error (c, x) → s.cur.tm = false →
      let u := s.walkRange s.agent s.ctxId (s.rx b).toNat n
      let tv := BitVec.ofNat 64 (if c = 0x08 then x - x % 256 else x)
      Completes (.drd d a b) s (fun t => Trapped u t c tv) ∧ Completes (.drds d a b) s (fun t => Trapped u t c tv)) ∧
  (∀ (d a b : Reg) s ps r, let v := (s.rx a).toNat
    let n := (s.dset (selSet v)).recBytes [selReg v]
    let w := s.readRecords (selSet v) (selGroup v) [selReg v]
    let st := if (r.group (selGroup v)).pend then 10 else 0
    (s.rx b).toNat % 32 = 0 → s.ownSet (selSet v) = true → (s.dset (selSet v)).region (selReg v) = some r → selGroup v < r.count →
    s.phaseOf ≠ 4 → s.sameRegions (selSet v) [selReg v] = true → s.tablesAway s.agent s.ctxId (s.rx b).toNat n = false →
    s.piecesOf s.agent s.ctxId true (s.rx b).toNat n = .ok ps →
    (s.phaseOf ≠ 2 → s.deltasDone s.agent = false →
      Completes (.drd d a b) s (fun t => Waits s t (.drd d a b)) ∧ Completes (.drds d a b) s (fun t => Waits s t (.drds d a b))) ∧
    (∀ u, s.deltasDone s.agent = true → w.2.writeBlock (s.rx b).toNat w.1 = .ok () u →
      Completes (.drd d a b) s fun t => Returned u t d st) ∧
    (∀ c x u, s.deltasDone s.agent = true → w.2.writeBlock (s.rx b).toNat w.1 = .fault c x u → u.cur.tm = false →
      Completes (.drd d a b) s fun t => Trapped u t c (BitVec.ofNat 64 x)) ∧
    (∀ p, s.deltasDone s.agent = true → w.2.writeBlock (s.rx b).toNat w.1 = .wait → w.2.blockPieces (s.rx b).toNat w.1 = some p →
      Completes (.drd d a b) s fun t => t = w.2.readOn (.drd d a b) d (s.rx b).toNat p st) ∧
    (s.phaseOf ≠ 2 → s.deltasDone s.agent = true → Completes (.drds d a b) s fun t =>
      OnlyCur s t ∧ t.cur = { s.cur with
        wait := some { instr := .drds d a b, phase := 2, marks := [(2 ^ 20 + selReg v, r.born)], todo := [] } }) ∧
    ∀ w0, s.cur.wait = some w0 → w0.phase = 2 →
      (s.synced (selSet v) w0.marks = false ∨ (r.group (selGroup v)).pend = true → Completes (.drds d a b) s fun t => t = s) ∧
      ∀ u, s.synced (selSet v) w0.marks = true → (r.group (selGroup v)).pend = false →
        w.2.writeBlock (s.rx b).toNat w.1 = .ok () u → Completes (.drds d a b) s fun t => Returned u t d 0) ∧
  (∀ (s : State) i d va ps st, let r := s.push s.agent ps
    let t := s.readOn i d va ps st
    (r.1 = 0 → r.2.1 ≠ [] → ∃ w, t.cur.wait = some w ∧ w.instr = i ∧ w.phase = 4 ∧ w.todo = r.2.1 ∧ w.marks = [(st, 0)]) ∧
    (ps = [] → s.routine = none → Returned s t d st)) ∧
  (∀ (d a b : Reg) s ps, let v := (s.rx a).toNat
    let ks := (List.range 8).filter fun k => v.testBit (24 + k)
    let n := (s.dset (selSet v)).recBytes ks
    let w := s.readRecords (selSet v) (selGroup v) ks
    (s.rx b).toNat % 32 = 0 → s.ownSet (selSet v) = true → ks ≠ [] →
    (∀ k ∈ ks, ∃ r, (s.dset (selSet v)).region k = some r ∧ selGroup v < r.count ∧ (r.group (selGroup v)).pend = false) →
    s.phaseOf ≠ 4 → s.sameRegions (selSet v) ks = true → s.tablesAway s.agent s.ctxId (s.rx b).toNat n = false →
    s.piecesOf s.agent s.ctxId true (s.rx b).toNat n = .ok ps →
    (s.phaseOf ≠ 2 → s.deltasDone s.agent = true → Completes (.dsnap d a b) s fun t =>
      OnlyCur s t ∧ t.cur = { s.cur with
        wait := some { instr := .dsnap d a b, phase := 2, marks := s.bornMarks (selSet v) ks, todo := [] } }) ∧
    ∀ w0 u, s.cur.wait = some w0 → w0.phase = 2 → s.synced (selSet v) w0.marks = true →
      w.2.writeBlock (s.rx b).toNat w.1 = .ok () u → Completes (.dsnap d a b) s fun t => Returned u t d 0) ∧
  (∀ (d a : Reg) s r, let v := (s.rx a).toNat
    s.ownSet (selSet v) = true → (s.dset (selSet v)).region (selReg v) = some r → s.sameRegions (selSet v) [selReg v] = true →
    (s.phaseOf ≠ 2 → s.deltasDone s.agent = false → Completes (.dsync d a) s fun t => Waits s t (.dsync d a)) ∧
    (s.phaseOf ≠ 2 → s.deltasDone s.agent = true → Completes (.dsync d a) s fun t =>
      OnlyCur s t ∧ t.cur = { s.cur with
        wait := some { instr := .dsync d a, phase := 2, marks := [(2 ^ 20 + selReg v, r.born)], todo := [] } }) ∧
    ∀ w0, s.cur.wait = some w0 → w0.phase = 2 →
      (s.synced (selSet v) w0.marks = false → Completes (.dsync d a) s fun t => t = s) ∧
      (s.synced (selSet v) w0.marks = true → Completes (.dsync d a) s fun t => Returned s t d 0)) ∧
  (∀ (d a b : Reg) s r, let v := (s.rx a).toNat
    let c := (s.rx b).toNat
    s.ownSet (selSet v) = true → (s.dset (selSet v)).region (selReg v) = some r →
    ((r.kind ≠ 4 ∧ r.kind ≠ 6) ∨ (c % 16 ≠ 3 ∧ c % 16 ≠ 5 ∧ c % 16 ≠ 6) → Completes (.qscale d a b) s fun t => Returned s t d 4) ∧
    (r.kind = 4 ∨ r.kind = 6 → c % 16 = 3 ∨ c % 16 = 5 ∨ c % 16 = 6 → r.count ≤ selGroup v → s.routine = none →
      s.sameRegions (selSet v) [selReg v] = true →
      Completes (.qscale d a b) s fun t => WroteFrom s t (if c.testBit 9 then { s.cur with satcnt := 0 } else s.cur) d 7)) ∧
  ∀ (d a b : Reg) s r w0, let v := (s.rx a).toNat
    let c := (s.rx b).toNat
    let m := if r.kind = 4 then toDVal (fp (r.pub (r.group (selGroup v))).val) else (r.group (selGroup v)).extreme
    s.ownSet (selSet v) = true → (s.dset (selSet v)).region (selReg v) = some r → r.kind = 4 ∨ r.kind = 6 →
    c % 16 = 3 ∨ c % 16 = 5 ∨ c % 16 = 6 → selGroup v < r.count → s.cur.wait = some w0 → w0.phase = 2 →
    s.sameRegions (selSet v) [selReg v] = true →
    s.synced (selSet v) w0.marks = true → (r.group (selGroup v)).pend = false → (r.group (selGroup v)).pois = false →
    (r.group (selGroup v)).unpred = false → (s.dset (selSet v)).unpred = false → s.routine = none →
    Completes (.qscale d a b) s fun t => WroteFrom s t
      (if c.testBit 9 then { s.cur with satcnt := 0 } else s.cur) d (BitVec.ofNat 64 (match m with
        | .nan => 0xFF * 256 + 7
        | x => (max 0 (min (bscale (c % 16) x + (c / 16 % 16 : Nat) + if c.testBit 8 ∧ s.cur.satcnt ≠ 0 then 1 else 0) 254)).toNat * 256))

/-- R115, R118, R120-R122, R126, R128. The oldest batch of a set is one step of it; a rescan that runs rebuilds its group from memory
as it stands, and counts a step; a rebuild request makes the groups of its line PENDING; a finished build, or rebuild of the whole
set, is reported once; a base home answers each waiting reader once. A withdrawn value undoes its addition, and a SUM group's
value is the exact sum, rounded once. The model's own choices it meets are in log 24, 64, 65, 85, 86 and 96. -/
def Obligations.DerivedSteps : Prop :=
  (∀ set s b l, (s.dset set).queue = b :: l →
    (b.rebuild = none → Completes (.deltaBatch set) s fun t => t = s.putSet set { (s.dset set).apply b with queue := l } ∧
      (t.dset set).step = (s.dset set).step + 1 ∧ (t.dset set).queue = l ∧ ∀ k, k ≠ set → t.dset k = s.dset k) ∧
    ∀ n, b.rebuild = some n → Completes (.deltaBatch set) s (fun t => t = s) ∧ Completes (.rebuildRequest set n) s fun t =>
      (t.dset set).queue = l ∧ (t.dset set).step = (s.dset set).step ∧ t = { s with dsets := t.dsets, rescans := t.rescans } ∧
      (∀ k, k ≠ set → t.dset k = s.dset k) ∧ ∀ k r, (s.dset set).region k = some r → ∀ g ∈ r.lineGroups n,
        ∃ y, (t.dset set).region k = some y ∧ (y.group g).pend = true) ∧
  (∀ set s, (s.dset set).queue = [] → Completes (.deltaBatch set) s fun t => t = s) ∧
  (∀ set slot g s r, (s.dset set).region slot = some r →
    ((set, slot, g) ∉ s.running (setHome set) ∨ (r.groupElems g).any s.pageAway = true →
      Completes (.rescanDone set slot g) s fun t => t = s) ∧
    ((set, slot, g) ∈ s.running (setHome set) → (r.groupElems g).any s.pageAway = false → Completes (.rescanDone set slot g) s fun t =>
      t = s.rescan set slot g ∧ (t.dset set).step = (s.dset set).step + 1)) ∧
  (∀ (s : State) h, (s.running h).length ≤ 4 ∧ ∀ x ∈ s.running h, x ∈ s.rescans ∧ setHome x.1 = h) ∧
  (∀ set slot s r, (s.dset set).region slot = some r → r.building = true → r.pending = false →
    Completes (.derivedReady set slot) s fun t => (∃ y, (t.dset set).region slot = some y ∧ y = { r with building := false }) ∧
      ∃ e, recFields 0x20 0 (set / 4096 % 8) 2 (set % 64) 0 0 (selector set slot) (s.dset set).step e ∧
        PostedTo s t (r.die * 32 + r.n) ((s.dset set).ctx.getD 0) e) ∧
  (∀ set slot s r, (s.dset set).region slot = some r → r.building = false ∨ r.pending = true →
    ((s.dset set).rebuild = none ∨ (s.dset set).list.any (fun e => e.2.pending) = true →
      Completes (.derivedReady set slot) s fun t => t = s) ∧
    ∀ die n, (s.dset set).rebuild = some (die, n) → (s.dset set).list.any (fun e => e.2.pending) = false →
      Completes (.derivedReady set slot) s fun t => (t.dset set).rebuild = none ∧
        ∃ e, recFields 0x20 0 (set / 4096 % 8) 2 (set % 64) 0 0 (selector set 0) (s.dset set).step e ∧
          PostedTo s t (die * 32 + n) ((s.dset set).ctx.getD 0) e) ∧
  (∀ set home s, Completes (.dsyncMarker set home) s fun t => t = { s with ost := t.ost } ∧
    ∀ k w d a b, (s.ostler k).wait = some w →
      (w.instr = .dsync d a ∨ w.instr = .drds d a b ∨ w.instr = .dsnap d a b ∨ w.instr = .qscale d a b) → w.phase = 2 →
      selSet (if a = 0 then 0 else mget 0 (s.ostler k).x a.toNat).toNat = set → (∀ m ∈ w.marks, m.1 ≠ home) →
      t.ostler k = { s.ostler k with
        wait := some { w with marks := w.marks ++ [(home, (mget 0 s.dseq (set * 512 + home)).toNat)] } }) ∧
  (∀ (r : Region) (g : Group) n m, r.kind = 0 → r.withdraw (r.add g (.fin n m)) (.fin n m) = (g, false)) ∧
  (∀ (r : Region) (g : Group) (l : List (Bool × Nat)) q, r.kind = 0 → g.queued = [] →
    let x := r.rebuilt g (l.map fun e => .fin e.1 e.2) q false
    x.pend = false ∧ x.acc = (l.map fun e => if e.1 then -(e.2 : Int) else e.2).sum ∧ x.nan = 0 ∧ x.pinf = 0 ∧ x.ninf = 0) ∧
  ∀ (r : Region) (g : Group), r.kind = 0 → g.pois = false → g.nan = 0 → g.pinf = 0 → g.ninf = 0 →
    (r.pub g).val = r32 (.fin (decide (g.acc < 0)) g.acc.natAbs (-160))

/-- R101, R117, R119, R155, R156, R178, R179, R241, R403-R406. NVRD and NVWR check their operands, and queue one command with its
buffer's pages; a completion writes a read's bytes, packet by packet as there is room, and posts one record once its deltas are
applied. OFFL and RECALL move an entry's state, with the copies their completion steps make; XLOC returns the address its extent
map gives, or RANGE. A word waits while another module holds what it needs.
The model's own choices it meets are in log 19 and 62. -/
def Obligations.DrivesAndOffload : Prop :=
  (∀ (d a b c : Reg) s, let va := (s.rx a).toNat
    let pair := (s.rx c).toNat % 64
    let n := ((s.rx c).toNat / 256 % 65536 + 1) * lbaSize pair
    let x (write : Bool) (rs : List (Nat × Nat × Bool)) (bad : Nat) : NvCmd :=
      { pair := pair, write := write, ctx := s.ctxId, die := s.who.die, n := s.who.n, va := va, lba := (s.rx b).toNat,
        nlb := (s.rx c).toNat / 256 % 65536 + 1, pas := rs, tag := BitVec.ofNat 64 ((s.rx c).toNat / 2 ^ 24), failed := bad, entry := none, todo := [],
        copy := none }
    let u := s.walkRange s.agent s.ctxId va n
    (va % 4096 ≠ 0 ∨ (s.ctx s.ctxId).nvqp.getLsbD pair = false ∨ 2 ^ 21 < n →
      Completes (.nvrd d a b c) s (fun t => Returned s t d 4) ∧ Completes (.nvwr d a b c) s fun t => Returned s t d 4) ∧
    (va % 4096 = 0 → (s.ctx s.ctxId).nvqp.getLsbD pair = true → n ≤ 2 ^ 21 → s.rangeAway s.agent s.ctxId va n = true →
      Completes (.nvrd d a b c) s (fun t => Waits s t (.nvrd d a b c)) ∧ Completes (.nvwr d a b c) s fun t => Waits s t (.nvwr d a b c)) ∧
    (va % 4096 = 0 → (s.ctx s.ctxId).nvqp.getLsbD pair = true → n ≤ 2 ^ 21 → s.rangeAway s.agent s.ctxId va n = false →
      (∀ e, s.piecesOf s.agent s.ctxId true va n = .error e → Completes (.nvrd d a b c) s fun t => Returned s t d 7) ∧
      (∀ e, s.piecesOf s.agent s.ctxId false va n = .error e → Completes (.nvwr d a b c) s fun t => Returned s t d 7) ∧
      (∀ ps, s.piecesOf s.agent s.ctxId true va n = .ok ps →
        ((∃ e ∈ splitRanges ps, isHbm (e.1 + e.2.1 - 1) = false) → Completes (.nvrd d a b c) s fun t => Returned s t d 7) ∧
        ((∀ e ∈ splitRanges ps, isHbm (e.1 + e.2.1 - 1) = true) →
          (1024 ≤ s.outstanding pair → Completes (.nvrd d a b c) s fun t => Returned s t d 1) ∧
          (s.outstanding pair < 1024 → Completes (.nvrd d a b c) s fun t =>
            Returned { u with nvme := u.nvme ++ [x false (splitRanges ps) 0] } t d 0))) ∧
      (∀ ps bad v, s.piecesOf s.agent s.ctxId false va n = .ok ps → (∀ e ∈ splitRanges ps, isHbm (e.1 + e.2.1 - 1) = true) →
        (1024 ≤ s.outstanding pair → Completes (.nvwr d a b c) s fun t => Returned s t d 1) ∧
        (s.outstanding pair < 1024 → u.rangesBad (splitRanges ps) = (bad, v) → Completes (.nvwr d a b c) s fun t =>
          Returned { v with nvme := v.nvme ++ [x true (splitRanges ps) bad] } t d 0)))) ∧
  (∀ idx st b s, s.nvme[idx]? = none → Completes (.nvmeCompletion idx st b) s fun t => t = s) ∧
  (∀ idx st b s c, s.nvme[idx]? = some c → c.entry = none → c.failed < 256 →
    (st ≠ 0 ∨ c.write = true ∨ c.failed ≠ 0 →
      (s.deltasDone agentNvme = true → c.copy = none → Completes (.nvmeCompletion idx st b) s fun t => t.mem = s.mem ∧ t.l2 = s.l2 ∧
        t.nvme = s.nvme.eraseIdx idx ∧ ∃ r, recFields 0x30 (if c.failed ≠ 0 then c.failed else if st = 0 then 0 else 4) 0 4 0
          (c.pair % 256) c.tag (BitVec.ofNat 64 c.va) (BitVec.ofNat 64 (if c.failed ≠ 0 then 0 else st)) r ∧
          PostedTo s t (c.die * 32 + c.n) c.ctx r) ∧
      (∀ e, s.deltasDone agentNvme = true → c.copy = some e → Completes (.nvmeCompletion idx st b) s fun t =>
        t = { s with nvme := s.nvme.eraseIdx idx, offl := t.offl } ∧ t.offl = s.offl.map fun x =>
          if x.ctx = c.ctx ∧ x.idx = e ∧ x.failed = none ∧ (c.failed ≠ 0 ∨ st ≠ 0) then
            { x with failed := some (if c.failed ≠ 0 then c.failed else 4) } else x) ∧
      (s.deltasDone agentNvme = false → Completes (.nvmeCompletion idx st b) s fun t =>
        t = { s with nvme := s.nvme.set idx { c with entry := some st, todo := [] } })) ∧
    (∀ u, st = 0 → c.write = false → c.failed = 0 →
      s.push agentNvme (packetPieces c.pas (fitBytes (c.nlb * lbaSize c.pair) b)) = (0, [], u) → u.deltasDone agentNvme = true →
      Completes (.nvmeCompletion idx st b) s fun t => t.mem = u.mem ∧ t.l2 = u.l2 ∧ t.nvme = u.nvme.eraseIdx idx ∧
        (c.copy ≠ none → t.ost = u.ost ∧ t.offl = u.offl) ∧ (c.copy = none →
        ∃ r, recFields 0x30 0 0 4 0 (c.pair % 256) c.tag (BitVec.ofNat 64 c.va) 0 r ∧ PostedTo u t (c.die * 32 + c.n) c.ctx r))) ∧
  (∀ (s : State) ag pa sp b, b ≠ [] → b.length ≤ 256 → pa + b.length ≤ 2 ^ 52 → s.pageAway pa = false → s.dsets = [] →
    Sound s → Coherent s → ∃ t, s.push ag [(pa, sp, b)] = (0, [], t) ∧ Coherent t ∧ BytesSet s t pa b.length (ofBytes b)) ∧
  (∀ (d a : Reg) s, let idx := (s.rx a).toNat
    (idx < (s.ctx s.ctxId).otn → s.otReady s.who.die s.ctxId idx = false ∨ s.otAway idx = true →
      Completes (.offl d a) s (fun t => Waits s t (.offl d a)) ∧ Completes (.recall d a) s fun t => Waits s t (.recall d a)) ∧
    ∀ u, (idx < (s.ctx s.ctxId).otn → s.otReady s.who.die s.ctxId idx = true ∧ s.otAway idx = false) → s.otEntry idx = (none, u) →
      Completes (.offl d a) s (fun t => Returned u t d 4) ∧ Completes (.recall d a) s fun t => Returned u t d 4) ∧
  (∀ (s : State) idx, ((s.ctx s.ctxId).otn ≤ idx → s.otEntry idx = (none, s)) ∧
    ∀ e u, idx < (s.ctx s.ctxId).otn → s.otRead s.who.die s.ctxId idx = (some e, u) →
      (otLen e = 0 ∨ (e.testBit 162 = true ∧ (s.ctx s.ctxId).nvqp.getLsbD (otPair e) = false) → s.otEntry idx = (none, u)) ∧
      (otLen e ≠ 0 → e.testBit 162 = false ∨ (s.ctx s.ctxId).nvqp.getLsbD (otPair e) = true →
        (s.rangesOf s.agent s.ctxId (fun _ => true) (otHbm e) (otLen e) = none → (s.otEntry idx).1 = none) ∧
        ∀ rs, s.rangesOf s.agent s.ctxId (fun _ => true) (otHbm e) (otLen e) = some rs →
          (s.otEntry idx).1 = if rs.all fun x => isHbm (x.1 + x.2 - 1) then some e else none)) ∧
  (∀ (d a : Reg) s e u, let idx := (s.rx a).toNat
    let x (out : Bool) : OfXfer := { ctx := s.ctxId, idx := idx, outbound := out, die := s.who.die, n := s.who.n, filled := false,
                                     todo := [], copied := false, recalls := [], sent := 0, failed := none }
    let moved (st : Nat) (out : Bool) : State := let y := u.otSetState s.who.die s.ctxId idx e st
      { y with offl := y.offl ++ [x out] }
    (idx < (s.ctx s.ctxId).otn → s.otReady s.who.die s.ctxId idx = true ∧ s.otAway idx = false) → s.otEntry idx = (some e, u) →
    (otState e ≠ 0 → Completes (.offl d a) s fun t => Returned u t d 1) ∧
    (otState e = 0 → Completes (.offl d a) s (fun t => Returned (moved 1 true) t d 0) ∧
      Completes (.recall d a) s fun t => Returned (u.otPost 0x32 s.ctxId idx e 0 0 (s.who.die, s.who.n)) t d 0) ∧
    (otState e = 2 → Completes (.recall d a) s fun t => Returned (moved 3 false) t d 0) ∧
    (otState e = 3 → Completes (.recall d a) s fun t => Returned u t d 1) ∧
    (otState e = 1 → ∀ z, u.otXfer s.ctxId idx = some z →
      (z.copied = false → Completes (.recall d a) s fun t => Returned { u with offl := u.offl.map fun q =>
        if q = z then { z with recalls := z.recalls ++ [(s.who.die, s.who.n)] } else q } t d 0) ∧
      (z.copied = true → Completes (.recall d a) s fun t =>
        Returned (u.otLeave { z with recalls := z.recalls ++ [(s.who.die, s.who.n)] } e 0 0) t d 0))) ∧
  (∀ c idx st b s k q, s.nvme[k]? = some q → q.ctx = c → q.copy = some idx → q.entry = none →
    (∀ i r, i < k → s.nvme[i]? = some r → r.ctx = c → r.copy = some idx → r.entry ≠ none) →
    exec (.offloadTransferDone c idx st b) s = exec (.nvmeCompletion k st b) s) ∧
  (∀ c idx st b s, (∀ q ∈ s.nvme, q.ctx = c → q.copy = some idx → q.entry ≠ none) →
    (s.otXfer c idx = none → (c, idx) ∉ s.offlClear → Completes (.offloadTransferDone c idx st b) s fun t => t = s) ∧
    (∀ e u, s.otXfer c idx = none → (c, idx) ∈ s.offlClear → s.otReady 0 c idx = true → s.otRead 0 c idx = (some e, u) →
      otState e = 0 ∧ otReaders e = 0 ∧ Completes (.offloadTransferDone c idx st b) s fun t =>
        t = ({ u with offlClear := u.offlClear.erase (c, idx) } : State).otSet 0 c idx e 0 0) ∧
    ∀ x, s.otXfer c idx = some x → x.copied = true ∨ s.otReady x.die c idx = false →
      Completes (.offloadTransferDone c idx st b) s fun t => t = s) ∧
  (∀ c idx st b s x e u, (∀ q ∈ s.nvme, q.ctx = c → q.copy = some idx → q.entry ≠ none) → s.otXfer c idx = some x → x.copied = false →
    s.otReady x.die c idx = true → s.otRead x.die c idx = (some e, u) →
    let fails (v : State) (f : Nat) : State := { v with offl := v.offl.map fun z => if z = x then { x with failed := some f } else z }
    let settled (v : State) : Bool := v.deltasDone (agentSlice x.die) && v.deltasDone agentNvme
    let out (v : State) : Prop := ∃ q ∈ v.nvme, q.ctx = x.ctx ∧ q.copy = some x.idx
    (∀ f, x.failed = some f → (out u ∨ settled u = false → Completes (.offloadTransferDone c idx st b) s fun t => t = s) ∧
      (¬out u → settled u = true → Completes (.offloadTransferDone c idx st b) s fun t => t = u.otFail x e f)) ∧
    (x.failed = none → e.testBit 162 = true →
      (x.sent < otLen e → Completes (.offloadTransferDone c idx st b) s fun t => t = u.otSend x e) ∧
      (otLen e ≤ x.sent → out u ∨ settled u = false → Completes (.offloadTransferDone c idx st b) s fun t => t = s) ∧
      (otLen e ≤ x.sent → ¬out u → settled u = true → Completes (.offloadTransferDone c idx st b) s fun t => t = u.otFinish x e)) ∧
    (x.failed = none → e.testBit 162 = false →
      (u.otCopy x e = .wait → Completes (.offloadTransferDone c idx st b) s fun t => t = s) ∧
      (∀ f q v, u.otCopy x e = .fault f q v → Completes (.offloadTransferDone c idx st b) s fun t => t = fails v f) ∧
      ∀ ps v, u.otCopy x e = .ok ps v → ∀ f r w, v.push (agentSlice x.die) ps = (f, r, w) →
        (f ≠ 0 → Completes (.offloadTransferDone c idx st b) s fun t => t = { w with offl := w.offl.map fun z =>
          if z = x then { x with todo := [], failed := some f } else z }) ∧
        (f = 0 → r ≠ [] ∨ settled w = false → Completes (.offloadTransferDone c idx st b) s fun t =>
          t = { w with offl := w.offl.map fun z => if z = x then { x with filled := true, todo := r } else z }) ∧
        (f = 0 → r = [] → settled w = true → Completes (.offloadTransferDone c idx st b) s fun t => t = w.otFinish x e)) ∧
    (∀ w : State, (x.outbound = false → w.otFinish x e = ({ w with offl := w.offl.filter (· != x) }.otSetState x.die x.ctx x.idx e
        0).otPost 0x32 x.ctx x.idx e 0 0 (x.die, x.n)) ∧
      (x.outbound = true → x.recalls = [] → otReaders e = 0 → w.otFinish x e = w.otLeave x e 0 2) ∧
      (x.outbound = true → x.recalls ≠ [] → w.otFinish x e = w.otLeave x e 0 0) ∧
      (x.outbound = true → x.recalls = [] → otReaders e ≠ 0 → w.otFinish x e = { w with offl := w.offl.map fun z =>
        if z = x then { x with filled := true, todo := [], copied := true } else z }) ∧
      (∀ f, x.outbound = true → w.otFail x e f = w.otLeave x e f 0) ∧
      (∀ f, x.outbound = false → w.otFail x e f = ({ w with offl := w.offl.filter (· != x) }.otSetState x.die x.ctx x.idx e
        2).otPost 0x32 x.ctx x.idx e f 2 (x.die, x.n)))) ∧
  (∀ (s : State) x e, let pair := otPair e
    let n := min (2 ^ 21) (otLen e - x.sent)
    let va := otHbm e + x.sent
    let ag := agentSlice x.die
    (1024 ≤ s.outstanding pair ∨ s.rangeAway ag x.ctx va n = true → s.otSend x e = s) ∧
    (s.outstanding pair < 1024 → s.rangeAway ag x.ctx va n = false →
      (∀ f q, s.piecesOf ag x.ctx (!x.outbound) va n = .error (f, q) → s.otSend x e = s.setOffl x { x with failed := some f }) ∧
      ∀ ps bad v, s.piecesOf ag x.ctx (!x.outbound) va n = .ok ps →
        (if x.outbound then (s.walkRange ag x.ctx va n).rangesBad (splitRanges ps) else (0, s.walkRange ag x.ctx va n)) = (bad, v) →
        (bad ≠ 0 → s.otSend x e = v.setOffl x { x with failed := some bad }) ∧
        (bad = 0 → s.otSend x e = ({ v with nvme := v.nvme ++ [
            { pair := pair, write := x.outbound, ctx := x.ctx, die := x.die, n := x.n, va := va,
              lba := otTarget e + x.sent / lbaSize pair, nlb := n / lbaSize pair, pas := splitRanges ps, tag := otTag e,
              failed := 0, entry := none, todo := [], copy := some x.idx }] } : State).setOffl x { x with sent := x.sent + n }))) ∧
  (∀ (s : State) kind c idx e st new die n, kind < 256 → st < 256 → ∃ h r, recFields kind st (h / 64 % 8) 2 (h % 64) 0 (otTag e)
    (BitVec.ofNat 64 idx) (BitVec.ofNat 64 new) r ∧ PostedTo s (s.otPost kind c idx e st new (die, n)) (die * 32 + n) c r) ∧
  (∀ (d a b : Reg) s,
    (∀ c x u, s.readBlock (s.rx a).toNat 272 16 = .trap c x u → Completes (.xloc d a b) s fun t => Returned u t d 4) ∧
    ∀ u, s.readBlock (s.rx a).toNat 272 16 = .wait u → Completes (.xloc d a b) s fun t => Waits u t (.xloc d a b)) ∧
  (∀ (d a b : Reg) s m u, s.readBlock (s.rx a).toNat 272 16 = .ok m u →
    (2 ^ 32 ≤ (s.rx b).toNat → Completes (.xloc d a b) s fun t => Returned u t d 7) ∧
    (∀ va, (s.rx b).toNat < 2 ^ 32 → xloc m (s.rx b).toNat = .ok va → Completes (.xloc d a b) s fun t =>
      Wrote u t d (BitVec.ofNat 64 (va * 256))) ∧
    ∀ e, (s.rx b).toNat < 2 ^ 32 → xloc m (s.rx b).toNat = .error e → Completes (.xloc d a b) s fun t => Returned u t d e) ∧
  ∀ m p k, k < xNext m → xNext m ≤ 16 → xTotal m ≤ 2 ^ 32 → ((List.range k).map (xLen m)).sum ≤ p →
    p < ((List.range (k + 1)).map (xLen m)).sum →
    xloc m p = .ok ((xBase m k + (p - ((List.range k).map (xLen m)).sum) * xStride m k) % 2 ^ 64)

/-! ### Clause banks -/

/-- R68, R391-R395, R398, R400, R401. An instruction on a bank bound to another context gives BADARG, and KCFG, KSEED, KLD and KST give
BUSY while feedback runs. KCFG binds a bank to the issuer's context; KSEED reseeds, and may clear; KLD and KST move exactly the rows
or the set they name; KFB queues a sample; KSYNC returns KSTATE; KCLR resets its bank.
The model's own choices it meets are in log 29. -/
def Obligations.ClauseWords : Prop :=
  (∀ (d a b c : Reg) s n, let k := bankOf (s.rx a)
    (s.bank k).ctx = some n → n ≠ s.ctxId → s.cur.wait = none →
    Completes (.kcfg d a b) s (fun t => Returned s t d 4) ∧ Completes (.kseed d a b c) s (fun t => Returned s t d 4) ∧
    Completes (.kld d a b c) s (fun t => Returned s t d 4) ∧ Completes (.kst d a b c) s (fun t => Returned s t d 4) ∧
    Completes (.kinf d a b c) s (fun t => Returned s t d 4) ∧ Completes (.kfb d a b c) s (fun t => Returned s t d 4) ∧
    Completes (.kvote d a b) s (fun t => Returned s t d 4) ∧ Completes (.ksync d a b) s (fun t => Returned s t d 4) ∧
    Completes (.kclr d a) s fun t => Returned s t d 4) ∧
  (∀ (d a b c : Reg) s, (s.bank (bankOf (s.rx a))).ctx = none → s.cur.wait = none →
    Completes (.kseed d a b c) s (fun t => Returned s t d 4) ∧ Completes (.kld d a b c) s (fun t => Returned s t d 4) ∧
    Completes (.kst d a b c) s (fun t => Returned s t d 4) ∧ Completes (.kinf d a b c) s (fun t => Returned s t d 4) ∧
    Completes (.kfb d a b c) s (fun t => Returned s t d 4) ∧ Completes (.kvote d a b) s (fun t => Returned s t d 4) ∧
    Completes (.ksync d a b) s fun t => Returned s t d 4) ∧
  (∀ (d a b c : Reg) s, let k := bankOf (s.rx a)
    (s.bank k).ctx = some s.ctxId → (s.bank k).fbBusy = true → s.cur.wait = none →
    Completes (.kcfg d a b) s (fun t => Returned s t d 1) ∧ Completes (.kseed d a b c) s (fun t => Returned s t d 1) ∧
    Completes (.kld d a b c) s (fun t => Returned s t d 1) ∧ Completes (.kst d a b c) s fun t => Returned s t d 1) ∧
  (∀ (d a b : Reg) s, let k := bankOf (s.rx a)
    let w := (s.rx b).toNat
    (s.bank k).ctx = none ∨ (s.bank k).ctx = some s.ctxId → (s.bank k).fbBusy = false → (s.bank k).infBusy = false →
    (4096 < (bits w 17 12 + 1) * (bits w 11 0 + 1) ∨ bits w 43 28 = 0 → Completes (.kcfg d a b) s fun t => Returned s t d 4) ∧
    ((bits w 17 12 + 1) * (bits w 11 0 + 1) ≤ 4096 → bits w 43 28 ≠ 0 → Completes (.kcfg d a b) s fun t => Returned (s.setBank k
      { s.bank k with kcfgr := BitVec.ofNat 64 (w % 2 ^ 48), cfgd := true, ctx := some s.ctxId }) t d 0)) ∧
  (∀ (d a b c : Reg) s, let k := bankOf (s.rx a)
    (s.bank k).ctx = some s.ctxId → (s.bank k).fbBusy = false → Completes (.kseed d a b c) s fun t => RegSet s t d 0 ∧
      (t.bank k).kseed = s.rx b ∧ (t.bank k).kser = 0 ∧ (t.bank k).kcfgr = (s.bank k).kcfgr ∧ (t.bank k).nudge = (s.bank k).nudge ∧
      ((s.rx c).getLsbD 0 = true → ∀ n, (t.bank k).counter n = 127 ∧ mget false (t.bank k).plane n = false) ∧
      ((s.rx c).getLsbD 0 = false → ∀ n, (t.bank k).counter n = (s.bank k).counter n ∧
        mget false (t.bank k).plane n = mget false (s.bank k).plane n) ∧ ∀ j, j ≠ k → t.bank j = s.bank j) ∧
  (∀ (d a b c : Reg) s, let k := bankOf (s.rx a)
    (s.bank k).ctx = some s.ctxId → (s.bank k).fbBusy = false →
    (kmOk (s.rx c) true = false → Completes (.kld d a b c) s fun t => Returned s t d 4) ∧
    (kmOk (s.rx c) false = false → s.cur.wait = none → Completes (.kst d a b c) s fun t => Returned s t d 4) ∧
    (∀ l u, kmOk (s.rx c) true = true → s.vread (agentBank (k / 4) (k % 4)) s.ctxId (s.rx b).toNat
      (if (s.rx c).toNat % 4 = 0 then 64 else 2048 * kmRows (s.rx c)) = .ok l u →
      Completes (.kld d a b c) s fun t => Returned (u.setBank k (if (s.rx c).toNat % 4 = 0
        then (u.bank k).loadNudge (kmSet (s.rx c)) (ofBytes l) else (u.bank k).loadRows (kmRow (s.rx c)) l)) t d 0) ∧
    ∀ u, kmOk (s.rx c) false = true →
      s.cur.wait = none → s.vwrite s.agent s.ctxId (s.rx b).toNat ((s.bank k).stored (s.rx c)) = .ok () u →
      Completes (.kst d a b c) s fun t => ∃ y, Returned y t d 0 ∧ y = { u with caches := y.caches, dir := y.dir }) ∧
  (∀ (x : Bank) row l n, let y := x.loadRows row l
    y.counter n = (if row * 2048 ≤ n ∧ n < row * 2048 + l.length then l.getD (n - row * 2048) 0 else x.counter n) ∧
    mget false y.plane n = (if row * 2048 ≤ n ∧ n < row * 2048 + l.length then decide (128 ≤ (l.getD (n - row * 2048) 0).toNat)
      else mget false x.plane n) ∧
    y.planeSer = x.kser ∧ y.kser = x.kser) ∧
  (∀ (d a b c : Reg) s l u, let k := bankOf (s.rx a)
    let w := (s.rx c).toNat
    (s.bank k).ctx = some s.ctxId → w % 64 < (s.bank k).classes → w / 64 % 64 < (s.bank k).classes →
    (w.testBit 12 = true → w / 64 % 64 ≠ w % 64) → (s.rx b).toNat % 128 = 0 →
    s.vread (agentBank (k / 4) (k % 4)) s.ctxId (s.rx b).toNat 128 = .ok l u →
    (8 ≤ (s.bank k).fbq.length + (if (s.bank k).training.isSome then 1 else 0) → Completes (.kfb d a b c) s fun t => Returned s t d 1) ∧
    ((s.bank k).fbq.length + (if (s.bank k).training.isSome then 1 else 0) < 8 → Completes (.kfb d a b c) s fun t => Returned
      (u.setBank k { u.bank k with fbq := (u.bank k).fbq ++
        [{ x := BitVec.ofNat 1024 (ofBytes l), ctl := s.rx c, die := s.who.die, n := s.who.n }] }) t d 0)) ∧
  (∀ (d a b c : Reg) s, let k := bankOf (s.rx a)
    let w := if s.rx c = 0 then s else s.walkRange s.agent s.ctxId (s.rx c).toNat (4 * (s.bank k).classes)
    let v := w.vread (agentBank (k / 4) (k % 4)) w.ctxId (s.rx b).toNat 128
    (s.bank k).ctx = some s.ctxId → s.cur.wait = none →
    (s.sumsAway c k = true → Completes (.kinf d a b c) s fun t => Waits s t (.kinf d a b c)) ∧
    (s.sumsAway c k = false →
      ((s.rx c).toNat % 4 ≠ 0 → Completes (.kinf d a b c) s fun t => Returned s t d 4) ∧
      ((s.rx c).toNat % 4 = 0 → s.sumsOk c k = false ∨ (s.rx b).toNat % 128 ≠ 0 → Completes (.kinf d a b c) s fun t => Returned w t d 4) ∧
      (s.sumsOk c k = true → (s.rx b).toNat % 128 = 0 →
        (v = .wait → Completes (.kinf d a b c) s fun t => Waits w t (.kinf d a b c)) ∧
        (∀ e x u, v = .fault e x u → e = 0x08 ∨ e = 0x09 → u.cur.tm = false → Completes (.kinf d a b c) s fun t =>
          Trapped u t e (BitVec.ofNat 64 x)) ∧
        (∀ e x u, v = .fault e x u → e ≠ 0x08 → e ≠ 0x09 → Completes (.kinf d a b c) s fun t => Returned u t d 4) ∧
        ∀ l u, v = .ok l u →
          ((u.bank k).infBusy = false → u.commitDue k = false → Completes (.kinf d a b c) s fun t =>
            (t.bank k).inf = some ⟨BitVec.ofNat 1024 (ofBytes l), (u.bank k).plane, (u.bank k).planeSer, u.fcycle, false, u.who.die,
              u.who.n⟩ ∧ t.cur = { u.cur with wait := some { instr := .kinf d a b c, phase := 3, marks := [], todo := [] } } ∧
            t = { u with banks := t.banks, ost := t.ost }) ∧
          ((u.bank k).infBusy = true ∨ u.commitDue k = true → Completes (.kinf d a b c) s fun t => OnlyCur u t ∧
            t.cur = { u.cur with wait := some { instr := .kinf d a b c, phase := 2, marks := [(0, ofBytes l % 2 ^ 1024)], todo := [] } })))) ∧
  (∀ (d a b c : Reg) s w, let k := bankOf (s.rx a)
    let x := mget 0 w.marks 0
    s.cur.wait = some w →
    (w.phase = 3 → Completes (.kinf d a b c) s fun t => t = s) ∧
    (w.phase = 2 → x < 2 ^ 1024 →
      ((s.bank k).infBusy = true ∨ s.commitDue k = true → Completes (.kinf d a b c) s fun t => OnlyCur s t ∧
        t.cur = { s.cur with wait := some { instr := .kinf d a b c, phase := 2, marks := [(0, x)], todo := [] } }) ∧
      ((s.bank k).infBusy = false → s.commitDue k = false → Completes (.kinf d a b c) s fun t =>
        (t.bank k).inf = some ⟨BitVec.ofNat 1024 x, (s.bank k).plane, (s.bank k).planeSer, s.fcycle, false, s.who.die, s.who.n⟩ ∧
        t.cur = { s.cur with wait := some { instr := .kinf d a b c, phase := 3, marks := [], todo := [] } } ∧
        t = { s with banks := t.banks, ost := t.ost }))) ∧
  (∀ (d a b : Reg) s, let k := bankOf (s.rx a)
    (s.bank k).ctx = some s.ctxId → (s.bank k).vote ≠ none → Completes (.kvote d a b) s fun t => Returned s t d 1) ∧
  (∀ (d a b : Reg) s l u, let k := bankOf (s.rx a)
    let v := voteOf (ofBytes l) s.who.die s.who.n s.ctxId
    let n := 4 * (s.bank k).classes * v.total
    let w := (u.walkRange u.agent u.ctxId v.samples (128 * v.total)).walkRange u.agent u.ctxId v.out n
    (s.bank k).ctx = some s.ctxId → (s.bank k).vote = none →
    s.vread (agentBank (k / 4) (k % 4)) s.ctxId (s.rx b).toNat 32 = .ok l u →
    (v.samples % 128 ≠ 0 ∨ v.out % 4 ≠ 0 ∨ v.total = 0 ∨ 65536 < v.total → Completes (.kvote d a b) s fun t => Returned u t d 4) ∧
    (v.samples % 128 = 0 → v.out % 4 = 0 → v.total ≠ 0 → v.total ≤ 65536 →
      (u.tablesAway u.agent u.ctxId v.samples (128 * v.total) = true ∨ u.tablesAway u.agent u.ctxId v.out n = true →
        Completes (.kvote d a b) s fun t => Waits u t (.kvote d a b)) ∧
      (u.tablesAway u.agent u.ctxId v.samples (128 * v.total) = false → u.tablesAway u.agent u.ctxId v.out n = false →
        (w.rangesOf w.agent w.ctxId (fun _ => true) v.samples (128 * v.total) = none ∨ w.writable v.out n = false →
          Completes (.kvote d a b) s fun t => Returned w t d 4) ∧
        (w.rangesOf w.agent w.ctxId (fun _ => true) v.samples (128 * v.total) ≠ none → w.writable v.out n = true →
          Completes (.kvote d a b) s fun t => Returned (w.setBank k { w.bank k with vote := some v }) t d 0)))) ∧
  (∀ (d a b : Reg) s, let k := bankOf (s.rx a)
    (s.bank k).ctx = some s.ctxId →
    ((s.bank k).fbBusy = false ∧ (s.bank k).infBusy = false ∨ (s.rx b).toNat ≤ s.fcycle.toNat → Completes (.ksync d a b) s fun t =>
      Wrote s t d (flag (s.bank k).infBusy + flag (s.bank k).fb * 2 + flag (s.bank k).cfgd * 4)) ∧
    ((s.bank k).fbBusy = true ∨ (s.bank k).infBusy = true → s.fcycle.toNat < (s.rx b).toNat → Completes (.ksync d a b) s fun t =>
      OnlyCur s t ∧ t.cur = { s.cur with wait := t.cur.wait } ∧ t.cur.wait.isSome = true)) ∧
  ∀ (d a : Reg) s, let k := bankOf (s.rx a)
    (s.bank k).ctx = none ∨ (s.bank k).ctx = some s.ctxId → (∀ e ∈ s.ost, e.2.wait = none) → Completes (.kclr d a) s fun t =>
      RegSet s t d 0 ∧ t.bank k = Bank.reset ∧ (∀ j, j ≠ k → t.bank j = s.bank j) ∧ t.mem = s.mem ∧ t.l2 = s.l2

/-- R392, R396-R399. A class sum lies within its threshold; an inference returns the lowest class of the largest sum with the
serial of the plane it read; feedback moves counters only, and its commit makes their plane visible, counts the sample and
posts its record where asked; a batch starts its samples one by one and ends with one record.
The model's own choices it meets are in log 29. -/
def Obligations.ClauseSteps : Prop :=
  (∀ (b : Bank) p k x m, -(b.thr : Int) ≤ b.sum p k x m ∧ b.sum p k x m ≤ b.thr) ∧
  (∀ l : List Int, l ≠ [] → argMax l < l.length ∧ (∀ i, i < l.length → l.getD i 0 ≤ l.getD (argMax l) 0) ∧
    ∀ i, i < argMax l → l.getD i 0 < l.getD (argMax l) 0) ∧
  (∀ (b : Bank) (q : Sample), let n := b.classes * b.perClass
    let y := q.ctl.toNat % 64
    let z := q.ctl.toNat / 64 % 64
    let even (c : Nat) : Bool := c % b.perClass % 2 == 0
    let typ (c : Nat) : Option (Nat × Int) :=
      if c / b.perClass = y then some (if even c then 0 else 1, (b.thr : Int) - b.sum b.plane y q.x true)
      else if q.ctl.getLsbD 12 = true ∧ c / b.perClass = z then some (if even c then 1 else 0, (b.thr : Int) + b.sum b.plane z q.x true)
      else none
    let draw (i : Nat) : Nat := (rng b.kseed (BitVec.ofNat 64 (b.kser * 2 ^ 24 + i))).toNat / 2 ^ 16 % 2 ^ 16
    let picked (c : Nat) : Bool := match typ c with
      | some (_, num) => decide ((draw (0x800000 + c) * (2 * b.thr) : Nat) < 65536 * num)
      | none => false
    let r := b.feedback q
    r.2 = ((List.range n).filter picked).length ∧ r.1 = { b with counters := r.1.counters } ∧
    (∀ c l, n ≤ c → l < 2048 → r.1.counter (c * 2048 + l) = b.counter (c * 2048 + l)) ∧
    ∀ c l, c < n → l < 2048 → let v := (b.counter (c * 2048 + l)).toNat
      let inc := mget false b.plane (c * 2048 + l)
      let e := (mget 0 b.nudge (b.nt * 16 + (((typ c).map Prod.fst).getD 0 * 8 + b2n (b.out b.plane c q.x true) * 4 +
        b2n (litValue q.x l) * 2 + b2n inc))).toNat
      let act := e / 2 ^ 16 % 4
      (r.1.counter (c * 2048 + l)).toNat =
        if picked c = true ∧ l % 1024 < b.feats ∧ (e % 2 ^ 16 = 0xFFFF ∨ draw (c * 2048 + l) < e % 2 ^ 16) then
          (if act = 1 then min (v + 1) 255 else if act = 2 then v - 1 else v)
        else v) ∧
  (∀ k s q l, (s.bank k).training = none → (s.bank k).fbq = q :: l → Completes (.sampleFeedback k) s fun t =>
    t = { s with banks := t.banks } ∧ (∀ j, j ≠ k → t.bank j = s.bank j) ∧
    (t.bank k).plane = (s.bank k).plane ∧ (t.bank k).kser = (s.bank k).kser ∧ (t.bank k).fbq = l ∧ (t.bank k).fb = true ∧
    (∀ n, (t.bank k).counter n = ((s.bank k).feedback q).1.counter n) ∧
    (t.bank k).training = some (q, s.fcycle.toNat + 4 + 2 * ((s.bank k).feedback q).2)) ∧
  (∀ k s, (s.bank k).training ≠ none ∨ (s.bank k).fbq = [] → Completes (.sampleFeedback k) s fun t => t = s) ∧
  (∀ k s q e, (s.bank k).training = some (q, e) →
    (s.fcycle.toNat < e → Completes (.sampleCommit k) s fun t => t = s) ∧
    (e ≤ s.fcycle.toNat → Completes (.sampleCommit k) s fun t =>
      (t.bank k).plane = planeOf (s.bank k).counters ∧ (t.bank k).kser = ((s.bank k).kser + 1) % 2 ^ 40 ∧
      (t.bank k).planeSer = ((s.bank k).kser + 1) % 2 ^ 40 ∧ (t.bank k).training = none ∧
      (t.bank k).counters = (s.bank k).counters ∧ (∀ j, j ≠ k → t.bank j = s.bank j) ∧
      (q.ctl.getLsbD 13 = false → t.ost = s.ost) ∧ (q.ctl.getLsbD 13 = true → ∃ r,
        recFields 0x40 0 (k / 4 % 8) 5 0 (k % 4) (q.ctl >>> 16) (BitVec.ofNat 64 (((s.bank k).kser + 1) % 2 ^ 40)) 0 r ∧
        PostedTo s t (q.die * 32 + q.n) ((s.bank k).ctx.getD 0) r))) ∧
  (∀ k s, (s.bank k).inf = none → Completes (.inferenceDone k) s fun t => t = s) ∧
  (∀ k s f, (s.bank k).inf = some f → (s.fcycle - f.start).toNat < 4 → Completes (.inferenceDone k) s fun t => t = s) ∧
  (∀ k s f d a b c, let j := f.die * 32 + f.n
    let sums := (s.bank k).sums f.plane f.x
    let o := s.ostler j
    (s.bank k).inf = some f → 4 ≤ (s.fcycle - f.start).toNat → (s.bank k).vote = none →
    o.wait = some { instr := .kinf d a b c, phase := 3, marks := [], todo := [] } → s.routine = none →
    (if c = 0 then 0 else mget 0 o.x c.toNat) = 0 → Completes (.inferenceDone k) s fun t =>
      (t.bank k).inf = none ∧ t.who = s.who ∧ t.mem = s.mem ∧ (∀ i, i ≠ j → t.ostler i = s.ostler i) ∧
      t.ostler j = { o.commit with x := (t.ostler j).x } ∧ ∀ r : Reg, r ≠ 0 → mget 0 (t.ostler j).x r.toNat =
        if r = d then BitVec.ofNat 64 (argMax sums * 2 ^ 8 + f.ser * 2 ^ 16) else mget 0 o.x r.toNat) ∧
  (∀ k s f v u, (s.bank k).inf = some f → 4 ≤ (s.fcycle - f.start).toNat → (s.bank k).vote = some v → f.vote = true →
    s.vwrite (agentBank (k / 4) (k % 4)) v.ctx (v.out + 4 * (s.bank k).classes * v.done) (sumBytes ((s.bank k).sums f.plane f.x)) =
      .ok () u → Completes (.inferenceDone k) s fun t =>
        t = u.setBank k { s.bank k with inf := none, vote := some { v with done := v.done + 1 } }) ∧
  (∀ k s v, (s.bank k).vote = some v → (s.bank k).inf = none → v.bad = none → v.done < v.total → s.commitDue k = false → ∀ l u,
    s.vread (agentBank (k / 4) (k % 4)) v.ctx (v.samples + 128 * v.done) 128 = .ok l u → Completes (.kvoteSample k) s fun t =>
      t = u.setBank k { s.bank k with inf := some ⟨BitVec.ofNat 1024 (ofBytes l), (s.bank k).plane, (s.bank k).planeSer, s.fcycle, true,
        v.die, v.n⟩ }) ∧
  (∀ k s v, (s.bank k).vote = some v → (s.bank k).inf = none → v.bad = none → v.total ≤ v.done →
    s.deltasDone (agentBank (k / 4) (k % 4)) = true → Completes (.kvoteSample k) s fun t => (t.bank k).vote = none ∧ ∃ r,
      recFields 0x40 0 (k / 4 % 8) 5 0 (k % 4) v.tag (BitVec.ofNat 64 (s.bank k).kser) 0 r ∧ PostedTo s t (v.die * 32 + v.n) v.ctx r) ∧
  ∀ k s, (s.bank k).vote = none ∨ (s.bank k).inf ≠ none → Completes (.kvoteSample k) s fun t => t = s

/-! ### The host's registers, resets and the part -/

/-- R136, R158, R170, R181, R425-R429, R435. A host write changes its register, and as a command what its rule says: HTCMD drops
translations, CWDATA stores a checked item, CWOST starts and stops ostlers, ATADDR asks for a report; commands while BUSY set LAST to
BUSY; before READY, writes do nothing. The model's own choices it meets are in log 8, 21, 28, 32, 37 and 58. -/
def Obligations.HostRegisters : Prop :=
  (∀ f v s, s.pf.ready = true → Completes (.hetail f v) s fun t => t = s.setFn f { s.fn f with hetail := v.toNat % 2 ^ 16 }) ∧
  (∀ f v s, s.pf.ready = true → Completes (.msixUnmask f v) s fun t => t = { s with fns := t.fns, msgs := t.msgs } ∧
    mget true (t.fn f).mask v = false ∧ mget false (t.fn f).pend v = false ∧
    t.msgs = if mget false (s.fn f).pend v then s.msgs ++ [(f, v, 0)] else s.msgs) ∧
  (∀ f c s, s.pf.ready = true →
    ((s.fn f).htbusy = true → Completes (.htcmd f c) s fun t => t = s.setFn f { s.fn f with htlast := 1 }) ∧
    ((s.fn f).htbusy = false → ((s.ctx c).valid = false ∨ (s.ctx c).func ≠ f) → Completes (.htcmd f c) s fun t =>
      t = s.setFn f { s.fn f with htlast := 4 }) ∧
    ((s.fn f).htbusy = false → (s.ctx c).valid = true → (s.ctx c).func = f → Completes (.htcmd f c) s fun t =>
      (t.fn f).htbusy = true ∧ t.mem = s.mem ∧ t.caches = s.caches ∧ (∀ a l, (a, l) ∈ t.tlb → ∀ e ∈ l,
        ¬(e.ctx = c ∧ ((s.fn f).htlen.toNat = 0 ∨ (e.va < (s.fn f).htaddr.toNat + (s.fn f).htlen.toNat * 65536 ∧
          (s.fn f).htaddr.toNat < e.va + e.size)))) ∧
      ((s.fn f).htlen = 0 → (t.ctx c).live = (s.ctx c).root))) ∧
  (∀ f s, (s.fn f).htbusy = true →
    (s.accessesDone (s.fn f).htctx = true → Completes (.htcmdDone f) s fun t =>
      t = s.setFn f { s.fn f with htbusy := false, htlast := 0 }) ∧
    (s.accessesDone (s.fn f).htctx = false → Completes (.htcmdDone f) s fun t => t = s)) ∧
  (∀ f die c s, s.pf.ready = true →
    ((s.fn f).hlbusy = true → Completes (.hlcmd f die c) s fun t => t = s.setFn f { s.fn f with hllast := 1 }) ∧
    ((s.fn f).hlbusy = false → ((s.ctx c).valid = false ∨ (s.ctx c).func ≠ f) → Completes (.hlcmd f die c) s fun t =>
      t = s.setFn f { s.fn f with hllast := 4 }) ∧
    ((s.fn f).hlbusy = false → (s.ctx c).valid = true → (s.ctx c).func = f →
      (s.submit die c (s.fn f).hladdr.toNat (.host f) = none → Completes (.hlcmd f die c) s fun t =>
        t = s.setFn f { s.fn f with hlbusy := true, hlwait := some (die, c, (s.fn f).hladdr.toNat) }) ∧
      ∀ st u, s.submit die c (s.fn f).hladdr.toNat (.host f) = some (st, u) → Completes (.hlcmd f die c) s fun t =>
        t = u.setFn f { u.fn f with hllast := st })) ∧
  (∀ v s, s.pf.ready = true → let c := s.pf.cwsel.toNat % 256
    let item := s.pf.cwsel.toNat / 256 % 256
    (∀ st, s.cwItem c item v.toNat = .error st → Completes (.cwdata v) s fun t => t = { s with pf := { s.pf with cwlast := st } }) ∧
    ∀ x, s.cwItem c item v.toNat = .ok x → Completes (.cwdata v) s fun t => t.ctx c = x ∧ t.pf = { s.pf with cwlast := 0 } ∧
      (∀ k, k ≠ c → t.ctx k = s.ctx k) ∧ t = { s with ctxs := t.ctxs, pf := t.pf }) ∧
  (∀ die n c s, s.pf.ready = true → s.pf.cwbusy = false → die < 8 → n < 32 → c < 256 → let k := die * 32 + n
    ((s.ostler k).run = .running → Completes (.cwostStart die n c) s fun t => t.pf.cwlast = 1 ∧ t.ost = s.ost) ∧
    ((s.ostler k).run ≠ .running → (s.ctx c).valid = false → Completes (.cwostStart die n c) s fun t => t.pf.cwlast = 4 ∧ t.ost = s.ost) ∧
    ((s.ostler k).run ≠ .running → (s.ctx c).valid = true → Completes (.cwostStart die n c) s fun t => t.pf.cwlast = 0 ∧
      (t.ostler k).run = .running ∧ (t.ostler k).pc = s.pf.cwpc ∧ (t.ostler k).ctx = some c ∧ (t.ostler k).status = 0 ∧
      (t.ostler k).eqcount = 0 ∧ (t.ostler k).ldepth = 0 ∧ (t.ostler k).tier = BitVec.ofNat 64 (s.ctx c).tcap ∧
      (∀ r, 0 < r → r < 32 → mget 0 (t.ostler k).x r = Config.freeReg (s.freeCtr + (r - 1))) ∧
      ∀ j, j ≠ k → t.ostler j = s.ostler j)) ∧
  (∀ die n s, s.pf.ready = true → s.pf.cwbusy = false → die < 8 → n < 32 → let k := die * 32 + n
    ((s.ostler k).run = .running → Completes (.cwostStop die n) s fun t => t.pf.cwlast = 0 ∧ t.pf.cwbusy = true ∧
      t.ostler k = { s.ostler k with stopReq := true } ∧ ∀ j, j ≠ k → t.ostler j = s.ostler j) ∧
    ((s.ostler k).run ≠ .running → Completes (.cwostStop die n) s fun t => t.pf.cwlast = 0 ∧ t.pf.cwbusy = false ∧ t.ost = s.ost)) ∧
  (∀ die n s, (s.ostler (die * 32 + n)).stopReq = true → (s.ostler (die * 32 + n)).wait = none →
    (s.ostler (die * 32 + n)).run = .running → Completes (.cwostStopDone die n) s fun t => t.pf.cwbusy = false ∧
      t.ostler (die * 32 + n) = { s.ostler (die * 32 + n) with stopReq := false, run := .halted }) ∧
  (∀ v s, s.pf.ready = true →
    (s.pf.atbusy = true → Completes (.ataddr v) s fun t => t = { s with pf := { s.pf with atlast := 1 } }) ∧
    (s.pf.atbusy = false → v.toNat % 4096 = 0 → Completes (.ataddr v) s fun t =>
      t = { s with pf := { s.pf with ataddr := v, atbusy := true } })) ∧
  (∀ s, s.pf.atbusy = true → Completes .attestationDone s fun t => t.pf = { s.pf with atbusy := false, atlast := 0 } ∧
    let a := hostBase + s.pf.ataddr.toNat
    let nonce := Memory.read s.mem a 48
    let h := toBytes 4 0x54414D4E ++ toBytes 4 1 ++ toBytes 8 Config.serial.toNat ++ toBytes 48 Config.fwHash.toNat ++ nonce ++
      toBytes 48 Config.idHash.toNat
    (∀ k, k < 160 → Memory.byte t.mem (a + k) = h.getD k 0) ∧
    (∀ k, k < 96 → Memory.byte t.mem (a + 160 + k) = byteOf (Config.sign (BitVec.ofNat 1280 (ofBytes h))).toNat k) ∧
    ∀ n, n < a ∨ a + 256 ≤ n → Memory.byte t.mem n = Memory.byte s.mem n) ∧
  (∀ f off v s, s.pf.ready = false → Completes (.registerWrite f off v) s (fun t => t = s) ∧ Completes (.hetail f v) s (fun t => t = s) ∧
    Completes (.cwdata v) s (fun t => t = s) ∧ Completes (.ataddr v) s fun t => t = s) ∧
  ∀ f v s, s.pf.ready = true →
    Completes (.registerWrite f 0x200 v) s (fun t => t = s.setFn f { s.fn f with hkaddr := v &&& 0x00FFFFFFFFFF0000 }) ∧
    Completes (.registerWrite f 0x340 v) s (fun t => t = s.setFn f { s.fn f with htaddr := v &&& 0x00FFFFFFFFFF0000 }) ∧
    Completes (.registerWrite f 0x300 v) s (fun t => t = s.setFn f { s.fn f with hladdr := v &&& 0x00FFFFFFFFFFFF80 }) ∧
    Completes (.registerWrite f 0x338 v) s (fun t => t = s.setFn f { s.fn f with hetail := v.toNat % 2 ^ 16 }) ∧
    (f ≠ 0 → Completes (.registerWrite f 0x500 v) s fun t => t = s)

/-- R8, R159, R229, R242-R244, R276, R430, R432-R434, R436. Bring-up runs its stages in order and ends READY, or in recovery where
the firmware's signature or key hash fails; a module reset leaves the reset state but for memory that is not the module's; a function
reset clears its function's registers and resets its contexts one by one: the reset context holds no pen, job, slot, command,
transfer, set, log entry, lock, merge, routine, handover, bank or cached translation, its waiting posts are gone, its ostlers stop
with their CSRs at their reset values and empty caches, and its offload entries are RESIDENT, while other contexts keep their queue
order, pens and PEs; clocks step by 25 MHz between 300 and 600; a failed port, an unreachable peer and a reset peer are recorded, and
accesses to them fail; a wait ends as its instruction, evaluated again, does. The model's own choices it meets are in log 8, 23, 27,
30, 31, 73, 76 and 98. -/
def Obligations.ResetsAndPart : Prop :=
  (∀ fw s, s.tripped = true → Completes (.bringUp fw) s fun t => t = s.moduleReset) ∧
  (∀ fw s, s.tripped = false → s.pf.ready = true ∨ s.pf.fwfail = true → Completes (.bringUp fw) s fun t => t = s) ∧
  (∀ fw s, s.tripped = false → s.pf.ready = false → s.pf.fwfail = false →
    let good := Config.ecdsaOk fw.key (Config.sha384 fw.image) fw.sig = true ∧ Config.sha384 (toBytes 96 fw.key.toNat) = Config.fusedKey
    (s.pf.stage = 0 → Completes (.bringUp fw) s fun t => t = { s with pf := { s.pf with stage := 1 } }) ∧
    (s.pf.stage = 1 → good → Completes (.bringUp fw) s fun t => t = { s with pf := { s.pf with stage := 2 } }) ∧
    (s.pf.stage = 1 → ¬good → Completes (.bringUp fw) s fun t => t = { s with pf := { s.pf with fwfail := true } }) ∧
    (s.pf.stage = 2 → Completes (.bringUp fw) s fun t => t = { s with pf := { s.pf with stage := 3 } }) ∧
    (s.pf.stage = 3 → Completes (.bringUp fw) s fun t => t = { s with pf := { s.pf with stage := 4 } }) ∧
    (s.pf.stage = 4 → Completes (.bringUp fw) s fun t => t.pf = { Pf.reset with ready := true, stage := 5 } ∧
      t = { s.moduleReset with pf := t.pf } ∧ t.ost = [] ∧ t.pens = [] ∧ t.ctxs = [] ∧ t.caches = [] ∧ t.l2 = [])) ∧
  (∀ s, Completes .moduleReset s fun t =>
    t = { State.reset with mem := t.mem, agenda := s.agenda.filter fun e => !e.posts, msgs := s.msgs, freeCtr := t.freeCtr,
                           stalls := t.stalls } ∧
    (∀ a, isHbm a = false → Memory.byte t.mem a = Memory.byte s.mem a) ∧
    (mwf Stall.free s.stalls = true → ∀ k, mget Stall.free t.stalls k =
      if mget Stall.free s.stalls k = .absent then .absent else .free)) ∧
  (∀ s, Completes (.functionLevelReset 0) s fun t => t = s.moduleReset) ∧
  (∀ f s, f ≠ 0 → (∀ e ∈ s.ctxs, e.2.valid = true → e.2.func ≠ f) → Completes (.functionLevelReset f) s fun t => t = s.setFn f Fn.reset) ∧
  (∀ f s, f ≠ 0 → Completes (.functionLevelReset f) s fun t =>
    t = { (s.ctxsOf f).foldl State.resetCtx (s.setFn f Fn.reset) with tele := s.tele }) ∧
  (∀ c (s : State), let t := s.resetCtx c
    t.ctxs = s.ctxs ∧ t.jobs = s.jobs.filter (fun j => jrCtx j.jr != c) ∧ (∀ e ∈ t.active, e.2 ≠ some c) ∧
    (mwf Pen.reset s.pens = true → ∀ k, (t.pen k).valid = true → (t.pen k).ctx ≠ c) ∧
    (∀ e ∈ t.portQ, ∀ x ∈ e.2, x.ctx ≠ c) ∧ (∀ e ∈ t.progs, e.2.busy = true → e.2.ctx ≠ c) ∧ (∀ e ∈ t.recs, ∀ x ∈ e.2, x.ctx ≠ c) ∧
    (∀ x ∈ t.pubs, x.ctx ≠ c) ∧ (∀ x ∈ t.combs, x.ctx ≠ c) ∧ (∀ x ∈ t.nvme, x.ctx ≠ c) ∧ (∀ x ∈ t.offl, x.ctx ≠ c) ∧
    (∀ e ∈ t.pins, e.2 ≠ some c) ∧ (∀ m ∈ t.merges, m.ctx ≠ c) ∧ (∀ k r, (k, some r) ∈ t.routines → r.ctx ≠ c) ∧
    (∀ h ∈ t.hovers, h.ctx ≠ c) ∧ (∀ e ∈ t.banks, e.2.ctx ≠ some c) ∧ (∀ e ∈ t.tlb, ∀ x ∈ e.2, x.ctx ≠ c) ∧
    (mwf DSet.reset s.dsets = true → ∀ k, (t.dset k).ctx ≠ some c) ∧ (mwf [] s.logs = true → ∀ h, ∀ e ∈ t.logOf h, e.ctx ≠ c) ∧
    (∀ k, ∀ p ∈ (t.ostler k).posters, p.ctx ≠ c) ∧ (∀ f, ∀ p ∈ (t.fn f).posts, p.ctx ≠ c) ∧
    (∀ e ∈ t.agenda, match e with
      | .post _ _ _ x _ => x ≠ c
      | _ => True)) ∧
  (∀ c (s : State), let t := s.resetCtx c
    s.portQ = [] → s.portBind = [] → mwf Ostler.reset s.ost = true → mwf Pen.reset s.pens = true → mwf none s.caches = true →
    (∀ k, (s.ostler k).ctx = some c →
      (t.ostler k = { Ostler.reset with x := (t.ostler k).x, pc := (s.ostler k).pc,
                                        run := if (s.ostler k).run = .neverRun then .neverRun else .stopped, ctx := some c,
                                        posters := (s.ostler k).posters.filter fun p => p.ctx != c, logSeq := (s.ostler k).logSeq,
                                        tier := BitVec.ofNat 64 (s.ctx c).tcap }) ∧
      (∃ n, ∀ r, 0 < r → r < 32 → mget 0 (t.ostler k).x r = Config.freeReg (n + (r - 1))) ∧
      ∀ l, l < 2 ^ 46 → t.cacheOf (agentOst (k / 32) (k % 32)) l = none) ∧
    (∀ k, (s.ostler k).ctx ≠ some c → t.ostler k = { s.ostler k with
      posters := (s.ostler k).posters.filter fun p => p.ctx != c, pens := (t.ostler k).pens }) ∧
    (∀ j, ¬((s.pen j).valid = true ∧ (s.pen j).ctx = c) →
      (t.pen j = { s.pen j with gang := (t.pen j).gang, stop := (t.pen j).stop }) ∧ (∀ i, i < 2048 → t.pe j i = s.pe j i) ∧
      ((∀ k, (s.pen k).valid = true → (s.pen k).ctx = c → k / 128 ≠ j / 128) → t.pen j = s.pen j))) ∧
  (∀ c (s : State), (∀ i, i < (s.ctx c).otn → s.otReady 0 c i = false) → let t := s.resetOffl c
    t = { s with offl := s.offl.filter (fun x => x.ctx != c), offlClear := t.offlClear } ∧
    ∀ i, i < (s.ctx c).otn → (c, i) ∈ t.offlClear) ∧
  (∀ c (s : State), (s.ctx c).otn = 1 → s.otReady 0 c 0 = true → let u := { s with offl := s.offl.filter fun x => x.ctx != c }
    ∀ e t, u.otRead 0 c 0 = (some e, t) → s.resetOffl c = if bits e 161 160 = 0 ∧ otReaders e = 0 then u else t.otSet 0 c 0 e 0 0) ∧
  (∀ w s, 300 ≤ s.clock → s.clock ≤ 600 → Completes (.powerStep w) s (fun t => t = { s with clock := t.clock } ∧ 300 ≤ t.clock ∧
      t.clock ≤ 600 ∧ (s.limit < w → t.clock = max 300 (s.clock - 25)) ∧ (w ≤ s.limit → t.clock = min 600 (s.clock + 25))) ∧
    Completes .thermalThrottle s fun t => t = { s with clock := max 300 (s.clock - 25) }) ∧
  (∀ w s, Completes (.powerLimitSet w) s fun t => t = if w ≤ 4500 then { s with limit := w } else s) ∧
  (∀ b s, Completes (.currentSurge b) s fun t => t = { s with surge := b }) ∧
  (∀ p s, Completes (.linkPortFailure p) s fun t => t = { s with portDown := t.portDown } ∧
    ∀ q, q ∈ t.portDown ↔ q ∈ s.portDown ∨ (q = p ∧ p < 18)) ∧
  (∀ p s, p < 512 → p ∉ s.peerDown → Completes (.linkPathTimeout p) s fun t => t.peerDown = p :: s.peerDown ∧ t.ost = s.ost ∧
    ∀ pa, isPeer pa = true → peerOf pa = p → t.linkDown pa = true) ∧
  (∀ p s, p ∈ s.peerDown ∨ 512 ≤ p → Completes (.linkPathTimeout p) s fun t => t = s) ∧
  (∀ p s, s.progs = [] → Completes (.peerReset p) s fun t => t = { s with ost := t.ost, pes := t.pes } ∧
    (∀ k, s.ostAtPeer k (s.ostler k) p = false → t.ostler k = s.ostler k) ∧
    ∀ k, s.ostAtPeer k (s.ostler k) p = true → t.ostler k = { s.ostler k with wait := (s.ostler k).wait.map fun w => { w with phase := 2 } }) ∧
  (∀ die n s, (s.ostler (die * 32 + n)).wait = none → Completes (.ostlerWaitEnd die n) s fun t => t = s) ∧
  ∀ die n s w, (s.ostler (die * 32 + n)).wait = some w → let u := { s with who := { s.who with die := die, n := n } }
    (∀ d a, w.instr = .eqwait d a → 0 < u.cur.eqcount → Completes (.ostlerWaitEnd die n) s fun t => Returned u t d 0) ∧
    (∀ a, w.instr = .wait a → (u.rx a).toNat ≤ s.fcycle.toNat → s.routine = none → Completes (.ostlerWaitEnd die n) s fun t =>
      OnlyCur u t ∧ t.cur = u.cur.commit) ∧
    ∀ i, w.instr = i → (∃ d a o, i = .ldd d a o ∨ i = .std d a o ∨ i = .ldb d a o ∨ i = .stb d a o) ∨ (∃ d a b x, i = .aadd d a b x) ∨
      (∃ d a b, i = .drds d a b) → ∀ t, exec i u = .next t → exec (.ostlerWaitEnd die n) s = .next t
end

