-- ==== Sys2Proof/Laws/Map.lean ====
section
/-! SUPPORT. The laws of sparse tables: read after write, and that every operation keeps the canonical form. -/

namespace Sys2Proof.Machine

variable {α : Type} (d : α)

@[simp] theorem mget_nil (i : Nat) : mget d [] i = d := rfl

theorem mget_mput_same (m : SMap α) (i : Nat) (v : α) : mget d (mput m i v) i = v := by
  induction m with
  | nil => simp [mput, mget]
  | cons e t ih =>
    obtain ⟨k, w⟩ := e
    unfold mput
    split
    · simp [mget]
    · split
      · simp [mget]
      · rename_i h _; simp [mget, h, ih]

theorem mget_mput_ne (m : SMap α) {i j : Nat} (h : j ≠ i) (v : α) : mget d (mput m i v) j = mget d m j := by
  induction m with
  | nil => simp [mput, mget, h.symm]
  | cons e t ih =>
    obtain ⟨k, w⟩ := e
    unfold mput
    split
    · rename_i hk; subst hk; simp [mget, h.symm]
    · split
      · simp [mget, h.symm]
      · simp [mget, ih]

theorem mget_mdel_same (m : SMap α) (i : Nat) : mget d (mdel m i) i = d := by
  induction m with
  | nil => rfl
  | cons e t ih =>
    obtain ⟨k, w⟩ := e
    by_cases hk : k = i
    · simpa [mdel, List.filter_cons, hk] using ih
    · simpa [mdel, List.filter_cons, hk, mget] using ih

theorem mget_mdel_ne (m : SMap α) {i j : Nat} (h : j ≠ i) : mget d (mdel m i) j = mget d m j := by
  induction m with
  | nil => rfl
  | cons e t ih =>
    obtain ⟨k, w⟩ := e
    by_cases hk : k = i
    · subst hk; simpa [mdel, List.filter_cons, mget, h.symm] using ih
    · have ih' : mget d (List.filter (fun e => e.1 != i) t) j = mget d t j := ih
      simp [mdel, hk, mget, ih']

/-- A read of the key just written gives the value written. -/
@[simp] theorem mget_mset_same [DecidableEq α] (m : SMap α) (i : Nat) (v : α) : mget d (mset d m i v) i = v := by
  unfold mset
  split
  · rename_i h; rw [mget_mdel_same, h]
  · exact mget_mput_same d m i v

/-- A write leaves every other key alone. -/
theorem mget_mset_ne [DecidableEq α] (m : SMap α) {i j : Nat} (h : j ≠ i) (v : α) :
    mget d (mset d m i v) j = mget d m j := by
  unfold mset
  split
  · exact mget_mdel_ne d m h
  · exact mget_mput_ne d m h v

theorem mget_mset [DecidableEq α] (m : SMap α) (i j : Nat) (v : α) :
    mget d (mset d m i v) j = if j = i then v else mget d m j := by
  split
  · rename_i h; subst h; simp
  · rename_i h; exact mget_mset_ne d m h v

theorem wfFrom_mono [DecidableEq α] {lo hi : Nat} (h : lo ≤ hi) (m : SMap α) (w : wfFrom d hi m = true) :
    wfFrom d lo m = true := by
  cases m with
  | nil => rfl
  | cons e t =>
    obtain ⟨k, v⟩ := e
    simp only [wfFrom, Bool.and_eq_true, decide_eq_true_eq] at w ⊢
    exact ⟨⟨by omega, w.1.2⟩, w.2⟩

theorem wfFrom_mdel [DecidableEq α] (m : SMap α) (i lo : Nat) (w : wfFrom d lo m = true) :
    wfFrom d lo (mdel m i) = true := by
  induction m generalizing lo with
  | nil => rfl
  | cons e t ih =>
    obtain ⟨k, v⟩ := e
    simp only [wfFrom, Bool.and_eq_true, decide_eq_true_eq] at w
    have iht := ih (k + 1) w.2
    by_cases hk : k = i
    · have : mdel ((k, v) :: t) i = mdel t i := by simp [mdel, hk]
      rw [this]; exact wfFrom_mono d (by omega) _ iht
    · have : mdel ((k, v) :: t) i = (k, v) :: mdel t i := by simp [mdel, hk]
      rw [this]
      simp only [wfFrom, Bool.and_eq_true, decide_eq_true_eq]
      exact ⟨w.1, iht⟩

theorem wfFrom_mput [DecidableEq α] (m : SMap α) (i lo : Nat) (v : α) (hv : v ≠ d) (hlo : lo ≤ i)
    (w : wfFrom d lo m = true) : wfFrom d lo (mput m i v) = true := by
  induction m generalizing lo with
  | nil => simp [mput, wfFrom, hv, hlo]
  | cons e t ih =>
    obtain ⟨k, x⟩ := e
    simp only [wfFrom, Bool.and_eq_true, decide_eq_true_eq] at w
    unfold mput
    split
    · rename_i hk; subst hk
      simp only [wfFrom, Bool.and_eq_true, decide_eq_true_eq]
      exact ⟨⟨hlo, hv⟩, w.2⟩
    · split
      · simp only [wfFrom, Bool.and_eq_true, decide_eq_true_eq]
        exact ⟨⟨hlo, hv⟩, ⟨by omega, w.1.2⟩, w.2⟩
      · simp only [wfFrom, Bool.and_eq_true, decide_eq_true_eq]
        exact ⟨w.1, ih (k + 1) (by omega) w.2⟩

/-- Every write of a table keeps its canonical form. -/
theorem mwf_mset [DecidableEq α] (m : SMap α) (i : Nat) (v : α) (w : mwf d m = true) : mwf d (mset d m i v) = true := by
  unfold mset mwf at *
  split
  · exact wfFrom_mdel d m i 0 w
  · rename_i h; exact wfFrom_mput d m i 0 v h (by omega) w

/-- A key below every key of a table in canonical form reads the unlisted value. -/
theorem mget_below [DecidableEq α] (m : SMap α) (lo j : Nat) (h : j < lo) (w : wfFrom d lo m = true) : mget d m j = d := by
  induction m generalizing lo with
  | nil => rfl
  | cons e t ih =>
    obtain ⟨k, v⟩ := e
    simp only [wfFrom, Bool.and_eq_true, decide_eq_true_eq] at w
    have hk : k ≠ j := by omega
    simp only [mget, hk, if_false]
    exact ih (k + 1) (by omega) w.2

/-- Tables in canonical form that read alike are equal. -/
theorem mwf_ext [DecidableEq α] (m n : SMap α) (lo : Nat) (hm : wfFrom d lo m = true) (hn : wfFrom d lo n = true)
    (h : ∀ j, mget d m j = mget d n j) : m = n := by
  induction m generalizing n lo with
  | nil =>
    cases n with
    | nil => rfl
    | cons e t =>
      obtain ⟨k, v⟩ := e
      simp only [wfFrom, Bool.and_eq_true, decide_eq_true_eq] at hn
      have := h k; simp [mget] at this
      exact absurd this.symm hn.1.2
  | cons e t ih =>
    obtain ⟨k, v⟩ := e
    simp only [wfFrom, Bool.and_eq_true, decide_eq_true_eq] at hm
    cases n with
    | nil => have := h k; simp [mget] at this; exact absurd this hm.1.2
    | cons e' t' =>
      obtain ⟨k', v'⟩ := e'
      simp only [wfFrom, Bool.and_eq_true, decide_eq_true_eq] at hn
      have hkk : k = k' := by
        rcases Nat.lt_trichotomy k k' with hlt | heq | hgt
        · have := h k
          rw [show mget d ((k', v') :: t') k = d from
            mget_below d _ k' k hlt (by simp [wfFrom, hn.1.2, hn.2])] at this
          simp [mget] at this; exact absurd this hm.1.2
        · exact heq
        · have := h k'
          rw [show mget d ((k, v) :: t) k' = d from
            mget_below d _ k k' hgt (by simp [wfFrom, hm.1.2, hm.2])] at this
          simp [mget] at this; exact absurd this.symm hn.1.2
      subst hkk
      have hv : v = v' := by have := h k; simpa [mget] using this
      subst hv
      have : t = t' := ih t' (k + 1) hm.2 hn.2 fun j => by
        by_cases hj : k = j
        · subst hj
          rw [mget_below d t (k + 1) k (by omega) hm.2, mget_below d t' (k + 1) k (by omega) hn.2]
        · have := h j; simpa [mget, hj] using this
      rw [this]

end Sys2Proof.Machine
end

