-- ==== Sys2Proof/Laws/State.lean ====
section
/-! SUPPORT. Every update of the state, field by field: what it writes and what it leaves. -/

namespace Sys2Proof.Machine

variable (s : State)

/-! setOstler -/

@[simp] theorem State.setOstler_fcycle (k : Nat) (o : Ostler) : (s.setOstler k o).fcycle = s.fcycle := rfl
@[simp] theorem State.setOstler_phase (k : Nat) (o : Ostler) : (s.setOstler k o).phase = s.phase := rfl
@[simp] theorem State.setOstler_agenda (k : Nat) (o : Ostler) : (s.setOstler k o).agenda = s.agenda := rfl
@[simp] theorem State.setOstler_who (k : Nat) (o : Ostler) : (s.setOstler k o).who = s.who := rfl
@[simp] theorem State.setOstler_ir (k : Nat) (o : Ostler) : (s.setOstler k o).ir = s.ir := rfl
@[simp] theorem State.setOstler_freeCtr (k : Nat) (o : Ostler) : (s.setOstler k o).freeCtr = s.freeCtr := rfl
@[simp] theorem State.setOstler_routine (k : Nat) (o : Ostler) : (s.setOstler k o).routine = s.routine := rfl
@[simp] theorem State.setOstler_mem (k : Nat) (o : Ostler) : (s.setOstler k o).mem = s.mem := rfl
@[simp] theorem State.setOstler_chk (k : Nat) (o : Ostler) : (s.setOstler k o).chk = s.chk := rfl
@[simp] theorem State.setOstler_poison (k : Nat) (o : Ostler) : (s.setOstler k o).poison = s.poison := rfl
@[simp] theorem State.setOstler_l2 (k : Nat) (o : Ostler) : (s.setOstler k o).l2 = s.l2 := rfl
@[simp] theorem State.setOstler_dir (k : Nat) (o : Ostler) : (s.setOstler k o).dir = s.dir := rfl
@[simp] theorem State.setOstler_pins (k : Nat) (o : Ostler) : (s.setOstler k o).pins = s.pins := rfl
@[simp] theorem State.setOstler_pages (k : Nat) (o : Ostler) : (s.setOstler k o).pages = s.pages := rfl
@[simp] theorem State.setOstler_pageReqs (k : Nat) (o : Ostler) : (s.setOstler k o).pageReqs = s.pageReqs := rfl
@[simp] theorem State.setOstler_caches (k : Nat) (o : Ostler) : (s.setOstler k o).caches = s.caches := rfl
@[simp] theorem State.setOstler_icache (k : Nat) (o : Ostler) : (s.setOstler k o).icache = s.icache := rfl
@[simp] theorem State.setOstler_tlb (k : Nat) (o : Ostler) : (s.setOstler k o).tlb = s.tlb := rfl
@[simp] theorem State.setOstler_maint (k : Nat) (o : Ostler) : (s.setOstler k o).maint = s.maint := rfl
@[simp] theorem State.setOstler_ctxs (k : Nat) (o : Ostler) : (s.setOstler k o).ctxs = s.ctxs := rfl
@[simp] theorem State.setOstler_routines (k : Nat) (o : Ostler) : (s.setOstler k o).routines = s.routines := rfl
@[simp] theorem State.setOstler_tele (k : Nat) (o : Ostler) : (s.setOstler k o).tele = s.tele := rfl
@[simp] theorem State.setOstler_teleSnap (k : Nat) (o : Ostler) : (s.setOstler k o).teleSnap = s.teleSnap := rfl
@[simp] theorem State.setOstler_teleStamp (k : Nat) (o : Ostler) : (s.setOstler k o).teleStamp = s.teleStamp := rfl
@[simp] theorem State.setOstler_ost (k : Nat) (o : Ostler) : (s.setOstler k o).ost = mset Ostler.reset s.ost k o := rfl
@[simp] theorem State.setOstler_pens (k : Nat) (o : Ostler) : (s.setOstler k o).pens = s.pens := rfl
@[simp] theorem State.setOstler_pes (k : Nat) (o : Ostler) : (s.setOstler k o).pes = s.pes := rfl
@[simp] theorem State.setOstler_stalls (k : Nat) (o : Ostler) : (s.setOstler k o).stalls = s.stalls := rfl
@[simp] theorem State.setOstler_jobs (k : Nat) (o : Ostler) : (s.setOstler k o).jobs = s.jobs := rfl
@[simp] theorem State.setOstler_active (k : Nat) (o : Ostler) : (s.setOstler k o).active = s.active := rfl
@[simp] theorem State.setOstler_accSeq (k : Nat) (o : Ostler) : (s.setOstler k o).accSeq = s.accSeq := rfl
@[simp] theorem State.setOstler_recs (k : Nat) (o : Ostler) : (s.setOstler k o).recs = s.recs := rfl
@[simp] theorem State.setOstler_portQ (k : Nat) (o : Ostler) : (s.setOstler k o).portQ = s.portQ := rfl
@[simp] theorem State.setOstler_portBind (k : Nat) (o : Ostler) : (s.setOstler k o).portBind = s.portBind := rfl
@[simp] theorem State.setOstler_progs (k : Nat) (o : Ostler) : (s.setOstler k o).progs = s.progs := rfl
@[simp] theorem State.setOstler_rr (k : Nat) (o : Ostler) : (s.setOstler k o).rr = s.rr := rfl
@[simp] theorem State.setOstler_dsets (k : Nat) (o : Ostler) : (s.setOstler k o).dsets = s.dsets := rfl
@[simp] theorem State.setOstler_dseq (k : Nat) (o : Ostler) : (s.setOstler k o).dseq = s.dseq := rfl
@[simp] theorem State.setOstler_rescans (k : Nat) (o : Ostler) : (s.setOstler k o).rescans = s.rescans := rfl
@[simp] theorem State.setOstler_logs (k : Nat) (o : Ostler) : (s.setOstler k o).logs = s.logs := rfl
@[simp] theorem State.setOstler_merges (k : Nat) (o : Ostler) : (s.setOstler k o).merges = s.merges := rfl
@[simp] theorem State.setOstler_combs (k : Nat) (o : Ostler) : (s.setOstler k o).combs = s.combs := rfl
@[simp] theorem State.setOstler_timers (k : Nat) (o : Ostler) : (s.setOstler k o).timers = s.timers := rfl
@[simp] theorem State.setOstler_pubs (k : Nat) (o : Ostler) : (s.setOstler k o).pubs = s.pubs := rfl
@[simp] theorem State.setOstler_arrs (k : Nat) (o : Ostler) : (s.setOstler k o).arrs = s.arrs := rfl
@[simp] theorem State.setOstler_banks (k : Nat) (o : Ostler) : (s.setOstler k o).banks = s.banks := rfl
@[simp] theorem State.setOstler_nvme (k : Nat) (o : Ostler) : (s.setOstler k o).nvme = s.nvme := rfl
@[simp] theorem State.setOstler_offl (k : Nat) (o : Ostler) : (s.setOstler k o).offl = s.offl := rfl
@[simp] theorem State.setOstler_offlClear (k : Nat) (o : Ostler) : (s.setOstler k o).offlClear = s.offlClear := rfl
@[simp] theorem State.setOstler_hovers (k : Nat) (o : Ostler) : (s.setOstler k o).hovers = s.hovers := rfl
@[simp] theorem State.setOstler_fns (k : Nat) (o : Ostler) : (s.setOstler k o).fns = s.fns := rfl
@[simp] theorem State.setOstler_pf (k : Nat) (o : Ostler) : (s.setOstler k o).pf = s.pf := rfl
@[simp] theorem State.setOstler_msgs (k : Nat) (o : Ostler) : (s.setOstler k o).msgs = s.msgs := rfl
@[simp] theorem State.setOstler_portDown (k : Nat) (o : Ostler) : (s.setOstler k o).portDown = s.portDown := rfl
@[simp] theorem State.setOstler_peerDown (k : Nat) (o : Ostler) : (s.setOstler k o).peerDown = s.peerDown := rfl
@[simp] theorem State.setOstler_limit (k : Nat) (o : Ostler) : (s.setOstler k o).limit = s.limit := rfl
@[simp] theorem State.setOstler_clock (k : Nat) (o : Ostler) : (s.setOstler k o).clock = s.clock := rfl
@[simp] theorem State.setOstler_surge (k : Nat) (o : Ostler) : (s.setOstler k o).surge = s.surge := rfl
@[simp] theorem State.setOstler_tripped (k : Nat) (o : Ostler) : (s.setOstler k o).tripped = s.tripped := rfl

/-! setCur -/

@[simp] theorem State.setCur_fcycle (o : Ostler) : (s.setCur o).fcycle = s.fcycle := rfl
@[simp] theorem State.setCur_phase (o : Ostler) : (s.setCur o).phase = s.phase := rfl
@[simp] theorem State.setCur_agenda (o : Ostler) : (s.setCur o).agenda = s.agenda := rfl
@[simp] theorem State.setCur_who (o : Ostler) : (s.setCur o).who = s.who := rfl
@[simp] theorem State.setCur_ir (o : Ostler) : (s.setCur o).ir = s.ir := rfl
@[simp] theorem State.setCur_freeCtr (o : Ostler) : (s.setCur o).freeCtr = s.freeCtr := rfl
@[simp] theorem State.setCur_routine (o : Ostler) : (s.setCur o).routine = s.routine := rfl
@[simp] theorem State.setCur_mem (o : Ostler) : (s.setCur o).mem = s.mem := rfl
@[simp] theorem State.setCur_chk (o : Ostler) : (s.setCur o).chk = s.chk := rfl
@[simp] theorem State.setCur_poison (o : Ostler) : (s.setCur o).poison = s.poison := rfl
@[simp] theorem State.setCur_l2 (o : Ostler) : (s.setCur o).l2 = s.l2 := rfl
@[simp] theorem State.setCur_dir (o : Ostler) : (s.setCur o).dir = s.dir := rfl
@[simp] theorem State.setCur_pins (o : Ostler) : (s.setCur o).pins = s.pins := rfl
@[simp] theorem State.setCur_pages (o : Ostler) : (s.setCur o).pages = s.pages := rfl
@[simp] theorem State.setCur_pageReqs (o : Ostler) : (s.setCur o).pageReqs = s.pageReqs := rfl
@[simp] theorem State.setCur_caches (o : Ostler) : (s.setCur o).caches = s.caches := rfl
@[simp] theorem State.setCur_icache (o : Ostler) : (s.setCur o).icache = s.icache := rfl
@[simp] theorem State.setCur_tlb (o : Ostler) : (s.setCur o).tlb = s.tlb := rfl
@[simp] theorem State.setCur_maint (o : Ostler) : (s.setCur o).maint = s.maint := rfl
@[simp] theorem State.setCur_ctxs (o : Ostler) : (s.setCur o).ctxs = s.ctxs := rfl
@[simp] theorem State.setCur_routines (o : Ostler) : (s.setCur o).routines = s.routines := rfl
@[simp] theorem State.setCur_tele (o : Ostler) : (s.setCur o).tele = s.tele := rfl
@[simp] theorem State.setCur_teleSnap (o : Ostler) : (s.setCur o).teleSnap = s.teleSnap := rfl
@[simp] theorem State.setCur_teleStamp (o : Ostler) : (s.setCur o).teleStamp = s.teleStamp := rfl
@[simp] theorem State.setCur_ost (o : Ostler) : (s.setCur o).ost = mset Ostler.reset s.ost s.me o := rfl
@[simp] theorem State.setCur_pens (o : Ostler) : (s.setCur o).pens = s.pens := rfl
@[simp] theorem State.setCur_pes (o : Ostler) : (s.setCur o).pes = s.pes := rfl
@[simp] theorem State.setCur_stalls (o : Ostler) : (s.setCur o).stalls = s.stalls := rfl
@[simp] theorem State.setCur_jobs (o : Ostler) : (s.setCur o).jobs = s.jobs := rfl
@[simp] theorem State.setCur_active (o : Ostler) : (s.setCur o).active = s.active := rfl
@[simp] theorem State.setCur_accSeq (o : Ostler) : (s.setCur o).accSeq = s.accSeq := rfl
@[simp] theorem State.setCur_recs (o : Ostler) : (s.setCur o).recs = s.recs := rfl
@[simp] theorem State.setCur_portQ (o : Ostler) : (s.setCur o).portQ = s.portQ := rfl
@[simp] theorem State.setCur_portBind (o : Ostler) : (s.setCur o).portBind = s.portBind := rfl
@[simp] theorem State.setCur_progs (o : Ostler) : (s.setCur o).progs = s.progs := rfl
@[simp] theorem State.setCur_rr (o : Ostler) : (s.setCur o).rr = s.rr := rfl
@[simp] theorem State.setCur_dsets (o : Ostler) : (s.setCur o).dsets = s.dsets := rfl
@[simp] theorem State.setCur_dseq (o : Ostler) : (s.setCur o).dseq = s.dseq := rfl
@[simp] theorem State.setCur_rescans (o : Ostler) : (s.setCur o).rescans = s.rescans := rfl
@[simp] theorem State.setCur_logs (o : Ostler) : (s.setCur o).logs = s.logs := rfl
@[simp] theorem State.setCur_merges (o : Ostler) : (s.setCur o).merges = s.merges := rfl
@[simp] theorem State.setCur_combs (o : Ostler) : (s.setCur o).combs = s.combs := rfl
@[simp] theorem State.setCur_timers (o : Ostler) : (s.setCur o).timers = s.timers := rfl
@[simp] theorem State.setCur_pubs (o : Ostler) : (s.setCur o).pubs = s.pubs := rfl
@[simp] theorem State.setCur_arrs (o : Ostler) : (s.setCur o).arrs = s.arrs := rfl
@[simp] theorem State.setCur_banks (o : Ostler) : (s.setCur o).banks = s.banks := rfl
@[simp] theorem State.setCur_nvme (o : Ostler) : (s.setCur o).nvme = s.nvme := rfl
@[simp] theorem State.setCur_offl (o : Ostler) : (s.setCur o).offl = s.offl := rfl
@[simp] theorem State.setCur_offlClear (o : Ostler) : (s.setCur o).offlClear = s.offlClear := rfl
@[simp] theorem State.setCur_hovers (o : Ostler) : (s.setCur o).hovers = s.hovers := rfl
@[simp] theorem State.setCur_fns (o : Ostler) : (s.setCur o).fns = s.fns := rfl
@[simp] theorem State.setCur_pf (o : Ostler) : (s.setCur o).pf = s.pf := rfl
@[simp] theorem State.setCur_msgs (o : Ostler) : (s.setCur o).msgs = s.msgs := rfl
@[simp] theorem State.setCur_portDown (o : Ostler) : (s.setCur o).portDown = s.portDown := rfl
@[simp] theorem State.setCur_peerDown (o : Ostler) : (s.setCur o).peerDown = s.peerDown := rfl
@[simp] theorem State.setCur_limit (o : Ostler) : (s.setCur o).limit = s.limit := rfl
@[simp] theorem State.setCur_clock (o : Ostler) : (s.setCur o).clock = s.clock := rfl
@[simp] theorem State.setCur_surge (o : Ostler) : (s.setCur o).surge = s.surge := rfl
@[simp] theorem State.setCur_tripped (o : Ostler) : (s.setCur o).tripped = s.tripped := rfl

/-! setPen -/

@[simp] theorem State.setPen_fcycle (k : Nat) (p : Pen) : (s.setPen k p).fcycle = s.fcycle := rfl
@[simp] theorem State.setPen_phase (k : Nat) (p : Pen) : (s.setPen k p).phase = s.phase := rfl
@[simp] theorem State.setPen_agenda (k : Nat) (p : Pen) : (s.setPen k p).agenda = s.agenda := rfl
@[simp] theorem State.setPen_who (k : Nat) (p : Pen) : (s.setPen k p).who = s.who := rfl
@[simp] theorem State.setPen_ir (k : Nat) (p : Pen) : (s.setPen k p).ir = s.ir := rfl
@[simp] theorem State.setPen_freeCtr (k : Nat) (p : Pen) : (s.setPen k p).freeCtr = s.freeCtr := rfl
@[simp] theorem State.setPen_routine (k : Nat) (p : Pen) : (s.setPen k p).routine = s.routine := rfl
@[simp] theorem State.setPen_mem (k : Nat) (p : Pen) : (s.setPen k p).mem = s.mem := rfl
@[simp] theorem State.setPen_chk (k : Nat) (p : Pen) : (s.setPen k p).chk = s.chk := rfl
@[simp] theorem State.setPen_poison (k : Nat) (p : Pen) : (s.setPen k p).poison = s.poison := rfl
@[simp] theorem State.setPen_l2 (k : Nat) (p : Pen) : (s.setPen k p).l2 = s.l2 := rfl
@[simp] theorem State.setPen_dir (k : Nat) (p : Pen) : (s.setPen k p).dir = s.dir := rfl
@[simp] theorem State.setPen_pins (k : Nat) (p : Pen) : (s.setPen k p).pins = s.pins := rfl
@[simp] theorem State.setPen_pages (k : Nat) (p : Pen) : (s.setPen k p).pages = s.pages := rfl
@[simp] theorem State.setPen_pageReqs (k : Nat) (p : Pen) : (s.setPen k p).pageReqs = s.pageReqs := rfl
@[simp] theorem State.setPen_caches (k : Nat) (p : Pen) : (s.setPen k p).caches = s.caches := rfl
@[simp] theorem State.setPen_icache (k : Nat) (p : Pen) : (s.setPen k p).icache = s.icache := rfl
@[simp] theorem State.setPen_tlb (k : Nat) (p : Pen) : (s.setPen k p).tlb = s.tlb := rfl
@[simp] theorem State.setPen_maint (k : Nat) (p : Pen) : (s.setPen k p).maint = s.maint := rfl
@[simp] theorem State.setPen_ctxs (k : Nat) (p : Pen) : (s.setPen k p).ctxs = s.ctxs := rfl
@[simp] theorem State.setPen_routines (k : Nat) (p : Pen) : (s.setPen k p).routines = s.routines := rfl
@[simp] theorem State.setPen_tele (k : Nat) (p : Pen) : (s.setPen k p).tele = s.tele := rfl
@[simp] theorem State.setPen_teleSnap (k : Nat) (p : Pen) : (s.setPen k p).teleSnap = s.teleSnap := rfl
@[simp] theorem State.setPen_teleStamp (k : Nat) (p : Pen) : (s.setPen k p).teleStamp = s.teleStamp := rfl
@[simp] theorem State.setPen_ost (k : Nat) (p : Pen) : (s.setPen k p).ost = s.ost := rfl
@[simp] theorem State.setPen_pens (k : Nat) (p : Pen) : (s.setPen k p).pens = mset Pen.reset s.pens k p := rfl
@[simp] theorem State.setPen_pes (k : Nat) (p : Pen) : (s.setPen k p).pes = s.pes := rfl
@[simp] theorem State.setPen_stalls (k : Nat) (p : Pen) : (s.setPen k p).stalls = s.stalls := rfl
@[simp] theorem State.setPen_jobs (k : Nat) (p : Pen) : (s.setPen k p).jobs = s.jobs := rfl
@[simp] theorem State.setPen_active (k : Nat) (p : Pen) : (s.setPen k p).active = s.active := rfl
@[simp] theorem State.setPen_accSeq (k : Nat) (p : Pen) : (s.setPen k p).accSeq = s.accSeq := rfl
@[simp] theorem State.setPen_recs (k : Nat) (p : Pen) : (s.setPen k p).recs = s.recs := rfl
@[simp] theorem State.setPen_portQ (k : Nat) (p : Pen) : (s.setPen k p).portQ = s.portQ := rfl
@[simp] theorem State.setPen_portBind (k : Nat) (p : Pen) : (s.setPen k p).portBind = s.portBind := rfl
@[simp] theorem State.setPen_progs (k : Nat) (p : Pen) : (s.setPen k p).progs = s.progs := rfl
@[simp] theorem State.setPen_rr (k : Nat) (p : Pen) : (s.setPen k p).rr = s.rr := rfl
@[simp] theorem State.setPen_dsets (k : Nat) (p : Pen) : (s.setPen k p).dsets = s.dsets := rfl
@[simp] theorem State.setPen_dseq (k : Nat) (p : Pen) : (s.setPen k p).dseq = s.dseq := rfl
@[simp] theorem State.setPen_rescans (k : Nat) (p : Pen) : (s.setPen k p).rescans = s.rescans := rfl
@[simp] theorem State.setPen_logs (k : Nat) (p : Pen) : (s.setPen k p).logs = s.logs := rfl
@[simp] theorem State.setPen_merges (k : Nat) (p : Pen) : (s.setPen k p).merges = s.merges := rfl
@[simp] theorem State.setPen_combs (k : Nat) (p : Pen) : (s.setPen k p).combs = s.combs := rfl
@[simp] theorem State.setPen_timers (k : Nat) (p : Pen) : (s.setPen k p).timers = s.timers := rfl
@[simp] theorem State.setPen_pubs (k : Nat) (p : Pen) : (s.setPen k p).pubs = s.pubs := rfl
@[simp] theorem State.setPen_arrs (k : Nat) (p : Pen) : (s.setPen k p).arrs = s.arrs := rfl
@[simp] theorem State.setPen_banks (k : Nat) (p : Pen) : (s.setPen k p).banks = s.banks := rfl
@[simp] theorem State.setPen_nvme (k : Nat) (p : Pen) : (s.setPen k p).nvme = s.nvme := rfl
@[simp] theorem State.setPen_offl (k : Nat) (p : Pen) : (s.setPen k p).offl = s.offl := rfl
@[simp] theorem State.setPen_offlClear (k : Nat) (p : Pen) : (s.setPen k p).offlClear = s.offlClear := rfl
@[simp] theorem State.setPen_hovers (k : Nat) (p : Pen) : (s.setPen k p).hovers = s.hovers := rfl
@[simp] theorem State.setPen_fns (k : Nat) (p : Pen) : (s.setPen k p).fns = s.fns := rfl
@[simp] theorem State.setPen_pf (k : Nat) (p : Pen) : (s.setPen k p).pf = s.pf := rfl
@[simp] theorem State.setPen_msgs (k : Nat) (p : Pen) : (s.setPen k p).msgs = s.msgs := rfl
@[simp] theorem State.setPen_portDown (k : Nat) (p : Pen) : (s.setPen k p).portDown = s.portDown := rfl
@[simp] theorem State.setPen_peerDown (k : Nat) (p : Pen) : (s.setPen k p).peerDown = s.peerDown := rfl
@[simp] theorem State.setPen_limit (k : Nat) (p : Pen) : (s.setPen k p).limit = s.limit := rfl
@[simp] theorem State.setPen_clock (k : Nat) (p : Pen) : (s.setPen k p).clock = s.clock := rfl
@[simp] theorem State.setPen_surge (k : Nat) (p : Pen) : (s.setPen k p).surge = s.surge := rfl
@[simp] theorem State.setPen_tripped (k : Nat) (p : Pen) : (s.setPen k p).tripped = s.tripped := rfl

/-! setPe -/

@[simp] theorem State.setPe_fcycle (k i : Nat) (p : PE) : (s.setPe k i p).fcycle = s.fcycle := rfl
@[simp] theorem State.setPe_phase (k i : Nat) (p : PE) : (s.setPe k i p).phase = s.phase := rfl
@[simp] theorem State.setPe_agenda (k i : Nat) (p : PE) : (s.setPe k i p).agenda = s.agenda := rfl
@[simp] theorem State.setPe_who (k i : Nat) (p : PE) : (s.setPe k i p).who = s.who := rfl
@[simp] theorem State.setPe_ir (k i : Nat) (p : PE) : (s.setPe k i p).ir = s.ir := rfl
@[simp] theorem State.setPe_freeCtr (k i : Nat) (p : PE) : (s.setPe k i p).freeCtr = s.freeCtr := rfl
@[simp] theorem State.setPe_routine (k i : Nat) (p : PE) : (s.setPe k i p).routine = s.routine := rfl
@[simp] theorem State.setPe_mem (k i : Nat) (p : PE) : (s.setPe k i p).mem = s.mem := rfl
@[simp] theorem State.setPe_chk (k i : Nat) (p : PE) : (s.setPe k i p).chk = s.chk := rfl
@[simp] theorem State.setPe_poison (k i : Nat) (p : PE) : (s.setPe k i p).poison = s.poison := rfl
@[simp] theorem State.setPe_l2 (k i : Nat) (p : PE) : (s.setPe k i p).l2 = s.l2 := rfl
@[simp] theorem State.setPe_dir (k i : Nat) (p : PE) : (s.setPe k i p).dir = s.dir := rfl
@[simp] theorem State.setPe_pins (k i : Nat) (p : PE) : (s.setPe k i p).pins = s.pins := rfl
@[simp] theorem State.setPe_pages (k i : Nat) (p : PE) : (s.setPe k i p).pages = s.pages := rfl
@[simp] theorem State.setPe_pageReqs (k i : Nat) (p : PE) : (s.setPe k i p).pageReqs = s.pageReqs := rfl
@[simp] theorem State.setPe_caches (k i : Nat) (p : PE) : (s.setPe k i p).caches = s.caches := rfl
@[simp] theorem State.setPe_icache (k i : Nat) (p : PE) : (s.setPe k i p).icache = s.icache := rfl
@[simp] theorem State.setPe_tlb (k i : Nat) (p : PE) : (s.setPe k i p).tlb = s.tlb := rfl
@[simp] theorem State.setPe_maint (k i : Nat) (p : PE) : (s.setPe k i p).maint = s.maint := rfl
@[simp] theorem State.setPe_ctxs (k i : Nat) (p : PE) : (s.setPe k i p).ctxs = s.ctxs := rfl
@[simp] theorem State.setPe_routines (k i : Nat) (p : PE) : (s.setPe k i p).routines = s.routines := rfl
@[simp] theorem State.setPe_tele (k i : Nat) (p : PE) : (s.setPe k i p).tele = s.tele := rfl
@[simp] theorem State.setPe_teleSnap (k i : Nat) (p : PE) : (s.setPe k i p).teleSnap = s.teleSnap := rfl
@[simp] theorem State.setPe_teleStamp (k i : Nat) (p : PE) : (s.setPe k i p).teleStamp = s.teleStamp := rfl
@[simp] theorem State.setPe_ost (k i : Nat) (p : PE) : (s.setPe k i p).ost = s.ost := rfl
@[simp] theorem State.setPe_pens (k i : Nat) (p : PE) : (s.setPe k i p).pens = s.pens := rfl
@[simp] theorem State.setPe_pes (k i : Nat) (p : PE) : (s.setPe k i p).pes = mset PE.reset s.pes (peKey k i) p := rfl
@[simp] theorem State.setPe_stalls (k i : Nat) (p : PE) : (s.setPe k i p).stalls = s.stalls := rfl
@[simp] theorem State.setPe_jobs (k i : Nat) (p : PE) : (s.setPe k i p).jobs = s.jobs := rfl
@[simp] theorem State.setPe_active (k i : Nat) (p : PE) : (s.setPe k i p).active = s.active := rfl
@[simp] theorem State.setPe_accSeq (k i : Nat) (p : PE) : (s.setPe k i p).accSeq = s.accSeq := rfl
@[simp] theorem State.setPe_recs (k i : Nat) (p : PE) : (s.setPe k i p).recs = s.recs := rfl
@[simp] theorem State.setPe_portQ (k i : Nat) (p : PE) : (s.setPe k i p).portQ = s.portQ := rfl
@[simp] theorem State.setPe_portBind (k i : Nat) (p : PE) : (s.setPe k i p).portBind = s.portBind := rfl
@[simp] theorem State.setPe_progs (k i : Nat) (p : PE) : (s.setPe k i p).progs = s.progs := rfl
@[simp] theorem State.setPe_rr (k i : Nat) (p : PE) : (s.setPe k i p).rr = s.rr := rfl
@[simp] theorem State.setPe_dsets (k i : Nat) (p : PE) : (s.setPe k i p).dsets = s.dsets := rfl
@[simp] theorem State.setPe_dseq (k i : Nat) (p : PE) : (s.setPe k i p).dseq = s.dseq := rfl
@[simp] theorem State.setPe_rescans (k i : Nat) (p : PE) : (s.setPe k i p).rescans = s.rescans := rfl
@[simp] theorem State.setPe_logs (k i : Nat) (p : PE) : (s.setPe k i p).logs = s.logs := rfl
@[simp] theorem State.setPe_merges (k i : Nat) (p : PE) : (s.setPe k i p).merges = s.merges := rfl
@[simp] theorem State.setPe_combs (k i : Nat) (p : PE) : (s.setPe k i p).combs = s.combs := rfl
@[simp] theorem State.setPe_timers (k i : Nat) (p : PE) : (s.setPe k i p).timers = s.timers := rfl
@[simp] theorem State.setPe_pubs (k i : Nat) (p : PE) : (s.setPe k i p).pubs = s.pubs := rfl
@[simp] theorem State.setPe_arrs (k i : Nat) (p : PE) : (s.setPe k i p).arrs = s.arrs := rfl
@[simp] theorem State.setPe_banks (k i : Nat) (p : PE) : (s.setPe k i p).banks = s.banks := rfl
@[simp] theorem State.setPe_nvme (k i : Nat) (p : PE) : (s.setPe k i p).nvme = s.nvme := rfl
@[simp] theorem State.setPe_offl (k i : Nat) (p : PE) : (s.setPe k i p).offl = s.offl := rfl
@[simp] theorem State.setPe_offlClear (k i : Nat) (p : PE) : (s.setPe k i p).offlClear = s.offlClear := rfl
@[simp] theorem State.setPe_hovers (k i : Nat) (p : PE) : (s.setPe k i p).hovers = s.hovers := rfl
@[simp] theorem State.setPe_fns (k i : Nat) (p : PE) : (s.setPe k i p).fns = s.fns := rfl
@[simp] theorem State.setPe_pf (k i : Nat) (p : PE) : (s.setPe k i p).pf = s.pf := rfl
@[simp] theorem State.setPe_msgs (k i : Nat) (p : PE) : (s.setPe k i p).msgs = s.msgs := rfl
@[simp] theorem State.setPe_portDown (k i : Nat) (p : PE) : (s.setPe k i p).portDown = s.portDown := rfl
@[simp] theorem State.setPe_peerDown (k i : Nat) (p : PE) : (s.setPe k i p).peerDown = s.peerDown := rfl
@[simp] theorem State.setPe_limit (k i : Nat) (p : PE) : (s.setPe k i p).limit = s.limit := rfl
@[simp] theorem State.setPe_clock (k i : Nat) (p : PE) : (s.setPe k i p).clock = s.clock := rfl
@[simp] theorem State.setPe_surge (k i : Nat) (p : PE) : (s.setPe k i p).surge = s.surge := rfl
@[simp] theorem State.setPe_tripped (k i : Nat) (p : PE) : (s.setPe k i p).tripped = s.tripped := rfl

/-! setFn -/

@[simp] theorem State.setFn_fcycle (f : Nat) (x : Fn) : (s.setFn f x).fcycle = s.fcycle := rfl
@[simp] theorem State.setFn_phase (f : Nat) (x : Fn) : (s.setFn f x).phase = s.phase := rfl
@[simp] theorem State.setFn_agenda (f : Nat) (x : Fn) : (s.setFn f x).agenda = s.agenda := rfl
@[simp] theorem State.setFn_who (f : Nat) (x : Fn) : (s.setFn f x).who = s.who := rfl
@[simp] theorem State.setFn_ir (f : Nat) (x : Fn) : (s.setFn f x).ir = s.ir := rfl
@[simp] theorem State.setFn_freeCtr (f : Nat) (x : Fn) : (s.setFn f x).freeCtr = s.freeCtr := rfl
@[simp] theorem State.setFn_routine (f : Nat) (x : Fn) : (s.setFn f x).routine = s.routine := rfl
@[simp] theorem State.setFn_mem (f : Nat) (x : Fn) : (s.setFn f x).mem = s.mem := rfl
@[simp] theorem State.setFn_chk (f : Nat) (x : Fn) : (s.setFn f x).chk = s.chk := rfl
@[simp] theorem State.setFn_poison (f : Nat) (x : Fn) : (s.setFn f x).poison = s.poison := rfl
@[simp] theorem State.setFn_l2 (f : Nat) (x : Fn) : (s.setFn f x).l2 = s.l2 := rfl
@[simp] theorem State.setFn_dir (f : Nat) (x : Fn) : (s.setFn f x).dir = s.dir := rfl
@[simp] theorem State.setFn_pins (f : Nat) (x : Fn) : (s.setFn f x).pins = s.pins := rfl
@[simp] theorem State.setFn_pages (f : Nat) (x : Fn) : (s.setFn f x).pages = s.pages := rfl
@[simp] theorem State.setFn_pageReqs (f : Nat) (x : Fn) : (s.setFn f x).pageReqs = s.pageReqs := rfl
@[simp] theorem State.setFn_caches (f : Nat) (x : Fn) : (s.setFn f x).caches = s.caches := rfl
@[simp] theorem State.setFn_icache (f : Nat) (x : Fn) : (s.setFn f x).icache = s.icache := rfl
@[simp] theorem State.setFn_tlb (f : Nat) (x : Fn) : (s.setFn f x).tlb = s.tlb := rfl
@[simp] theorem State.setFn_maint (f : Nat) (x : Fn) : (s.setFn f x).maint = s.maint := rfl
@[simp] theorem State.setFn_ctxs (f : Nat) (x : Fn) : (s.setFn f x).ctxs = s.ctxs := rfl
@[simp] theorem State.setFn_routines (f : Nat) (x : Fn) : (s.setFn f x).routines = s.routines := rfl
@[simp] theorem State.setFn_tele (f : Nat) (x : Fn) : (s.setFn f x).tele = s.tele := rfl
@[simp] theorem State.setFn_teleSnap (f : Nat) (x : Fn) : (s.setFn f x).teleSnap = s.teleSnap := rfl
@[simp] theorem State.setFn_teleStamp (f : Nat) (x : Fn) : (s.setFn f x).teleStamp = s.teleStamp := rfl
@[simp] theorem State.setFn_ost (f : Nat) (x : Fn) : (s.setFn f x).ost = s.ost := rfl
@[simp] theorem State.setFn_pens (f : Nat) (x : Fn) : (s.setFn f x).pens = s.pens := rfl
@[simp] theorem State.setFn_pes (f : Nat) (x : Fn) : (s.setFn f x).pes = s.pes := rfl
@[simp] theorem State.setFn_stalls (f : Nat) (x : Fn) : (s.setFn f x).stalls = s.stalls := rfl
@[simp] theorem State.setFn_jobs (f : Nat) (x : Fn) : (s.setFn f x).jobs = s.jobs := rfl
@[simp] theorem State.setFn_active (f : Nat) (x : Fn) : (s.setFn f x).active = s.active := rfl
@[simp] theorem State.setFn_accSeq (f : Nat) (x : Fn) : (s.setFn f x).accSeq = s.accSeq := rfl
@[simp] theorem State.setFn_recs (f : Nat) (x : Fn) : (s.setFn f x).recs = s.recs := rfl
@[simp] theorem State.setFn_portQ (f : Nat) (x : Fn) : (s.setFn f x).portQ = s.portQ := rfl
@[simp] theorem State.setFn_portBind (f : Nat) (x : Fn) : (s.setFn f x).portBind = s.portBind := rfl
@[simp] theorem State.setFn_progs (f : Nat) (x : Fn) : (s.setFn f x).progs = s.progs := rfl
@[simp] theorem State.setFn_rr (f : Nat) (x : Fn) : (s.setFn f x).rr = s.rr := rfl
@[simp] theorem State.setFn_dsets (f : Nat) (x : Fn) : (s.setFn f x).dsets = s.dsets := rfl
@[simp] theorem State.setFn_dseq (f : Nat) (x : Fn) : (s.setFn f x).dseq = s.dseq := rfl
@[simp] theorem State.setFn_rescans (f : Nat) (x : Fn) : (s.setFn f x).rescans = s.rescans := rfl
@[simp] theorem State.setFn_logs (f : Nat) (x : Fn) : (s.setFn f x).logs = s.logs := rfl
@[simp] theorem State.setFn_merges (f : Nat) (x : Fn) : (s.setFn f x).merges = s.merges := rfl
@[simp] theorem State.setFn_combs (f : Nat) (x : Fn) : (s.setFn f x).combs = s.combs := rfl
@[simp] theorem State.setFn_timers (f : Nat) (x : Fn) : (s.setFn f x).timers = s.timers := rfl
@[simp] theorem State.setFn_pubs (f : Nat) (x : Fn) : (s.setFn f x).pubs = s.pubs := rfl
@[simp] theorem State.setFn_arrs (f : Nat) (x : Fn) : (s.setFn f x).arrs = s.arrs := rfl
@[simp] theorem State.setFn_banks (f : Nat) (x : Fn) : (s.setFn f x).banks = s.banks := rfl
@[simp] theorem State.setFn_nvme (f : Nat) (x : Fn) : (s.setFn f x).nvme = s.nvme := rfl
@[simp] theorem State.setFn_offl (f : Nat) (x : Fn) : (s.setFn f x).offl = s.offl := rfl
@[simp] theorem State.setFn_offlClear (f : Nat) (x : Fn) : (s.setFn f x).offlClear = s.offlClear := rfl
@[simp] theorem State.setFn_hovers (f : Nat) (x : Fn) : (s.setFn f x).hovers = s.hovers := rfl
@[simp] theorem State.setFn_fns (f : Nat) (x : Fn) : (s.setFn f x).fns = mset Fn.reset s.fns f x := rfl
@[simp] theorem State.setFn_pf (f : Nat) (x : Fn) : (s.setFn f x).pf = s.pf := rfl
@[simp] theorem State.setFn_msgs (f : Nat) (x : Fn) : (s.setFn f x).msgs = s.msgs := rfl
@[simp] theorem State.setFn_portDown (f : Nat) (x : Fn) : (s.setFn f x).portDown = s.portDown := rfl
@[simp] theorem State.setFn_peerDown (f : Nat) (x : Fn) : (s.setFn f x).peerDown = s.peerDown := rfl
@[simp] theorem State.setFn_limit (f : Nat) (x : Fn) : (s.setFn f x).limit = s.limit := rfl
@[simp] theorem State.setFn_clock (f : Nat) (x : Fn) : (s.setFn f x).clock = s.clock := rfl
@[simp] theorem State.setFn_surge (f : Nat) (x : Fn) : (s.setFn f x).surge = s.surge := rfl
@[simp] theorem State.setFn_tripped (f : Nat) (x : Fn) : (s.setFn f x).tripped = s.tripped := rfl

/-! setL2 -/

@[simp] theorem State.setL2_fcycle (l : Nat) (c : Option L2Line) : (s.setL2 l c).fcycle = s.fcycle := rfl
@[simp] theorem State.setL2_phase (l : Nat) (c : Option L2Line) : (s.setL2 l c).phase = s.phase := rfl
@[simp] theorem State.setL2_agenda (l : Nat) (c : Option L2Line) : (s.setL2 l c).agenda = s.agenda := rfl
@[simp] theorem State.setL2_who (l : Nat) (c : Option L2Line) : (s.setL2 l c).who = s.who := rfl
@[simp] theorem State.setL2_ir (l : Nat) (c : Option L2Line) : (s.setL2 l c).ir = s.ir := rfl
@[simp] theorem State.setL2_freeCtr (l : Nat) (c : Option L2Line) : (s.setL2 l c).freeCtr = s.freeCtr := rfl
@[simp] theorem State.setL2_routine (l : Nat) (c : Option L2Line) : (s.setL2 l c).routine = s.routine := rfl
@[simp] theorem State.setL2_mem (l : Nat) (c : Option L2Line) : (s.setL2 l c).mem = s.mem := rfl
@[simp] theorem State.setL2_chk (l : Nat) (c : Option L2Line) : (s.setL2 l c).chk = s.chk := rfl
@[simp] theorem State.setL2_poison (l : Nat) (c : Option L2Line) : (s.setL2 l c).poison = s.poison := rfl
@[simp] theorem State.setL2_l2 (l : Nat) (c : Option L2Line) : (s.setL2 l c).l2 = mset none s.l2 l c := rfl
@[simp] theorem State.setL2_dir (l : Nat) (c : Option L2Line) : (s.setL2 l c).dir = s.dir := rfl
@[simp] theorem State.setL2_pins (l : Nat) (c : Option L2Line) : (s.setL2 l c).pins = s.pins := rfl
@[simp] theorem State.setL2_pages (l : Nat) (c : Option L2Line) : (s.setL2 l c).pages = s.pages := rfl
@[simp] theorem State.setL2_pageReqs (l : Nat) (c : Option L2Line) : (s.setL2 l c).pageReqs = s.pageReqs := rfl
@[simp] theorem State.setL2_caches (l : Nat) (c : Option L2Line) : (s.setL2 l c).caches = s.caches := rfl
@[simp] theorem State.setL2_icache (l : Nat) (c : Option L2Line) : (s.setL2 l c).icache = s.icache := rfl
@[simp] theorem State.setL2_tlb (l : Nat) (c : Option L2Line) : (s.setL2 l c).tlb = s.tlb := rfl
@[simp] theorem State.setL2_maint (l : Nat) (c : Option L2Line) : (s.setL2 l c).maint = s.maint := rfl
@[simp] theorem State.setL2_ctxs (l : Nat) (c : Option L2Line) : (s.setL2 l c).ctxs = s.ctxs := rfl
@[simp] theorem State.setL2_routines (l : Nat) (c : Option L2Line) : (s.setL2 l c).routines = s.routines := rfl
@[simp] theorem State.setL2_tele (l : Nat) (c : Option L2Line) : (s.setL2 l c).tele = s.tele := rfl
@[simp] theorem State.setL2_teleSnap (l : Nat) (c : Option L2Line) : (s.setL2 l c).teleSnap = s.teleSnap := rfl
@[simp] theorem State.setL2_teleStamp (l : Nat) (c : Option L2Line) : (s.setL2 l c).teleStamp = s.teleStamp := rfl
@[simp] theorem State.setL2_ost (l : Nat) (c : Option L2Line) : (s.setL2 l c).ost = s.ost := rfl
@[simp] theorem State.setL2_pens (l : Nat) (c : Option L2Line) : (s.setL2 l c).pens = s.pens := rfl
@[simp] theorem State.setL2_pes (l : Nat) (c : Option L2Line) : (s.setL2 l c).pes = s.pes := rfl
@[simp] theorem State.setL2_stalls (l : Nat) (c : Option L2Line) : (s.setL2 l c).stalls = s.stalls := rfl
@[simp] theorem State.setL2_jobs (l : Nat) (c : Option L2Line) : (s.setL2 l c).jobs = s.jobs := rfl
@[simp] theorem State.setL2_active (l : Nat) (c : Option L2Line) : (s.setL2 l c).active = s.active := rfl
@[simp] theorem State.setL2_accSeq (l : Nat) (c : Option L2Line) : (s.setL2 l c).accSeq = s.accSeq := rfl
@[simp] theorem State.setL2_recs (l : Nat) (c : Option L2Line) : (s.setL2 l c).recs = s.recs := rfl
@[simp] theorem State.setL2_portQ (l : Nat) (c : Option L2Line) : (s.setL2 l c).portQ = s.portQ := rfl
@[simp] theorem State.setL2_portBind (l : Nat) (c : Option L2Line) : (s.setL2 l c).portBind = s.portBind := rfl
@[simp] theorem State.setL2_progs (l : Nat) (c : Option L2Line) : (s.setL2 l c).progs = s.progs := rfl
@[simp] theorem State.setL2_rr (l : Nat) (c : Option L2Line) : (s.setL2 l c).rr = s.rr := rfl
@[simp] theorem State.setL2_dsets (l : Nat) (c : Option L2Line) : (s.setL2 l c).dsets = s.dsets := rfl
@[simp] theorem State.setL2_dseq (l : Nat) (c : Option L2Line) : (s.setL2 l c).dseq = s.dseq := rfl
@[simp] theorem State.setL2_rescans (l : Nat) (c : Option L2Line) : (s.setL2 l c).rescans = s.rescans := rfl
@[simp] theorem State.setL2_logs (l : Nat) (c : Option L2Line) : (s.setL2 l c).logs = s.logs := rfl
@[simp] theorem State.setL2_merges (l : Nat) (c : Option L2Line) : (s.setL2 l c).merges = s.merges := rfl
@[simp] theorem State.setL2_combs (l : Nat) (c : Option L2Line) : (s.setL2 l c).combs = s.combs := rfl
@[simp] theorem State.setL2_timers (l : Nat) (c : Option L2Line) : (s.setL2 l c).timers = s.timers := rfl
@[simp] theorem State.setL2_pubs (l : Nat) (c : Option L2Line) : (s.setL2 l c).pubs = s.pubs := rfl
@[simp] theorem State.setL2_arrs (l : Nat) (c : Option L2Line) : (s.setL2 l c).arrs = s.arrs := rfl
@[simp] theorem State.setL2_banks (l : Nat) (c : Option L2Line) : (s.setL2 l c).banks = s.banks := rfl
@[simp] theorem State.setL2_nvme (l : Nat) (c : Option L2Line) : (s.setL2 l c).nvme = s.nvme := rfl
@[simp] theorem State.setL2_offl (l : Nat) (c : Option L2Line) : (s.setL2 l c).offl = s.offl := rfl
@[simp] theorem State.setL2_offlClear (l : Nat) (c : Option L2Line) : (s.setL2 l c).offlClear = s.offlClear := rfl
@[simp] theorem State.setL2_hovers (l : Nat) (c : Option L2Line) : (s.setL2 l c).hovers = s.hovers := rfl
@[simp] theorem State.setL2_fns (l : Nat) (c : Option L2Line) : (s.setL2 l c).fns = s.fns := rfl
@[simp] theorem State.setL2_pf (l : Nat) (c : Option L2Line) : (s.setL2 l c).pf = s.pf := rfl
@[simp] theorem State.setL2_msgs (l : Nat) (c : Option L2Line) : (s.setL2 l c).msgs = s.msgs := rfl
@[simp] theorem State.setL2_portDown (l : Nat) (c : Option L2Line) : (s.setL2 l c).portDown = s.portDown := rfl
@[simp] theorem State.setL2_peerDown (l : Nat) (c : Option L2Line) : (s.setL2 l c).peerDown = s.peerDown := rfl
@[simp] theorem State.setL2_limit (l : Nat) (c : Option L2Line) : (s.setL2 l c).limit = s.limit := rfl
@[simp] theorem State.setL2_clock (l : Nat) (c : Option L2Line) : (s.setL2 l c).clock = s.clock := rfl
@[simp] theorem State.setL2_surge (l : Nat) (c : Option L2Line) : (s.setL2 l c).surge = s.surge := rfl
@[simp] theorem State.setL2_tripped (l : Nat) (c : Option L2Line) : (s.setL2 l c).tripped = s.tripped := rfl

/-! setCache -/

@[simp] theorem State.setCache_fcycle (a l : Nat) (c : Option CLine) : (s.setCache a l c).fcycle = s.fcycle := rfl
@[simp] theorem State.setCache_phase (a l : Nat) (c : Option CLine) : (s.setCache a l c).phase = s.phase := rfl
@[simp] theorem State.setCache_agenda (a l : Nat) (c : Option CLine) : (s.setCache a l c).agenda = s.agenda := rfl
@[simp] theorem State.setCache_who (a l : Nat) (c : Option CLine) : (s.setCache a l c).who = s.who := rfl
@[simp] theorem State.setCache_ir (a l : Nat) (c : Option CLine) : (s.setCache a l c).ir = s.ir := rfl
@[simp] theorem State.setCache_freeCtr (a l : Nat) (c : Option CLine) : (s.setCache a l c).freeCtr = s.freeCtr := rfl
@[simp] theorem State.setCache_routine (a l : Nat) (c : Option CLine) : (s.setCache a l c).routine = s.routine := rfl
@[simp] theorem State.setCache_mem (a l : Nat) (c : Option CLine) : (s.setCache a l c).mem = s.mem := rfl
@[simp] theorem State.setCache_chk (a l : Nat) (c : Option CLine) : (s.setCache a l c).chk = s.chk := rfl
@[simp] theorem State.setCache_poison (a l : Nat) (c : Option CLine) : (s.setCache a l c).poison = s.poison := rfl
@[simp] theorem State.setCache_l2 (a l : Nat) (c : Option CLine) : (s.setCache a l c).l2 = s.l2 := rfl
@[simp] theorem State.setCache_dir (a l : Nat) (c : Option CLine) : (s.setCache a l c).dir = s.dir := rfl
@[simp] theorem State.setCache_pins (a l : Nat) (c : Option CLine) : (s.setCache a l c).pins = s.pins := rfl
@[simp] theorem State.setCache_pages (a l : Nat) (c : Option CLine) : (s.setCache a l c).pages = s.pages := rfl
@[simp] theorem State.setCache_pageReqs (a l : Nat) (c : Option CLine) : (s.setCache a l c).pageReqs = s.pageReqs := rfl
@[simp] theorem State.setCache_caches (a l : Nat) (c : Option CLine) :
    (s.setCache a l c).caches = mset none s.caches (ckey a l) c := rfl
@[simp] theorem State.setCache_icache (a l : Nat) (c : Option CLine) : (s.setCache a l c).icache = s.icache := rfl
@[simp] theorem State.setCache_tlb (a l : Nat) (c : Option CLine) : (s.setCache a l c).tlb = s.tlb := rfl
@[simp] theorem State.setCache_maint (a l : Nat) (c : Option CLine) : (s.setCache a l c).maint = s.maint := rfl
@[simp] theorem State.setCache_ctxs (a l : Nat) (c : Option CLine) : (s.setCache a l c).ctxs = s.ctxs := rfl
@[simp] theorem State.setCache_routines (a l : Nat) (c : Option CLine) : (s.setCache a l c).routines = s.routines := rfl
@[simp] theorem State.setCache_tele (a l : Nat) (c : Option CLine) : (s.setCache a l c).tele = s.tele := rfl
@[simp] theorem State.setCache_teleSnap (a l : Nat) (c : Option CLine) : (s.setCache a l c).teleSnap = s.teleSnap := rfl
@[simp] theorem State.setCache_teleStamp (a l : Nat) (c : Option CLine) : (s.setCache a l c).teleStamp = s.teleStamp :=
    rfl
@[simp] theorem State.setCache_ost (a l : Nat) (c : Option CLine) : (s.setCache a l c).ost = s.ost := rfl
@[simp] theorem State.setCache_pens (a l : Nat) (c : Option CLine) : (s.setCache a l c).pens = s.pens := rfl
@[simp] theorem State.setCache_pes (a l : Nat) (c : Option CLine) : (s.setCache a l c).pes = s.pes := rfl
@[simp] theorem State.setCache_stalls (a l : Nat) (c : Option CLine) : (s.setCache a l c).stalls = s.stalls := rfl
@[simp] theorem State.setCache_jobs (a l : Nat) (c : Option CLine) : (s.setCache a l c).jobs = s.jobs := rfl
@[simp] theorem State.setCache_active (a l : Nat) (c : Option CLine) : (s.setCache a l c).active = s.active := rfl
@[simp] theorem State.setCache_accSeq (a l : Nat) (c : Option CLine) : (s.setCache a l c).accSeq = s.accSeq := rfl
@[simp] theorem State.setCache_recs (a l : Nat) (c : Option CLine) : (s.setCache a l c).recs = s.recs := rfl
@[simp] theorem State.setCache_portQ (a l : Nat) (c : Option CLine) : (s.setCache a l c).portQ = s.portQ := rfl
@[simp] theorem State.setCache_portBind (a l : Nat) (c : Option CLine) : (s.setCache a l c).portBind = s.portBind := rfl
@[simp] theorem State.setCache_progs (a l : Nat) (c : Option CLine) : (s.setCache a l c).progs = s.progs := rfl
@[simp] theorem State.setCache_rr (a l : Nat) (c : Option CLine) : (s.setCache a l c).rr = s.rr := rfl
@[simp] theorem State.setCache_dsets (a l : Nat) (c : Option CLine) : (s.setCache a l c).dsets = s.dsets := rfl
@[simp] theorem State.setCache_dseq (a l : Nat) (c : Option CLine) : (s.setCache a l c).dseq = s.dseq := rfl
@[simp] theorem State.setCache_rescans (a l : Nat) (c : Option CLine) : (s.setCache a l c).rescans = s.rescans := rfl
@[simp] theorem State.setCache_logs (a l : Nat) (c : Option CLine) : (s.setCache a l c).logs = s.logs := rfl
@[simp] theorem State.setCache_merges (a l : Nat) (c : Option CLine) : (s.setCache a l c).merges = s.merges := rfl
@[simp] theorem State.setCache_combs (a l : Nat) (c : Option CLine) : (s.setCache a l c).combs = s.combs := rfl
@[simp] theorem State.setCache_timers (a l : Nat) (c : Option CLine) : (s.setCache a l c).timers = s.timers := rfl
@[simp] theorem State.setCache_pubs (a l : Nat) (c : Option CLine) : (s.setCache a l c).pubs = s.pubs := rfl
@[simp] theorem State.setCache_arrs (a l : Nat) (c : Option CLine) : (s.setCache a l c).arrs = s.arrs := rfl
@[simp] theorem State.setCache_banks (a l : Nat) (c : Option CLine) : (s.setCache a l c).banks = s.banks := rfl
@[simp] theorem State.setCache_nvme (a l : Nat) (c : Option CLine) : (s.setCache a l c).nvme = s.nvme := rfl
@[simp] theorem State.setCache_offl (a l : Nat) (c : Option CLine) : (s.setCache a l c).offl = s.offl := rfl
@[simp] theorem State.setCache_offlClear (a l : Nat) (c : Option CLine) : (s.setCache a l c).offlClear = s.offlClear :=
    rfl
@[simp] theorem State.setCache_hovers (a l : Nat) (c : Option CLine) : (s.setCache a l c).hovers = s.hovers := rfl
@[simp] theorem State.setCache_fns (a l : Nat) (c : Option CLine) : (s.setCache a l c).fns = s.fns := rfl
@[simp] theorem State.setCache_pf (a l : Nat) (c : Option CLine) : (s.setCache a l c).pf = s.pf := rfl
@[simp] theorem State.setCache_msgs (a l : Nat) (c : Option CLine) : (s.setCache a l c).msgs = s.msgs := rfl
@[simp] theorem State.setCache_portDown (a l : Nat) (c : Option CLine) : (s.setCache a l c).portDown = s.portDown := rfl
@[simp] theorem State.setCache_peerDown (a l : Nat) (c : Option CLine) : (s.setCache a l c).peerDown = s.peerDown := rfl
@[simp] theorem State.setCache_limit (a l : Nat) (c : Option CLine) : (s.setCache a l c).limit = s.limit := rfl
@[simp] theorem State.setCache_clock (a l : Nat) (c : Option CLine) : (s.setCache a l c).clock = s.clock := rfl
@[simp] theorem State.setCache_surge (a l : Nat) (c : Option CLine) : (s.setCache a l c).surge = s.surge := rfl
@[simp] theorem State.setCache_tripped (a l : Nat) (c : Option CLine) : (s.setCache a l c).tripped = s.tripped := rfl

/-! setDir -/

@[simp] theorem State.setDir_fcycle (l : Nat) (d : Dir) : (s.setDir l d).fcycle = s.fcycle := rfl
@[simp] theorem State.setDir_phase (l : Nat) (d : Dir) : (s.setDir l d).phase = s.phase := rfl
@[simp] theorem State.setDir_agenda (l : Nat) (d : Dir) : (s.setDir l d).agenda = s.agenda := rfl
@[simp] theorem State.setDir_who (l : Nat) (d : Dir) : (s.setDir l d).who = s.who := rfl
@[simp] theorem State.setDir_ir (l : Nat) (d : Dir) : (s.setDir l d).ir = s.ir := rfl
@[simp] theorem State.setDir_freeCtr (l : Nat) (d : Dir) : (s.setDir l d).freeCtr = s.freeCtr := rfl
@[simp] theorem State.setDir_routine (l : Nat) (d : Dir) : (s.setDir l d).routine = s.routine := rfl
@[simp] theorem State.setDir_mem (l : Nat) (d : Dir) : (s.setDir l d).mem = s.mem := rfl
@[simp] theorem State.setDir_chk (l : Nat) (d : Dir) : (s.setDir l d).chk = s.chk := rfl
@[simp] theorem State.setDir_poison (l : Nat) (d : Dir) : (s.setDir l d).poison = s.poison := rfl
@[simp] theorem State.setDir_l2 (l : Nat) (d : Dir) : (s.setDir l d).l2 = s.l2 := rfl
@[simp] theorem State.setDir_dir (l : Nat) (d : Dir) : (s.setDir l d).dir = mset Dir.reset s.dir l d := rfl
@[simp] theorem State.setDir_pins (l : Nat) (d : Dir) : (s.setDir l d).pins = s.pins := rfl
@[simp] theorem State.setDir_pages (l : Nat) (d : Dir) : (s.setDir l d).pages = s.pages := rfl
@[simp] theorem State.setDir_pageReqs (l : Nat) (d : Dir) : (s.setDir l d).pageReqs = s.pageReqs := rfl
@[simp] theorem State.setDir_caches (l : Nat) (d : Dir) : (s.setDir l d).caches = s.caches := rfl
@[simp] theorem State.setDir_icache (l : Nat) (d : Dir) : (s.setDir l d).icache = s.icache := rfl
@[simp] theorem State.setDir_tlb (l : Nat) (d : Dir) : (s.setDir l d).tlb = s.tlb := rfl
@[simp] theorem State.setDir_maint (l : Nat) (d : Dir) : (s.setDir l d).maint = s.maint := rfl
@[simp] theorem State.setDir_ctxs (l : Nat) (d : Dir) : (s.setDir l d).ctxs = s.ctxs := rfl
@[simp] theorem State.setDir_routines (l : Nat) (d : Dir) : (s.setDir l d).routines = s.routines := rfl
@[simp] theorem State.setDir_tele (l : Nat) (d : Dir) : (s.setDir l d).tele = s.tele := rfl
@[simp] theorem State.setDir_teleSnap (l : Nat) (d : Dir) : (s.setDir l d).teleSnap = s.teleSnap := rfl
@[simp] theorem State.setDir_teleStamp (l : Nat) (d : Dir) : (s.setDir l d).teleStamp = s.teleStamp := rfl
@[simp] theorem State.setDir_ost (l : Nat) (d : Dir) : (s.setDir l d).ost = s.ost := rfl
@[simp] theorem State.setDir_pens (l : Nat) (d : Dir) : (s.setDir l d).pens = s.pens := rfl
@[simp] theorem State.setDir_pes (l : Nat) (d : Dir) : (s.setDir l d).pes = s.pes := rfl
@[simp] theorem State.setDir_stalls (l : Nat) (d : Dir) : (s.setDir l d).stalls = s.stalls := rfl
@[simp] theorem State.setDir_jobs (l : Nat) (d : Dir) : (s.setDir l d).jobs = s.jobs := rfl
@[simp] theorem State.setDir_active (l : Nat) (d : Dir) : (s.setDir l d).active = s.active := rfl
@[simp] theorem State.setDir_accSeq (l : Nat) (d : Dir) : (s.setDir l d).accSeq = s.accSeq := rfl
@[simp] theorem State.setDir_recs (l : Nat) (d : Dir) : (s.setDir l d).recs = s.recs := rfl
@[simp] theorem State.setDir_portQ (l : Nat) (d : Dir) : (s.setDir l d).portQ = s.portQ := rfl
@[simp] theorem State.setDir_portBind (l : Nat) (d : Dir) : (s.setDir l d).portBind = s.portBind := rfl
@[simp] theorem State.setDir_progs (l : Nat) (d : Dir) : (s.setDir l d).progs = s.progs := rfl
@[simp] theorem State.setDir_rr (l : Nat) (d : Dir) : (s.setDir l d).rr = s.rr := rfl
@[simp] theorem State.setDir_dsets (l : Nat) (d : Dir) : (s.setDir l d).dsets = s.dsets := rfl
@[simp] theorem State.setDir_dseq (l : Nat) (d : Dir) : (s.setDir l d).dseq = s.dseq := rfl
@[simp] theorem State.setDir_rescans (l : Nat) (d : Dir) : (s.setDir l d).rescans = s.rescans := rfl
@[simp] theorem State.setDir_logs (l : Nat) (d : Dir) : (s.setDir l d).logs = s.logs := rfl
@[simp] theorem State.setDir_merges (l : Nat) (d : Dir) : (s.setDir l d).merges = s.merges := rfl
@[simp] theorem State.setDir_combs (l : Nat) (d : Dir) : (s.setDir l d).combs = s.combs := rfl
@[simp] theorem State.setDir_timers (l : Nat) (d : Dir) : (s.setDir l d).timers = s.timers := rfl
@[simp] theorem State.setDir_pubs (l : Nat) (d : Dir) : (s.setDir l d).pubs = s.pubs := rfl
@[simp] theorem State.setDir_arrs (l : Nat) (d : Dir) : (s.setDir l d).arrs = s.arrs := rfl
@[simp] theorem State.setDir_banks (l : Nat) (d : Dir) : (s.setDir l d).banks = s.banks := rfl
@[simp] theorem State.setDir_nvme (l : Nat) (d : Dir) : (s.setDir l d).nvme = s.nvme := rfl
@[simp] theorem State.setDir_offl (l : Nat) (d : Dir) : (s.setDir l d).offl = s.offl := rfl
@[simp] theorem State.setDir_offlClear (l : Nat) (d : Dir) : (s.setDir l d).offlClear = s.offlClear := rfl
@[simp] theorem State.setDir_hovers (l : Nat) (d : Dir) : (s.setDir l d).hovers = s.hovers := rfl
@[simp] theorem State.setDir_fns (l : Nat) (d : Dir) : (s.setDir l d).fns = s.fns := rfl
@[simp] theorem State.setDir_pf (l : Nat) (d : Dir) : (s.setDir l d).pf = s.pf := rfl
@[simp] theorem State.setDir_msgs (l : Nat) (d : Dir) : (s.setDir l d).msgs = s.msgs := rfl
@[simp] theorem State.setDir_portDown (l : Nat) (d : Dir) : (s.setDir l d).portDown = s.portDown := rfl
@[simp] theorem State.setDir_peerDown (l : Nat) (d : Dir) : (s.setDir l d).peerDown = s.peerDown := rfl
@[simp] theorem State.setDir_limit (l : Nat) (d : Dir) : (s.setDir l d).limit = s.limit := rfl
@[simp] theorem State.setDir_clock (l : Nat) (d : Dir) : (s.setDir l d).clock = s.clock := rfl
@[simp] theorem State.setDir_surge (l : Nat) (d : Dir) : (s.setDir l d).surge = s.surge := rfl
@[simp] theorem State.setDir_tripped (l : Nat) (d : Dir) : (s.setDir l d).tripped = s.tripped := rfl

/-! setDset -/

@[simp] theorem State.setDset_fcycle (k : Nat) (d : DSet) : (s.setDset k d).fcycle = s.fcycle := rfl
@[simp] theorem State.setDset_phase (k : Nat) (d : DSet) : (s.setDset k d).phase = s.phase := rfl
@[simp] theorem State.setDset_agenda (k : Nat) (d : DSet) : (s.setDset k d).agenda = s.agenda := rfl
@[simp] theorem State.setDset_who (k : Nat) (d : DSet) : (s.setDset k d).who = s.who := rfl
@[simp] theorem State.setDset_ir (k : Nat) (d : DSet) : (s.setDset k d).ir = s.ir := rfl
@[simp] theorem State.setDset_freeCtr (k : Nat) (d : DSet) : (s.setDset k d).freeCtr = s.freeCtr := rfl
@[simp] theorem State.setDset_routine (k : Nat) (d : DSet) : (s.setDset k d).routine = s.routine := rfl
@[simp] theorem State.setDset_mem (k : Nat) (d : DSet) : (s.setDset k d).mem = s.mem := rfl
@[simp] theorem State.setDset_chk (k : Nat) (d : DSet) : (s.setDset k d).chk = s.chk := rfl
@[simp] theorem State.setDset_poison (k : Nat) (d : DSet) : (s.setDset k d).poison = s.poison := rfl
@[simp] theorem State.setDset_l2 (k : Nat) (d : DSet) : (s.setDset k d).l2 = s.l2 := rfl
@[simp] theorem State.setDset_dir (k : Nat) (d : DSet) : (s.setDset k d).dir = s.dir := rfl
@[simp] theorem State.setDset_pins (k : Nat) (d : DSet) : (s.setDset k d).pins = s.pins := rfl
@[simp] theorem State.setDset_pages (k : Nat) (d : DSet) : (s.setDset k d).pages = s.pages := rfl
@[simp] theorem State.setDset_pageReqs (k : Nat) (d : DSet) : (s.setDset k d).pageReqs = s.pageReqs := rfl
@[simp] theorem State.setDset_caches (k : Nat) (d : DSet) : (s.setDset k d).caches = s.caches := rfl
@[simp] theorem State.setDset_icache (k : Nat) (d : DSet) : (s.setDset k d).icache = s.icache := rfl
@[simp] theorem State.setDset_tlb (k : Nat) (d : DSet) : (s.setDset k d).tlb = s.tlb := rfl
@[simp] theorem State.setDset_maint (k : Nat) (d : DSet) : (s.setDset k d).maint = s.maint := rfl
@[simp] theorem State.setDset_ctxs (k : Nat) (d : DSet) : (s.setDset k d).ctxs = s.ctxs := rfl
@[simp] theorem State.setDset_routines (k : Nat) (d : DSet) : (s.setDset k d).routines = s.routines := rfl
@[simp] theorem State.setDset_tele (k : Nat) (d : DSet) : (s.setDset k d).tele = s.tele := rfl
@[simp] theorem State.setDset_teleSnap (k : Nat) (d : DSet) : (s.setDset k d).teleSnap = s.teleSnap := rfl
@[simp] theorem State.setDset_teleStamp (k : Nat) (d : DSet) : (s.setDset k d).teleStamp = s.teleStamp := rfl
@[simp] theorem State.setDset_ost (k : Nat) (d : DSet) : (s.setDset k d).ost = s.ost := rfl
@[simp] theorem State.setDset_pens (k : Nat) (d : DSet) : (s.setDset k d).pens = s.pens := rfl
@[simp] theorem State.setDset_pes (k : Nat) (d : DSet) : (s.setDset k d).pes = s.pes := rfl
@[simp] theorem State.setDset_stalls (k : Nat) (d : DSet) : (s.setDset k d).stalls = s.stalls := rfl
@[simp] theorem State.setDset_jobs (k : Nat) (d : DSet) : (s.setDset k d).jobs = s.jobs := rfl
@[simp] theorem State.setDset_active (k : Nat) (d : DSet) : (s.setDset k d).active = s.active := rfl
@[simp] theorem State.setDset_accSeq (k : Nat) (d : DSet) : (s.setDset k d).accSeq = s.accSeq := rfl
@[simp] theorem State.setDset_recs (k : Nat) (d : DSet) : (s.setDset k d).recs = s.recs := rfl
@[simp] theorem State.setDset_portQ (k : Nat) (d : DSet) : (s.setDset k d).portQ = s.portQ := rfl
@[simp] theorem State.setDset_portBind (k : Nat) (d : DSet) : (s.setDset k d).portBind = s.portBind := rfl
@[simp] theorem State.setDset_progs (k : Nat) (d : DSet) : (s.setDset k d).progs = s.progs := rfl
@[simp] theorem State.setDset_rr (k : Nat) (d : DSet) : (s.setDset k d).rr = s.rr := rfl
@[simp] theorem State.setDset_dsets (k : Nat) (d : DSet) : (s.setDset k d).dsets = mset DSet.reset s.dsets k d := rfl
@[simp] theorem State.setDset_dseq (k : Nat) (d : DSet) : (s.setDset k d).dseq = s.dseq := rfl
@[simp] theorem State.setDset_rescans (k : Nat) (d : DSet) : (s.setDset k d).rescans = s.rescans := rfl
@[simp] theorem State.setDset_logs (k : Nat) (d : DSet) : (s.setDset k d).logs = s.logs := rfl
@[simp] theorem State.setDset_merges (k : Nat) (d : DSet) : (s.setDset k d).merges = s.merges := rfl
@[simp] theorem State.setDset_combs (k : Nat) (d : DSet) : (s.setDset k d).combs = s.combs := rfl
@[simp] theorem State.setDset_timers (k : Nat) (d : DSet) : (s.setDset k d).timers = s.timers := rfl
@[simp] theorem State.setDset_pubs (k : Nat) (d : DSet) : (s.setDset k d).pubs = s.pubs := rfl
@[simp] theorem State.setDset_arrs (k : Nat) (d : DSet) : (s.setDset k d).arrs = s.arrs := rfl
@[simp] theorem State.setDset_banks (k : Nat) (d : DSet) : (s.setDset k d).banks = s.banks := rfl
@[simp] theorem State.setDset_nvme (k : Nat) (d : DSet) : (s.setDset k d).nvme = s.nvme := rfl
@[simp] theorem State.setDset_offl (k : Nat) (d : DSet) : (s.setDset k d).offl = s.offl := rfl
@[simp] theorem State.setDset_offlClear (k : Nat) (d : DSet) : (s.setDset k d).offlClear = s.offlClear := rfl
@[simp] theorem State.setDset_hovers (k : Nat) (d : DSet) : (s.setDset k d).hovers = s.hovers := rfl
@[simp] theorem State.setDset_fns (k : Nat) (d : DSet) : (s.setDset k d).fns = s.fns := rfl
@[simp] theorem State.setDset_pf (k : Nat) (d : DSet) : (s.setDset k d).pf = s.pf := rfl
@[simp] theorem State.setDset_msgs (k : Nat) (d : DSet) : (s.setDset k d).msgs = s.msgs := rfl
@[simp] theorem State.setDset_portDown (k : Nat) (d : DSet) : (s.setDset k d).portDown = s.portDown := rfl
@[simp] theorem State.setDset_peerDown (k : Nat) (d : DSet) : (s.setDset k d).peerDown = s.peerDown := rfl
@[simp] theorem State.setDset_limit (k : Nat) (d : DSet) : (s.setDset k d).limit = s.limit := rfl
@[simp] theorem State.setDset_clock (k : Nat) (d : DSet) : (s.setDset k d).clock = s.clock := rfl
@[simp] theorem State.setDset_surge (k : Nat) (d : DSet) : (s.setDset k d).surge = s.surge := rfl
@[simp] theorem State.setDset_tripped (k : Nat) (d : DSet) : (s.setDset k d).tripped = s.tripped := rfl

/-! count -/

@[simp] theorem State.count_fcycle (die cnt n : Nat) : (s.count die cnt n).fcycle = s.fcycle := rfl
@[simp] theorem State.count_phase (die cnt n : Nat) : (s.count die cnt n).phase = s.phase := rfl
@[simp] theorem State.count_agenda (die cnt n : Nat) : (s.count die cnt n).agenda = s.agenda := rfl
@[simp] theorem State.count_who (die cnt n : Nat) : (s.count die cnt n).who = s.who := rfl
@[simp] theorem State.count_ir (die cnt n : Nat) : (s.count die cnt n).ir = s.ir := rfl
@[simp] theorem State.count_freeCtr (die cnt n : Nat) : (s.count die cnt n).freeCtr = s.freeCtr := rfl
@[simp] theorem State.count_routine (die cnt n : Nat) : (s.count die cnt n).routine = s.routine := rfl
@[simp] theorem State.count_mem (die cnt n : Nat) : (s.count die cnt n).mem = s.mem := rfl
@[simp] theorem State.count_chk (die cnt n : Nat) : (s.count die cnt n).chk = s.chk := rfl
@[simp] theorem State.count_poison (die cnt n : Nat) : (s.count die cnt n).poison = s.poison := rfl
@[simp] theorem State.count_l2 (die cnt n : Nat) : (s.count die cnt n).l2 = s.l2 := rfl
@[simp] theorem State.count_dir (die cnt n : Nat) : (s.count die cnt n).dir = s.dir := rfl
@[simp] theorem State.count_pins (die cnt n : Nat) : (s.count die cnt n).pins = s.pins := rfl
@[simp] theorem State.count_pages (die cnt n : Nat) : (s.count die cnt n).pages = s.pages := rfl
@[simp] theorem State.count_pageReqs (die cnt n : Nat) : (s.count die cnt n).pageReqs = s.pageReqs := rfl
@[simp] theorem State.count_caches (die cnt n : Nat) : (s.count die cnt n).caches = s.caches := rfl
@[simp] theorem State.count_icache (die cnt n : Nat) : (s.count die cnt n).icache = s.icache := rfl
@[simp] theorem State.count_tlb (die cnt n : Nat) : (s.count die cnt n).tlb = s.tlb := rfl
@[simp] theorem State.count_maint (die cnt n : Nat) : (s.count die cnt n).maint = s.maint := rfl
@[simp] theorem State.count_ctxs (die cnt n : Nat) : (s.count die cnt n).ctxs = s.ctxs := rfl
@[simp] theorem State.count_routines (die cnt n : Nat) : (s.count die cnt n).routines = s.routines := rfl
@[simp] theorem State.count_tele (die cnt n : Nat) :
    (s.count die cnt n).tele = mset 0 s.tele (die * 16 + cnt) (mget 0 s.tele (die * 16 + cnt) + BitVec.ofNat 64 n) := rfl
@[simp] theorem State.count_teleSnap (die cnt n : Nat) : (s.count die cnt n).teleSnap = s.teleSnap := rfl
@[simp] theorem State.count_teleStamp (die cnt n : Nat) : (s.count die cnt n).teleStamp = s.teleStamp := rfl
@[simp] theorem State.count_ost (die cnt n : Nat) : (s.count die cnt n).ost = s.ost := rfl
@[simp] theorem State.count_pens (die cnt n : Nat) : (s.count die cnt n).pens = s.pens := rfl
@[simp] theorem State.count_pes (die cnt n : Nat) : (s.count die cnt n).pes = s.pes := rfl
@[simp] theorem State.count_stalls (die cnt n : Nat) : (s.count die cnt n).stalls = s.stalls := rfl
@[simp] theorem State.count_jobs (die cnt n : Nat) : (s.count die cnt n).jobs = s.jobs := rfl
@[simp] theorem State.count_active (die cnt n : Nat) : (s.count die cnt n).active = s.active := rfl
@[simp] theorem State.count_accSeq (die cnt n : Nat) : (s.count die cnt n).accSeq = s.accSeq := rfl
@[simp] theorem State.count_recs (die cnt n : Nat) : (s.count die cnt n).recs = s.recs := rfl
@[simp] theorem State.count_portQ (die cnt n : Nat) : (s.count die cnt n).portQ = s.portQ := rfl
@[simp] theorem State.count_portBind (die cnt n : Nat) : (s.count die cnt n).portBind = s.portBind := rfl
@[simp] theorem State.count_progs (die cnt n : Nat) : (s.count die cnt n).progs = s.progs := rfl
@[simp] theorem State.count_rr (die cnt n : Nat) : (s.count die cnt n).rr = s.rr := rfl
@[simp] theorem State.count_dsets (die cnt n : Nat) : (s.count die cnt n).dsets = s.dsets := rfl
@[simp] theorem State.count_dseq (die cnt n : Nat) : (s.count die cnt n).dseq = s.dseq := rfl
@[simp] theorem State.count_rescans (die cnt n : Nat) : (s.count die cnt n).rescans = s.rescans := rfl
@[simp] theorem State.count_logs (die cnt n : Nat) : (s.count die cnt n).logs = s.logs := rfl
@[simp] theorem State.count_merges (die cnt n : Nat) : (s.count die cnt n).merges = s.merges := rfl
@[simp] theorem State.count_combs (die cnt n : Nat) : (s.count die cnt n).combs = s.combs := rfl
@[simp] theorem State.count_timers (die cnt n : Nat) : (s.count die cnt n).timers = s.timers := rfl
@[simp] theorem State.count_pubs (die cnt n : Nat) : (s.count die cnt n).pubs = s.pubs := rfl
@[simp] theorem State.count_arrs (die cnt n : Nat) : (s.count die cnt n).arrs = s.arrs := rfl
@[simp] theorem State.count_banks (die cnt n : Nat) : (s.count die cnt n).banks = s.banks := rfl
@[simp] theorem State.count_nvme (die cnt n : Nat) : (s.count die cnt n).nvme = s.nvme := rfl
@[simp] theorem State.count_offl (die cnt n : Nat) : (s.count die cnt n).offl = s.offl := rfl
@[simp] theorem State.count_offlClear (die cnt n : Nat) : (s.count die cnt n).offlClear = s.offlClear := rfl
@[simp] theorem State.count_hovers (die cnt n : Nat) : (s.count die cnt n).hovers = s.hovers := rfl
@[simp] theorem State.count_fns (die cnt n : Nat) : (s.count die cnt n).fns = s.fns := rfl
@[simp] theorem State.count_pf (die cnt n : Nat) : (s.count die cnt n).pf = s.pf := rfl
@[simp] theorem State.count_msgs (die cnt n : Nat) : (s.count die cnt n).msgs = s.msgs := rfl
@[simp] theorem State.count_portDown (die cnt n : Nat) : (s.count die cnt n).portDown = s.portDown := rfl
@[simp] theorem State.count_peerDown (die cnt n : Nat) : (s.count die cnt n).peerDown = s.peerDown := rfl
@[simp] theorem State.count_limit (die cnt n : Nat) : (s.count die cnt n).limit = s.limit := rfl
@[simp] theorem State.count_clock (die cnt n : Nat) : (s.count die cnt n).clock = s.clock := rfl
@[simp] theorem State.count_surge (die cnt n : Nat) : (s.count die cnt n).surge = s.surge := rfl
@[simp] theorem State.count_tripped (die cnt n : Nat) : (s.count die cnt n).tripped = s.tripped := rfl

/-! Reading back through the keyed accessors. -/

@[simp] theorem State.ostler_setOstler_same (k : Nat) (o : Ostler) : (s.setOstler k o).ostler k = o :=
  mget_mset_same _ _ _ _

theorem State.ostler_setOstler_ne {k j : Nat} (h : j ≠ k) (o : Ostler) : (s.setOstler k o).ostler j = s.ostler j :=
  mget_mset_ne _ _ h _

@[simp] theorem State.pen_setPen_same (k : Nat) (p : Pen) : (s.setPen k p).pen k = p := mget_mset_same _ _ _ _

theorem State.pen_setPen_ne {k j : Nat} (h : j ≠ k) (p : Pen) : (s.setPen k p).pen j = s.pen j := mget_mset_ne _ _ h _

@[simp] theorem State.pe_setPe_same (k i : Nat) (p : PE) : (s.setPe k i p).pe k i = p := mget_mset_same _ _ _ _

theorem State.pe_setPe_ne {k i j m : Nat} (h : peKey j m ≠ peKey k i) (p : PE) :
    (s.setPe k i p).pe j m = s.pe j m := mget_mset_ne _ _ h _

@[simp] theorem State.fn_setFn_same (f : Nat) (x : Fn) : (s.setFn f x).fn f = x := mget_mset_same _ _ _ _

@[simp] theorem State.dirOf_setDir_same (l : Nat) (d : Dir) : (s.setDir l d).dirOf l = d := mget_mset_same _ _ _ _

@[simp] theorem State.cacheOf_setCache_same (a l : Nat) (c : Option CLine) : (s.setCache a l c).cacheOf a l = c :=
  mget_mset_same _ _ _ _

@[simp] theorem State.l2Of_setL2_same (l : Nat) (c : Option L2Line) : (s.setL2 l c).l2Of l = c := mget_mset_same _ _ _ _

@[simp] theorem State.dset_setDset_same (k : Nat) (d : DSet) : (s.setDset k d).dset k = d := mget_mset_same _ _ _ _

/-! The executing ostler. -/

@[simp] theorem State.me_setCur (o : Ostler) : (s.setCur o).me = s.me := rfl

@[simp] theorem State.cur_setCur (o : Ostler) : (s.setCur o).cur = o := mget_mset_same _ _ _ _

theorem State.ostler_setCur_ne {k : Nat} (h : k ≠ s.me) (o : Ostler) : (s.setCur o).ostler k = s.ostler k :=
  mget_mset_ne _ _ h _

/-- An update of the executing ostler changes the ostler table and nothing else. -/
theorem State.setCur_eq (o : Ostler) : s.setCur o = { s with ost := (s.setCur o).ost } := rfl

@[simp] theorem State.setMyPe_myPe (p : PE) : (s.setMyPe p).myPe = p := mget_mset_same _ _ _ _

/-- An update of the executing PE changes the PE table and nothing else. -/
theorem State.setMyPe_eq (p : PE) : s.setMyPe p = { s with pes := (s.setMyPe p).pes } := rfl

end Sys2Proof.Machine
end

