-- ==== Sys2Proof/Laws/Memory.lean ====
section
/-! SUPPORT. The laws of memory: read after write, the pass that reads many bytes, and that each operation that writes
memory keeps its canonical form. -/

namespace Sys2Proof.Machine

@[simp] theorem Memory.byte_set_same (m : List Host.Cell) (a : Nat) (b : Byte) :
    Memory.byte (Memory.set m a b) a = b := mget_mset_same _ _ _ _

theorem Memory.byte_set_ne (m : List Host.Cell) {a c : Nat} (h : c ≠ a) (b : Byte) :
    Memory.byte (Memory.set m a b) c = Memory.byte m c := mget_mset_ne _ _ h _

theorem Memory.wf_set (m : List Host.Cell) (a : Nat) (b : Byte) (w : Memory.wf m = true) :
    Memory.wf (Memory.set m a b) = true := mwf_mset _ m a b w

theorem Memory.wf_write (bs : List Byte) : ∀ (m : List Host.Cell) (a : Nat), Memory.wf m = true →
    Memory.wf (Memory.write m a bs) = true := by
  induction bs with
  | nil => exact fun _ _ w => w
  | cons b t ih => exact fun m a w => ih _ _ (Memory.wf_set m a b w)

/-- Bytes below or above the bytes written are unchanged. -/
theorem Memory.byte_write_outside (bs : List Byte) : ∀ (m : List Host.Cell) (a c : Nat),
    c < a ∨ a + bs.length ≤ c → Memory.byte (Memory.write m a bs) c = Memory.byte m c := by
  induction bs with
  | nil => exact fun _ _ _ _ => rfl
  | cons b t ih =>
    intro m a c h
    simp only [List.length_cons] at h
    rw [Memory.write, ih _ _ _ (by omega), Memory.byte_set_ne _ (by omega)]

/-- The bytes written read back. -/
theorem Memory.byte_write_inside (bs : List Byte) : ∀ (m : List Host.Cell) (a i : Nat) (h : i < bs.length),
    Memory.byte (Memory.write m a bs) (a + i) = bs[i] := by
  induction bs with
  | nil => exact fun _ _ _ h => absurd h (by simp)
  | cons b t ih =>
    intro m a i h
    cases i with
    | zero => rw [Memory.write, Memory.byte_write_outside _ _ _ _ (by omega)]; simp
    | succ j =>
      simp only [List.length_cons] at h
      have := ih (Memory.set m a b) (a + 1) j (by omega)
      rw [Memory.write, show a + (j + 1) = a + 1 + j by omega, this]; simp

theorem Memory.map_byte_below (lo a n : Nat) (m : List Host.Cell) (w : wfFrom (0 : BitVec 8) lo m = true)
    (h : a + n ≤ lo) : (List.range n).map (fun i => Memory.byte m (a + i)) = List.replicate n (0 : Byte) := by
  apply List.ext_getElem
  · simp
  · intro i h1 h2
    simp at h1 ⊢
    exact mget_below _ m lo _ (by omega) w

/-- In canonical form the one-pass read gives each byte. -/
theorem Memory.read_eq (m : List Host.Cell) : ∀ (lo a n : Nat), wfFrom (0 : BitVec 8) lo m = true →
    Memory.read m a n = (List.range n).map fun i => Memory.byte m (a + i) := by
  induction m with
  | nil => intro lo a n _; simp [Memory.read, Memory.byte, List.map_const']
  | cons e t ih =>
    obtain ⟨k, v⟩ := e
    intro lo a n w
    simp only [wfFrom, Bool.and_eq_true, decide_eq_true_eq] at w
    unfold Memory.read
    split
    · rename_i hk
      rw [ih (k + 1) a n w.2]
      apply List.map_congr_left
      intro i _
      have : k ≠ a + i := by omega
      simp [Memory.byte, mget, this]
    · split
      · rename_i h1 h2
        rw [Memory.map_byte_below k a n _ (by simp only [wfFrom, Bool.and_eq_true, decide_eq_true_eq]; exact ⟨⟨Nat.le_refl k, w.1.2⟩, w.2⟩) h2]
      · rename_i h1 h2
        rw [ih (k + 1) _ _ w.2]
        apply List.ext_getElem
        · simp; omega
        · intro i h3 h4
          simp at h4
          by_cases hi : i < k - a
          · rw [List.getElem_append_left (by simpa using hi)]
            have : k ≠ a + i := by omega
            simp only [List.getElem_replicate, List.getElem_map, List.getElem_range, Memory.byte, mget, this, if_false]
            exact (mget_below _ t (k + 1) _ (by omega) w.2).symm
          · rw [List.getElem_append_right (by simp; omega)]
            simp only [List.length_replicate]
            by_cases hz : i = k - a
            · subst hz
              have : k = a + (k - a) := by omega
              simp [Memory.byte, mget, ← this]
            · obtain ⟨j, hj⟩ : ∃ j, i - (k - a) = j + 1 := ⟨i - (k - a) - 1, by omega⟩
              have hne : k ≠ a + i := by omega
              simp only [hj, List.getElem_cons_succ, List.getElem_map, List.getElem_range, Memory.byte, mget, hne, if_false]
              congr 1
              omega

theorem Memory.read_of_wf (m : List Host.Cell) (a n : Nat) (w : Memory.wf m = true) :
    Memory.read m a n = (List.range n).map fun i => Memory.byte m (a + i) := Memory.read_eq m 0 a n w

/-! ### The operations that write memory -/

theorem State.dramWrite_wf (s : State) (l : Nat) (d : Line) (w : Memory.wf s.mem = true) :
    Memory.wf (s.dramWrite l d).mem = true := Memory.wf_write _ _ _ w

theorem State.raise_mem (s : State) (f kind : Nat) (v : Option Nat) : (s.raise f kind v).mem = s.mem := by
  cases v with
  | none => rfl
  | some v => simp only [State.raise]; split <;> rfl

theorem State.ringWrite_wf (s : State) (f : Nat) (p : Post) (w : Memory.wf s.mem = true) :
    Memory.wf (s.ringWrite f p).mem = true := by
  unfold State.ringWrite
  rw [State.raise_mem]
  exact Memory.wf_write _ _ _ w

theorem State.postHost_wf (s : State) (f ctx : Nat) (r : EvRec) (w : Memory.wf s.mem = true) :
    Memory.wf (s.postHost f ctx r).mem = true := by
  unfold State.postHost
  dsimp only
  split
  · exact w
  · exact State.ringWrite_wf _ _ _ w

theorem State.noteShadow_mem (s : State) (l : Nat) (m : BitVec 128) : (s.noteShadow l m).mem = s.mem := rfl

theorem State.noteShadows_mem (l : List (Nat × Nat × List Byte)) : ∀ s : State,
    (l.foldl (fun (s : State) (l, off, b) => s.noteShadow l (byteMask off b.length)) s).mem = s.mem := by
  induction l with
  | nil => exact fun _ => rfl
  | cons e t ih => exact fun s => ih _

theorem State.hostStore_wf (s : State) (bus : Nat) (data : List Byte) (w : Memory.wf s.mem = true) :
    Memory.wf (s.hostStore bus data).mem = true := by
  unfold State.hostStore
  split
  · rw [State.noteShadows_mem]; exact Memory.wf_write _ _ _ w
  · exact w

theorem wfFrom_filter (f : Host.Cell → Bool) (m : List Host.Cell) : ∀ lo, wfFrom (0 : BitVec 8) lo m = true →
    wfFrom (0 : BitVec 8) lo (m.filter f) = true := by
  induction m with
  | nil => exact fun _ w => w
  | cons e t ih =>
    obtain ⟨k, v⟩ := e
    intro lo w
    simp only [wfFrom, Bool.and_eq_true, decide_eq_true_eq] at w
    have iht := ih (k + 1) w.2
    rw [List.filter_cons]
    split
    · simp only [wfFrom, Bool.and_eq_true, decide_eq_true_eq]; exact ⟨w.1, iht⟩
    · exact wfFrom_mono _ (by omega) _ iht

theorem wf_foldl_set (g : Host.Cell × Nat → Byte) (l : List (Host.Cell × Nat)) : ∀ m : List Host.Cell, Memory.wf m = true →
    Memory.wf (l.foldl (fun m e => Memory.set m e.1.1 (g e)) m) = true := by
  induction l with
  | nil => exact fun _ w => w
  | cons e t ih => exact fun m w => ih _ (Memory.wf_set _ _ _ w)

theorem State.lostDram_wf (s : State) (w : Memory.wf s.mem = true) : Memory.wf s.lostDram = true :=
  wf_foldl_set (fun e => (Config.freeWord (s.freeCtr + e.2)).setWidth 8) _ _ (wfFrom_filter _ _ 0 w)

theorem State.reset_mem_wf : Memory.wf State.reset.mem = true := rfl

end Sys2Proof.Machine
end

