-- ==== Sys2Proof/Laws/Ops.lean ====
section
/-! SUPPORT. What the shared operations over registers, the pc, the loop stack and traps do, said once. -/

namespace Sys2Proof.Machine

open Sys2Proof.Claims

variable (s : State)

/-! ### Registers (R44, R384) -/

@[simp] theorem State.rx_zero : s.rx 0 = 0 := rfl

@[simp] theorem State.wx_zero (v : W64) : s.wx 0 v = s := rfl

theorem State.wx_routine {rt : Routine} (h : s.routine = some rt) {d : Reg} (hd : d ≠ 0) (v : W64) :
    s.wx d v = { s with routine := some { rt with x := mset 0 rt.x d.toNat v } } := by
  rw [State.wx, if_neg hd, h]

theorem State.wx_ostler (h : s.routine = none) {d : Reg} (hd : d ≠ 0) (v : W64) :
    s.wx d v = s.setCur { s.cur with x := mset 0 s.cur.x d.toNat v } := by
  rw [State.wx, if_neg hd, h]

theorem State.rx_of_routine {rt : Routine} (h : s.routine = some rt) {r : Reg} (hr : r ≠ 0) : s.rx r = mget 0 rt.x r.toNat := by
  rw [State.rx, if_neg hr, h]

theorem State.rx_of_ostler (h : s.routine = none) {r : Reg} (hr : r ≠ 0) : s.rx r = mget 0 s.cur.x r.toNat := by
  rw [State.rx, if_neg hr, h]

theorem mget_set_reg (m : SMap W64) (d r : Reg) (v : W64) :
    mget 0 (mset 0 m d.toNat v) r.toNat = if r = d then v else mget 0 m r.toNat := by
  rw [mget_mset]
  by_cases h : r = d
  · rw [if_pos h, if_pos (by rw [h])]
  · rw [if_neg h, if_neg fun e => h (BitVec.eq_of_toNat_eq e)]

/-- A write of a register sets that register, discards x0, and leaves every other register. -/
theorem State.wx_set (d : Reg) (v : W64) : RegSet s (s.wx d v) d v := by
  intro r
  by_cases hr : r = 0
  · rw [if_pos hr, hr]; rfl
  rw [if_neg hr]
  by_cases hd : d = 0
  · rw [hd, State.wx_zero, if_neg hr]
  cases h : s.routine with
  | some rt => rw [State.wx_routine s h hd, State.rx_of_routine _ rfl hr, State.rx_of_routine s h hr, mget_set_reg]
  | none =>
    rw [State.wx_ostler s h hd, State.rx_of_ostler _ (by simp [h]) hr, State.rx_of_ostler s h hr, State.cur_setCur, mget_set_reg]

/-! ### The loop stack (R288) -/

/-- The count-and-repeat rule changes LCOUNT, LDEPTH and the pc, and nothing else. -/
theorem Ostler.loopEnd_frame (o : Ostler) (a : W64) (n : Nat) : o.loopEnd a n =
    { o with lcount := (o.loopEnd a n).lcount, ldepth := (o.loopEnd a n).ldepth, pc := (o.loopEnd a n).pc } := by
  induction n generalizing o with
  | zero => rfl
  | succ t ih =>
    unfold Ostler.loopEnd
    split
    · dsimp only
      split
      · rfl
      · rw [ih]
    · rfl

/-- A word's commit changes LCOUNT, LDEPTH, the pc and the end of its wait, and nothing else. -/
theorem Ostler.commit_frame (o : Ostler) : o.commit =
    { o with lcount := o.commit.lcount, ldepth := o.commit.ldepth, pc := o.commit.pc, wait := none } := by
  unfold Ostler.commit; rw [Ostler.loopEnd_frame]

@[simp] theorem Ostler.commit_x (o : Ostler) : o.commit.x = o.x := by rw [Ostler.commit_frame]

theorem Ostler.loopEnd_with_x (o : Ostler) (x : SMap W64) (a : W64) (n : Nat) :
    ({ o with x := x } : Ostler).loopEnd a n = { o.loopEnd a n with x := x } := by
  induction n generalizing o with
  | zero => rfl
  | succ t ih =>
    unfold Ostler.loopEnd
    dsimp only
    split
    · split
      · rfl
      · exact ih { o with lcount := mset 0 o.lcount t (mget 0 o.lcount t - 1) }
    · rfl

/-- The registers play no part in a commit. -/
theorem Ostler.commit_with_x (o : Ostler) (x : SMap W64) : ({ o with x := x } : Ostler).commit = { o.commit with x := x } := by
  unfold Ostler.commit; dsimp only; rw [Ostler.loopEnd_with_x]

theorem Ostler.loopEnd_ldepth_le (o : Ostler) (a : W64) (n : Nat) : (o.loopEnd a n).ldepth ≤ n := by
  induction n generalizing o with
  | zero => exact Nat.le_refl 0
  | succ t ih =>
    unfold Ostler.loopEnd
    split
    · dsimp only
      split
      · exact Nat.le_refl _
      · exact Nat.le_succ_of_le (ih _)
    · exact Nat.le_refl _

/-- A commit never deepens the loop stack. -/
theorem Ostler.commit_ldepth_le (o : Ostler) : o.commit.ldepth ≤ o.ldepth := Ostler.loopEnd_ldepth_le o o.pc o.ldepth

theorem Ostler.unwindTo_le (o : Ostler) (t : W64) (n : Nat) : o.unwindTo t n ≤ n := by
  induction n with
  | zero => exact Nat.le_refl 0
  | succ k ih =>
    unfold Ostler.unwindTo
    split
    · exact Nat.le_refl _
    · exact Nat.le_succ_of_le ih

/-! ### Committing a word -/

theorem State.commit_ostler (h : s.routine = none) : s.commit = s.setCur s.cur.commit := by
  rw [State.commit, h]

theorem State.commit_routine {rt : Routine} (h : s.routine = some rt) :
    s.commit = { s with routine := some { rt with at_ := rt.at_ + 1 } } := by
  rw [State.commit, h]

@[simp] theorem State.rx_commit (r : Reg) : s.commit.rx r = s.rx r := by
  cases h : s.routine with
  | some rt =>
    rw [State.commit_routine s h]
    by_cases hr : r = 0
    · rw [hr]; rfl
    · rw [State.rx_of_routine _ rfl hr, State.rx_of_routine s h hr]
  | none =>
    rw [State.commit_ostler s h]
    by_cases hr : r = 0
    · rw [hr]; rfl
    · rw [State.rx_of_ostler _ (by simp [h]) hr, State.rx_of_ostler s h hr, State.cur_setCur, Ostler.commit_x]

/-- Everything a word that only writes a register does. -/
theorem State.ret_wrote (d : Reg) (v : W64) : Wrote s (s.ret d v) d v := by
  refine ⟨fun r => by rw [State.ret, State.rx_commit, State.wx_set], ?_⟩
  by_cases hd : d = 0
  · rw [hd, State.ret, State.wx_zero]
    cases h : s.routine with
    | some rt => exact ⟨rt.x, State.commit_routine s h⟩
    | none =>
      rw [State.commit_ostler s h]
      exact ⟨⟨rfl, fun k hk => State.ostler_setCur_ne s hk _⟩, by rw [State.cur_setCur]⟩
  · cases h : s.routine with
    | some rt =>
      rw [State.ret, State.wx_routine s h hd, State.commit_routine _ rfl]
      exact ⟨_, rfl⟩
    | none =>
      rw [State.ret, State.wx_ostler s h hd, State.commit_ostler _ (by simp [h])]
      refine ⟨⟨rfl, fun k hk => ?_⟩, ?_⟩
      · rw [State.ostler_setCur_ne _ (by simpa using hk), State.ostler_setCur_ne _ hk]
      · rw [State.cur_setCur, State.cur_setCur, Ostler.commit_with_x]

theorem Completes.of_ret {i : Instr} {s : State} {d : Reg} {v : W64} (h : exec i s = .next (s.ret d v)) :
    Completes i s fun t => Wrote s t d v := ⟨_, h, State.ret_wrote s d v⟩

/-! ### Traps (R48, R230) -/

/-- A fault of a word outside a handler, whole. -/
theorem State.trap_trapped (h : s.cur.tm = false) (cause : Nat) (tval : W64) : Trapped s (s.trap cause tval) cause tval := by
  have e : s.trap cause tval = s.setCur (s.cur.trapEntry (BitVec.ofNat 64 cause) tval s.cur.pc) := by
    simp [State.trap, State.trapWith, h]
  have hp : b2n s.cur.tm = 0 := by rw [h]; rfl
  have ht : s.cur.status.getLsbD 0 = false := h
  rw [e]
  refine ⟨⟨rfl, fun k hk => State.ostler_setCur_ne s hk _⟩, by rw [State.cur_setCur]; rfl, ?_, ?_, ?_⟩
  · rw [State.cur_setCur]
    simp [Ostler.trapEntry, hp, BitVec.getLsbD, Nat.testBit_zero]
    omega
  · rw [State.cur_setCur, ht]
    simp only [Ostler.trapEntry, hp, BitVec.getLsbD, BitVec.toNat_ofNat, Nat.testBit, Nat.shiftRight_eq_div_pow,
      Nat.one_and_eq_mod_two]
    have : (1 + 2 * 0 + 16 * s.cur.ldepth) % 2 ^ 64 / 2 ^ 1 % 2 = 0 := by omega
    rw [this]
    rfl
  · intro hl
    rw [State.cur_setCur]
    simp only [Ostler.trapEntry, hp, BitVec.extractLsb'_toNat, BitVec.toNat_ofNat, Nat.shiftRight_eq_div_pow]
    omega

end Sys2Proof.Machine
end

