-- ==== Sys2Proof/Laws/Row.lean ====
section
/-! SUPPORT. The elements of a vector read back as they were made, and everything a committing row word does. -/

namespace Sys2Proof.Machine

/-! ### Elements (R58, R318) -/

/-- The sum mkElems builds, n elements far. -/
theorem elems_below (w : Nat) (f : Nat → Nat) (n : Nat) :
    iter (fun n a => a + (f n % 2 ^ w) <<< (w * n)) n 0 < 2 ^ (w * n) := by
  induction n with
  | zero => simp [iter]
  | succ k ih =>
    have h : f k % 2 ^ w + 1 ≤ 2 ^ w := Nat.mod_lt (f k) (Nat.two_pow_pos w)
    have h2 : (f k % 2 ^ w + 1) * 2 ^ (w * k) ≤ 2 ^ w * 2 ^ (w * k) := Nat.mul_le_mul_right _ h
    rw [Nat.add_mul, Nat.one_mul, ← Nat.pow_add, Nat.add_comm w, ← Nat.mul_add_one] at h2
    rw [iter, Nat.shiftLeft_eq]
    omega

theorem elems_get (w : Nat) (f : Nat → Nat) (n i : Nat) (hi : i < n) :
    iter (fun n a => a + (f n % 2 ^ w) <<< (w * n)) n 0 / 2 ^ (w * i) % 2 ^ w = f i % 2 ^ w := by
  induction n with
  | zero => omega
  | succ k ih =>
    rw [iter, Nat.shiftLeft_eq]
    by_cases h : i = k
    · subst h
      rw [Nat.add_mul_div_right _ _ (Nat.two_pow_pos _), Nat.div_eq_of_lt (elems_below w f i), Nat.zero_add, Nat.mod_mod]
    · have hk : i < k := by omega
      obtain ⟨d, hd⟩ : ∃ d, k = i + (1 + d) := ⟨k - i - 1, by omega⟩
      have hm : w * k = w * d + w + w * i := by rw [hd, Nat.mul_add, Nat.mul_add, Nat.mul_one]; omega
      rw [hm, Nat.pow_add, Nat.pow_add, ← Nat.mul_assoc, ← Nat.mul_assoc, Nat.add_mul_div_right _ _ (Nat.two_pow_pos _),
        Nat.add_mul_mod_self_right, ← ih hk]

/-- Element i of a vector made from f is f i, cut to the width. -/
theorem elem_mkElems (w : Nat) (f : Nat → Nat) (i : Nat) (hi : i < 2048 / w) : elem w (mkElems w f) i = f i % 2 ^ w := by
  have hb : iter (fun n a => a + (f n % 2 ^ w) <<< (w * n)) (2048 / w) 0 < 2 ^ 2048 :=
    Nat.lt_of_lt_of_le (elems_below w f (2048 / w)) (Nat.pow_le_pow_right (by omega) (Nat.mul_div_le 2048 w))
  unfold elem mkElems
  rw [BitVec.toNat_ofNat, Nat.mod_eq_of_lt hb, Nat.shiftRight_eq_div_pow, elems_get w f _ i hi]

theorem lane_mkLanes (f : Nat → W32) (k : Nat) (hk : k < 64) : lane (mkLanes f) k = f k := by
  apply BitVec.eq_of_toNat_eq
  rw [lane, mkLanes, elem_mkElems 32 _ k (by omega), BitVec.toNat_ofNat, Nat.mod_mod, Nat.mod_eq_of_lt (f k).isLt]

theorem lane_splat (x : W32) (k : Nat) (hk : k < 64) : lane (splat x) k = x := lane_mkLanes _ k hk

theorem lane_mergeLanes (m : W64) (x y : Vec) (k : Nat) (hk : k < 64) :
    lane (mergeLanes m x y) k = if m.getLsbD k then lane x k else lane y k := lane_mkLanes _ k hk

/-! ### The end of a row word -/

/-- A row op that computes a result, with its predicate not PR 0 with PN 1, no faulting window and no stop on non-finite counts, ends its row with it. -/
theorem State.row_go (s : State) (o : Op) (w : RowMods) (f : RowCx → State → Eff) (t : State) (res : Option Vec)
    (lanes : W64) (nfc satc : Nat) (hd : deadRowWord w = false) (hw : s.rowWindow o w = none) (hn : s.myPen.nft = false)
    (hf : f (rowCx o w s) s = .go t res lanes nfc satc) :
    s.row o w f = t.setMyPe (t.myPe.finishRow s.myPe o w (if ignored o s.myPen s.who.pe then [] else usedSources o w) res
      lanes (nfc + nanCount o w (rowCx o w s)) satc) := by
  have h : (rowCx o w s).pen.nft = false := hn
  simp only [State.row, hd, hw, hf, h, Bool.false_and, Bool.false_eq_true, if_false]
  rfl

/-- A row op that faults stops its domain before the row. -/
theorem State.row_fault (s : State) (o : Op) (w : RowMods) (f : RowCx → State → Eff) (c a n : Nat)
    (hd : deadRowWord w = false) (hw : s.rowWindow o w = none) (hf : f (rowCx o w s) s = .fault c a n) :
    s.row o w f = s.rowFault w c a n := by
  simp only [State.row, hd, hw, hf, Bool.false_eq_true, if_false]

/-- A row word with PR 0 and PN 1 commits nothing but its routes (R59). -/
theorem State.row_dead (s : State) (o : Op) (w : RowMods) (f : RowCx → State → Eff) (hd : deadRowWord w = true) :
    s.row o w f = s.setMyPe (s.myPe.deadRow s.myPe o w) := by
  simp only [State.row, hd, if_true]

theorem State.vec_eq (s : State) (o : Op) (w : RowMods) (f : RowCx → Vec) (hd : deadRowWord w = false)
    (hw : s.rowWindow o w = none) (hn : s.myPen.nft = false) : s.vec o w f = s.setMyPe (s.myPe.finishRow s.myPe o w
      (if ignored o s.myPen s.who.pe then [] else usedSources o w) (some (f (rowCx o w s))) (s.myPe.mask w)
      (0 + nanCount o w (rowCx o w s)) 0) :=
  State.row_go s o w _ s _ _ _ _ hd hw hn rfl

end Sys2Proof.Machine
end

