-- ==== Sys2Proof/Tests/Slice0.lean ====
section
/-! SUPPORT. Tests of our own: words of the spec and their decoding, ill-formed terms and their refusal, one step of
instructions on small states with results the spec states, and for each statement states that meet its hypotheses. -/

namespace Sys2Proof.Tests

open Sys2Proof Sys2Proof.Machine Sys2Proof.Claims

-- One theorem after another: a test that is being checked holds up no other.
set_option Elab.async false

/-! ### Decoding: words written out bit by bit from the encodings of R252-R258, R278-R315, R365-R405, field by field -/

/-- A word is read as an instruction, or refused for a reason. -/
def okIs (r : Except DecodeError Instr) (i : Instr) : Bool :=
  match r with
  | .ok j => decide (j = i)
  | .error _ => false
def refuses (r : Except DecodeError Instr) (e : DecodeError) : Bool :=
  match r with
  | .ok _ => false
  | .error x => decide (x = e)

/-- Every word of a list decodes to the instruction beside it. -/
def reads (l : List (W32 × Instr)) : Bool := l.all fun e => okIs (decodeOstler e.1) e.2

theorem test_decode_int : reads (
  [
    (0b000001_00101_00110_00111_00000000000, .add 5 6 7), (0b000001_00101_00110_00111_00000000001, .sub 5 6 7),
    (0b000001_00101_00110_00111_00000000010, .and 5 6 7), (0b000001_00101_00110_00111_00000000011, .or 5 6 7),
    (0b000001_00101_00110_00111_00000000100, .xor 5 6 7), (0b000001_00101_00110_00111_00000000101, .sll 5 6 7),
    (0b000001_00101_00110_00111_00000000110, .srl 5 6 7), (0b000001_00101_00110_00111_00000000111, .sra 5 6 7),
    (0b000001_00101_00110_00111_00000001000, .mul 5 6 7), (0b000001_00101_00110_00111_00000001001, .mulh 5 6 7),
    (0b000001_00101_00110_00111_00000001010, .mulhu 5 6 7), (0b000001_00101_00110_00111_00000001011, .div 5 6 7),
    (0b000001_00101_00110_00111_00000001100, .divu 5 6 7), (0b000001_00101_00110_00111_00000001101, .rem 5 6 7)] ++
  [
    (0b000001_00101_00110_00111_00000001110, .remu 5 6 7), (0b000001_00101_00110_00111_00000001111, .slt 5 6 7),
    (0b000001_00101_00110_00111_00000010000, .sltu 5 6 7), (0b000001_00101_00110_00111_00000010001, .min 5 6 7),
    (0b000001_00101_00110_00111_00000010010, .max 5 6 7), (0b000001_00101_00110_00111_00000010011, .minu 5 6 7),
    (0b000001_00101_00110_00111_00000010100, .maxu 5 6 7), (0b000001_00101_00110_0000000000010101, .clz 5 6),
    (0b000001_00101_00110_0000000000010110, .popc 5 6), (0b000001_00101_00110_00111_00000010111, .bext 5 6 7),
    (0b000001_00101_00110_00111_01000_011000, .bins 5 6 7 8), (0b000001_00101_00110_00111_01000_011001, .sel 5 6 7 8)]) = true := by decide +kernel

theorem test_decode_imm : reads (
  [
    (0b000010_00101_00110_1000011101100101, .addi 5 6 0x8765),
    (0b000011_00101_00110_1000011101100101, .andi 5 6 0x8765),
    (0b000100_00101_00110_1000011101100101, .ori 5 6 0x8765),
    (0b000101_00101_00110_1000011101100101, .xori 5 6 0x8765),
    (0b000110_00101_00110_1000011101100101, .slti 5 6 0x8765),
    (0b000111_00101_00110_00000000_10_001001, .shi 5 6 2 0x9),
    (0b001000_00101_00000_1000011101100101, .lui 5 0x8765), (0b001001_00101_00110_0000000000000_101, .idf 5 6 5)]) = true := by decide +kernel

theorem test_decode_load_store : reads (
  [
    (0b010000_00101_00110_1111111111111000, .ldb 5 6 0xFFF8),
    (0b010001_00101_00110_1111111111111000, .ldbu 5 6 0xFFF8),
    (0b010010_00101_00110_1111111111111000, .ldh 5 6 0xFFF8),
    (0b010011_00101_00110_1111111111111000, .ldhu 5 6 0xFFF8),
    (0b010100_00101_00110_1111111111111000, .ldw 5 6 0xFFF8),
    (0b010101_00101_00110_1111111111111000, .ldwu 5 6 0xFFF8),
    (0b010110_00101_00110_1111111111111000, .ldd 5 6 0xFFF8), (0b010111_00101_00110_0000000000000_011, .ldaq 5 6 3),
    (0b011000_01001_00110_1111111111111000, .stb 9 6 0xFFF8),
    (0b011001_01001_00110_1111111111111000, .sth 9 6 0xFFF8),
    (0b011010_01001_00110_1111111111111000, .stw 9 6 0xFFF8),
    (0b011011_01001_00110_1111111111111000, .std 9 6 0xFFF8), (0b011100_01001_00110_0000000000000_010, .strl 9 6 2)]) = true := by decide +kernel

theorem test_decode_branch_loop : reads (
  [
    (0b100000_00110_00111_1111111111111000, .beq 6 7 0xFFF8),
    (0b100001_00110_00111_1111111111111000, .bne 6 7 0xFFF8),
    (0b100010_00110_00111_1111111111111000, .blt 6 7 0xFFF8),
    (0b100011_00110_00111_1111111111111000, .bge 6 7 0xFFF8),
    (0b100100_00110_00111_1111111111111000, .bltu 6 7 0xFFF8),
    (0b100101_00110_00111_1111111111111000, .bgeu 6 7 0xFFF8),
    (0b100110_1_1111111111111111111110001, .jal 1 0x1FFFFF1),
    (0b100111_00101_00110_1111111111111000, .jalr 5 6 0xFFF8),
    (0b101000_00110_00000_1111111111111000, .loop 6 0xFFF8),
    (0b101001_1010100101_1111111111111000, .loopi 0x2A5 0xFFF8), (0b101010_00000000000000000000000000, .lpop)]) = true := by decide +kernel

theorem test_decode_sys : reads (
  [
    (0b110000_000000_1000011101100101_0000, .trap 0x8765), (0b110000_00000000000000000000000001, .eret),
    (0b110000_00101_00000_000000100001_0010, .csrr 5 0x21), (0b110000_00101_00110_000000100001_0011, .csrw 5 6 0x21),
    (0b110000_00101_00110_000000100001_0100, .csrs 5 6 0x21),
    (0b110000_00101_00110_000000100001_0101, .csrc 5 6 0x21), (0b110000_00000000000000000_10_011_0110, .fence 2 3),
    (0b110000_00000_00110_0000000000000111, .wait 6), (0b110000_00000000000000000000001000, .halt)]) = true := by decide +kernel

theorem test_decode_evq : reads (
  [
    (0b110001_00101_00110_0000000000000000, .eqpop 5 6), (0b110001_00101_00110_0000000000000001, .eqpeek 5 6),
    (0b110001_00101_00110_0000000000000010, .eqwait 5 6), (0b110001_00101_00110_00111_01000_000011, .eqpost 5 6 7 8)]) = true := by decide +kernel

theorem test_decode_pen_job : reads (
  [
    (0b110010_00101_00110_0000000000000000, .rplace 5 6), (0b110010_00101_00110_00111_00000000001, .rload 5 6 7),
    (0b110010_00101_00110_00111_01000_000010, .rcfg 5 6 7 8), (0b110010_00101_00110_0000000000000011, .rstart 5 6),
    (0b110010_00101_00110_0000000000000100, .rstop 5 6), (0b110010_00101_00110_0000000000000101, .rstat 5 6),
    (0b110010_00101_00110_0000000000000110, .rrel 5 6), (0b110010_00101_00110_00111_01000_000111, .radj 5 6 7 8),
    (0b110010_00101_00110_00111_00000001000, .jraise 5 6 7), (0b110010_00101_00110_00111_00000001001, .jdone 5 6 7),
    (0b110010_00101_00110_00111_00000001010, .jwait 5 6 7), (0b110010_00101_00110_00111_00000001011, .launch 5 6 7)]) = true := by decide +kernel

theorem test_decode_stream_buffer : reads (
  [
    (0b110011_00101_00110_00111_00000000000, .sq 5 6 7), (0b110011_00101_00110_00111_01000_000001, .sprog 5 6 7 8),
    (0b110011_00101_00110_0000000000000010, .scancel 5 6), (0b110011_00101_00110_0000000000000011, .sstat 5 6),
    (0b110011_00101_00110_0000000000000100, .recfl 5 6), (0b110011_00101_00110_0000000000000101, .scomb 5 6),
    (0b110100_00101_00110_00111_01000_000000, .bwait 5 6 7 8), (0b110100_00101_00110_00111_00000000001, .bset 5 6 7)]) = true := by decide +kernel

theorem test_decode_mem : reads (
  [
    (0b110101_00101_00110_00111_00000000000, .clean 5 6 7), (0b110101_00101_00110_00111_00000000001, .inval 5 6 7),
    (0b110101_00101_00110_00111_00000000010, .flush 5 6 7), (0b110101_00101_00110_00111_00000000011, .lock 5 6 7),
    (0b110101_00101_00110_00111_00000000100, .unlock 5 6 7),
    (0b110101_00101_00110_00111_01000_000101, .hover 5 6 7 8)]) = true := by decide +kernel

theorem test_decode_amo : reads (
  [
    (0b110110_00101_00110_00111_0000_1_000000, .aadd 5 6 7 1),
    (0b110110_00101_00110_00111_0000_1_000001, .aand 5 6 7 1),
    (0b110110_00101_00110_00111_0000_1_000010, .aor 5 6 7 1),
    (0b110110_00101_00110_00111_0000_1_000011, .axor 5 6 7 1),
    (0b110110_00101_00110_00111_000_1_1_000100, .amin 5 6 7 1 1),
    (0b110110_00101_00110_00111_000_1_1_000101, .amax 5 6 7 1 1),
    (0b110110_00101_00110_00111_0000_1_000110, .axchg 5 6 7 1),
    (0b110110_00101_00110_00111_01000_000111, .acas 5 6 7 8), (0b110110_00101_00110_00111_00000001000, .afadd 5 6 7),
    (0b110110_00101_00110_00111_01000_001001, .arun 5 6 7 8), (0b110110_00101_00110_00111_00000001010, .rdef 5 6 7),
    (0b110110_00101_00110_00111_01000_001011, .lapp 5 6 7 8),
    (0b110110_00101_00110_00111_01000_001100, .lmrg 5 6 7 8), (0b111100_00101_00110_0000000000000000, .lld 5 6)] ++
  [
    (0b111100_00000_00110_00111_00000000001, .lst 6 7), (0b111100_00000_00110_0000000000000010, .ldone 6)]) = true := by decide +kernel

theorem test_decode_derived : reads (
  [
    (0b110111_00101_00110_00111_00000000000, .ddecl 5 6 7), (0b110111_00101_00110_0000000000000001, .ddrop 5 6),
    (0b110111_00101_00110_00111_00000000010, .drd 5 6 7), (0b110111_00101_00110_00111_00000000011, .drds 5 6 7),
    (0b110111_00101_00110_00111_00000000100, .dsnap 5 6 7), (0b110111_00101_00110_0000000000000101, .dsync 5 6),
    (0b110111_00101_00110_0000000000000110, .dreb 5 6), (0b110111_00101_00110_00111_00000000111, .qscale 5 6 7)]) = true := by decide +kernel

theorem test_decode_clause : reads (
  [
    (0b111000_00101_00110_00111_01000_000000, .kinf 5 6 7 8),
    (0b111000_00101_00110_00111_01000_000001, .kfb 5 6 7 8),
    (0b111000_00101_00110_00111_01000_000010, .kseed 5 6 7 8),
    (0b111000_00101_00110_00111_01000_000011, .kld 5 6 7 8), (0b111000_00101_00110_00111_01000_000100, .kst 5 6 7 8),
    (0b111000_00101_00110_00111_00000000101, .kcfg 5 6 7), (0b111000_00101_00110_00111_00000000110, .kvote 5 6 7),
    (0b111000_00101_00110_00111_00000000111, .ksync 5 6 7), (0b111000_00101_00110_0000000000001000, .kclr 5 6)]) = true := by decide +kernel

theorem test_decode_rng_drive : reads (
  [
    (0b111001_00000_00110_00111_00000000000, .rkey 6 7), (0b111001_00101_000000000000000000001, .rdraw 5),
    (0b111010_00101_00110_00111_01000_000000, .nvrd 5 6 7 8),
    (0b111010_00101_00110_00111_01000_000001, .nvwr 5 6 7 8), (0b111011_00101_00110_0000000000000000, .offl 5 6),
    (0b111011_00101_00110_0000000000000001, .recall 5 6), (0b111011_00101_00110_00111_00000000010, .xloc 5 6 7)]) = true := by decide +kernel

/-- The fields of a row word below OPC, every one at a value of its own (R259): FMT 5, DST 17, SA 33, SB 44, SC 34, PR 6, PN 1,
STG 3, HOLD 2, HID 9, RTN 1, RTE 2, RTS 3, RTW 0, PL 1, AUX 41, IMM. -/
def rowBits : Nat :=
  0b101_010001_100001_101100_100010_110_1_011_10_1001_01_10_11_00_01_101001 * 2 ^ 64 + 0x0123456789ABCDEF
def rowMods : RowMods :=
  { fmt := 5, dst := 17, sa := 33, sb := 44, sc := 34, pr := 6, pn := 1, stg := 3, hold := 2, hid := 9, rtn := 1, rte := 2,
    rts := 3, rtw := 0, pl := 1, aux := 41, imm := 0x0123456789ABCDEF }

/-- Op codes count up from a first one, as R264 lists them. -/
def readsRows (first : Nat) (l : List (RowMods → Instr)) : Bool :=
  l.zipIdx.all fun (f, k) => okIs (decodeRow (BitVec.ofNat 128 ((first + k) * 2 ^ 120 + rowBits))) (f rowMods)

theorem test_decode_rows_00 : readsRows 0x00 [
    .nop, .rowHalt, .haltf, .cond, .epost, .mov, .rowSel, .limm] = true := by decide +kernel

theorem test_decode_rows_10 : readsRows 0x10 [
    .vadd, .vsub, .vmul, .vmulh, .vand, .vor, .vxor, .vshl, .vshr, .vsra, .vmin, .vmax, .vabs, .vcmp, .vqrs] = true := by decide +kernel

theorem test_decode_rows_20 : readsRows 0x20 [
    .vfadd, .vfsub, .vfmul, .vfma, .vfmin, .vfmax, .vfabs, .vfneg, .vfcmp, .vrcp, .vrsq, .vexp2, .vlog2, .vrope,
    .vnfc, .vopt] = true := by decide +kernel

theorem test_decode_rows_30 : readsRows 0x30 [
    .vcvt, .vpack, .vunpk, .vbfly, .vrng] = true := by decide +kernel

theorem test_decode_rows_38 : readsRows 0x38 [
    .vshuf, .vrotl, .vbcast, .vred, .vscan] = true := by decide +kernel

theorem test_decode_rows_40 : readsRows 0x40 [
    .lds, .ldss, .sts, .ldg, .stg, .gath, .scat, .back, .lapr] = true := by decide +kernel

theorem test_decode_rows_50 : readsRows 0x50 [
    .mldw, .mpass, .mpassd, .mwait, .mrd, .mclr, .msprs] = true := by decide +kernel

theorem test_decode_rows_58 : readsRows 0x58 [
    .tmerge, .tred] = true := by decide +kernel

theorem test_decode_zero_row : (match decodeRow 0 with | .ok (.nop _) => true | _ => false) = true := by decide +kernel
theorem test_decode_haltf_word :
    (match decodeRow 0x02000000000000000000000000000000 with | .ok (.haltf _) => true | _ => false) = true := by decide +kernel

/-- Every stream word of R372 of a list decodes to the command beside it. -/
def readsStream (l : List (W64 × Instr)) : Bool := l.all fun e => okIs (decodeStream e.1) e.2

theorem test_decode_stream : readsStream [
    (0b000001_00_00000000_00000000_00000000_00000000_00000000_00010010_00110100, .spat 0x1234),
    (0b000010_00_0000000000000000000000000000000000000000_101_1010101_100001, .sdstPort 33 85 5),
    (0b000010_01_00000000_00000000_00000000_00000000_00000000_01010110_01111000, .sdstMem 0x5678),
    (0b000011_101_00_000000000000000000000001001_00000000000000000000000110, .sgoSet 5 9 6),
    (0b000011_010_01_000000000000000000000000011_00000000000000000000000100, .sgoSetgo 2 3 4),
    (0b000011_000_10_00000000000000000000000000000000000000000000000000000, .sgoGo),
    (0b000100_000000000000000000000000000000000000000000000000000000000_1, .sxpose 1),
    (0b000101_00_00000000_00000000_00000000_00000000_00000000_10011010_10111100, .scmb 0x9ABC),
    (0b000110_100_111111111111111111111111111_0000000000000000000000000101, .sloop 4 0x7FFFFFF 5),
    (0b000111_0000000000000000000000000000000000000000000000000000000000, .sendl),
    (0b001000_0000000000000000000000000000000000000_110_10_101_1010101_100001, .swaith 33 85 5 2 6),
    (0b001001_00_00000000_00000000_00000000_00000000_00000000_00000000_01001101, .sevt 77),
    (0b001010_0000000000000000000000000000000000000000000000000000000000, .sfence),
    (0b001011_00_0000000000000000000000000000000000000000000000011_0_000111, .speer 3 7),
    (0b001100_0000000000000000000000000000000000000000000000000000000000, .sdone)] = true := by decide +kernel

theorem test_decode_refusals :
    refuses (decodeOstler 0x00000000) .reservedMajor = true ∧ refuses (decodeOstler 0xFC000000) .reservedMajor = true ∧
    refuses (decodeOstler 0x0400001A) .unassignedFn = true ∧ refuses (decodeOstler 0xC0000009) .unassignedMinor = true ∧
    refuses (decodeOstler 0x1CA600C3) .shiKind = true ∧ refuses (decodeOstler 0x24A60006) .idfLevel = true ∧
    refuses (decodeOstler 0x5CA60005) .badScope = true ∧ refuses (decodeOstler 0x70A60005) .badScope = true ∧
    refuses (decodeOstler 0xC0000056) .badScope = true ∧ refuses (decodeOstler 0xC0000186) .fenceKind = true ∧
    refuses (decodeOstler 0xD8A63848) .afaddCtl = true ∧
    refuses (decodeRow 0x08000000000000000000000000000000) .unassignedOpc = true ∧
    refuses (decodeStream 0x0000000000000000) .unassignedSop = true ∧ refuses (decodeStream 0x3400000000000000) .unassignedSop = true ∧
    refuses (decodeStream 0x0700000000000000) .streamReserved = true ∧ refuses (decodeStream 0x0F80000000000000) .streamField = true := by
  decide +kernel

/-! ### Ill-formed terms, each refused by the check it breaks -/

theorem test_wellformed_refuses_fields :
    [Instr.shi 1 2 3 4, .idf 1 2 6, .ldaq 1 2 5, .strl 1 2 5, .fence 3 0, .fence 0 5, .sgoSet 6 0 0, .sgoSetgo 6 0 0,
      .sloop 6 1 1, .sloop 0 1 0, .ostlerWaitEnd 8 0, .ostlerWaitEnd 0 32, .eventPost 8 0, .eventPost 0 32, .cwostStart 8 0 0,
      .cwostStart 0 32 0, .cwostStart 0 0 256, .cwostStop 8 0, .cwostStop 0 32, .cwostStopDone 8 0, .cwostStopDone 0 32,
      .loadReply 8 0 0, .loadReply 0 128 0, .penRetire 8 0, .penRetire 0 128, .commandDispatch 8 0 0, .commandDispatch 0 128 0,
      .commandDispatch 0 0 64, .streamTile 8 0 0, .streamTile 0 16 0, .streamTile 0 0 16, .registerWrite 64 0 0,
      .functionLevelReset 64].all (fun i => !i.wellFormed) = true := by decide +kernel

/-- A sound row word: v3 := v1 op v2 in FMT 7, no route, no hold. -/
def goodMods : RowMods :=
  { fmt := 7, dst := 3, sa := 1, sb := 2, sc := 0, pr := 0, pn := 0, stg := 0, hold := 0, hid := 0, rtn := 0, rte := 0,
    rts := 0, rtw := 0, pl := 0, aux := 0, imm := 0 }

theorem test_wellformed_accepts_row : (Instr.vadd goodMods).wellFormed = true := by decide +kernel

theorem test_wellformed_refuses_rows :
    [Instr.vadd { goodMods with dst := 40 }, .vadd { goodMods with dst := 36 }, .vopt { goodMods with dst := 57 },
      .vadd { goodMods with sa := 40 }, .vadd { goodMods with sb := 36 }, .vfma { goodMods with fmt := 0, sc := 41 },
      .vadd { goodMods with fmt := 0 }, .vadd { goodMods with pl := 3 }, .vadd { goodMods with pl := 2 },
      .vbcast { goodMods with pl := 0 }, .vshuf { goodMods with pl := 1 }, .mov { goodMods with dst := 52, rtn := 1 },
      .vadd { goodMods with rtn := 3, sc := 3 }, .nop { goodMods with rtn := 1 }, .vadd { goodMods with hold := 3 },
      .vadd { goodMods with hold := 2 }, .vadd { goodMods with hold := 1 }, .mpass { goodMods with fmt := 3, dst := 3 },
      .mrd { goodMods with sa := 3 }, .rowSel { goodMods with sc := 3 }, .vfcmp { goodMods with fmt := 0, aux := 5 },
      .vcmp { goodMods with aux := 6 }, .vrope { goodMods with fmt := 1 }, .vcvt { goodMods with aux := 1 },
      .vpack { goodMods with aux := 1 }, .vunpk { goodMods with aux := 0 }, .vbfly { goodMods with fmt := 3, sa := 2 },
      .vred { goodMods with aux := 0 }, .lds { goodMods with imm := 0x100000000 }, .scat { goodMods with aux := 1 },
      .lapr { goodMods with aux := 7 }, .msprs { goodMods with fmt := 1, dst := 40 },
      .mrd { goodMods with sa := 40, aux := 16 }].all (fun i => !i.wellFormed) = true := by decide +kernel
/-! ### Small states -/

/-- An outcome is a next state. -/
def isNext : Out → Bool
  | .next _ => true
  | _ => false

/-- A value that is there. -/
def isOk {ε α : Type} : Except ε α → Bool
  | .ok _ => true
  | .error _ => false
def engOk {α : Type} : Eng α → Bool
  | .ok _ _ => true
  | _ => false


/-- An access of an ostler that is done, traps, or waits. -/
def accOk : Machine.Acc → Bool
  | .ok _ _ => true
  | _ => false
def accTraps : Machine.Acc → Bool
  | .trap _ _ _ => true
  | _ => false
def accWaits : Machine.Acc → Bool
  | .wait _ => true
  | _ => false

/-- A running ostler of context 0 with some registers. -/
def anOstler (x : SMap W64) : Ostler := { Ostler.reset with run := .running, ctx := some 0, x := x }

/-- Translations of context 0: plain memory, the host window, memory without W, a page with DER, a peer window. -/
def plainPage : Tlb := { ctx := 0, va := 0, size := 0x10000, pa := 0, attr := 0x47 }
def hostPage : Tlb := { ctx := 0, va := 0x10000, size := 0x10000, pa := 0x8000000000000, attr := 0x47 }
def romPage : Tlb := { ctx := 0, va := 0x20000, size := 0x10000, pa := 0x20000, attr := 0x45 }
def derPage : Tlb := { ctx := 0, va := 0x30000, size := 0x10000, pa := 0x30000, attr := 0x4F }
def peerPage : Tlb := { ctx := 0, va := 0x40000, size := 0x10000, pa := 0x4010000000000, attr := 0x47 }

/-- Die 0 with context 0, its translations, and ostler (0, 0) running with some registers. -/
def board (x : SMap W64) : State :=
  { State.reset with
    pf := { Pf.reset with ready := true }
    ctxs := [(0, { Ctx.reset with valid := true, quota := 4, nvqp := 1, otbase := 0x1000, otn := 4, poolBase := 0x400000,
                                  poolLen := 0x1000000 })]
    tlb := [(4095, [plainPage, hostPage, romPage, derPage, peerPage])]
    ost := [(0, anOstler x)] }

/-- The board with bytes in memory. -/
def boardMem (x : SMap W64) (pa : Nat) (b : List Byte) : State := { board x with mem := Memory.write [] pa b }

/-- An outcome is this value. -/
def gives {ε α : Type} [DecidableEq α] (r : Except ε α) (x : α) : Bool :=
  match r with
  | .ok y => decide (y = x)
  | .error _ => false

theorem gives_iff {ε α : Type} [DecidableEq α] {r : Except ε α} {x : α} (h : gives r x = true) : r = .ok x := by
  cases r with
  | error e => simp [gives] at h
  | ok y => simpa [gives] using h

/-- An outcome is this error. -/
def fails {ε α : Type} [DecidableEq ε] (r : Except ε α) (x : ε) : Bool :=
  match r with
  | .ok _ => false
  | .error y => decide (y = x)

theorem fails_iff {ε α : Type} [DecidableEq ε] {r : Except ε α} {x : ε} (h : fails r x = true) : r = .error x := by
  cases r with
  | ok y => simp [fails] at h
  | error e => simpa [fails] using h

theorem unasked_of {s : State} {pa : Nat} (h : s.pageReqs = []) : Unasked s pa := by
  intro r hr
  rw [h] at hr
  cases hr

/-- An access of an engine that faults, or waits. -/
def engFaults {α : Type} : Eng α → Bool
  | .fault _ _ _ => true
  | _ => false
def engWaits {α : Type} : Eng α → Bool
  | .wait => true
  | _ => false

theorem allowed_of {s : State} {va n : Nat} {st : Bool} {tl : Tlb} (h : gives (s.checkAcc va n st) tl = true)
    (g : (s.routine = none ∧ s.who.n < 32 ∧ (s.ctx s.ctxId).live < 2 ^ 52) ∧ s.walkAway s.agent s.ctxId va = false ∧
      s.gate (tl.addr va) = .go ∧ (∀ k, k < n → s.isShadow (tl.addr va + k) = false) ∧ tl.addr va % n = 0 ∧ tl.addr va < 2 ^ 52) :
    Allowed s va n st tl := ⟨g.1, g.2.1, gives_iff h, g.2.2⟩

theorem sound_of {s : State} (h : s.poison = [] ∧ s.chk = [] ∧ s.maint = [] ∧
    (s.caches.all fun e => !((e.2.map CLine.bad).getD false)) = true ∧
    (s.l2.all fun e => !((e.2.map fun c => c.pois || c.mis).getD false)) = true) : Sound s := h

theorem coherent_of_empty {s : State} (h : s.caches = [] ∧ s.dir = [] ∧ s.l2 = []) (m : Memory.wf s.mem = true) : Coherent s := by
  refine ⟨by rw [h.1]; rfl, by rw [h.2.2]; rfl, m, ?_, ?_, ?_⟩
  · intro l c hc
    simp [State.l2Of, h.2.2] at hc
  · intro a l c _ hc
    simp [State.cacheOf, h.1] at hc
  · intro l r m hr
    simp [State.dirOf, h.2.1, Dir.reset] at hr

/-! ### Witnesses: the machine, its steps, its encodings -/

theorem test_witness_StepRunsDecoded :
    let s := State.reset.withFetchWord 32 0x04A63800
    let u := s.takeTurn.2.asOstler 0 0
    s.tripped = false ∧ s.routine = none ∧ s.takeTurn.1 = .ostler 0 0 ∧ u.cur.run = .running ∧ u.cur.wait = none ∧
      u.cur.stopReq = false ∧ (match u.fetchWord with | .word w _ => w == 0x04A63800 | .stop _ => false) = true ∧
      okIs (decodeOstler 0x04A63800) (.add 5 6 7) = true := by decide +kernel

/-- The same ostler waiting on WAIT x5. -/
theorem test_witness_StepRunsDecoded_waiting :
    let s := { board [] with ost := [(0, { anOstler [] with wait := some { instr := .wait 5, phase := 1, marks := [], todo := [] } })],
                             agenda := [.ostler 0 0, .tick] }
    s.tripped = false ∧ s.routine = none ∧ s.takeTurn.1 = .ostler 0 0 ∧ (s.takeTurn.2.asOstler 0 0).cur.run = .running ∧
      (s.takeTurn.2.asOstler 0 0).cur.wait = some { instr := .wait 5, phase := 1, marks := [], todo := [] } := by
  decide +kernel

/-- A routine of one word at its start. -/
def aRoutine : Routine :=
  { die := 0, n := 0, dst := 5, line := 2, split := false, x := [(1, 0x108), (2, 7)], buf := [], words := [0xF0A10000, 0xF0050002], at_ := 0 }

theorem test_witness_StepRunsRoutineAndEvents :
    let s := { board [] with routine := some aRoutine }
    (s.tripped = false ∧ s.routine = some aRoutine ∧ aRoutine.words[0]? = some 0xF0A10000 ∧
      okIs (decodeOstler 0xF0A10000) (.lld 5 1) = true) ∧
    let e := { board [] with agenda := [.event (.telemetrySnapshot), .tick] }
    let k := { board [] with agenda := [.tick] }
    (e.tripped = false ∧ e.routine = none ∧ e.takeTurn.1 = .event .telemetrySnapshot ∧
      e.agenda = .event .telemetrySnapshot :: [.tick] ∧ .event .telemetrySnapshot ∈ inOc e.agenda) ∧
    k.agenda = .tick :: [] := by decide +kernel

theorem test_witness_StepRunsRoutineAndEvents_order :
    (0 < 8 ∧ 5 < 4096 ∧ 1 < 8 ∧ 2 ≠ 1 ∧ 3 < 5) ∧
      ({ board [] with agenda := [.event .telemetrySnapshot] }).agenda = .event .telemetrySnapshot :: [] := by decide +kernel

theorem test_witness_TrippedStops :
    let s := { State.reset with tripped := true, agenda := [.tick, .event (.bringUp { image := [], key := 0, sig := 0 })] }
    s.tripped = true ∧ s.bringsUp = false ∧ State.reset.tripped = false := by decide +kernel

theorem test_witness_OstlerRoundTrip :
    (Instr.addi 31 0 0x8000).wellFormed = true ∧ encodeOstler (.addi 31 0 0x8000) = some 0x0BE08000 ∧
      okIs (decodeOstler 0x0BE08000) (.addi 31 0 0x8000) = true := by decide +kernel

theorem test_witness_RowRoundTrip :
    ∃ w, encodeRow (.vadd goodMods) = some w ∧ okIs (decodeRow w) (.vadd goodMods) = true :=
  ⟨_, rfl, by decide +kernel⟩

theorem test_witness_StreamRoundTrip :
    (Instr.sloop 5 0x4000000 0xFFFFFFF).wellFormed = true ∧
      ∃ w, encodeStream (.sloop 5 0x4000000 0xFFFFFFF) = some w ∧ okIs (decodeStream w) (.sloop 5 0x4000000 0xFFFFFFF) = true :=
  ⟨by decide +kernel, _, rfl, by decide +kernel⟩

theorem test_witness_StepKeepsMemory :
    (boardMem [] 0x40 [1, 0, 3]).memWf = true ∧ isNext (step (boardMem [] 0x40 [1, 0, 3])) = true := by decide +kernel

theorem test_witness_IntegerWords :
    intResult (board []) (.sel 0 1 2 3) = some (0, 0) ∧ (immResult (board []) (.idf 1 2 5)).isSome = true ∧
      (immResult (board []) (.shi 1 2 2 63)).isSome = true ∧ (board []).cur.tm = false ∧ 5 < (6 : BitVec 3).toNat := by
  decide +kernel

theorem test_witness_BranchesAndJumps :
    branchTaken (board [(1, 5)]) (.bgeu 1 1 0xFFFF) = some (true, 0xFFFF) ∧
      branchTaken (board [(1, 5)]) (.blt 1 0 0x7FFF) = some (false, 0x7FFF) ∧ (board []).routine = none := by decide +kernel

/-- An ostler at address 12 whose two loops end there. -/
def inLoops (count : W64) : Ostler :=
  { anOstler [] with pc := 12, ldepth := 2, lstart := [(0, 4), (1, 8)], lend := [(0, 12), (1, 12)], lcount := [(0, 3), (1, count)] }

theorem test_witness_LoopStackRule :
    mget 0 (inLoops 1).lend 1 ≠ { inLoops 1 with pc := 8 }.pc ∧ (inLoops 1).commit.ldepth = 1 ∧
    (0 < (inLoops 2).ldepth ∧ mget 0 (inLoops 2).lend 1 = (inLoops 2).pc ∧ mget 0 (inLoops 2).lcount 1 ≠ 1) ∧
    (0 < (inLoops 1).ldepth ∧ mget 0 (inLoops 1).lend 1 = (inLoops 1).pc ∧ mget 0 (inLoops 1).lcount 1 = 1) ∧
    (board []).routine = none ∧ (board []).cur.tm = false ∧
    ({ board [] with ost := [(0, { anOstler [] with status := 1 })] }).cur.tm = true ∧
    (0 < (1 : BitVec 16).toInt ∧ (board [(5, 1)]).cur.ldepth = 0 ∧ (board [(5, 1)]).rx 5 ≠ 0 ∧ (1 : BitVec 10) ≠ 0) := by
  decide +kernel

theorem test_witness_LoopPush :
    (∃ w : W32, w.toNat / 2 ^ 26 = 0x28) ∧ (∃ w : W32, w.toNat / 2 ^ 26 = 0x29) ∧
    (∃ a, Instr.loop 5 1 = .loop a 1 ∧ (0 : W64) = (board []).rx a) ∧
    (0 < (1 : BitVec 16).toInt ∧ (board []).cur.ldepth < 4) ∧ ¬ 0 < (0x8000 : BitVec 16).toInt ∧ (board []).cur.tm = false :=
  ⟨⟨0xA0A00003, by decide⟩, ⟨0xA4080003, by decide⟩, ⟨5, rfl, by decide +kernel⟩, by decide +kernel⟩

theorem test_witness_LoopPop : (0xA8000000 : W32).toNat / 2 ^ 26 = 0x2A ∧ (board []).routine = none := by decide +kernel

/-! ### Witnesses: loads, stores, atomics, traps and CSRs -/

theorem test_witness_LoadResult :
    let s := boardMem [(6, 0x40)] 0x40 [0x80, 1, 2, 3, 4, 5, 6, 7]
    (∃ ext, loadForm s (.ldd 5 6 0) = some (5, 0x40, 8, ext)) ∧ Allowed s 0x40 8 false plainPage ∧ Sound s ∧ Coherent s ∧
      s.liveCopy s.agent (plainPage.addr 0x40 / 128) = none ∧ (s.dirOf (plainPage.addr 0x40 / 128)).owner = none :=
  ⟨⟨_, rfl⟩, allowed_of (by decide +kernel) (by decide +kernel), sound_of (by decide +kernel), coherent_of_empty ⟨rfl, rfl, rfl⟩ (by decide +kernel), rfl, rfl⟩

/-- The board with an owned dirty line 2 of ostler (0, 0), released once, and a leased copy of line 3 filled at oc 0. -/
def anOwned : CLine := { data := 9, owned := true, mask := 1, since := 0, sp := false, bad := false }
def aLeased : CLine := { data := 0, owned := false, mask := 0, since := 0, sp := false, bad := false }
def cached : State :=
  { board [] with
    caches := [(2, some anOwned), (3, some aLeased)]
    dir := [(2, { owner := some 0, releases := [{ agent := 0, lines := [2], drained := false }], dead := false })] }

theorem cached_coherent : Coherent cached := by
  have hc : ∀ a l, l < 2 ^ 46 → ∀ c, cached.cacheOf a l = some c → (a = 0 ∧ l = 2 ∧ c = anOwned) ∨ (a = 0 ∧ l = 3 ∧ c = aLeased) := by
    intro a l hl c h
    simp only [State.cacheOf, cached, ckey, mget] at h
    split at h
    · rename_i e
      exact .inl ⟨by omega, by omega, (Option.some.inj h).symm⟩
    · split at h
      · rename_i e
        exact .inr ⟨by omega, by omega, (Option.some.inj h).symm⟩
      · exact absurd h (by simp)
  refine ⟨by decide +kernel, by decide +kernel, by decide +kernel, ?_, ?_, ?_⟩
  · intro l c h
    simp [State.l2Of, cached, board, State.reset] at h
  · intro a l c hl h
    rcases hc a l hl c h with ⟨rfl, rfl, rfl⟩ | ⟨rfl, rfl, rfl⟩
    · exact ⟨fun _ => by decide +kernel, fun _ => rfl, fun _ => by decide +kernel⟩
    · exact ⟨fun h => by simp [aLeased] at h, fun h => by simp [aLeased] at h, fun h => by simp [aLeased] at h⟩
  · intro l r m hr hm
    have : ∀ r ∈ (cached.dirOf l).releases, ∀ m ∈ r.lines, m < 2 ^ 46 := by
      simp only [State.dirOf, cached, mget]
      split <;> simp [Dir.reset]
    exact this r hr m hm

/-- The ostler holds a live leased copy of line 3. -/
theorem test_witness_LoadResult_live :
    (∃ ext, loadForm { cached with ost := [(0, anOstler [(1, 0x180)])] } (.ldaq 5 1 4) = some (5, 0x180, 8, ext)) ∧
      Allowed cached 0x180 8 false plainPage ∧ Sound cached ∧ Coherent cached ∧
      (cached.liveCopy cached.agent (plainPage.addr 0x180 / 128)).isSome = true :=
  ⟨⟨_, rfl⟩, allowed_of (by decide +kernel) (by decide +kernel), sound_of (by decide +kernel), cached_coherent, by decide +kernel⟩

/-- The board with a dirty copy of line 2 in its slice. -/
def inL2 : State :=
  { board [] with l2 := [(2, some { data := 7, mask := BitVec.allOnes 128, sp := false, pois := false, mis := false, fresh := false })] }

theorem inL2_coherent : Coherent inL2 := by
  refine ⟨rfl, by decide +kernel, rfl, ?_, ?_, ?_⟩
  · intro l c h
    simp only [State.l2Of, inL2, mget] at h
    split at h
    · rename_i e
      subst e
      refine ⟨by decide, fun i hi h0 => ?_⟩
      rw [← Option.some.inj h, BitVec.getLsbD_allOnes] at h0
      simp [hi] at h0
    · exact absurd h (by simp)
  · intro a l c _ hc
    simp [State.cacheOf, inL2, board, State.reset] at hc
  · intro l r m hr
    simp [State.dirOf, inL2, board, State.reset, Dir.reset] at hr

/-- The home's copy stands in its slice, with no release on it. -/
theorem test_witness_LoadResult_home :
    Allowed inL2 0x108 8 false plainPage ∧ Sound inL2 ∧ Coherent inL2 ∧
      inL2.liveCopy inL2.agent (plainPage.addr 0x108 / 128) = none ∧ (inL2.dirOf (plainPage.addr 0x108 / 128)).releases = [] ∧
      inL2.tlbHolds inL2.agent inL2.ctxId 0x108 = true ∧ (inL2.l2Of (plainPage.addr 0x108 / 128)).isSome = true :=
  ⟨allowed_of (by decide +kernel) (by decide +kernel), sound_of (by decide +kernel), inL2_coherent, by decide +kernel, by decide +kernel,
    by decide +kernel, by decide +kernel⟩

theorem test_witness_StoreResult :
    let s := board [(5, 0x1234), (6, 0xFFFE)]
    storeForm s (.sth 5 6 0) = some (5, 0xFFFE, 2) ∧ Allowed s 0xFFFE 2 true plainPage ∧ Sound s ∧
      Coherent s ∧ (aDER plainPage.attr = true → s.deltaFull (plainPage.addr 0xFFFE / 128) = false) ∧
      Allowed s 0x30000 8 true derPage ∧ s.deltaFull (derPage.addr 0x30000 / 128) = false :=
  ⟨rfl, allowed_of (by decide +kernel) (by decide +kernel), sound_of (by decide +kernel), coherent_of_empty ⟨rfl, rfl, rfl⟩ (by decide +kernel), fun _ => rfl,
    allowed_of (by decide +kernel) (by decide +kernel), rfl⟩

theorem test_witness_ReleaseStore :
    let s := board [(6, 0x80)]
    (3 : BitVec 3).toNat ≤ 4 ∧ Allowed s (s.rx 6).toNat 8 true plainPage ∧ Sound s ∧ Coherent s ∧
      Unasked s (plainPage.addr (s.rx 6).toNat) ∧ s.deltasDone s.agent = true ∧ s.deltaFull (plainPage.addr (s.rx 6).toNat / 128) = false ∧
      mwf DSet.reset s.dsets = true ∧ 4 < (5 : BitVec 3).toNat ∧ s.cur.tm = false :=
  ⟨by decide, allowed_of (by decide +kernel) (by decide +kernel), sound_of (by decide +kernel), coherent_of_empty ⟨rfl, rfl, rfl⟩ (by decide +kernel),
    unasked_of rfl, rfl, by decide +kernel, by decide +kernel, by decide, rfl⟩

/-- The writer has a delta waiting; and a dirty line of a peer's window in its cache. -/
theorem test_witness_ReleaseStore_waits :
    let b : Batch := { src := 0, seq := 0, writer := 0, entries := [], rebuild := none }
    let s := { board [(6, 0x80)] with dsets := [(0, { DSet.reset with queue := [b] })] }
    let u := { board [] with caches := [(ckey 0 (0x4010000000000 / 128), some { anOwned with sp := true })] }
    Allowed s (s.rx 6).toNat 8 true plainPage ∧ Sound s ∧ Coherent s ∧ s.deltasDone s.agent = false ∧ (4 : BitVec 3).toNat = 4 ∧
      isPeer (128 * (0x4010000000000 / 128)) = true ∧
      (u.cacheOf u.agent (0x4010000000000 / 128)).any (fun x => x.mask != 0) = true :=
  ⟨allowed_of (by decide +kernel) (by decide +kernel), sound_of (by decide +kernel), coherent_of_empty ⟨rfl, rfl, rfl⟩ (by decide +kernel),
    by decide +kernel, by decide, by decide +kernel, by decide +kernel⟩

theorem test_witness_AtomicResult :
    let s := board [(6, 0x88), (7, 1)]
    (∃ f, atomicForm s (.amin 5 6 7 1 1) = some (5, 6, 8, f)) ∧ Allowed s (s.rx 6).toNat 8 true plainPage ∧ Sound s ∧ Coherent s ∧
      isHost (plainPage.addr (s.rx 6).toNat) = false ∧ s.cur.wait = none ∧ s.deltasDone s.agent = true ∧
      s.covering (plainPage.addr (s.rx 6).toNat / 128) = [] :=
  ⟨⟨_, rfl⟩, allowed_of (by decide +kernel) (by decide +kernel), sound_of (by decide +kernel), coherent_of_empty ⟨rfl, rfl, rfl⟩ (by decide +kernel), rfl, rfl, rfl, rfl⟩

theorem test_witness_AccessFaults :
    let s := board [(6, 0x20000), (7, 3)]
    s.lookup s.agent s.ctxId 0x20000 = .ok romPage ∧ aW romPage.attr = false ∧ s.lookup s.agent s.ctxId 3 = .ok plainPage ∧
      aW plainPage.attr = true ∧ 3 % 2 ≠ 0 ∧ (∃ ext, loadForm s (.ldh 5 7 0) = some (5, 3, 2, ext)) ∧
      s.checkAcc 3 2 false = .error (0x05, 3) ∧ storeForm s (.stb 5 6 0) = some (5, 0x20000, 1) ∧
      s.checkAcc 0x20000 1 true = .error (0x04, 0x20000) ∧ (∃ f, atomicForm s (.aadd 5 7 5 0) = some (5, 7, 4, f)) ∧
      s.checkAcc (s.rx 7).toNat 4 true = .error (0x05, 3) ∧ s.cur.wait = none ∧ s.cur.tm = false :=
  ⟨rfl, rfl, rfl, rfl, by decide, ⟨_, rfl⟩, rfl, rfl, rfl, ⟨_, rfl⟩, rfl, rfl, rfl⟩

/-- An unmapped address, whose walk ends at an entry that is not valid. -/
theorem test_witness_AccessFaults_walk :
    let s := board [(6, 0x50000), (7, 0x10000)]
    let e := (s.ctx 0).live + 8 * (0x50000 / 2 ^ 39 % 2 ^ 17)
    (2 ^ 56 ≤ 2 ^ 56 ∧ 0x50000 < 2 ^ 56 ∧ s.tlbHolds s.agent s.ctxId 0x50000 = false ∧ fails (s.walk s.ctxId 0x50000) 0x03 = true) ∧
    ((s.seen (e / 128)).lineBad (e / 128) = 0 ∧ (lineGet ((s.seen (e / 128)).homeData (e / 128)) (e % 128) 8).testBit 0 = false) ∧
    (s.walkAway s.agent s.ctxId (s.rx 6).toNat = false ∧ fails (s.checkAcc (s.rx 6).toNat 8 true) (0x03, 0x50000) = true ∧
      (∃ ext, loadForm s (.ldd 5 6 0) = some (5, 0x50000, 8, ext)) ∧ storeForm s (.std 5 6 0) = some (5, 0x50000, 8)) ∧
    (gives (s.checkAcc (s.rx 7).toNat 8 true) hostPage = true ∧ isHost (hostPage.addr (s.rx 7).toNat) = true ∧ s.cur.wait = none) :=
  ⟨by decide +kernel, by decide +kernel, ⟨by decide +kernel, by decide +kernel, ⟨_, rfl⟩, rfl⟩, by decide +kernel⟩

/-- The board with the ostler inside a handler, from depth 2. -/
def handling : State := { board [] with ost := [(0, { anOstler [] with status := 0x21, epc := 0x40 })] }

theorem test_witness_TrapAndReturn :
    (board []).routine = none ∧ (board []).cur.tm = false ∧ (board []).cur.ldepth ≤ 4 ∧ handling.cur.tm = true ∧
      (handling.cur.status.extractLsb' 4 3).toNat ≤ 4 := by decide +kernel

theorem test_witness_FaultWords :
    handling.cur.tm = true ∧ (board []).cur.tm = false ∧ (handling.fn 0).ringFull = false ∧ (handling.fn 0).posts = [] ∧
      (let s := { handling with fns := [(0, { Fn.reset with hehead := 63, hetail := 0 })] };
       s.cur.tm = true ∧ (s.fn 0).ringFull = true) := by decide +kernel

theorem test_witness_CsrWords :
    csrRW (board []).cur 0x03C = some 0 ∧ csrRO (board []) 0x070 = some 4 ∧ csrRW (board []).cur 0x005 = none ∧
      csrRO (board []) 0x005 = none ∧ (board []).cur.tm = false ∧ (∃ f, csrForm (board []) (.csrs 5 6 0x071) = some (5, 0x071, f)) ∧
      csrRW (board []).cur 0x071 = some 0 ∧ (∃ f, csrForm (board []) (.csrc 5 6 0x012) = some (5, 0x012, f)) ∧
      csrRO (board []) 0x012 = some 0 ∧ (board []).routine = none ∧ (∃ f, csrForm (board []) (.csrw 5 6 0xFFF) = some (5, 0xFFF, f)) ∧
      csrRW (board []).cur 0xFFF = none ∧ csrRO (board []) 0xFFF = none :=
  ⟨by decide +kernel, by decide +kernel, by decide +kernel, by decide +kernel, rfl, ⟨_, rfl⟩, by decide +kernel, ⟨_, rfl⟩,
    by decide +kernel, rfl, ⟨_, rfl⟩, by decide +kernel, by decide +kernel⟩

theorem test_witness_FenceResult :
    (2 : BitVec 2).toNat ≤ 2 ∧ (4 : BitVec 3).toNat ≤ 4 ∧ (board []).routine = none ∧ Sound (board []) ∧ Coherent (board []) ∧
      (board []).memWf = true ∧ (board []).deltasDone (board []).agent = true ∧ (3 : BitVec 2).toNat = 3 ∧ 4 < (5 : BitVec 3).toNat ∧
      (board []).cur.tm = false :=
  ⟨by decide, by decide, rfl, sound_of (by decide +kernel), coherent_of_empty ⟨rfl, rfl, rfl⟩ (by decide +kernel), rfl, rfl, by decide, by decide, rfl⟩

theorem test_witness_WaitAndHalt :
    (board []).routine = none ∧ ((board []).rx 5).toNat ≤ (board []).fcycle.toNat ∧
      ((board [(5, 1)]).fcycle.toNat < ((board [(5, 1)]).rx 5).toNat ∧ (board [(5, 1)]).cur.eqcount = 0) := by decide +kernel

theorem test_witness_RandomDraws :
    (0xE4063800 : W32).toNat / 2 ^ 26 = 0x39 ∧ (0xE4063800 : W32).toNat % 64 = 0 ∧ (0xE4A00001 : W32).toNat / 2 ^ 26 = 0x39 ∧
      (0xE4A00001 : W32).toNat % 64 = 1 ∧ (board []).routine = none := by decide +kernel

/-- The board with one record queued at slot 255. -/
def oneEvent (x : SMap W64) : State :=
  { board x with ost := [(0, { anOstler x with eqhead := 255, eqcount := 1, queue := [(255, 0x0710)] })] }

theorem test_witness_EventTake :
    let s := oneEvent [(6, 0x40), (7, 0x41)]
    0 < s.cur.eqcount ∧ ((board []).cur.eqcount = 0 ∧ ((board []).rx 0).toNat ≤ (board []).fcycle.toNat) ∧
      ((board [(6, 1)]).fcycle.toNat < ((board [(6, 1)]).rx 6).toNat) ∧ (s.rx 7).toNat % 32 ≠ 0 ∧
      ((board [(6, 0x20000)]).tablesAway s.agent s.ctxId 0x20000 32 = false ∧ (board [(6, 0x20000)]).writable 0x20000 32 = false) ∧
      ((s.rx 6).toNat % 32 = 0 ∧ s.tablesAway s.agent s.ctxId (s.rx 6).toNat 32 = false ∧ s.writable (s.rx 6).toNat 32 = true ∧ (board [(6, 0x40)]).cur.eqcount = 0) ∧
      s.routine = none ∧ Sound s ∧ Coherent s ∧ s.rangesOf s.agent s.ctxId (fun t => aW t.attr) (s.rx 6).toNat 32 = some [(0x40, 32)] ∧
      s.gate 0x40 = .go ∧ s.dsets = [] ∧ isPeer 0x40 = false ∧ s.cur.eqhead < 256 :=
  ⟨by decide +kernel, by decide +kernel, by decide +kernel, by decide +kernel, by decide +kernel, by decide +kernel, rfl,
    sound_of (by decide +kernel), coherent_of_empty ⟨rfl, rfl, rfl⟩ (by decide +kernel), by decide +kernel, rfl, rfl, by decide +kernel, by decide +kernel⟩

theorem test_witness_EventSend :
    let s := board [(6, 0), (7, 0x100), (8, 1)]
    (s.routine = none ∧ s.cur.wait = none ∧ (s.rx 6).getLsbD 8 = false ∧ (s.ostler 0).ctx.getD 0 = s.ctxId ∧ s.maint = [] ∧
      s.dirtyLines s.agent = [] ∧ s.deltasDone s.agent = true ∧ (s.ostler 0).posters = [] ∧ (s.ostler 0).eqcount < 256) ∧
    (({ board [] with ost := [(0, { anOstler [] with eqcount := 256 })] }).ostler 0).eqcount = 256 ∧
    ((s.rx 7).getLsbD 8 = true ∧ (s.fn 0).posts = [] ∧ (s.fn 0).ringFull = false) ∧
    (let u := { s with ost := [(0, { anOstler [(6, 1)] with ctx := some 3 })] };
      (u.rx 6).getLsbD 8 = false ∧ (u.ostler 1).ctx.getD 0 ≠ u.ctxId) ∧
    (let u := { s with ost := [(0, { anOstler [] with posters := [{ ev := 5, ctx := 0 }] })] };
      (u.ostler (0 * 32 + 0)).posters = [{ ev := 5, ctx := 0 }] ∧ (u.ostler (0 * 32 + 0)).eqcount < 256) ∧
    (let u := { s with fns := [(1, { Fn.reset with posts := [{ ev := 5, ctx := 0 }] })] };
      (u.fn 1).posts = [{ ev := 5, ctx := 0 }] ∧ (u.fn 1).ringFull = false ∧ (u.fn 2).posts = []) := by decide +kernel

/-! ### Witnesses: maintenance, pins, handover, routines, logs, homes, pages -/

/-- A board whose page tables another module holds. -/
def tablesGone : State := { board [] with pages := [(0, .excl 3)], tlb := [], ctxs := [(0, { Ctx.reset with valid := true })] }

theorem test_witness_MaintenanceIssue :
    let s := board [(6, 0x100), (7, 256), (8, 0x50000)]
    (s.rx 0).toNat = 0 ∧ (LinesHere s 8 7 ∧ (found s 8 7).lineRange (s.rx 8).toNat (s.rx 7).toNat = none) ∧
      tablesGone.tablesAway s.agent s.ctxId (lineVa s 6) (lineLen s 6 7) = true ∧
      (LinesHere s 6 7 ∧ (found s 6 7).lineRange (s.rx 6).toNat (s.rx 7).toNat = some [2, 3]) ∧ (∀ l ∈ [2, 3], l < 2 ^ 46) ∧ s.routine = none ∧
      Sound s ∧ Coherent s :=
  ⟨by decide +kernel, ⟨⟨by decide +kernel, by decide +kernel⟩, by decide +kernel⟩, by decide +kernel,
    ⟨⟨by decide +kernel, by decide +kernel⟩, by decide +kernel⟩, by decide, rfl, sound_of (by decide +kernel),
    coherent_of_empty ⟨rfl, rfl, rfl⟩ (by decide +kernel)⟩

theorem test_witness_MaintenancePerformed : Sound inL2 ∧ Coherent inL2 ∧ (inL2.l2Of 2).isSome = true :=
  ⟨sound_of (by decide +kernel), inL2_coherent, by decide +kernel⟩

theorem test_witness_PinAndUnpin :
    let s := board [(6, 0x100), (7, 256), (8, 0x10000), (9, 1024), (10, 0x50000)]
    (LinesHere s 10 7 ∧ (found s 10 7).lineRange (s.rx 10).toNat (s.rx 7).toNat = none) ∧
    (LinesHere s 6 7 ∧ (found s 6 7).lineRange (s.rx 6).toNat (s.rx 7).toNat = some [2, 3] ∧
      (∀ l ∈ [2, 3], isHbm (128 * l) = true ∧ (s.pinOf l = none ∨ s.pinOf l = some s.ctxId)) ∧ s.used s.ctxId + 2 ≤ (s.ctx s.ctxId).quota ∧
      (∀ l ∈ [2, 3], (s.pins.filter fun e => l2SetOf e.1 == l2SetOf l).length +
        ([2, 3].filter fun m => l2SetOf m == l2SetOf l && s.pinOf m != some s.ctxId).length ≤ 12) ∧ Sound s ∧ Coherent s) ∧
    (LinesHere s 8 9 ∧ ∃ ls, (found s 8 9).lineRange (s.rx 8).toNat (s.rx 9).toNat = some ls ∧ ∃ l ∈ ls, isHbm (128 * l) = false) ∧
    (LinesHere s 0 9 ∧ (found s 0 9).lineRange (s.rx 0).toNat (s.rx 9).toNat = some [0, 1, 2, 3, 4, 5, 6, 7] ∧
      [0, 1, 2, 3, 4, 5, 6, 7].Nodup ∧ (s.ctx s.ctxId).quota < s.used s.ctxId + [0, 1, 2, 3, 4, 5, 6, 7].length) ∧
    (let u := { s with pins := [(2, some 1)] }; ∃ c, u.pinOf 2 = some c ∧ c ≠ u.ctxId) ∧
    (let u := { s with pins := [(2, some 0), (3, some 0)] }; ∀ l ∈ [2, 3], u.pinOf l = some u.ctxId) ∧
    (s.pinOf 2 ≠ some s.ctxId) :=
  ⟨⟨⟨by decide +kernel, by decide +kernel⟩, by decide +kernel⟩,
    ⟨⟨by decide +kernel, by decide +kernel⟩, by decide +kernel, by decide +kernel, by decide +kernel,
      fun l _ => Nat.le_trans (Nat.add_le_add (List.length_filter_le _ _) (List.length_filter_le _ _)) (by decide +kernel),
      sound_of (by decide +kernel), coherent_of_empty ⟨rfl, rfl, rfl⟩ (by decide +kernel)⟩,
    ⟨⟨by decide +kernel, by decide +kernel⟩, _, rfl, 0x100000000000, by decide +kernel, by decide +kernel⟩,
    ⟨⟨by decide +kernel, by decide +kernel⟩, by decide +kernel⟩, ⟨1, by decide +kernel⟩, by decide +kernel, by decide +kernel⟩

/-- Twelve lines of the slice of line 2, pinned; which set of it a line takes is the part's own. -/
def pinnedLines : List Nat := [3, 1090, 1091, 2178, 2179, 3266, 3267, 4354, 4355, 5442, 5443, 6530]
def fullSet : State := { board [(6, 0x100), (7, 128)] with pins := pinnedLines.map fun l => (l, some 0), ctxs := [(0, { Ctx.reset with valid := true, quota := 64 })] }

/-- Where they share the set of line 2 as well, that set holds no more. -/
theorem test_witness_PinAndUnpin_full (h : ∀ l ∈ pinnedLines, Config.l2Set l % Config.l2Sets = Config.l2Set 2 % Config.l2Sets) :
    LinesHere fullSet 6 7 ∧ (found fullSet 6 7).lineRange (fullSet.rx 6).toNat (fullSet.rx 7).toNat = some [2] ∧
      isHbm (128 * 2) = true ∧ fullSet.pinOf 2 = none ∧ fullSet.used fullSet.ctxId + 1 ≤ (fullSet.ctx fullSet.ctxId).quota ∧
      mwf none fullSet.pins = true ∧
      12 < (fullSet.pins.filter fun e => l2SetOf e.1 == l2SetOf 2).length +
        ([2].filter fun m => l2SetOf m == l2SetOf 2 && fullSet.pinOf m != some fullSet.ctxId).length := by
  have hs : ∀ l ∈ pinnedLines, l2SetOf l = l2SetOf 2 := fun l hl =>
    Prod.ext (by revert l; decide +kernel) (h l hl)
  have hp : (fullSet.pins.filter fun e => l2SetOf e.1 == l2SetOf 2).length = 12 := by
    rw [List.filter_eq_self.mpr]
    · rfl
    · intro e he
      simp only [fullSet, List.mem_map] at he
      obtain ⟨l, hl, rfl⟩ := he
      simp [hs l hl]
  have hm : (fullSet.pinOf 2 != some fullSet.ctxId) = true := by decide +kernel
  refine ⟨⟨by decide +kernel, by decide +kernel⟩, by decide +kernel, by decide +kernel, by decide +kernel, by decide +kernel, by decide +kernel, ?_⟩
  rw [hp]
  simp [List.filter, hm]

/-- A handover of the ostler under way. -/
def aHover : Hover :=
  { ctx := 0, die := 0, n := 0, op := 1, va := 0x10000, len := 65536, pas := [(0x8000000000000, 65536)], tag := 9 }

theorem test_witness_HandoverAndKick :
    let s := board [(6, 0x10000), (7, 65536), (8, 2), (9, 0x20000), (10, 0x100000)]
    ((s.rx 0).toNat % 4 = 0 ∧ ((s.rx 8).toNat % 4 = 2 ∧ (s.rx 7).toNat ≠ 0 ∧ (s.rx 7).toNat % 65536 = 0)) ∧
    (s.tablesAway s.agent s.ctxId (s.rx 10).toNat 65536 = false ∧ s.tablesAway s.agent s.ctxId (s.rx 9).toNat 65536 = false ∧
      s.tablesAway s.agent s.ctxId (s.rx 6).toNat 65536 = false ∧ tablesGone.tablesAway s.agent s.ctxId (s.rx 6).toNat 65536 = true) ∧
    ((s.rx 10).toNat % 65536 = 0 ∧ s.rangesOf s.agent s.ctxId (fun _ => true) (s.rx 10).toNat 65536 = none) ∧
    (s.rangesOf s.agent s.ctxId (fun _ => true) (s.rx 9).toNat 65536 = some [(0x20000, 65536)] ∧ isHost 0x20000 = false) ∧
    (s.rangesOf s.agent s.ctxId (fun _ => true) (s.rx 6).toNat 65536 = some [(0x8000000000000, 65536)] ∧
      isHost 0x8000000000000 = true ∧ (s.hovers.filter fun h => h.die == s.who.die && h.n == s.who.n).length < 4) ∧
    (let u := { s with hovers := [aHover, aHover, aHover, aHover] };
      4 ≤ (u.hovers.filter fun h => h.die == u.who.die && h.n == u.who.n).length ∧ u.hovers[3]? = some aHover) ∧
    (0x100000000000 ∈ rangeLines [(0x8000000000000, 128)]) ∧
    (let u := { s with fns := [(0, { Fn.reset with hkaddr := 0x10000, hklen := 1 })] };
      u.pf.ready = true ∧ (u.fn 0).hkbusy = false ∧ (u.fn 0).hklen ≠ 0 ∧ (u.ctx 0).valid = true ∧ (u.ctx 0).func = 0 ∧
      u.tablesAway (agentYard 0) 0 (u.fn 0).hkaddr.toNat ((u.fn 0).hklen.toNat * 65536) = false ∧ u.rangesOf (agentYard 0) 0 (fun _ => true) (u.fn 0).hkaddr.toNat ((u.fn 0).hklen.toNat * 65536) =
        some [(0x8000000000000, 65536)]) ∧
    (({ s with fns := [(0, { Fn.reset with hkbusy := true })] }).fn 0).hkbusy = true ∧
    (({ s with fns := [(0, { Fn.reset with hkbusy := true })] }).fn 0).hkwant = none := by decide +kernel

theorem test_witness_HandoverAndKick_refused :
    let s := board [(6, 0x10001), (7, 65536), (8, 2)]
    (s.rx 6).toNat % 65536 ≠ 0 ∧ (s.rx 8).toNat % 4 = 2 ∧
    (let u := { s with fns := [(0, { Fn.reset with hkaddr := 0x20000, hklen := 1 })] };
      u.tablesAway (agentYard 0) 0 0x20000 65536 = false ∧
      u.rangesOf (agentYard 0) 0 (fun _ => true) 0x20000 65536 = some [(0x20000, 65536)] ∧ isHost 0x20000 = false) ∧
    (let u := { s with fns := [(0, { Fn.reset with hkaddr := 0x50000, hklen := 1 })] };
      u.rangesOf (agentYard 0) 0 (fun _ => true) 0x50000 65536 = none) ∧
    (let u := { tablesGone with fns := [(0, { Fn.reset with hkaddr := 0x10000, hklen := 1 })] };
      u.pf.ready = true ∧ (u.ctx 0).valid = true ∧ (u.ctx 0).func = 0 ∧ u.tablesAway (agentYard 0) 0 0x10000 65536 = true) ∧
    ((s.fn 0).hklen = 0 ∧ (s.ctx 1).valid = false ∧ State.reset.pf.ready = false) := by decide +kernel

/-- The board with a routine of two words at 0x200, and a slot taken by context 3. -/
def routineBoard (x : SMap W64) : State :=
  { boardMem x 0x200 (toBytes 4 0xF0A10000 ++ toBytes 4 0xF0050002) with
    routines := [(4, some { ctx := 0, words := [0xF0A10000, 0xF0050002] }), (5, some { ctx := 3, words := [0xF0050002] })] }

theorem test_witness_RoutineStart :
    let s := routineBoard [(6, 0x200), (7, 0x203), (8, 0x205), (9, 4), (10, 0x1103)]
    (16 < (s.rx 10).toNat / 256 % 256 ∧ (s.rx 0).toNat / 256 % 256 = 0) ∧
    ((s.rx 7).toNat / 256 % 256 = 2 ∧
      (match s.readBlock (s.rx 6).toNat 8 4 with
        | .ok x u => routineOk (wordsOf x 2) && (mget none u.routines 3).isNone &&
            decide ((mget none u.routines 5).map RSlot.ctx = some 3 ∧ u.ctxId = 0)
        | _ => false) = true) ∧
    (Allowed s (s.rx 6).toNat 8 true plainPage ∧ Sound s ∧ isHost (plainPage.addr (s.rx 6).toNat) = false ∧ s.cur.wait = none ∧
      s.covering (plainPage.addr (s.rx 6).toNat / 128) = [] ∧
      mget none s.routines ((s.rx 9).toNat % 256) = some { ctx := 0, words := [0xF0A10000, 0xF0050002] } ∧ s.cur.ctx = some 0 ∧
      Coherent s) ∧
    mget none s.routines ((s.rx 0).toNat % 256) = none :=
  ⟨by decide +kernel, by decide +kernel, ⟨allowed_of (by decide +kernel) (by decide +kernel), sound_of (by decide +kernel),
    by decide +kernel, rfl, by decide +kernel, by decide +kernel, rfl, coherent_of_empty ⟨rfl, rfl, rfl⟩ (by decide +kernel)⟩, by decide +kernel⟩

theorem test_witness_RoutineStart_blocks :
    let s := routineBoard [(6, 0x200), (7, 0x203), (8, 0x204), (9, 0x50000), (10, 0x202)]
    (0 < (s.rx 7).toNat / 256 % 256 ∧ (s.rx 7).toNat / 256 % 256 ≤ 16 ∧ (s.rx 10).toNat % 4 ≠ 0) ∧
    accTraps (s.readBlock (s.rx 9).toNat 8 4) = true ∧
    accWaits ({ s with pages := [(0, .excl 3)] }.readBlock (s.rx 6).toNat 8 4) = true ∧
    (match s.readBlock (s.rx 6).toNat 8 4 with
      | .ok x u => routineOk (wordsOf x 2) && decide ((mget none u.routines ((s.rx 8).toNat % 256)).map RSlot.ctx = some 0) &&
          !routineOk [0xC4A60000]
      | _ => false) = true ∧
    (∀ r, mget none s.routines 9 = some r → some r.ctx ≠ s.cur.ctx) :=
  ⟨by decide +kernel, by decide +kernel, by decide +kernel, by decide +kernel, fun r h => by
    have : mget none (routineBoard [(6, 0x200), (7, 0x203), (8, 0x204), (9, 0x50000), (10, 0x202)]).routines 9 = none := by decide +kernel
    rw [this] at h
    cases h⟩

theorem test_witness_RoutineWords :
    let rt : Routine := { aRoutine with buf := [(15, some 9)] }
    let s := { board [] with routine := some rt }
    s.routine = some rt ∧ mwf none rt.buf = true ∧ (∀ k, 16 ≤ k → mget none rt.buf k = none) ∧ s.covering rt.line = [] ∧
      s.deltasDone (agentOst rt.die rt.n) = true ∧ s.poison = [] ∧ rt.dst ≠ 0 ∧ (board []).routine = none ∧ (board []).cur.tm = false := by
  refine ⟨rfl, by decide +kernel, ?_, by decide +kernel, by decide +kernel, rfl, by decide, rfl, rfl⟩
  intro k hk
  simp only [mget]
  exact if_neg (by omega)

/-- The locked line lies in a shadow area, or does not. -/
theorem test_witness_RoutineWords_shadow :
    let r : Region := { born := 0, gen := 0, decl := 0, lay := 0, vas := [], elems := [], shadow := [(0x100, 64)], edges := [], groups := [],
                        building := false, die := 0, n := 0 }
    let s := { board [] with routine := some aRoutine, dsets := [(0, { DSet.reset with ctx := some 0, regions := [(0, some r)] })] }
    s.routine = some aRoutine ∧ mget none aRoutine.buf 0 = none ∧ (∃ j, j < 8 ∧ s.isShadow (128 * aRoutine.line + j) = true) ∧
      (∀ j, j < 8 → s.isShadow (128 * aRoutine.line + 8 * 8 + j) = false) :=
  ⟨rfl, rfl, ⟨0, by decide +kernel⟩, by decide +kernel⟩

/-- One entry of a log: add 5 to the word at 0x80. -/
def anEntry : LogEnt :=
  { pa := 0x80, op := 0, w8 := false, value := 5, split := false, sdie := 0, src := 128, spe := 0, seq := 0, ctx := 0 }

theorem test_witness_AppendLog :
    let s := board [(6, 0x80), (7, 5), (8, 0), (9, 7), (10, 0x82)]
    (lappGood s 6 8 plainPage ∧ Rooted s ∧ Sound s ∧ Coherent s ∧ s.logLacks (homeOf (plainPage.addr (s.rx 6).toNat)) 1 = false) ∧
    7 ≤ (s.rx 9).toNat % 16 ∧ (s.rx 10).toNat % 4 ≠ 0 := by
  refine ⟨⟨⟨by decide +kernel, by decide +kernel, by decide +kernel, by decide +kernel, gives_iff (by decide +kernel), by decide⟩,
    ⟨rfl, by decide, by decide +kernel⟩, sound_of (by decide +kernel), coherent_of_empty ⟨rfl, rfl, rfl⟩ (by decide +kernel),
    by decide +kernel⟩, by decide +kernel, by decide +kernel⟩

theorem test_witness_AppendLog_refused :
    let s := board [(6, 0x50000), (7, 0x20000), (8, 0x12)]
    ((s.rx 8).getLsbD 4 = true ∧ (s.rx 8).toNat % 16 = 2) ∧ (s.rx 0).toNat % 16 < 7 ∧ (s.rx 0).getLsbD 4 = false ∧
      s.walkAway s.agent s.ctxId (s.rx 6).toNat = false ∧ isOk (s.lookup s.agent s.ctxId (s.rx 6).toNat) = false ∧
      s.walkAway s.agent s.ctxId (s.rx 7).toNat = false ∧ gives (s.lookup s.agent s.ctxId (s.rx 7).toNat) romPage = true ∧
      aW romPage.attr = false := by decide +kernel

/-- The log of the home of 0x80 is full: 32768 entries of one value. -/
def fullLog : State := { board [(6, 0x80)] with logs := [(homeOf 0x80, List.replicate 32768 anEntry)] }

theorem test_witness_AppendLog_full : fullLog.logLacks (homeOf 0x80) 1 = true := by
  have h : fullLog.logOf (homeOf 0x80) = List.replicate 32768 anEntry := by
    simp only [fullLog, State.logOf, mget, ↓reduceIte]
  simp only [State.logLacks, h, List.length_replicate, Config.logDepth]
  decide

/-- An ostler that waits on LAPP x5, x6, x7, x8 while its log has room. -/
def lappWaiting : State :=
  { board [] with ost := [(0, { anOstler [(6, 0x80), (7, 5)] with wait := some { instr := .lapp 5 6 7 8, phase := 1, marks := [], todo := [] } })] }

theorem test_witness_AppendLog_waiting :
    lappWaiting.ost.map Prod.fst = [0] ∧ lappWaiting.lappHome 0 = some (homeOf 0x80) ∧
      (lappWaiting.ostler 0).wait = some { instr := .lapp 5 6 7 8, phase := 1, marks := [], todo := [] } ∧
      lappGood { lappWaiting with who := { lappWaiting.who with die := 0, n := 0 } } 6 8 plainPage ∧
      lappWaiting.routine = none ∧ lappWaiting.logLacks (homeOf 0x80) 1 = false := by
  refine ⟨rfl, by decide +kernel, by decide +kernel, ⟨by decide +kernel, by decide +kernel, by decide +kernel, by decide +kernel,
    gives_iff (by decide +kernel), by decide⟩, rfl, by decide +kernel⟩

/-- A merge of one entry. -/
def aMerge (n : Nat) : Merge :=
  { id := n, ctx := 0, die := 0, n := 0, tag := 9, ranges := [(0, 0x10000)], homes := [(homeOf 0x80, n)], applied := 2, left := 0 }

theorem test_witness_LogMerges :
    let s := { board [(6, 0), (7, 0x10000), (8, 0x20000)] with logs := [(homeOf 0x80, [anEntry])], merges := [aMerge 1] }
    (s.tablesAway s.agent s.ctxId (s.rx 8).toNat (s.rx 7).toNat = false ∧ s.tablesAway s.agent s.ctxId (s.rx 6).toNat (s.rx 7).toNat = false ∧
      tablesGone.tablesAway s.agent s.ctxId (s.rx 6).toNat (s.rx 7).toNat = true) ∧
      s.rangesOf s.agent s.ctxId (fun t => aW t.attr) (s.rx 8).toNat (s.rx 7).toNat = none ∧
      (s.rangesOf s.agent s.ctxId (fun t => aW t.attr) (s.rx 6).toNat (s.rx 7).toNat = some [(0, 0x10000)] ∧ s.logs ≠ []) ∧
      (s.merges = [aMerge 1] ∧ (aMerge 1).homes = [(homeOf 0x80, 1)] ∧
        nextEntry (aMerge 1) ((s.logOf (homeOf 0x80)).take 1) = some anEntry ∧ anEntry.w8 = false ∧ anEntry.op = 0 ∧
        anEntry.pa < 2 ^ 52 ∧ anEntry.pa % 4 = 0 ∧ s.pageAway anEntry.pa = false ∧ s.dsets = [] ∧ Sound s ∧ Coherent s) ∧
      (let u := { s with merges := [aMerge 0] };
        u.merges = [aMerge 0] ∧ (aMerge 0).homes = [(homeOf 0x80, 0)] ∧
          nextEntry (aMerge 0) ((u.logOf (homeOf 0x80)).take 0) = none ∧ u.slicesDone = true) := by
  refine ⟨by decide +kernel, by decide +kernel, by decide +kernel, ⟨rfl, rfl, by decide +kernel, rfl, rfl, by decide, by decide, by decide +kernel, rfl,
    sound_of (by decide +kernel), coherent_of_empty ⟨rfl, rfl, rfl⟩ (by decide +kernel)⟩, by decide +kernel⟩

/-- Each of the seven operations has an effect, four of them at 8 bytes; a home that is not a merge's last. -/
theorem test_witness_LogMerges_forms :
    (∀ op ∈ [0, 1, 2, 3, 4, 5, 6], (mergeForm { anEntry with op := op }).isSome = true) ∧
    (∀ op ∈ [0, 1, 3, 4], (mergeForm { anEntry with op := op, w8 := true }).isSome = true ∧
      ({ anEntry with op := op, w8 := true } : LogEnt).pa % 8 = 0) ∧
    (let m := { aMerge 0 with homes := [(3, 0), (5, 0)] }
     let s := { board [] with merges := [m] };
      m.homes.find? (fun h => h.1 == 3) = some (3, 0) ∧ 1 < m.homes.length ∧ nextEntry m ((s.logOf 3).take 0) = none) ∧
    (board [(6, 0), (7, 0x10000)]).logs = [] := by decide +kernel

theorem test_witness_HomeSteps :
    (0x40 % 128 + 8 ≤ 128 ∧ cached.pageAway 0x40 = false ∧ Sound cached ∧ cached.covering 0 = []) ∧
      ((cached.dirOf 2).releases = [{ agent := 0, lines := [2], drained := false }]) ∧
      (cached.memWf = true ∧ cached.pinOf 2 = none ∧ (cached.l2Of 2).isNone = true) ∧
      (let s := { cached with pins := [(2, some 7)] }; s.pinOf 2 = some 7) ∧
      (let s := { cached with fcycle := 2048 };
        (s.cacheOf 0 3).any (fun c => !c.owned && 4096 ≤ (s.cycle - c.since).toNat) = true) :=
  ⟨⟨by decide, by decide +kernel, sound_of (by decide +kernel), by decide +kernel⟩, by decide +kernel, by decide +kernel,
    by decide +kernel, by decide +kernel⟩

theorem test_witness_HomeSteps_coherent : Coherent cached := cached_coherent

theorem test_witness_ErrorsAndTelemetry :
    isHbm (128 * 0x17FFFFFFF) = true ∧
      (inL2.l2Of 2).isSome = true ∧ (cached.cacheOf 0 2).isSome = true ∧
      mget Stall.free (board []).stalls (0 * 128 + 127) = .free := by decide +kernel

theorem test_witness_PageSteps :
    let s := { cached with pages := [(1, .shared [3]), (2, .excl 3)] }
    s.page 0 = .home ∧ s.page 1 = .shared [3] ∧ s.page 2 = .excl 3 ∧ 3 ≠ 4 ∧ Sound s ∧ s.page 0 ≠ .excl 4 ∧ 1025 / 512 = 2 ∧
      s.page (5 / 512) = .home :=
  ⟨by decide +kernel, by decide +kernel, by decide +kernel, by decide, sound_of (by decide +kernel), by decide +kernel, by decide,
    by decide +kernel⟩

/-- Requests that stand, of another module and of an ostler that waits on its load. -/
theorem test_witness_PageSteps_requests :
    let q : PageReq := { page := 0, own := true, who := 0, write := false }
    let s := { board [(6, 0x40)] with pages := [(0, .excl 3), (0x4010000000000 / 65536, .home)], pageReqs := [q],
                                      ost := [(0, { anOstler [(6, 0x40)] with wait := some { instr := .ldd 5 6 0, phase := 1, marks := [], todo := [] } })] }
    let u := { board [] with pages := [(0, .excl 3)], pageReqs := [{ page := 0, own := false, who := 5, write := false }] }
    (∃ r ∈ s.pageReqs, r.page = 0 ∧ s.stands r = true) ∧ q.own = true ∧ s.pageReqs = q :: [] ∧ s.page 0 = .excl 3 ∧
      isPeer (65536 * 0) = false ∧ 5 / 512 = 0 ∧ (s.dirOf 5).owner = none ∧ u.pageReqs = [{ page := 0, own := false, who := 5, write := false }] ∧
      (∀ r ∈ u.pageReqs, r.page ≠ 1) ∧ u.page 0 = .excl 3 ∧ isPeer (65536 * (0x4010000000000 / 65536)) = true ∧
      Sound u ∧ Coherent u :=
  ⟨⟨_, List.mem_singleton.mpr rfl, by decide +kernel⟩, by decide, rfl, by decide +kernel, by decide +kernel, by decide, by decide +kernel, rfl,
    by decide +kernel, by decide +kernel, by decide +kernel, sound_of (by decide +kernel), coherent_of_empty ⟨rfl, rfl, rfl⟩ (by decide +kernel)⟩

/-! ### Witnesses: pens, jobs and the yard -/

/-- The header of an image of one stall, one row a PE, without levels, and its sixteen columns: one NOP and the end. -/
def oneRowImage : List Byte :=
  toBytes 64 (0x39444D4E + 2 ^ 32 + 2 ^ 47 + 2 ^ 54) ++ (List.replicate 16 (toBytes 4 0x00010002 ++ toBytes 4 0x00000003)).flatten

/-- The board with that image at 0x200 and pen 0, of one stall, owned by the ostler in its slot 0. -/
def penBoard (x : SMap W64) (p : Pen) : State :=
  { boardMem x 0x200 oneRowImage with
    pens := [(0, p)], stalls := [(0, .held 0)], ost := [(0, { anOstler x with pens := [(0, some 0)] })] }

/-- A placed pen, and a loaded one. -/
def placed : Pen := { Pen.reset with valid := true, saveOff := 0x30000 }
def loadedPen : Pen := { placed with hasImage := true, image := 0x200, lena := 1, ii := 1 }

theorem test_witness_PenPlacement :
    ((board []).ownPen ((board []).rx 0) = none) ∧
    (let s := { board [] with ost := [(0, { anOstler [] with pens := [(0, some 0), (1, some 1), (2, some 2), (3, some 3)] })] };
      (List.range 4).all (fun j => mget none s.cur.pens j != none) = true) ∧
    (let s := { board [] with stalls := (List.range 128).map fun k => (k, Stall.absent) };
      s.cur.freeSlot.isSome = true ∧ s.parkedReady s.who.die = true ∧ s.scanRest s.who.die 1 1 = none) ∧
    (let s := board [(6, 0x3F)];
      s.routine = none ∧ s.cur.freeSlot = some 0 ∧ s.parkedReady s.who.die = true ∧ (s.rx 6).toNat % 8 + 1 = 8 ∧
      (s.rx 6).toNat / 8 % 16 + 1 = 8 ∧ s.scanRest s.who.die 8 8 = some 0 ∧
      (rect 0 8 8).all (fun i => s.stall s.who.die i == .free) = true ∧ s.freePen s.who.die = some 0) ∧
    (let s := board [(6, 0)]; s.allocArea s.ctxId (16 * 1 * 1) = some 0x30000) ∧
    (let s := penBoard [] placed; s.ownPen (s.rx 0) = some 0 ∧ (s.pen 0).busy = false ∧ s.storesIdle 0 = true) ∧
    ((penBoard [] { placed with run := 1 }).pen 0).busy = true := by decide +kernel

/-- A fault record of row 0 and PE (0, 0). -/
def aFault : FaultRec :=
  { cause := 0x05, row := 0, sel := false, pe := 0, defer_ := false, iter := 0, addr := 2, word := 0, size := 4, data := 0, offs := 0,
    lanes := 0 }

/-- An image that can be read is sound, is refused, or lies on another module's page. -/
def imageIs (s : State) (k va : Nat) (f : Except ImgErr Image → Bool) : Bool :=
  f ((s.readImage (agentYard s.who.die) (s.pen k).ctx va (s.pen k).hm1 (s.pen k).wm1).map (·.1))

theorem test_witness_PenLife_loads :
    (let s := penBoard [] { placed with pre := true }; s.ownPen (s.rx 0) = some 0 ∧ (s.pen 0).busy = true) ∧
    (let s := penBoard [(7, 0x200), (8, 0x201), (9, 0x400)] loadedPen;
      s.ownPen (s.rx 0) = some 0 ∧ (s.pen 0).busy = false ∧ (s.rx 8).toNat % 64 ≠ 0 ∧ (s.rx 7).toNat % 64 = 0 ∧
      (s.pen 0).hasImage = true ∧ s.storesIdle 0 = true ∧ (s.rx 0).toNat = 0 ∧
      imageIs s 0 (s.rx 7).toNat (fun r => match r with | .ok x => x.split == (s.pen 0).split | _ => false) = true ∧
      (s.rx 9).toNat % 64 = 0 ∧ imageIs s 0 (s.rx 9).toNat (fun r => match r with | .error (.bad _ _ _) => true | _ => false) = true) ∧
    (let s := { penBoard [(7, 0x200)] loadedPen with pages := [(0, .excl 3)] };
      (s.pen 0).hasImage = true ∧
      imageIs s 0 (s.rx 7).toNat (fun r => match r with | .error .away => true | _ => false) = true) ∧
    (let s := penBoard [(7, 0x200)] { loadedPen with split := 1 };
      s.storesIdle 0 = true ∧
      imageIs s 0 (s.rx 7).toNat (fun r => match r with | .ok x => x.split != (s.pen 0).split | _ => false) = true) := by
  decide +kernel

theorem test_witness_PenLife_starts :
    (let s := penBoard [(6, 2), (7, 1)] loadedPen;
      s.maskPens ((s.rx 6).toNat % 16) = none ∧ s.maskPens ((s.rx 0).toNat % 16) = some [] ∧
      s.maskPens ((s.rx 7).toNat % 16) = some [0] ∧ (s.pen 0).loaded = true) ∧
    (let s := penBoard [(7, 1)] { loadedPen with run := 3, stop := .fault { aFault with cause := 3 } };
      s.maskPens ((s.rx 7).toNat % 16) = some [0] ∧ (s.pen 0).stopCause = some 3 ∧ resumable 3 = true ∧ s.stoppedPens 0 = [0] ∧
      (s.unpark 0).isSome = true ∧ ({ s with stalls := (List.range 128).map fun k => (k, Stall.absent) }.unpark 0).isNone = true) := by
  decide +kernel

theorem test_witness_PenLife_stops :
    (let s := penBoard [] { placed with pre := true }; s.cur.wait = none ∧ (s.pen 0).pre = true) ∧
    (let s := penBoard [] placed; s.cur.wait = none ∧ (s.pen 0).pre = false ∧ (s.pen 0).run ≠ 1) ∧
    (let s := penBoard [] { loadedPen with run := 1 };
      s.cur.wait = none ∧ (s.pen 0).run = 1 ∧ (s.pen 0).pre = false ∧ s.gangPre 0 = false ∧
      (s.late (s.domainPens 0 (s.pen 0).gang)).isNone = true ∧ (s.stopPens (s.domainPens 0 (s.pen 0).gang)).gangRuns 0 = false) ∧
    (let s := penBoard [] { loadedPen with run := 1, halting := true };
      s.cur.wait = none ∧ s.gangPre 0 = false ∧ (s.late (s.domainPens 0 (s.pen 0).gang)).isNone = true ∧
      (s.stopPens (s.domainPens 0 (s.pen 0).gang)).gangRuns 0 = true) ∧
    (let o : Ostler := { anOstler [] with pens := [(0, some 0)], wait := some { instr := .rstop 5 0, phase := 1, marks := [], todo := [] } };
     let s := { penBoard [] { loadedPen with run := 1, halting := true } with ost := [(0, o)] };
     let u := { penBoard [] loadedPen with ost := [(0, o)] };
      s.ownPen (s.rx 0) = some 0 ∧ s.phaseOf = 1 ∧ s.gangRuns 0 = true ∧ u.ownPen (u.rx 0) = some 0 ∧ u.phaseOf = 1 ∧
      u.gangRuns 0 = false) := by decide +kernel

/-- An image whose port 5 stands as the pen has it, kept, and port 6, which the pen lacks. -/
theorem test_witness_PenLife_ports :
    let s := penBoard [(7, 0x200), (8, 32), (9, 64)] { loadedPen with ports := [(5, some { pe := 0, h := 0 })] }
    (match s.readImage (agentYard s.who.die) (s.pen 0).ctx (s.rx 7).toNat (s.pen 0).hm1 (s.pen 0).wm1 with
      | .ok (x, _) => x.split == (s.pen 0).split && x.cols.length == 16 && !s.keepsPort 0 x 6 &&
          (List.range 64).all fun j => !bit 0 j || s.keepsPort 0 x j
      | _ => false) = true ∧ bit (s.rx 9).toNat 6 = true := by decide +kernel

/-- A stopped pen, named whole, whose stalls can be had, or cannot. -/
theorem test_witness_PenLife_resumes :
    let p := { loadedPen with run := 3, stop := .fault { aFault with cause := 3 } }
    let s := penBoard [(7, 1)] p
    let none_ := { s with stalls := (List.range 128).map fun k => (k, Stall.absent) }
    let parked := { s with stalls := [(0, .parked 0)], pages := [(0, .excl 3)], tlb := [], ctxs := [(0, { Ctx.reset with valid := true })] }
    s.maskPens ((s.rx 7).toNat % 16) = some [0] ∧ (s.pen 0).stopCause = some 3 ∧ resumable 3 = true ∧ s.stoppedPens 0 = [0] ∧
      s.parkedReady s.who.die = true ∧ (s.unpark 0).isSome = true ∧ none_.parkedReady none_.who.die = true ∧ (none_.unpark 0).isNone = true ∧
      parked.parkedReady parked.who.die = false := by decide +kernel

/-- A JCB at 0x80 with an expected total, a count, and its two state bits. -/
def jcbBoard (x : SMap W64) (w : Nat) : State := boardMem x 0x80 (toBytes 64 w)

/-- What a read of a JCB yields. -/
def jcbOf (s : State) (va pa : Nat) : Nat := ((s.walkRange s.agent s.ctxId va 64).jcbRead pa).1

theorem test_witness_JobWords :
    (let s := jcbBoard [(6, 0x80), (7, 0x81), (8, 3)] 5;
     let w := (s.walkRange s.agent s.ctxId (s.rx 6).toNat 64).releaseWait;
      s.walkAway s.agent s.ctxId (s.rx 7).toNat = false ∧ s.walkAway s.agent s.ctxId (s.rx 6).toNat = false ∧
      s.jcbAt s.agent s.ctxId (s.rx 7).toNat true = none ∧ s.jcbAt s.agent s.ctxId (s.rx 7).toNat false = none ∧
      s.jcbAt s.agent s.ctxId (s.rx 6).toNat true = some 0x80 ∧ s.jcbReady 0x80 = true ∧ jcbCmpl (jcbOf s 0x80 0x80) = false ∧
      jcbExpect (jcbOf s 0x80 0x80) + (s.rx 8).toNat < 2 ^ 64 ∧ w.2 = true ∧
      w.1.jcbAt w.1.agent w.1.ctxId (s.rx 6).toNat true = some 0x80 ∧ w.1.jcbReady 0x80 = true ∧
      s.jcbAt s.agent s.ctxId (s.rx 6).toNat false = some 0x80 ∧ s.pageAway 0x80 = false ∧ jcbFaild (jcbOf s 0x80 0x80) = false ∧
      (s.rx 0).toNat ≤ s.fcycle.toNat ∧ s.cur.tm = false ∧
      (jcbExpect (s.jcbRead 0x80).1 = 5 ∧ jcbDone (s.jcbRead 0x80).1 = 0 ∧ jcbCmpl (s.jcbRead 0x80).1 = false)) ∧
    (let s := jcbBoard [(6, 0x80), (7, 1)] (2 ^ 64 - 1);
      s.jcbAt s.agent s.ctxId (s.rx 6).toNat true = some 0x80 ∧ s.jcbReady 0x80 = true ∧ jcbCmpl (jcbOf s 0x80 0x80) = false ∧
      2 ^ 64 ≤ jcbExpect (jcbOf s 0x80 0x80) + (s.rx 7).toNat) ∧
    (let s := jcbBoard [(6, 0x80)] (2 ^ 128);
      s.jcbAt s.agent s.ctxId (s.rx 6).toNat true = some 0x80 ∧ s.jcbAt s.agent s.ctxId (s.rx 6).toNat false = some 0x80 ∧
      s.jcbReady 0x80 = true ∧ s.pageAway 0x80 = false ∧ jcbCmpl (jcbOf s 0x80 0x80) = true ∧ s.cur.tm = false) ∧
    (let s := jcbBoard [(6, 0x80)] (2 ^ 129);
      s.jcbAt s.agent s.ctxId (s.rx 6).toNat false = some 0x80 ∧ s.pageAway 0x80 = false ∧
      jcbCmpl (jcbOf s 0x80 0x80) = false ∧ jcbFaild (jcbOf s 0x80 0x80) = true) ∧
    (let r := (board []).writebackAll (board []).agent;
      (r.submit ((r.rx 0).toNat % 8) r.ctxId (r.rx 0).toNat (.launch r.me)).isSome = true) := by decide +kernel

/-- A job of one task of one stall, of context 0, whose JCB stands at 0x80. -/
def aJob : Job :=
  { die := 0, jr := 0, enq := 0, eff := 5, tier := 0, seq := 0, jcbPa := some 0x80, tasks := 1, issued := 0, running := 0,
    failed := none, dropped := 0 }

/-- A job record of context 0 and one stall, of some widths and counts, with its JCB at an address (R137, R17). -/
def jobRec (w0 w1 n0 n1 jcb : Nat) : Nat := w0 * 2 ^ 84 + w1 * 2 ^ 91 + jcb * 2 ^ 128 + n0 * 2 ^ 256 + n1 * 2 ^ 320

/-- The board with that record at 0x100 and a JCB at 0x80. -/
def jobBoard (r jcb : Nat) : State :=
  { board [] with mem := Memory.write (Memory.write [] 0x100 (toBytes 128 r)) 0x80 (toBytes 64 jcb) }

/-- The record is read, and f holds of it and the machine after. -/
def recordIs (s : State) (f : Line → State → Bool) : Bool :=
  match s.vread (agentYard 0) 0 0x100 128 with
  | .ok b u => f (BitVec.ofNat 1024 (ofBytes b)) u
  | _ => false

/-- A record whose fields are sound, its context its own, for a die that has room for its rectangle. -/
def jobSound (s : State) (f : Line → State → Bool) : Bool := recordIs s fun r u =>
  jrCtx r == 0 && !jrOen r && jobFields r && decide (jrTasks r < 2 ^ 64) && (u.scan 0 (jrH r) (jrW r) (fun _ => true)).isSome &&
    !u.walkAway (agentYard 0) 0 (jrJcb r) && f r u

theorem test_witness_JobWords_submit :
    (0x81 % 128 ≠ 0 ∧ ((board []).ctx 1).valid = false ∧ ((board []).ctx 0).valid = true) ∧
    engFaults ((board []).vread (agentYard 0) 0 0x50000 128) = true ∧
    recordIs (jobBoard (2 ^ 66) 0) (fun r _ => jrCtx r != 0) = true ∧
    recordIs (jobBoard (jobRec 2 0 3 0 0x80 + 2 ^ 704 + 2 ^ 708) 0) (fun r u => jrOen r &&
      (u.ostler (jrOdie r * 32 + jrOst r)).ctx != some 0) = true ∧
    recordIs (jobBoard (jobRec 2 0 5 0 0x80) 0) (fun r _ => jrCtx r == 0 && !jrOen r && !jobFields r) = true ∧
    recordIs (jobBoard (jobRec 32 32 (2 ^ 32) (2 ^ 32) 0x80) 0) (fun r _ => jobFields r && decide (2 ^ 64 ≤ jrTasks r)) = true ∧
    (let s := { jobBoard (jobRec 2 0 3 0 0x80 + 7 * 2 ^ 74) 0 with stalls := [(0, .absent), (127, .absent)] };
      recordIs s (fun r u => jobFields r && (u.scan 0 (jrH r) (jrW r) (fun _ => true)).isSome) = true) ∧
    jobSound (jobBoard (jobRec 2 0 3 0 0x81) 0) (fun r u => (u.jcbAt (agentYard 0) 0 (jrJcb r) true).isNone) = true := by decide +kernel

/-- The JCB of a sound record is complete, too full, or takes the job; a die has no active slot, no room in the queue, or both. -/
theorem test_witness_JobWords_jcbs :
    let f (g : Nat → State → Bool) : Line → State → Bool := fun r u =>
      match u.jcbAt (agentYard 0) 0 (jrJcb r) true with
      | some pa => u.jcbReady pa && g (u.jcbRead pa).1 (u.jcbRead pa).2
      | none => false
    let q (u : State) : List Job := u.jobs.filter fun j => j.die == 0 && jrCtx j.jr == 0 && j.queued
    jobSound (jobBoard (jobRec 2 0 3 0 0x80) (2 ^ 128)) (f fun v _ => jcbCmpl v) = true ∧
    jobSound (jobBoard (jobRec 2 0 3 0 0x80) (2 ^ 64 - 1)) (f fun v _ => !jcbCmpl v && decide (2 ^ 64 ≤ jcbExpect v + 3)) = true ∧
    jobSound (jobBoard (jobRec 2 0 3 0 0x80) 0) (f fun v u => !jcbCmpl v && decide (jcbExpect v + 3 < 2 ^ 64) &&
      ((u.freeActive 0).activeFor 0 0).isSome && decide ((q u).length < 256)) = true ∧
    jobSound { jobBoard (jobRec 2 0 3 0 0x80) 0 with jobs := List.replicate 256 aJob } (f fun _ u => decide (256 ≤ (q u).length)) = true ∧
    jobSound { jobBoard (jobRec 2 0 3 0 0x80) 0 with
      active := (List.range 64).map fun k => (k, some (k + 1))
      jobs := (List.range 64).map fun k => { aJob with jr := BitVec.ofNat 1024 ((k + 1) * 2 ^ 66) } }
      (f fun _ u => ((u.freeActive 0).activeFor 0 0).isNone) = true := by decide +kernel

theorem test_witness_JobWords_norect :
    let s := { jobBoard (jobRec 2 0 3 0 0x80) 0 with stalls := (List.range 128).map fun k => (k, Stall.absent) }
    recordIs s (fun r u => jobFields r && (u.scan 0 (jrH r) (jrW r) (fun _ => true)).isNone) = true := by decide +kernel

/-- The pen with an adjointable image of one row, the same word in each PE. -/
def adjBoard (w : Row) : State :=
  { penBoard [(7, 0x1000), (8, 0x2000)] { loadedPen with adj := true, tape := 1 } with
    pes := (placed.peList).map fun i => (peKey 0 i, { PE.reset with rowA := mset haltfWord [] 0 w })
    l2 := (List.range 49).map fun k => (32 + k, some { data := 0, mask := 0, sp := false, pois := false, mis := false, fresh := false }) }

theorem test_witness_JobWords_radj :
    let s := adjBoard 0
    s.ownPen (s.rx 0) = some 0 ∧ (s.pen 0).busy = false ∧ (s.pen 0).hasImage = true ∧ (s.pen 0).adj = true ∧ (s.pen 0).lenb = 0 ∧
      (s.pen 0).tape ≠ 0 ∧ (s.rx 7).toNat % 4096 = 0 ∧ (s.rx 8).toNat % 64 = 0 ∧
      (match s.vread (agentYard s.who.die) (s.pen 0).ctx (s.rx 7).toNat 4096 with
        | .ok blk u =>
          match u.backAll 0 (ofBytes blk) (u.imageStage 0) (s.pen 0).lena (.ok ([], [], 0)) with
          | .ok (spans, rows, total) =>
            engOk (u.writeBlock (s.rx 8).toNat (u.backImage 0 spans rows (total + 1)))
          | .error _ => false
        | _ => false) = true := by decide +kernel

/-- VADD has no template in an empty table, so its row has no adjoint. -/
theorem test_witness_JobWords_radj_refused :
    let s := adjBoard 0x10000000000000000000000000000000
    (match s.vread (agentYard s.who.die) (s.pen 0).ctx (s.rx 7).toNat 4096 with
      | .ok blk u => !isOk (u.backAll 0 (ofBytes blk) (u.imageStage 0) (s.pen 0).lena (.ok ([], [], 0)))
      | _ => false) = true := by decide +kernel

/-- The levels and ports of a backward image's pen; and the read of a JCB leaves no copy. -/
theorem test_witness_JobWords_backward :
    let s := adjBoard 0
    (s.pen 0).hm1 < 8 ∧ (s.pen 0).wm1 < 16 ∧ 1 < 128 ∧ (s.pen 0).present 0 = false ∧ (s.pen 0).ports.length < 128 ∧ (s.pen 0).split < 4 ∧
      2 < 2 ^ 46 ∧ 0x80 / 128 < 2 ^ 46 := by decide +kernel

/-- The pen running, a row word in row 0 of PE (0, 0), NOP in the others. -/
def runBoard (p : Pen) (w : Row) : State :=
  { penBoard [] { p with run := 1 } with
    pes := (placed.peList).map fun i => (peKey 0 i, { PE.reset with rowA := mset haltfWord [] 0 (if i = 0 then w else 0) }) }

/-- MOV v3, in.n with HOLD 1 on SA; nothing has come from the north. -/
def holdingWord : Row := 0x05 * 2 ^ 120 + 3 * 2 ^ 111 + 32 * 2 ^ 105 + 1 * 2 ^ 84

theorem test_witness_YardSteps_holds :
    (let s := runBoard loadedPen holdingWord;
      s.holder (s.domainPens 0 0) = some (0, 0) ∧ (s.domainPens 0 0).Nodup ∧ (s.pen 0).held < 2 ^ 30) ∧
    (runBoard loadedPen 0).holder ((runBoard loadedPen 0).domainPens 0 0) = none ∧
    (let s := runBoard { loadedPen with held := 2 ^ 30 } holdingWord;
      s.holder (s.domainPens 0 (s.pen (0 * 128 + 0)).gang) = some (0, 0) ∧ (s.pen 0).run = 1 ∧ (s.pen 0).stop = .none ∧
      2 ^ 30 ≤ (s.pen 0).held ∧ s.wanted 0 (s.pen 0).gang = false) := by decide +kernel

theorem test_witness_YardSteps_saves :
    let s := runBoard { loadedPen with stop := .fault aFault } 0
    (s.pen (0 * 128 + 0)).stop = .fault aFault ∧ (s.pen 0).valid = true ∧ (s.pen 0).run = 1 ∧ s.taskReady 0 = true ∧
      (s.faultPens 0).all (fun j => s.penQuiet j && s.faultReady j) = true := by
  decide +kernel

theorem test_witness_YardSteps_retires :
    let s := runBoard { loadedPen with halting := true } 0
    let u := ((s.finishAhead 0).finishSlots 0).closeIrr 0
    (s.pen 0).valid = true ∧ (s.pen 0).run = 1 ∧ (s.pen 0).halting = true ∧ (s.pen 0).stop = .none ∧ (s.pen 0).pre = false ∧
      (u.late [0]).isNone = true ∧ (s.pen 0).peList.all (fun i => (u.pe 0 i).mpd.isNone && (u.pe 0 i).irr.isEmpty) = true ∧
      (u.penWriteback 0).outgoing 0 = false ∧ (u.penWriteback 0).penQuiet 0 = true ∧ (u.penWriteback 0).taskReady 0 = true := by
  decide +kernel

theorem test_witness_YardSteps_places :
    (let s := { board [] with fns := [(0, { Fn.reset with hlbusy := true, hlwait := some (0, 0, 0x80) })] };
      (s.acceptHost 0).isSome = true) ∧
    (let s := { board [] with jobs := [aJob] };
      (s.acceptHost 0).isNone = true ∧ s.served 0 = some (.job aJob, 0) ∧ s.parkedReady 0 = true ∧ s.jobReady aJob = true) ∧
    (let s := { penBoard [] { loadedPen with run := 1, pre := true } with stalls := [(0, .parked 0)] };
      s.served 0 = some (.pen (0 * 128 + 0), 0) ∧ s.parkedReady 0 = true) ∧
    ((board []).served 0).isNone = true := by decide +kernel

/-- A job whose image at 0x200 is sound, or is not there, or is not aligned, or is no image. -/
def imageJob (image : Nat) (f : Job → Job) : State :=
  { boardMem [] 0x200 oneRowImage with jobs := [f { aJob with jr := BitVec.ofNat 1024 (image * 2 ^ 192) }] }

theorem test_witness_YardSteps_images :
    let img (s : State) (f : Except ImgErr (Image × Nat) → Bool) : Bool := s.jobs.all fun j =>
      f (s.readImage (agentYard 0) (jrCtx j.jr) (jrImage j.jr) (jrH j.jr - 1) (jrW j.jr - 1)) && s.jobReady j && s.parkedReady 0 &&
        (s.acceptHost 0).isNone && s.served 0 == some (.job j, 0) && j.failed.isNone
    (let s := imageJob 0x200 id;
      img s (fun r => match r with | .ok _ => true | _ => false) = true ∧ s.freePen 0 = some 0 ∧
        (s.allocArea 0 16).isSome = true ∧ 0x200 % 64 = 0) ∧
    img (imageJob 0x201 id) (fun _ => true) = true ∧ 0x201 % 64 ≠ 0 ∧
    img (imageJob 0x50000 id) (fun r => match r with | .error (.unreadable _ _) => true | _ => false) = true ∧
    img (imageJob 0x400 id) (fun r => match r with | .error (.bad _ _ _) => true | _ => false) = true ∧
    img (imageJob 0x400 fun j => { j with running := 1 }) (fun r => match r with | .error (.bad _ _ _) => true | _ => false) = true ∧
    jrTargets (BitVec.ofNat 1024 (2 ^ 704 + 2 ^ 708)) = [some (0, 1)] := by decide +kernel

/-- Of a launched task, which has no owner; and of a domain of two pens. -/
theorem test_witness_YardSteps_tasks :
    let t := { loadedPen with owner := 32, job := some (0, 0), stop := .fault aFault, run := 1 }
    (let s := runBoard t 0;
      32 ≤ (s.pen 0).owner ∧ (s.pen 0).stop = .fault aFault ∧ (s.pen 0).valid = true ∧ s.taskReady 0 = true) ∧
    (let s := { runBoard { loadedPen with stop := .fault aFault } 0 with
        pens := [(0, { loadedPen with stop := .fault aFault, run := 1 }), (1, { loadedPen with stop := .stopped 0 5, run := 1, origin := 4 })] };
      (s.faultPens 0).filter (fun l => l != 0) = [1] ∧ (s.pen 1).owner = (s.pen 0).owner ∧ (s.pen 1).ctx = (s.pen 0).ctx ∧
      (s.faultPens 0).all (fun j => s.penQuiet j && s.faultReady j) = true) ∧
    (board []).pens = [] ∧ mwf Pen.reset (board []).pens = true ∧ ((board []).pen 5).valid = false := by decide +kernel

/-- Every stall but the pen's is absent, a job waits, and QUANT has run. -/
def crowded : State :=
  { runBoard { loadedPen with eff := 9 } 0 with
    fcycle := 2 ^ 20, jobs := [aJob], stalls := (0, .held 0) :: (List.range 127).map fun k => (k + 1, Stall.absent) }

theorem test_witness_YardSteps_preempts :
    let ks := (crowded.victims 0 (crowded.pen 0).gang).flatMap (crowded.domainPens 0)
    0 ∈ crowded.domainPens 0 (crowded.pen 0).gang ∧ ks = [0] ∧
      ks.all (fun j => crowded.yardReady 0 (crowded.pen j).ctx (crowded.areaVa j) (areaSize (crowded.pen j).pes)) = true ∧
      (crowded.late ks).isNone = true ∧
      ks.all (fun j => (ks.foldl State.rushStores crowded).penQuiet j && (ks.foldl State.rushStores crowded).taskReady j) = true ∧
      ((ks.foldl State.rushStores crowded).late ks).isNone = true := by decide +kernel

theorem test_witness_YardSteps_moves :
    let s := runBoard { loadedPen with boundary := true } 0
    let ks := s.domainPens 0 (s.pen (0 * 128 + 0)).gang
    ks = [0] ∧ (s.pen 0).boundary = true ∧ 127 / 16 + (s.pen 0).h ≤ 8 ∧ 127 % 16 + (s.pen 0).w ≤ 16 ∧
      (rect 127 (s.pen 0).h (s.pen 0).w).all (fun i => s.stall 0 i == .free || s.stall 0 i == .held 0) = true ∧ s.penQuiet 0 = true ∧
      s.wanted 0 (s.pen 0).gang = false ∧ (s.late ks).isNone = true ∧ ((runBoard loadedPen 0).pen (0 * 128 + 0)).boundary = false := by
  decide +kernel

/-! ### Witnesses: row words, as PE (0, 0) of the running pen executes them -/

/-- The running pen with a PE of its own. -/
def peBoard (p : Pen) (q : PE) : State := { penBoard [] { p with run := 1 } with pes := [(0, q)] }

/-- A row word with FMT and operands. -/
def rowOf (fmt : BitVec 3) (dst sa sb : BitVec 6) : RowMods := { goodMods with fmt := fmt, dst := dst, sa := sa, sb := sb }

/-- What RowGood asks of a row word in a state. -/
def rowGood (s : State) (o : Op) (w : RowMods) : Bool := (s.rowWindow o w).isNone && !deadRowWord w

theorem rowGood_iff {s : State} {o : Op} {w : RowMods} (h : rowGood s o w = true) : RowGood s o w := by
  simpa [rowGood, RowGood, Option.isNone_iff_eq_none, and_assoc] using h

theorem rowFinite_of {s : State} {o : Op} {w : RowMods} (h : s.myPen.nft = false) : RowFinite s o w := by
  intro h'
  rw [h] at h'
  cases h'

theorem test_witness_RowInteger :
    RowGood (peBoard loadedPen PE.reset) .vmulh (rowOf 6 3 1 2) ∧ RowGood (peBoard loadedPen PE.reset) .vqrs (rowOf 7 3 1 2) ∧
      (∃ f, intRow (.vmulh (rowOf 6 3 1 2)) = some (.vmulh, rowOf 6 3 1 2, f)) :=
  ⟨rowGood_iff (by decide +kernel), rowGood_iff (by decide +kernel), ⟨_, rfl⟩⟩

theorem test_witness_RowFloat :
    let s := peBoard loadedPen PE.reset
    (∃ f, fpRow (.vfma (rowOf 2 3 1 2)) = some (.vfma, rowOf 2 3 1 2, f)) ∧ RowGood s .vfma (rowOf 2 3 1 2) ∧
      RowGood s .vfcmp (rowOf 0 57 1 2) ∧ RowGood s .vrope (rowOf 0 3 1 2) ∧ RowGood s .vrng (rowOf 0 3 1 2) ∧
      (RowGood s .vcvt (rowOf 0 3 1 2) ∧ auxOf (rowOf 0 3 1 2) % 8 = (rowOf 0 3 1 2).fmt.toNat) ∧
      (RowGood s .vcvt { rowOf 0 3 1 2 with aux := 7 } ∧ auxOf { rowOf 0 3 1 2 with aux := 7 } % 8 ≠ (rowOf 0 3 1 2).fmt.toNat) ∧
      RowGood s .vpack (rowOf 3 3 1 2) ∧ RowGood s .vunpk { rowOf 0 3 1 2 with aux := 3 } ∧ RowGood s .vbfly (rowOf 3 3 4 48) :=
  ⟨⟨_, rfl⟩, rowGood_iff (by decide +kernel), rowGood_iff (by decide +kernel), rowGood_iff (by decide +kernel),
    rowGood_iff (by decide +kernel), ⟨rowGood_iff (by decide +kernel), by decide⟩, ⟨rowGood_iff (by decide +kernel), by decide⟩,
    rowGood_iff (by decide +kernel), rowGood_iff (by decide +kernel), rowGood_iff (by decide +kernel)⟩

theorem test_witness_RowMoveAndControl :
    let s := peBoard loadedPen PE.reset
    RowGood s .mov (rowOf 0 3 1 2) ∧ RowGood s .sel { rowOf 0 3 1 2 with sc := 57 } ∧
      (RowGood s .limm (rowOf 0 55 1 2) ∧ (rowOf 0 55 1 2).dst.toNat < 56) ∧ RowGood s .limm (rowOf 0 56 1 2) ∧
      deadRowWord { rowOf 0 3 1 2 with pn := 1 } = true ∧ RowGood s .vshuf (rowOf 0 3 1 2) ∧
      RowGood s .vrotl { rowOf 0 3 1 2 with aux := 63 } ∧ RowGood s .vbcast { rowOf 0 3 1 2 with pl := 2 } ∧
      RowGood s .tred (rowOf 0 3 1 2) ∧ (RowGood s .vred { rowOf 7 3 1 2 with aux := 3 } ∧ bits (auxOf { rowOf 7 3 1 2 with aux := 3 }) 2 0 = 3) ∧
      RowGood s .vscan { rowOf 7 3 1 2 with aux := 3 } ∧ RowGood s .tmerge (rowOf 0 3 1 2) ∧ RowGood s .nop (rowOf 0 3 1 2) ∧
      (RowGood s .halt goodMods ∧ (s.myPe.mask goodMods).getLsbD 0 = true) ∧
      (RowGood s .cond { goodMods with aux := 1 } ∧ s.myPen.cond = false) ∧
      (RowGood s .vnfc goodMods ∧ (auxOf goodMods).testBit 0 = false) ∧
      (RowGood s .epost goodMods ∧ s.myPen.owner < 32 ∧ s.caches = []) ∧
      (peBoard { loadedPen with owner := 32, job := some (0, 0) } PE.reset).myPen.targets 0 = [] :=
  ⟨rowGood_iff (by decide +kernel), rowGood_iff (by decide +kernel), ⟨rowGood_iff (by decide +kernel), by decide⟩,
    rowGood_iff (by decide +kernel), by decide, rowGood_iff (by decide +kernel), rowGood_iff (by decide +kernel), rowGood_iff (by decide +kernel),
    rowGood_iff (by decide +kernel), ⟨rowGood_iff (by decide +kernel), by decide⟩, rowGood_iff (by decide +kernel),
    rowGood_iff (by decide +kernel), rowGood_iff (by decide +kernel), ⟨rowGood_iff (by decide +kernel), by decide +kernel⟩,
    ⟨rowGood_iff (by decide +kernel), by decide +kernel⟩, ⟨rowGood_iff (by decide +kernel), by decide⟩,
    ⟨rowGood_iff (by decide +kernel), by decide +kernel, rfl⟩, by decide +kernel⟩

/-- The other operations of a reduction, a second COND, a clearing VNFC, and the posts of a job's pen. -/
theorem test_witness_RowMoveAndControl_more :
    let s := peBoard loadedPen PE.reset
    (∀ op ∈ [0, 1, 2, 4, 5], rowGood s .vred { rowOf 7 3 1 2 with aux := op } = true ∧ rowGood s .vscan { rowOf 7 3 1 2 with aux := op } = true ∧
      rowGood s .tred { rowOf 0 3 1 2 with aux := op } = true) ∧
    (let t := peBoard { loadedPen with cond := true } PE.reset; rowGood t .cond goodMods = true ∧ t.myPen.cond = true) ∧
    (rowGood s .vnfc { goodMods with aux := 1 } = true ∧ (auxOf { goodMods with aux := 1 }).testBit 0 = true) ∧
    s.myPen.nft = false ∧ (opOf (.vadd { goodMods with pn := 1 })).isSome = true ∧
    (let t := peBoard { loadedPen with owner := 32, job := some (BitVec.ofNat 1024 (2 ^ 704 + 2 ^ 708 + 2 ^ 713), 0) } PE.reset;
      rowGood t .epost goodMods = true ∧ 32 ≤ t.myPen.owner ∧ (t.myPe.mask goodMods).getLsbD 0 = true ∧ t.caches = [] ∧
      t.myPen.targets 0 = [some (0, 1), none]) ∧
    (let t := { s with fns := [(0, { Fn.reset with posts := [{ ev := 5, ctx := 0 }] })] }; (t.fn (t.ctx 0).func).posts ≠ []) := by
  decide +kernel

/-- An immediate scratchpad address (SA and SB are zero). -/
def padRow (imm : W64) : RowMods := { rowOf 0 3 48 48 with imm := imm }

theorem test_witness_RowScratchpad_faults :
    let s := peBoard loadedPen PE.reset
    (∀ o ∈ [Op.lds, .ldss, .sts], (s.rowWindow o (padRow 2)).isNone = true) ∧ deadRowWord (padRow 2) = false ∧
      padFault s.myPen s.myPe (padRow 2) (padAddr (padRow 2) (srcA s .lds (padRow 2))) false = some 0x05 ∧
      padFault s.myPen s.myPe (padRow 0x18000) (padAddr (padRow 0x18000) (srcB s .sts (padRow 0x18000))) true = some 0x04 := by
  decide +kernel

theorem test_witness_RowScratchpad_poison :
    let t := peBoard loadedPen { PE.reset with ecc := [(2, true)], bad := [(3, true)] }
    (∀ o ∈ [Op.lds, .ldss], (t.rowWindow o (padRow 0x200)).isNone = true ∧ (t.rowWindow o (padRow 0x300)).isNone = true) ∧
      padFault t.myPen t.myPe (padRow 0x200) (padAddr (padRow 0x200) (srcA t .ldss (padRow 0x200))) false = some 0x09 ∧
      padFault t.myPen t.myPe (padRow 0x300) (padAddr (padRow 0x300) (srcA t .lds (padRow 0x300))) false = none ∧
      t.myPe.discarded (padAddr (padRow 0x300) (srcA t .lds (padRow 0x300))) = true := by decide +kernel

theorem test_witness_RowScratchpad :
    let s := peBoard loadedPen PE.reset
    (RowGood s .lds (padRow 0x17F00) ∧ padFault s.myPen s.myPe (padRow 0x17F00) 0x17F00 false = none ∧
        padAddr (padRow 0x17F00) (srcA s .lds (padRow 0x17F00)) = 0x17F00 ∧ s.myPe.discarded 0x17F00 = false) ∧
      RowGood s .ldss (padRow 0x17F00) ∧ (RowGood s .sts (padRow 0x17F00) ∧
        padFault s.myPen s.myPe (padRow 0x17F00) (padAddr (padRow 0x17F00) (srcB s .sts (padRow 0x17F00)))
          (stsWhole s (padRow 0x17F00)) = none) ∧
      (RowGood s .back goodMods ∧ (s.myPe.mask goodMods).getLsbD 0 = true) ∧
      (RowGood s .vopt { rowOf 0 3 1 2 with imm := 0x17F017F } ∧ 0x17F017F % 512 < splitBytes s.myPen.split / 256 ∧
        0x17F017F / 65536 % 512 < splitBytes s.myPen.split / 256 ∧ mget false s.myPe.ecc 0x17F = false) :=
  ⟨⟨rowGood_iff (by decide +kernel), by decide +kernel⟩,
    rowGood_iff (by decide +kernel), ⟨rowGood_iff (by decide +kernel), by decide +kernel⟩,
    ⟨rowGood_iff (by decide +kernel), by decide +kernel⟩,
    ⟨rowGood_iff (by decide +kernel), by decide +kernel, by decide +kernel, by decide +kernel⟩⟩

/-! ### Witnesses: memory rows and matrix rows -/

/-- A row word whose address is IMM alone: lane 1 of a zero register adds nothing. -/
def memRow (imm : W64) : RowMods := padRow imm

/-- An access of lane 0 in flight. -/
def anIrr (load : Bool) (a : Nat) : Irr :=
  { load := load, word := 0, row := 0, sel := false, iter := 0, lanes := 1, addrs := [(0, a)], data := 7, offs := 0, left := 0,
    ready := false, cause := 0, faddr := 0, resumed := false }

theorem test_witness_RowMemory_rows :
    let s := peBoard loadedPen PE.reset
    ((s.rowWindow .ldg (memRow 8)).isNone = true ∧ (s.rowWindow .stg (memRow 8)).isNone = true ∧ (memRow 8).imm.toNat % 256 ≠ 0 ∧
      srcA s .ldg (memRow 8) = 0 ∧ srcB s .stg (memRow 8) = 0) ∧
    fails (s.peCheck s.penK s.myPen.ctx 0x50000 false) cTRANSL = true ∧
    (RowGood s .ldg (memRow 0x100) ∧ isOk (s.peCheck s.penK s.myPen.ctx 0x100 false) = true) ∧
    RowGood s .stg (memRow 0x100) ∧ RowGood s .gath (memRow 0x100) ∧ RowGood s .scat (memRow 0x100) ∧
    (let l := (List.range 64).map fun k => (k, 0x100);
      (s.elemFault s.penK s.myPen.ctx false l).isNone = true ∧ l.find? (fun e => e.2 % 4 ≠ 0) = none) ∧
    (s.elemFault s.penK s.myPen.ctx false [(0, 0x101)] = some (0x05, 0x101)) ∧
    ((s.rowWindow .gath { memRow 8 with aux := 1 }).isNone = true ∧ (auxOf { memRow 8 with aux := 1 }).testBit 0 = true) ∧
    (let w := { memRow 0 with aux := 1 };
      (s.rowWindow .gath w).isNone = true ∧ w.imm.toNat % 16 = 0 ∧
      (match s.l1Read s.penK s.who.pe w.imm.toNat 272 with | (.ok m, _) => m == 0 | _ => false) = true ∧
      (s.myPe.mask w).getLsbD 0 = true ∧ fails (xloc 0 (lane (srcA s .gath w) 0).toNat) 7 = true ∧
      isOk (s.l1Read s.penK s.who.pe 0x50000 272).1 = false) ∧
    (let u := { s with mem := Memory.write [] 0 (toBytes 272 (1 + 0x8000 * 2 ^ 128 + 16 * 2 ^ 192 + 256 * 2 ^ 224)) };
     let w := { memRow 0 with aux := 1 };
      (u.rowWindow .gath w).isNone = true ∧ (match u.l1Read u.penK u.who.pe w.imm.toNat 272 with
        | (.ok m, v) => (match xloc m (lane (srcA u .gath w) 0).toNat with
            | .ok a => (v.elemFault u.penK u.myPen.ctx false ((List.range 64).map fun k =>
                (k, (a + (lane (srcB u .gath w) k).toNat) % 2 ^ 64))).isNone
            | _ => false)
        | _ => false) = true) ∧
    (RowGood s .lapr (memRow 0x100) ∧ (s.elemFault s.penK s.myPen.ctx true ((lanesOf (s.myPe.mask (memRow 0x100))).map fun k =>
      (k, elemAddr (memRow 0x100) (lane (srcB s .lapr (memRow 0x100)) k)))).isNone = true) :=
  ⟨by decide +kernel, by decide +kernel, ⟨rowGood_iff (by decide +kernel), by decide +kernel⟩, rowGood_iff (by decide +kernel),
    rowGood_iff (by decide +kernel), rowGood_iff (by decide +kernel), by decide +kernel, by decide +kernel, by decide +kernel,
    by decide +kernel, by decide +kernel, ⟨rowGood_iff (by decide +kernel), by decide +kernel⟩⟩

theorem test_witness_RowMemory_replies :
    (let s := peBoard loadedPen { PE.reset with irr := [anIrr true 0x100] };
      (s.pe 0 0).irr.find? (fun x => x.waits true) = some (anIrr true 0x100) ∧ (s.pen 0).takes = true ∧
      s.irrAway 0 (anIrr true 0x100) = false ∧ isOk (s.irrLoad 0 0 (anIrr true 0x100)).1 = true) ∧
    (let s := peBoard loadedPen { PE.reset with irr := [anIrr true 0x50000] };
      s.irrAway 0 (anIrr true 0x50000) = false ∧ isOk (s.irrLoad 0 0 (anIrr true 0x50000)).1 = false) ∧
    (let s := { peBoard loadedPen { PE.reset with irr := [anIrr true 0x100] } with pages := [(0, .excl 3)] };
      s.irrAway 0 (anIrr true 0x100) = true) ∧
    (let s := peBoard loadedPen { PE.reset with irr := [anIrr false 0x20000] };
      (s.pe 0 0).irr.find? (fun x => x.waits false) = some (anIrr false 0x20000) ∧
      (anIrr false 0x20000).stores.any (fun e => !isOk (s.peCheck 0 (s.pen 0).ctx e.1 true)) = true) := by decide +kernel

theorem test_witness_RowMemory_stores :
    let s := peBoard loadedPen { PE.reset with irr := [anIrr false 0x100] }
    (anIrr false 0x100).stores = [(0x100, 7, 15)] ∧ gives (s.peCheck 0 (s.pen 0).ctx 0x100 true) plainPage = true ∧
      s.irrAway 0 (anIrr false 0x100) = false ∧ (s.irrPas 0 (anIrr false 0x100)).any s.linkDown = false ∧
      aDER plainPage.attr = false ∧ plainPage.addr 0x100 < 2 ^ 52 ∧ s.isShadow (plainPage.addr 0x100) = false ∧
      s.page (plainPage.addr 0x100 / 65536) = .home ∧ Sound s ∧ Coherent s ∧
      0 ∈ s.domainPens 0 (s.pen 0).gang ∧ (s.lateOf 0 0).isNone = true ∧
      (let t := peBoard loadedPen { PE.reset with irr := [{ anIrr false 0x20000 with ready := true, cause := 2, faddr := 0x20000 }] };
        (t.lateOf 0 0).any (fun e => e.1.defer_) = true) :=
  ⟨by decide +kernel, by decide +kernel, by decide +kernel, by decide +kernel, by decide +kernel, by decide +kernel, by decide +kernel,
    by decide +kernel, sound_of (by decide +kernel), coherent_of_empty ⟨rfl, rfl, rfl⟩ (by decide +kernel), by decide +kernel, by decide +kernel,
    by decide +kernel⟩

/-- A store without a lane; and a pen that takes no reply, and a store whose page is away. -/
theorem test_witness_RowMemory_more :
    (let s := peBoard loadedPen PE.reset
     let w := { memRow 0x100 with pr := 1 };
      rowGood s .scat w = true ∧ (s.myPe.mask w) = 0 ∧ s.myPen.nft = false) ∧
    (let s := peBoard { loadedPen with stop := .fault aFault } { PE.reset with irr := [anIrr true 0x100] };
      (s.pe 0 0).irr.find? (fun x => x.waits true) = some (anIrr true 0x100) ∧ (s.pen 0).takes = false) ∧
    (let s := { peBoard loadedPen { PE.reset with irr := [anIrr false 0x100] } with pages := [(0, .excl 3)] };
      (s.pe 0 0).irr.find? (fun x => x.waits false) = some (anIrr false 0x100) ∧ s.irrAway 0 (anIrr false 0x100) = true) := by decide +kernel

/-- A pass of tile 1 and row 2 over zero operands, at its end. -/
def aPass : Pass :=
  { tile := 1, row := 2, fmt := 6, lo := 0, hi := 0, scLo := 0, scHi := 0, mask := BitVec.allOnes 512, w := [], left := 0, tail := 0,
    clears := false, systolic := false }

/-- An MPASSD with nothing before it, from 0x200. -/
def anMpd : MPD :=
  { word := 0, row := 0, sel := false, iter := 0, lanes := BitVec.allOnes 64, void := false, stride := 0, base := 0x200, last := 0, w := [], before := 0, clears := false, fault := none,
    flight := [] }

theorem test_witness_RowMatrix_rows :
    let s := peBoard loadedPen PE.reset
    let w := rowOf 6 41 1 2
    (RowGood s .mldw w ∧ (s.myPe.mask w).getLsbD 0 = true) ∧ (3 < 32 ∧ 4 < 32) ∧
    (RowGood s .mpass w ∧ RowGood s .msprs w ∧ passMismatch s w (passHalf s .mpass w w.sa).2 (passHalf s .mpass w w.sb).2 = false ∧
      passPoisoned s = false ∧ passMismatch s w (passHalf s .msprs w w.sa).2 (passHalf s .msprs w w.sb).2 = false) ∧
    (let t := peBoard loadedPen { PE.reset with w := [(0, { WRow.reset with set := true, fmt := 0 })] };
      RowGood t .mpass w ∧ (t.myPe.mask w).getLsbD 0 = true ∧
      passMismatch t w (passHalf t .mpass w w.sa).2 (passHalf t .mpass w w.sb).2 = true) ∧
    (let t := peBoard loadedPen { PE.reset with ecc := [(384, true)] };
      RowGood t .mpass w ∧ (t.myPe.mask w).getLsbD 0 = true ∧ passPoisoned t = true ∧
      passMismatch t w (passHalf t .mpass w w.sa).2 (passHalf t .mpass w w.sb).2 = false) ∧
    (RowGood s .mpassd { w with sa := 48, imm := 0x200 } ∧ (0x200 : Nat) % 512 = 0 ∧
      (lane (srcA s .mpassd { w with sa := 48, imm := 0x200 }) 0).toNat % 512 = 0 ∧ passMismatch s w 0 0 = false) ∧
    ((s.rowWindow .mpassd { w with imm := 0x100 }).isNone = true ∧ (0x100 : Nat) % 512 ≠ 0 ∧
      (s.myPe.mask { w with imm := 0x100 }).getLsbD 0 = true) ∧
    RowGood s .mwait { w with sa := 41 } ∧ (RowGood s .mrd { w with sa := 41 } ∧ s.myPe.mopen.getLsbD 1 = false) ∧
    (let t := peBoard loadedPen { PE.reset with mopen := 2 };
      RowGood t .mrd { w with sa := 41 } ∧ t.myPe.mopen.getLsbD 1 = true) ∧
    RowGood s .mclr w ∧ s.myPe.passes = [] ∧ s.myPe.mpd = none :=
  ⟨⟨rowGood_iff (by decide +kernel), by decide +kernel⟩, by decide,
    ⟨rowGood_iff (by decide +kernel), rowGood_iff (by decide +kernel), by decide +kernel, by decide +kernel, by decide +kernel⟩,
    ⟨rowGood_iff (by decide +kernel), by decide +kernel, by decide +kernel⟩,
    ⟨rowGood_iff (by decide +kernel), by decide +kernel, by decide +kernel, by decide +kernel⟩,
    ⟨rowGood_iff (by decide +kernel), by decide, by decide +kernel, by decide +kernel⟩, ⟨by decide +kernel, by decide, by decide +kernel⟩,
    rowGood_iff (by decide +kernel), ⟨rowGood_iff (by decide +kernel), by decide +kernel⟩,
    ⟨rowGood_iff (by decide +kernel), by decide +kernel⟩, rowGood_iff (by decide +kernel), rfl, rfl⟩

theorem test_witness_RowMatrix_steps :
    (let s := peBoard loadedPen { PE.reset with passes := [aPass] };
      (s.pen 0).sys = false ∧ (s.pe 0 0).passes = aPass :: [] ∧ (s.pe 0 0).mpd = none ∧ aPass.done = true ∧
      aPass.systolic = false ∧ aPass.clears = false) ∧
    (let s := peBoard loadedPen { PE.reset with mpd := some anMpd };
      (s.pen 0).sys = false ∧ (s.pen 0).takes = true ∧ (s.pe 0 0).mpd = some anMpd ∧ anMpd.before = 0 ∧ anMpd.fault = none ∧
      s.mpdAway 0 0 = false ∧ isOk (s.mpdRead 0 0 (anMpd.addr (s.pe 0 0).prgDone 0)).1 = true) ∧
    (let s := peBoard loadedPen { PE.reset with mpd := some { anMpd with base := 0x50000 } };
      isOk (s.mpdRead 0 0 (({ anMpd with base := 0x50000 } : MPD).addr (s.pe 0 0).prgDone 0)).1 = false) ∧
    (peBoard loadedPen { PE.reset with mpd := some { anMpd with before := 1 } }).pe 0 0 =
      { PE.reset with mpd := some { anMpd with before := 1 } } := by decide +kernel

/-- A fetched row in the array, at work and at its end; a fetch that is over, and one for a stopped pen. -/
theorem test_witness_RowMatrix_flight :
    let r : MRow := { lo := 0, hi := 0, left := 0, tail := 0 }
    let m := { anMpd with flight := [r], last := 1 }
    (let s := peBoard loadedPen { PE.reset with mpd := some m };
      (s.pe 0 0).mpd = some m ∧ m.flight = r :: [] ∧ r.left = 0 ∧ r.tail = 0 ∧ m.void = false ∧ m.clears = false ∧ (s.pe 0 0).prgTile < 4 ∧
      (s.pe 0 0).prgDone < 65535 ∧ (s.pe 0 0).prgDone < m.last ∧ (∀ q, m.flight.getLast? = some q → q.left = 0) ∧
      (s.pe 0 0).prgDone + m.flight.length ≤ m.last ∧ (s.pen 0).takes = true ∧ m.before = 0 ∧ m.fault = none ∧ s.mpdAway 0 0 = false) ∧
    (let n := { m with flight := [{ r with left := 3 }], last := 0 }
     let s := peBoard loadedPen { PE.reset with mpd := some n };
      (s.pe 0 0).mpd = some n ∧ n.flight.getLast? = some { r with left := 3 } ∧ n.last ≤ (s.pe 0 0).prgDone ∧
      n.last < (s.pe 0 0).prgDone + n.flight.length) ∧
    (let s := peBoard { loadedPen with stop := .fault aFault } { PE.reset with mpd := some m }; (s.pen 0).takes = false) := by
  refine ⟨⟨rfl, rfl, rfl, rfl, rfl, rfl, by decide +kernel, by decide +kernel, by decide +kernel, ?_, by decide +kernel, by decide +kernel, rfl, rfl,
    by decide +kernel⟩, by decide +kernel, by decide +kernel⟩
  intro q h
  cases h
  rfl

/-! ### Witnesses: streams -/

/-- A filling handle of two one-vector slots, and a board whose pen 0 maps port 5 to it. -/
def aHandle (st : BitVec 16) : Handle := { Handle.reset with en := true, nsm1 := 1, st := st }

/-- A PE whose window 0 views vector 0 of a full slot, with a header, poisoned or discarded. -/
def windowPe (h : W64) (ecc bad : Bool) : PE :=
  { PE.reset with handles := [(0, aHandle 2)], spw := [(0, 16)], hdr := mset 0 [] 0 h, ecc := mset false [] 0 ecc, bad := mset false [] 0 bad }

theorem test_witness_RowInteger_windows :
    let w := rowOf 6 3 44 2
    let good := mkHdr 0 127 0 0 1 (crc16 (vecBytes 0 4)).toNat 0 0 0
    (opOf (.vadd w) = some (.vadd, w) ∧ Op.vadd ≠ .haltf ∧ deadRowWord w = false) ∧
    (peBoard loadedPen (windowPe 0 true false)).rowWindow .vadd w = some (0x09, 0) ∧
    (peBoard loadedPen (windowPe 0 false true)).rowWindow .vadd w = some (0x07, 0) ∧
    (peBoard loadedPen (windowPe (mkHdr 15 0 0 0 1 0 0 0 0) false false)).rowWindow .vadd w = some (0x08, 0) ∧
    (windowPe 0 true false).winVec 0 = some 0 ∧
    (let p := windowPe good false false;
      p.winVec 0 = some 0 ∧ p.winHdr 0 ≠ 0 ∧ hdrFormat (p.winHdr 0) < 12 ∧ hdrBfly (p.winHdr 0) < 9 ∧ p.mismatch 0 (p.winHdr 0) = false ∧
      mget false p.ecc 0 = false ∧ mget false p.bad 0 = false) := by decide +kernel

def portBoard (p : Pen) (st : BitVec 16) (x : SMap W64) : State :=
  { peBoard { p with ports := [(5, some { pe := 0, h := 0 })] } { PE.reset with handles := [(0, aHandle st)] } with
    ost := [(0, { anOstler x with pens := [(0, some 0)] })] }

/-- A program slot at work. -/
def aProg : Prog := { Prog.reset with busy := true, next := 0x200 }
def progBoard (g : Prog) (x : SMap W64) : State := { board x with progs := [(0, g)] }
def portProg (p : Pen) (st : BitVec 16) (g : Prog) : State := { portBoard p st [] with progs := [(0, g)] }

/-- The block of an SCOMB: sources at 0x1000 and 0x2000, result at 0x3000, one packet, format 0, sum. -/
def combBlock : Nat := 0x1000 + 0x2000 * 2 ^ 64 + 0x3000 * 2 ^ 128 + 2 ^ 192

theorem test_witness_StreamIssue_queue :
    (let s := board [(6, 2 * 128)]; s.penUsable (targetPen (s.rx 6).toNat) = false) ∧
    (let s := portBoard loadedPen 0 [(6, 5 * 128), (7, 0x200), (8, 0x201)];
      s.penUsable (targetPen (s.rx 6).toNat) = true ∧ accTraps (s.readBlock (s.rx 8).toNat 128 128) = true ∧
      accOk (s.readBlock (s.rx 7).toNat 128 128) = true ∧ (s.queueOf (targetPen (s.rx 6).toNat) 5).length < 8) ∧
    (let s := { portBoard loadedPen 0 [(6, 5 * 128), (7, 0x200)] with pages := [(0, .excl 3)] };
      s.penUsable (targetPen (s.rx 6).toNat) = true ∧ accWaits (s.readBlock (s.rx 7).toNat 128 128) = true) ∧
    (let s := { portBoard loadedPen 0 [(6, 5 * 128), (7, 0x200)] with portQ := [(5, List.replicate 8
                { block := 0, va := 0, eng := 0, ctx := 0, die := 0, n := 0 })] };
      8 ≤ (s.queueOf (targetPen (s.rx 6).toNat) (targetPort (s.rx 6).toNat)).length) := by decide +kernel

theorem test_witness_StreamIssue_programs :
    (let s := board [(6, 0x204)];
      (s.rx 6).toNat % 8 ≠ 0 ∧ s.tablesAway s.agent s.ctxId (s.rx 6).toNat 8 = false ∧ tablesGone.tablesAway s.agent s.ctxId (s.rx 6).toNat 8 = true) ∧
    (let s := board [(6, 0x200)];
      s.tablesAway s.agent s.ctxId (s.rx 6).toNat 8 = false ∧ (s.rx 6).toNat % 8 = 0 ∧ s.rangesOf s.agent s.ctxId (fun _ => true) (s.rx 6).toNat 8 ≠ none ∧
      (s.prog (progKey 0 0 0)).busy = false) ∧
    (let s := { board [(6, 0x200)] with progs := (List.range 16).map fun k => (k, aProg) };
      (List.range 16).all (fun k => (s.prog (progKey 0 0 k)).busy) = true) ∧
    (progBoard { aProg with ctx := 1 } []).selForeign 0 = true ∧
    (let s := board []; s.selForeign (s.rx 6).toNat = false ∧ (s.rx 6).getLsbD 0 = false ∧ (s.prog (selProg 0)).busy = false) ∧
    (let s := progBoard aProg [];
      s.selForeign (s.rx 6).toNat = false ∧ (s.prog (selProg 0)).busy = true ∧ (s.prog (selProg 0)).done = none) ∧
    (let s := portBoard loadedPen 0 [(6, 1)];
     let pk := selPen (s.rx 6).toNat;
     let c : SCmd := { block := 0, va := 0, eng := 0, ctx := 0, die := 0, n := 1 };
      s.selForeign (s.rx 6).toNat = false ∧ (s.rx 6).getLsbD 0 = true ∧ s.queueOf pk (selPort (s.rx 6).toNat) = [] ∧
      s.boundTo pk (selPort (s.rx 6).toNat) = none ∧
      ({ s with portQ := [(portKey pk (selPort 1), [c])] }.queueOf pk (selPort (s.rx 6).toNat) = [c] ∧ s.routine = none ∧
        c.die * 32 + c.n ≠ s.me ∧ c.n < 32) ∧
      (let u := { s with portBind := [(portKey pk (selPort 1), some 0)], progs := [(0, aProg)] };
        u.boundTo pk (selPort (s.rx 6).toNat) = some 0 ∧ (u.prog 0).busy = true ∧ (u.prog 0).done = none ∧
        u.queueOf pk (selPort (s.rx 6).toNat) = [])) := by decide +kernel

theorem test_witness_StreamIssue_records :
    let s := { board [(6, 0x200), (7, 0x201)] with recs := [(0, [{ RecEnt.reset with handle := 0x200 }])] }
    tablesGone.rangeAway s.agent s.ctxId 0x200 192 = true ∧
    (s.rangeAway s.agent s.ctxId (s.rx 7).toNat 192 = false ∧ (s.rx 7).toNat % 64 ≠ 0) ∧
      (s.rangeAway s.agent s.ctxId (s.rx 6).toNat 192 = false ∧ (s.rx 6).toNat % 64 = 0 ∧
        s.rangesOf s.agent s.ctxId (fun _ => true) (s.rx 6).toNat 192 ≠ none ∧ Rooted s ∧ TlbBounded s ∧ Sound s ∧ Coherent s ∧
        mwf [] s.recs = true) := by
  refine ⟨by decide +kernel, by decide +kernel, by decide +kernel, by decide +kernel, by decide +kernel,
    ⟨rfl, by decide, by decide +kernel⟩, ?_, sound_of (by decide +kernel), coherent_of_empty ⟨rfl, rfl, rfl⟩ (by decide +kernel),
    by decide +kernel⟩
  intro a e h
  simp only [board, mget] at h
  split at h
  · simp only [List.mem_cons, List.not_mem_nil, or_false] at h
    rcases h with rfl | rfl | rfl | rfl | rfl <;> decide
  · simp at h

/-- RECFL finds the record, or a poisoned line of it, or no mapping. -/
theorem test_witness_StreamIssue_records_read :
    let s := board [(6, 0x200), (7, 0x50000)]
    let r := fun (s : State) => (((s.walkRange s.agent s.ctxId 0x200 192).writebackRange 0x200 192).vread s.agent s.ctxId 0x200 192)
    engOk (r s) = true ∧ engFaults (r { s with poison := [(4, true)] }) = true ∧ s.rangeAway s.agent s.ctxId (s.rx 7).toNat 192 = false ∧
      (s.walkRange s.agent s.ctxId (s.rx 7).toNat 192).rangesOf s.agent s.ctxId (fun _ => true) (s.rx 7).toNat 192 = none := by
  decide +kernel

theorem test_witness_StreamIssue_combine :
    (let s := board [(6, 0x201)]; accTraps (s.readBlock (s.rx 6).toNat 64 64) = true) ∧
    (let s := { board [(6, 0x200)] with pages := [(0, .excl 3)] }; accWaits (s.readBlock (s.rx 6).toNat 64 64) = true) ∧
    (let s := board [(6, 0x200)];
      (match s.readBlock (s.rx 6).toNat 64 64 with | .ok b _ => decide (bits b 223 192 = 0) | _ => false) = true) ∧
    (let s := boardMem [(6, 0x200)] 0x200 (toBytes 64 combBlock);
      (match s.readBlock (s.rx 6).toNat 64 64 with
        | .ok b u => b == combBlock && u.packets (fun _ => true) (bits b 63 0) (bits b 223 192) == some [0x1000] &&
            u.packets (fun _ => true) (bits b 127 64) (bits b 223 192) == some [0x2000] &&
            u.packets (fun e => aW e.attr) (bits b 191 128) (bits b 223 192) == some [0x3000] &&
            [bits b 63 0, bits b 127 64, bits b 191 128].all (fun v => !u.tablesAway u.agent u.ctxId v (256 * bits b 223 192))
        | _ => false) = true) ∧
    bits combBlock 227 224 < 2 ∧ bits combBlock 255 230 = 0 ∧ bits combBlock 511 320 = 0 ∧
    exactOverlap [0x3000] [0x1000] = true ∧ exactOverlap [0x3000] [0x2000] = true := by decide +kernel

/-- Blocks of an SCOMB over a result that is not mapped, or that overlaps its source unevenly; and one whose tables are elsewhere. -/
theorem test_witness_StreamIssue_combine_more :
    (let b := 0x1000 + 0x2000 * 2 ^ 64 + 0x50000 * 2 ^ 128 + 2 ^ 192
     let s := boardMem [(6, 0x200)] 0x200 (toBytes 64 b);
      (match s.readBlock (s.rx 6).toNat 64 64 with
        | .ok x u => x == b && [0x1000, 0x2000, 0x50000].all (fun v => !u.tablesAway u.agent u.ctxId v 256) &&
            (let w := ((u.walkRange u.agent u.ctxId 0x1000 256).walkRange u.agent u.ctxId 0x2000 256).walkRange u.agent u.ctxId 0x50000 256
             w.packets (fun e => aW e.attr) 0x50000 1 == none)
        | _ => false) = true) ∧
    (let b := 0x1000 + 0x2000 * 2 ^ 64 + 0x1100 * 2 ^ 128 + 2 * 2 ^ 192
     let s := boardMem [(6, 0x200)] 0x200 (toBytes 64 b);
      (match s.readBlock (s.rx 6).toNat 64 64 with
        | .ok x u => x == b && u.packets (fun _ => true) 0x1000 2 == some [0x1000, 0x1100] &&
            u.packets (fun _ => true) 0x2000 2 == some [0x2000, 0x2100] && u.packets (fun e => aW e.attr) 0x1100 2 == some [0x1100, 0x1200]
        | _ => false) = true) ∧
    ({ tablesGone with pages := [(0, .excl 3)] } : State).tablesAway 0 0 0x1000 256 = true := by decide +kernel

/-- BWAIT for drained slots: found, with a delta of an engine queued, and applied. -/
theorem test_witness_StreamIssue_drained :
    let h := { aHandle 0 with dirn := true }
    let s := { peBoard { loadedPen with ports := [(5, some { pe := 0, h := 0 })] } { PE.reset with handles := [(0, h)] } with
                 ost := [(0, { anOstler [(6, 5 * 128), (7, 0)] with pens := [(0, some 0)] })] }
    let b : Batch := { src := 0, seq := 0, writer := 32, entries := [], rebuild := none }
    s.routine = none ∧ s.portHandle (s.rx 6).toNat = some (0, ⟨0, 0⟩, h) ∧ (s.rx 7).toNat / 4 % 8 + 1 ≤ h.slots ∧ (s.rx 7).toNat % 4 = 0 ∧
      h.dirn = true ∧ s.enginesDone = true ∧ ({ s with dsets := [(0, { DSet.reset with queue := [b] })] } : State).enginesDone = false ∧
      (({ s with ost := [(0, { anOstler [(6, 5 * 128), (7, 0)] with pens := [(0, some 0)], wait := some { instr := .bwait 5 6 7 8, phase := 2, marks := [], todo := [] } })] } : State).phaseOf = 2) := by
  decide +kernel

theorem test_witness_StreamIssue_ports :
    ((board []).portHandle ((board []).rx 6).toNat = none) ∧
    (let s := portBoard loadedPen 0 [(6, 5 * 128), (7, 2 * 4), (8, 0), (9, 4), (10, 5)];
      s.routine = none ∧ s.portHandle (s.rx 6).toNat = some (0, ⟨0, 0⟩, aHandle 0) ∧ (aHandle 0).slots = 2 ∧
      (s.rx 7).toNat / 4 % 8 + 1 = 3 ∧ (s.rx 8).toNat / 4 % 8 + 1 = 1 ∧ (s.rx 9).toNat / 4 % 8 + 1 = 2 ∧ (s.rx 10).toNat % 4 = 1 ∧
      ((List.range 2).filter fun k => (aHandle 0).state k == 0).length = 2 ∧
      ((List.range 2).filter fun k => (aHandle 0).state k == 1).length = 0 ∧ s.fcycle.toNat < (s.rx 7).toNat ∧
      (s.rx 0).toNat ≤ s.fcycle.toNat) := by decide +kernel

theorem test_witness_StreamProgram :
    ((progBoard aProg []).myProg.loops = [] ∧ (progBoard aProg []).myProg.dest = .none) ∧
    (let e : SLoop := { dim := 0, stp := 1, passes := 2, first := 0x208, saved := 0 }
     (progBoard { aProg with loops := [e] } []).myProg.loops = e :: [] ∧ 1 < e.passes ∧
      4 ≤ (progBoard { aProg with loops := [e, e, e, { e with passes := 1 }] } []).myProg.loops.length) ∧
    (let s := portProg loadedPen 0 aProg;
      s.leaveDest.progPen (penKey 0 0) = true ∧ s.leaveDest.queueOf (penKey 0 0) 5 = [] ∧ s.leaveDest.boundTo (penKey 0 0) 5 = none ∧
      s.progPen (penKey 0 0) = true ∧ s.portOf (penKey 0 0) 5 = some ⟨0, 0⟩ ∧ s.portOf (penKey 0 0) 6 = none ∧
      ((List.range ((s.pe 0 0).handle 0).slots).filter fun k => ((s.pe 0 0).handle 0).state k == 0).length = 2) ∧
    (progBoard aProg []).leaveDest.progPen (penKey 0 3) = false ∧
    (let s := { portProg loadedPen 0 aProg with portBind := [(portKey 0 5, some 1)] }; s.leaveDest.boundTo (penKey 0 0) 5 ≠ none) ∧
    (progBoard aProg []).deltasDone (progAgent 0) = true ∧
    (let s := { progBoard aProg [] with dsets := [(0, { DSet.reset with queue :=
                [{ src := 0, seq := 0, writer := progAgent 0, entries := [], rebuild := none }] })] };
      s.deltasDone (progAgent s.myProgK) = false) := by decide +kernel

/-- A layout record: eight elements of format 0 from 0x1000; and a transfer of one packet of it. -/
def aLay : BitVec 1536 := 0x1000#1536 ||| (1#1536 <<< 132) ||| (8#1536 <<< 256) ||| (4#1536 <<< 448)
def aXfer : Xfer :=
  { src := { RecEnt.reset with handle := 0x200, lay := aLay }, scl := RecEnt.reset, dst := RecEnt.reset, starts := [], counts := [(0, 8)],
    xpose := false, pos := 0, blocks := 0, lastBlk := none, sent := [], entries := [], readers := [], acked := none,
    pend := none }

theorem test_witness_StreamSteps_tiles :
    (let s := portBoard loadedPen 0 []; s.queueOf 0 5 = []) ∧
    (let s := { portBoard loadedPen 0 [] with portQ := [(5, [{ block := 0, va := 0x200, eng := 0, ctx := 0, die := 0, n := 0 }])] };
      s.queueOf (penKey 0 0) 5 ≠ [] ∧ s.boundTo (penKey 0 0) 5 = none ∧ s.freeSlot 0 0 = some 0) ∧
    ((progBoard aProg []).prog (progKey 0 0 0) = aProg ∧ (progBoard aProg []).tile 0 = progBoard aProg [] ∧
      (progBoard aProg []).skips 0 = true) ∧
    (let s := portProg loadedPen 0 { aProg with xfer := some aXfer, dest := .port 0 0 5 };
      s.skips (progKey 0 0 0) = false ∧ s.before 0 0 0 = [] ∧ s.before 0 0 1 = [0]) ∧
    (let s := portProg { loadedPen with pre := true } 0 { aProg with xfer := some aXfer, dest := .port 0 0 5 };
      (s.prog 0).done = none ∧ (s.prog 0).xfer = some aXfer ∧ isOk aXfer.addrs = true ∧ (s.pen (penKey 0 0)).live = false) ∧
    (let s := portProg loadedPen 0 { aProg with xfer := some aXfer, dest := .port 0 0 5 };
      (s.prog 0).done = none ∧ (s.prog 0).xfer = some aXfer ∧ aXfer.pos < aXfer.total ∧ s.otCan (progDie 0) (s.prog 0).ctx aXfer.readers = true ∧
      gives aXfer.addrs ((List.range 8).map (0x1000 + 4 * ·)) = true ∧ (s.prog 0).dest = .port 0 0 5 ∧ (s.pen (penKey 0 0)).live = true ∧
      s.portOf (penKey 0 0) 5 = some ⟨0, 0⟩ ∧ ((s.pe 0 0).handle 0).dirn = false ∧ (s.prog 0).vec = 0 ∧
      ((s.pe 0 0).handle 0).takable s.fcycle.toNat = true ∧ s.inbound 0 aXfer = false ∧
      (match s.tileRead (progAgent 0) (s.prog 0).ctx aXfer.es ((List.range 8).map (0x1000 + 4 * ·)) with
        | .ok _ u => (match u.tileScale 0 aXfer with | .ok (.ok (some _)) _ => true | _ => false)
        | _ => false) = true) := by decide +kernel

theorem test_witness_StreamSteps_ends :
    (let s := progBoard { aProg with done := some 5 } [];
      (s.prog 0).done = some 5 ∧ s.deltasDone (progAgent 0) = true ∧ (s.prog 0).xfer = none) ∧
    (let s := progBoard { aProg with done := some (256 + 3), recd := true } [];
      (s.prog 0).done = some (256 + 3) ∧ s.deltasDone (progAgent 0) = true ∧ (s.prog 0).xfer = none ∧ (s.prog 0).recd = true) ∧
    (let s := { board [] with timers := [(0x400, 7)] };
      s.timers.find? (fun x => x.1 == 0x400) = some (0x400, 7) ∧ s.fcycle.toNat < 7) ∧
    (let s := { board [] with timers := [(0x400, 0)] };
      s.timers.find? (fun x => x.1 == 0x400) = some (0x400, 0) ∧ 0 ≤ s.fcycle.toNat ∧ s.pageAway 0x400 = false) ∧
    (isHbm 0x400 = true ∧ 0x400 % 128 = 0) ∧
    (let x := { aXfer with pos := 8, acked := some 0 }
     let s := progBoard { aProg with xfer := some x, dest := .chunk 0x40000 3 } [];
      s.walkAway (progAgent 0) (s.prog 0).ctx 0x40000 = false ∧ s.otCan (progDie 0) (s.prog 0).ctx x.readers = true ∧
      (s.prog 0).xfer = some x ∧ (s.prog 0).dest = .chunk 0x40000 3 ∧ (s.prog 0).done = none ∧ x.total ≤ x.pos ∧
      gives (s.lookup (progAgent 0) (s.prog 0).ctx 0x40000) peerPage = true ∧ s.linkDown (peerPage.addr 0x40000) = false) ∧
    (let x : Comb := { ctx := 0, die := 0, n := 0, tag := 1, fmt := 0, op := 0, va := 0x1000, vb := 0x2000, vc := 0x3000, a := [0x1000],
                       b := [0x2000], c := [0x3000], done := 0 }
     let s := { board [] with combs := [x, { x with done := 1 }] };
      s.combs[0]? = some x ∧ x.left ≠ 0 ∧ s.packetBad 0x1000 = 0 ∧ s.packetBad 0x2000 = 0 ∧ s.pageAway 0x1000 = false ∧
      s.pageAway 0x2000 = false ∧ s.pageAway 0x3000 = false ∧ s.dsets = [] ∧ s.poison = [] ∧ 0x3000 % 256 = 0 ∧ isHbm 0x3000 = true ∧
      s.combs[1]? = some { x with done := 1 } ∧ ({ x with done := 1 } : Comb).left = 0 ∧ s.deltasDone (agentComb x.die) = true) := by
  decide +kernel

/-- The round of an engine that starts at slot 1, a command that begins its transfer, and a tile whose writes go on. -/
theorem test_witness_StreamSteps_round :
    (let s := { portProg loadedPen 0 { aProg with xfer := some aXfer, dest := .port 0 0 5 } with rr := [(0, 1)] };
      s.skips (progKey 0 0 0) = false ∧ s.before 0 0 0 = (List.range 15).map (· + 1) ∧ (s.before 0 0 0).all s.skips = true) ∧
    (let s := progBoard { aProg with sq := true } []; (s.prog 0).done = none ∧ (s.prog 0).xfer = none ∧ (s.prog 0).busy = true ∧ (s.prog 0).sq = true) ∧
    (let y : Tile := { m := 8, n := 32, va := 0x3000, todo := [(0x3000, false, [1])] }
     let x := { aXfer with pend := some y }
     let s := progBoard { aProg with xfer := some x } [];
      (s.prog 0).done = none ∧ (s.prog 0).xfer = some x ∧ x.pos < x.total ∧ s.otCan (progDie 0) (s.prog 0).ctx x.readers = true ∧
      x.pend = some y ∧ (s.push (progAgent 0) y.todo).1 = 0 ∧ (s.push (progAgent 0) y.todo).2.1 = [] ∧
      (let u := { s with poison := [(0x3000 / 128, true)] }; (u.push (progAgent 0) y.todo).1 ≠ 0) ∧
      (let u := { s with pages := [(0, .excl 3)] }; (u.push (progAgent 0) y.todo).1 = 0 ∧ (u.push (progAgent 0) y.todo).2.1 ≠ [])) ∧
    (let s := progBoard { aProg with done := some 5 } [];
     let b : Batch := { src := 0, seq := 0, writer := progAgent 0, entries := [], rebuild := none };
      ({ s with dsets := [(0, { DSet.reset with queue := [b] })] } : State).deltasDone (progAgent 0) = false) := by decide +kernel

/-- A chunk record at 0x400 of ostler 0: four elements of format 0 from two contributors, staged from 0x2000, the result at 0x1000. -/
def aChunk : Nat := 0x1000 + 0x2000 * 2 ^ 64 + 4 * 2 ^ 128 + 3 * 2 ^ 192 + 9 * 2 ^ 384
def chunkBoard (r : Nat) (a : List Arrival) : State := { boardMem [] 0x400 (toBytes 128 r) with arrs := a }
def anArr (n : Nat) : Arrival := { pa := 0x400, ci := 0, fmt := 0, data := List.replicate n 1, slot := none, todo := none, st := none }

theorem test_witness_StreamSteps_arrivals :
    (let s := chunkBoard aChunk [anArr 16];
      s.arrs.find? (fun x => x.pa == 0x400) = some (anArr 16) ∧ (anArr 16).st = none ∧ (anArr 16).todo = none ∧ s.pageAway 0x400 = false ∧
      s.deltaFull (0x400 / 128) = false ∧ ({ s with pages := [(0, .excl 3)] } : State).pageAway 0x400 = true ∧
      (match s.physRead 0x400 128 with
        | (.ok r, u) => r == aChunk && !r.testBit 456 && r.testBit (192 + (anArr 16).ci) && u.pubs == [] &&
            (anArr 16).data.length == r / 2 ^ 128 % 2 ^ 32 * elemSize 0 && (anArr 16).fmt == r / 2 ^ 160 % 16 &&
            engOk (u.piecesAt (agentSlice (homeOf 0x400 / 64)) (u.chunkCtx r) (r / 2 ^ 64 % 2 ^ 64 + (anArr 16).ci * 16) (anArr 16).data) &&
            !u.arrLate (anArr 16) r
        | _ => false) = true) ∧
    (let s := chunkBoard (aChunk + 2 ^ 456) [anArr 16];
      (match s.physRead 0x400 128 with | (.ok r, _) => r.testBit 456 | _ => false) = true) ∧
    (anArr 3).data.length ≠ 4 * elemSize 0 ∧
    (let a := { anArr 16 with todo := some [(0x2000, false, [1])] }
     let s := chunkBoard aChunk [a];
      s.arrs.find? (fun x => x.pa == 0x400) = some a ∧ a.st = none ∧ s.pageAway 0x400 = false ∧ s.deltaFull (0x400 / 128) = false ∧
      (let r := s.push (agentSlice (homeOf a.pa / 64)) [(0x2000, false, [1])];
        r.1 = 0 ∧ r.2.1 = [] ∧ r.2.2.deltaFull (a.pa / 128) = false)) ∧
    (let a := { anArr 16 with st := some 0, slot := some 0 }
     let s := { chunkBoard aChunk [a] with progs := [(0, { aProg with xfer := some aXfer })] }
     let b : Batch := { src := 0, seq := 0, writer := agentSlice (homeOf 0x400 / 64), entries := [], rebuild := none };
      s.arrs.find? (fun x => x.pa == 0x400) = some a ∧ a.st = some 0 ∧ s.deltasDone (agentSlice (homeOf 0x400 / 64)) = true ∧
      ({ s with dsets := [(0, { DSet.reset with queue := [b] })] } : State).deltasDone (agentSlice (homeOf 0x400 / 64)) = false ∧
      (s.prog 0).xfer = some aXfer) := by decide +kernel

/-- A push that the pages hold up, and one that meets poison. -/
theorem test_witness_StreamSteps_arrivals_push :
    let s := chunkBoard aChunk [anArr 16]
    let ag := agentSlice (homeOf 0x400 / 64)
    let ps : Pieces := [(0x2000, false, [1])]
    (let r := ({ s with pages := [(0, .excl 3)] } : State).push ag ps; r.1 = 0 ∧ r.2.1 ≠ []) ∧
      (({ s with poison := [(0x2000 / 128, true)] } : State).push ag ps).1 ≠ 0 := by decide +kernel

def aPubl : Publ :=
  { pa := 0x400, st := 0, die := 0, n := 0, ctx := 0, tag := 1, got := 3, len := 16, todo := none, failed := none, marked := false }

theorem test_witness_StreamSteps_publications :
    (let s := { chunkBoard (aChunk + 3 * 2 ^ 256) [] with pubs := [aPubl] };
      s.pubs.find? (fun x => x.pa == 0x400) = some aPubl ∧ aPubl.failed = none ∧ aPubl.marked = false ∧ s.pageAway 0x400 = false ∧
      ({ s with pages := [(0, .excl 3)] } : State).pageAway 0x400 = true ∧
      (match s.physRead 0x400 128 with
        | (.ok r, u) => engOk (u.staged aPubl.ctx r (agentSlice (homeOf 0x400 / 64)))
        | _ => false) = true ∧
      (match s.pubPieces aPubl with
        | .ok ps u => let r := u.push (agentSlice (homeOf 0x400 / 64)) ps; r.1 == 0 && r.2.1 == []
        | _ => false) = true ∧
      s.deltaFull (0x400 / 128) = false ∧ (match s.physRead (0x400 + 57) 1 with | (.ok _, _) => true | _ => false) = true) ∧
    (let s := { chunkBoard (aChunk + 3 * 2 ^ 256 + 0x50000) [] with pubs := [aPubl] }; engFaults (s.pubPieces aPubl) = true) ∧
    (let p := { aPubl with todo := some [(0x1000, false, [1])] }
     let s := { chunkBoard aChunk [] with pubs := [p] };
      p.todo = some [(0x1000, false, [1])] ∧
      (let r := ({ s with pages := [(0, .excl 3)] } : State).push (agentSlice (homeOf 0x400 / 64)) [(0x1000, false, [1])];
        r.1 = 0 ∧ r.2.1 ≠ []) ∧
      (({ s with poison := [(32, true)] } : State).push (agentSlice (homeOf 0x400 / 64)) [(0x1000, false, [1])]).1 ≠ 0) ∧
    ({ chunkBoard aChunk [] with timers := [] } : State).timers.find? (fun x => x.1 == 0x400) = none ∧
    ((aChunk + 2 ^ 164).testBit 164 = true ∧ aChunk.testBit 164 = false ∧ 0 < aChunk / 2 ^ 128 % 2 ^ 32 ∧ aChunk / 2 ^ 160 % 16 ≠ 10 ∧
      (aChunk + 10 * 2 ^ 160) / 2 ^ 160 % 16 = 10) := by decide +kernel

/-- Packets of a combine that fail at a source, and those that are good. -/
theorem test_witness_StreamSteps_combine_bad :
    let x : Comb := { ctx := 0, die := 0, n := 0, tag := 1, fmt := 0, op := 0, va := 0x1000, vb := 0x2000, vc := 0x3000, a := [0x1000],
                      b := [0x2000], c := [0x3000], done := 0 }
    let s := { board [] with combs := [x], poison := [(0x1000 / 128, true)] }
    s.combs[0]? = some x ∧ x.left ≠ 0 ∧ s.packetBad 0x1000 ≠ 0 ∧ s.deltasDone (agentComb x.die) = true := by decide +kernel

/-! ### Witnesses: derived regions, drives, offload entries -/

/-- A SUM over eight elements of format 0 at 0x30000, as one group, its layout at 0x400 and its shadow area at 0x800. -/
def aDecl : BitVec 512 := 0x400#512 ||| (0x800#512 <<< 64)
def derLay : BitVec 1536 := 0x30000#1536 ||| (1#1536 <<< 132) ||| (8#1536 <<< 256) ||| (4#1536 <<< 448)
def declBoard (x : SMap W64) : State :=
  { board x with mem := Memory.write (Memory.write [] 0x200 (toBytes 64 aDecl.toNat)) 0x400 (toBytes 192 derLay.toNat) }

/-- That region, as it stands, of some kind. -/
def aRegion (kind : BitVec 512) (g : Group) : Region :=
  { born := 0, gen := 0, decl := aDecl ||| (kind <<< 128) ||| (3#512 <<< 136), lay := derLay, vas := (List.range 8).map (0x30000 + 4 * ·),
    elems := (List.range 8).map (0x30000 + 4 * ·), shadow := [(0x800, 64)], edges := [], groups := [(0, g)], building := false, die := 0,
    n := 0 }
def aSet (r : Region) : DSet := { DSet.reset with ctx := some 0, regions := [(0, some r)] }
def setBoard (x : SMap W64) (d : DSet) : State := { declBoard x with dsets := [(0, d)] }
def synced (x : SMap W64) (d : DSet) (i : Instr) : State :=
  { setBoard x d with ost := [(0, { anOstler x with wait := some { instr := i, phase := 2, marks := [(288, 0)], todo := [] } })] }

/-- A set whose queue at its home is full, whatever the depth. -/
def fullQueue : State :=
  setBoard [(7, 0x30000)] { aSet (aRegion 0 Group.reset) with
    queue := List.replicate Config.deltaDepth { src := 0, seq := 0, writer := 1, entries := [], rebuild := none } }

theorem test_witness_StreamSteps_full : fullQueue.deltaFull (0x30000 / 128) = true := by
  have h : fullQueue.covering (0x30000 / 128) = [0] := by decide +kernel
  simp only [State.deltaFull, State.deltaLacks, List.flatMap_cons, List.flatMap_nil, h]
  simp [fullQueue, setBoard, State.deltaUsed]

theorem fullQueue_waits (b : List Byte) (h : b.length = 32) : fullQueue.writeBlock 0x30000 b = .wait := by
  have a : fullQueue.rangeAway fullQueue.agent fullQueue.ctxId 0x30000 32 = false := by decide +kernel
  have p : fullQueue.piecesOf fullQueue.agent fullQueue.ctxId true 0x30000 32 = .ok [(0x30000, 0x30000, 32, 0x4F#7)] :=
    gives_iff (by decide +kernel)
  have l : fullQueue.linkDown 0x30000 = false := by decide +kernel
  have f := test_witness_StreamSteps_full
  simp only [State.writeBlock, State.vwrite, State.vready, State.vplan, h, a, p]
  simp [l, Eng.then_]
  have q : pieceLines [(0x30000, 0x30000, 32, 0x4F#7)] = [0x30000 / 128] := by decide +kernel
  rw [if_pos (by rw [q]; exact f)]

theorem test_witness_DerivedWords_full :
    let s := fullQueue
    let w := s.readRecords 0 0 [0]
    s.cur.wait = none ∧ w.2.writeBlock 0x30000 w.1 = .wait ∧ (w.2.blockPieces 0x30000 w.1).isSome = true :=
  ⟨rfl, fullQueue_waits _ (by decide +kernel), by decide +kernel⟩
theorem test_witness_DerivedWords_declare :
    (let s := board [(7, 0x201)]; accTraps (s.readBlock (s.rx 7).toNat 64 64) = true) ∧
    (let s := { board [(7, 0x200)] with pages := [(0, .excl 3)] }; accWaits (s.readBlock (s.rx 7).toNat 64 64) = true) ∧
    (let s := declBoard [(7, 0x200)];
      (match s.readBlock (s.rx 7).toNat 64 64 with
        | .ok x u => x == aDecl.toNat && (match u.readBlock (declLayout aDecl) 192 64 with
            | .ok y z => y == derLay.toNat && !z.declAway aDecl derLay 0 && (z.declare 0 aDecl derLay (some 0) []).1 == 0
            | _ => false)
        | _ => false) = true) ∧
    (Lay.ok (BitVec.ofNat 1536 derLay.toNat) = true ∧ Lay.ext (BitVec.ofNat 1536 derLay.toNat) = false) ∧
    ((declBoard []).declare 0 (aDecl ||| (7#512 <<< 128)) derLay (some 0) []).1 ≠ 0 := by decide +kernel

/-- A layout over an extent map, at 0x600 or nowhere. -/
theorem test_witness_DerivedWords_extent :
    let lay : BitVec 1536 := derLay ||| (1#1536 <<< 135)
    let at_ (m : Nat) : Lay := (lay &&& ~~~((0xFFFFFFFFFFFFFFFF#1536) <<< 192)) ||| BitVec.ofNat 1536 (m * 2 ^ 192)
    let s := { board [(7, 0x200)] with
      mem := Memory.write (Memory.write [] 0x200 (toBytes 64 aDecl.toNat)) 0x400 (toBytes 192 (at_ 0x600).toNat) }
    Lay.ok (at_ 0x600) = true ∧ Lay.ext (at_ 0x600) = true ∧ Lay.ext (at_ 0x601) = true ∧
      (match s.readBlock (s.rx 7).toNat 64 64 with
        | .ok x u => x == aDecl.toNat && (match u.readBlock (declLayout aDecl) 192 64 with
            | .ok y z => y == (at_ 0x600).toNat && (match z.readBlock (Lay.extmap (at_ 0x600)) 272 16 with
                  | .ok m w => !w.declAway aDecl (at_ 0x600) m
                  | _ => false) &&
                accTraps (z.readBlock (Lay.extmap (at_ 0x601)) 272 16)
            | _ => false)
        | _ => false) = true := by decide +kernel

/-- Declared anew: a layout, its shadow area or its map on a page that another module walks. -/
theorem test_witness_DerivedWords_away :
    let s := { tablesGone with pages := [(0, .excl 3)] }
    s.declAway aDecl derLay 0 = true ∧ baseFmt (Lay.fmt derLay) = true ∧ Lay.ok derLay = true ∧ Lay.ext derLay = false := by
  decide +kernel

/-- The edge of a histogram of two bins lies in memory, or nowhere; a DDECL whose layout is not well formed. -/
theorem test_witness_DerivedWords_edges :
    let d : BitVec 512 := aDecl ||| (5#512 <<< 128) ||| (1#512 <<< 140) ||| (0x600#512 <<< 192)
    (BitVec.extractLsb' 128 3 d).toNat = 5 ∧ declBins d = 2 ∧ accOk ((declBoard []).readBlock (declEdges d) 4 4) = true ∧
      Lay.ok (0 : BitVec 1536) = false := by
  decide +kernel

/-- A read that waits for a region of another birth; the words' own marks; a set from which a selected region is gone. -/
theorem test_witness_DerivedWords_births :
    let w : Wait := { instr := .drd 5 6 7, phase := 2, marks := [(2 ^ 20, 7)], todo := [] }
    let s := { setBoard [(7, 0x1000)] (aSet (aRegion 0 Group.reset)) with ost := [(0, { anOstler [(7, 0x1000)] with wait := some w })] }
    s.cur.wait = some w ∧ (2 ^ 20 + selReg (s.rx 6).toNat, 7) ∈ w.marks ∧
      w.marks.find? (fun m => m.1 == 2 ^ 20 + selReg (s.rx 6).toNat) = some (2 ^ 20 + selReg (s.rx 6).toNat, 7) ∧
      (s.dset (selSet (s.rx 6).toNat)).region (selReg (s.rx 6).toNat) = some (aRegion 0 Group.reset) ∧ (aRegion 0 Group.reset).born ≠ 7 ∧
      w.phase ≠ 4 ∧ (List.range 8).all (fun k => (s.rx 6).toNat.testBit (24 + k) = false) = true ∧
      (let u := setBoard [(6, 2 ^ 25)] (aSet (aRegion 0 Group.reset));
        (u.rx 6).toNat.testBit (24 + 1) = true ∧ (u.dset (selSet (u.rx 6).toNat)).region 1 = none) := by decide +kernel

/-- Reads whose buffer is not mapped, whose tables or page are elsewhere, whose own deltas are queued, or whose home is poisoned. -/
theorem test_witness_DerivedWords_reads_more :
    (let s := setBoard [(7, 0x50000)] (aSet (aRegion 0 Group.reset));
      (s.rx 7).toNat % 32 = 0 ∧ s.ownSet 0 = true ∧ selGroup (s.rx 6).toNat < (aRegion 0 Group.reset).count ∧ s.phaseOf ≠ 4 ∧
      s.sameRegions 0 [0] = true ∧ s.tablesAway s.agent s.ctxId (s.rx 7).toNat ((s.dset 0).recBytes [0]) = false ∧
      isOk (s.piecesOf s.agent s.ctxId true (s.rx 7).toNat ((s.dset 0).recBytes [0])) = false ∧ s.cur.tm = false) ∧
    (let s := { tablesGone with pages := [(0, .excl 3)] }; s.tablesAway s.agent s.ctxId 0x1000 32 = true ∧ s.phaseOf ≠ 2) ∧
    (let b : Batch := { src := 0, seq := 0, writer := 0, entries := [], rebuild := none }
     let s := setBoard [(7, 0x1000)] { aSet (aRegion 0 Group.reset) with queue := [b] }; s.deltasDone s.agent = false ∧ s.phaseOf ≠ 2) ∧
    (let s := setBoard [(7, 0x1000)] (aSet (aRegion 0 Group.reset))
     let w := s.readRecords 0 0 [0];
      engFaults (({ w.2 with poison := [(0x1000 / 128, true)] } : State).writeBlock 0x1000 w.1) = true ∧
      engWaits (({ w.2 with pages := [(0, .excl 3)] } : State).writeBlock 0x1000 w.1) = true) := by decide +kernel

/-- A synchronising read that has not heard from its base homes, or whose group is PENDING. -/
theorem test_witness_DerivedWords_waits :
    (let w : Wait := { instr := .drds 5 6 7, phase := 2, marks := [], todo := [] }
     let s := { setBoard [(7, 0x1000)] (aSet (aRegion 0 Group.reset)) with ost := [(0, { anOstler [(7, 0x1000)] with wait := some w })] };
      s.cur.wait = some w ∧ w.phase = 2 ∧ s.synced 0 w.marks = false) ∧
    (let r := aRegion 0 { Group.reset with pend := true }
     let s := synced [(7, 0x1000)] (aSet r) (.drds 5 6 7);
      (s.cur.wait.any fun w => w.phase == 2 && s.synced 0 w.marks) = true ∧ (r.group 0).pend = true) ∧
    (let s := setBoard [] (aSet (aRegion 0 Group.reset));
      (let r := s.push s.agent [(0x1000, false, [1])]; r.1 = 0 ∧ r.2.1 = []) ∧
      (let r := ({ s with pages := [(0, .excl 3)] } : State).push s.agent [(0x1000, false, [1])]; r.1 = 0 ∧ r.2.1 ≠ []) ∧ s.routine = none) ∧
    ((aRegion 6 Group.reset).kind = 6 ∧ (aRegion 4 Group.reset).kind = 4 ∧ (aRegion 0 Group.reset).kind = 0 ∧ (aRegion 0 Group.reset).kind ≠ 5 ∧
      (setBoard [(6, 2 ^ 32), (7, 3)] (aSet (aRegion 6 Group.reset))).sameRegions 0 [0] = true) := by decide +kernel

theorem test_witness_DerivedWords_words :
    ((declBoard []).ownSet (selSet ((declBoard []).rx 6).toNat) = false ∧ (declBoard []).cur.wait = none) ∧
    (let s := setBoard [] (aSet (aRegion 0 Group.reset));
      s.ownSet (selSet (s.rx 6).toNat) = true ∧ (s.dset 0).region (selReg (s.rx 6).toNat) ≠ none ∧ (s.dset 0).region 1 = none ∧
      (s.dset 0).rebuild = none ∧
      (s.dset 0).list.mapM (fun e => (s.basePas e.2.vas).map fun p => (e.1, p)) = some [(0, (List.range 8).map (0x30000 + 4 * ·))] ∧
      s.coverOk 0 ((List.range 8).map (0x30000 + 4 * ·)) = true ∧ (s.dset 0).list.all (fun e => !e.2.elems.any s.pageAway) = true ∧
      (s.dset 0).list.any (fun e => e.2.elems.any { s with pages := [(3, .excl 3)] }.pageAway) = true) ∧
    (let s := setBoard [] { aSet (aRegion 0 Group.reset) with rebuild := some (0, 0) };
      s.ownSet (selSet (s.rx 6).toNat) = true ∧ (s.dset 0).rebuild ≠ none) := by decide +kernel

/-- Rebuilds of a set whose lines are walked elsewhere, are no longer mapped with DER, or would be covered by nine sets. -/
theorem test_witness_DerivedWords_rebuild :
    let r := aRegion 0 Group.reset
    let s := setBoard [] (aSet r)
    ((s.dset 0).list.all (fun e => e.2.vas.all fun va => !s.walkAway s.agent s.ctxId va) = true) ∧
    (let u := { s with tlb := [], pages := [(0, .excl 3)] };
      (u.dset 0).list.any (fun e => e.2.vas.any fun va => u.walkAway u.agent u.ctxId va) = true ∧ u.ownSet 0 = true) ∧
    (let u := setBoard [] (aSet { r with vas := [0x1000] });
      (u.dset 0).list.mapM (fun e => (u.basePas e.2.vas).map fun p => (e.1, p)) = none) ∧
    (let u := { s with dsets := (List.range 9).map fun k => (k, aSet r) };
      u.coverOk 0 ((List.range 8).map (0x30000 + 4 * ·)) = false) := by decide +kernel

theorem test_witness_DerivedWords_reads :
    (let s := setBoard [(7, 0x1000)] (aSet (aRegion 0 Group.reset));
     let w := s.readRecords 0 0 [0];
      (s.rx 7).toNat % 32 = 0 ∧ s.ownSet (selSet (s.rx 6).toNat) = true ∧
      (s.dset 0).region 0 = some (aRegion 0 Group.reset) ∧ (aRegion 0 Group.reset).count = 1 ∧ selGroup (s.rx 6).toNat = 0 ∧
      isOk (s.piecesOf s.agent s.ctxId true (s.rx 7).toNat 32) = true ∧ s.cur.wait = none ∧ s.deltasDone s.agent = true ∧ s.phaseOf ≠ 2 ∧
      engOk (w.2.writeBlock (s.rx 7).toNat w.1) = true ∧ isOk (s.piecesOf s.agent s.ctxId true 0x20000 32) = false) ∧
    (let s := setBoard [(6, 2 ^ 32), (7, 0x1000)] (aSet (aRegion 0 Group.reset));
      (s.rx 7).toNat % 32 = 0 ∧ s.ownSet (selSet (s.rx 6).toNat) = true ∧
      (s.dset 0).region (selReg (s.rx 6).toNat) = some (aRegion 0 Group.reset) ∧
      (aRegion 0 Group.reset).count ≤ selGroup (s.rx 6).toNat) ∧
    (let s := synced [(7, 0x1000), (6, 2 ^ 24)] (aSet (aRegion 0 Group.reset)) (.drds 5 6 7);
     let w := s.readRecords 0 0 [0];
      s.cur.wait.any (fun w => w.phase == 2 && s.synced 0 w.marks) = true ∧ ((aRegion 0 Group.reset).group 0).pend = false ∧
      ((List.range 8).filter fun k => (s.rx 6).toNat.testBit (24 + k)) = [0] ∧ (s.dset 0).recBytes [0] = 32 ∧
      engOk (w.2.writeBlock (s.rx 7).toNat w.1) = true) := by decide +kernel

theorem test_witness_DerivedWords_qscale :
    let s := synced [(7, 3)] (aSet (aRegion 6 Group.reset)) (.qscale 5 6 7)
    let c := (s.rx 7).toNat
    s.ownSet (selSet (s.rx 6).toNat) = true ∧ (s.dset 0).region 0 = some (aRegion 6 Group.reset) ∧ (aRegion 6 Group.reset).kind = 6 ∧
      c % 16 = 3 ∧ selGroup (s.rx 6).toNat < (aRegion 6 Group.reset).count ∧
      s.cur.wait.any (fun w => w.phase == 2 && s.synced 0 w.marks) = true ∧ ((aRegion 6 Group.reset).group 0).pois = false ∧
      ((aRegion 6 Group.reset).group 0).unpred = false ∧ (s.dset 0).unpred = false ∧ s.routine = none := by decide +kernel

theorem test_witness_DerivedWords_dsync :
    let b : Batch := { src := 0, seq := 0, writer := 0, entries := [], rebuild := none }
    let s := setBoard [] { aSet (aRegion 0 Group.reset) with queue := [b] }
    let u := synced [] (aSet (aRegion 0 Group.reset)) (.dsync 5 6)
    (s.ownSet (selSet (s.rx 6).toNat) = true ∧ (s.dset 0).region 0 ≠ none ∧ s.cur.wait = none ∧ s.agent = 0 ∧
      s.deltasDone s.agent = false) ∧
    (u.ownSet (selSet (u.rx 6).toNat) = true ∧ (u.dset 0).region 0 ≠ none ∧
      u.cur.wait.any (fun w => w.phase == 2 && u.synced 0 w.marks) = true ∧ u.synced 0 [] = false) := by decide +kernel

theorem test_witness_DerivedSteps :
    (let b : Batch := { src := 0, seq := 0, writer := 0, entries := [], rebuild := none };
     let s := setBoard [] { aSet (aRegion 0 Group.reset) with queue := [b, { b with rebuild := some 3 }] };
      (s.dset 0).queue = b :: [{ b with rebuild := some 3 }] ∧ b.rebuild = none ∧
      (setBoard [] { aSet (aRegion 0 Group.reset) with queue := [{ b with rebuild := some 3 }] }).dsets.length = 1 ∧
      0 ∈ (aRegion 0 Group.reset).lineGroups (0x30000 / 128)) ∧
    (setBoard [] (aSet (aRegion 0 Group.reset))).dsets.all (fun e => e.2.queue == []) = true ∧
    (let r := aRegion 0 { Group.reset with pend := true }
     let s := { setBoard [] (aSet r) with rescans := [(0, 0, 0)] };
      (s.dset 0).region 0 = some r ∧ (0, 0, 0) ∈ s.running (setHome 0) ∧ (r.groupElems 0).any s.pageAway = false ∧
      (0, 0, 1) ∉ s.running (setHome 0)) ∧
    (let r := { aRegion 0 Group.reset with building := true }
     let s := setBoard [] (aSet r);
      (s.dset 0).region 0 = some r ∧ r.building = true ∧ r.pending = false) ∧
    (let r := aRegion 0 Group.reset
     let s := setBoard [] (aSet r);
      (s.dset 0).region 0 = some r ∧ r.building = false ∧ (s.dset 0).rebuild = none ∧ r.kind = 0 ∧ Group.reset.queued = [] ∧
      Group.reset.pois = false ∧ Group.reset.nan = 0 ∧ Group.reset.pinf = 0 ∧ Group.reset.ninf = 0) ∧
    (let s := { setBoard [] (aSet (aRegion 0 Group.reset)) with ost :=
        [(0, { anOstler [] with wait := some { instr := .dsync 5 6, phase := 2, marks := [], todo := [] } })] };
      (s.ostler 0).wait = some { instr := .dsync 5 6, phase := 2, marks := [], todo := [] } ∧
      selSet (mget 0 (s.ostler 0).x 6).toNat = 0) := by decide +kernel

/-- A read of one block of drive pair 0. -/
def aRead : NvCmd :=
  { pair := 0, write := false, ctx := 0, die := 0, n := 0, va := 0x1000, lba := 0, nlb := 1, pas := [(0x1000, 512, false)], tag := 9,
    failed := 0, entry := none, todo := [], copy := none }

theorem test_witness_DrivesAndOffload_drives :
    (let s := board [(6, 0x1001), (7, 0xFFFF00), (8, 1)];
      (s.rx 6).toNat % 4096 ≠ 0 ∧ 2 ^ 21 < ((s.rx 7).toNat / 256 % 65536 + 1) * 512 ∧
      (s.ctx s.ctxId).nvqp.getLsbD ((s.rx 8).toNat % 64) = false ∧ (s.ctx s.ctxId).nvqp.getLsbD 0 = true ∧ (s.rx 0).toNat % 64 = 0) ∧
    (let s := board [(6, 0x1000), (7, 0x60000), (8, 0x10000)];
     let u := s.walkRange s.agent s.ctxId 0x1000 512;
      (∀ n ∈ [512, 4096], n ≤ 2 ^ 21 ∧ s.rangeAway s.agent s.ctxId (s.rx 6).toNat n = false ∧
        (match s.piecesOf s.agent s.ctxId true (s.rx 6).toNat n with
          | .ok ps => splitRanges ps == [(0x1000, n, false)] && isHbm (0x1000 + n - 1)
          | .error _ => false) = true ∧
        (match s.piecesOf s.agent s.ctxId true (s.rx 8).toNat n with
          | .ok ps => (splitRanges ps).any fun e => !isHbm (e.1 + e.2.1 - 1)
          | .error _ => false) = true ∧
        isOk (s.piecesOf s.agent s.ctxId true (s.rx 7).toNat n) = false ∧ isOk (s.piecesOf s.agent s.ctxId false (s.rx 7).toNat n) = false) ∧
        s.outstanding 0 < 1024 ∧ (u.rangesBad [(0x1000, 512, false)]).1 = 0) := by
  decide +kernel

theorem test_witness_DrivesAndOffload_away :
    let s := { board [] with tlb := [], pages := [(0, .excl 3)], ctxs := [(0, { Ctx.reset with valid := true, nvqp := 1, live := 0x1000 })] }
    ∀ n ∈ [512, 4096], s.rangeAway s.agent s.ctxId 0 n = true := by decide +kernel

/-- A command of an NVMe copy that has ended, and a move's entry that waits for its readers, or to be cleared. -/
theorem test_witness_DrivesAndOffload_copies :
    (let c := { aRead with copy := some 0 }
     let s := { board [] with nvme := [c] };
      s.nvme[0]? = some c ∧ c.entry = none ∧ c.failed < 256 ∧ s.deltasDone agentNvme = true ∧ c.copy = some 0 ∧ aRead.copy = none) := by
  decide +kernel

theorem test_witness_DrivesAndOffload_completions :
    (let s := { board [] with nvme := [aRead] };
      s.nvme[0]? = some aRead ∧ s.nvme[1]? = none ∧ aRead.entry = none ∧ aRead.failed < 256 ∧ s.deltasDone agentNvme = true ∧
      (let w := s.push agentNvme (packetPieces aRead.pas (fitBytes (aRead.nlb * 512) []));
        w.1 = 0 ∧ w.2.1 = [] ∧ w.2.2.deltasDone agentNvme = true)) ∧
    (let b : Batch := { src := 0, seq := 0, writer := agentNvme, entries := [], rebuild := none };
     let s := { board [] with nvme := [{ aRead with write := true }], dsets := [(0, { DSet.reset with queue := [b] })] };
      s.nvme[0]? = some { aRead with write := true } ∧ s.deltasDone agentNvme = false) := by decide +kernel

theorem test_witness_DrivesAndOffload_pieces :
    let s := board []
    ([(1 : Byte)] ≠ [] ∧ [(1 : Byte)].length ≤ 256 ∧ 0x1000 + [(1 : Byte)].length ≤ 2 ^ 52 ∧ s.pageAway 0x1000 = false ∧ s.dsets = []) ∧
      Sound s ∧ Coherent s :=
  ⟨by decide +kernel, sound_of (by decide +kernel), coherent_of_empty ⟨rfl, rfl, rfl⟩ (by decide +kernel)⟩

theorem test_witness_DrivesAndOffload_size : lbaSize 0 = 512 ∨ lbaSize 0 = 4096 := by
  unfold lbaSize; split <;> simp

theorem test_witness_DrivesAndOffload_full : let s := { board [] with nvme := List.replicate 1024 aRead }
    1024 ≤ s.outstanding 0 := by decide +kernel

/-- Entry 0 of the offload table: 4 KiB at 0x2000 that moves to the host window, in some state. -/
def anOtEntry (st : Nat) : Nat := 0x2000 + 0x10000 * 2 ^ 64 + 2 ^ 128 + st * 2 ^ 160
def otBoard (st : Nat) : State := boardMem [(6, 5)] 0x1000 (toBytes 64 (anOtEntry st))
def aMove (out : Bool) (r : List (Nat × Nat)) : OfXfer :=
  { ctx := 0, idx := 0, outbound := out, die := 0, n := 0, filled := false, todo := [], copied := false, recalls := r,
    sent := 0, failed := none }

theorem test_witness_DrivesAndOffload_entries :
    (let s := otBoard 0; (s.ctx s.ctxId).otn ≤ (s.rx 6).toNat ∧ (s.otEntry (s.rx 6).toNat).1.isNone = true) ∧
    (let s := { otBoard 0 with pages := [(0, .excl 3)] };
      (s.rx 0).toNat < (s.ctx s.ctxId).otn ∧ s.otReady s.who.die s.ctxId (s.rx 0).toNat = false) ∧
    (∀ st ∈ [0, 1, 2, 3], let s := otBoard st;
      s.otReady s.who.die s.ctxId (s.rx 0).toNat = true ∧ (s.otEntry (s.rx 0).toNat).1.map otState = some st) ∧
    (∀ c ∈ [true, false], let s := { otBoard 1 with offl := [{ aMove true [] with copied := c }] };
      (s.otEntry 0).1.isSome = true ∧ (s.otEntry 0).2.otXfer s.ctxId 0 = some { aMove true [] with copied := c }) ∧
    (otBoard 0).otXfer 0 0 = none := by decide +kernel

/-- The lines an entry's 4 KiB fill stand in their slices already. -/
def otL2 (s : State) : State :=
  { s with l2 := (List.range 32).map (fun k => (0x2000 / 128 + k, some { data := 0, mask := 0, sp := false, pois := false, mis := false, fresh := false })) ++
      (List.range 32).map (fun k => (hostBase / 128 + k, some { data := 0, mask := 0, sp := false, pois := false, mis := false, fresh := false })) }

theorem test_witness_DrivesAndOffload_done :
    (∀ rs ∈ [[], [(0, 0)]], let s := otL2 { otBoard 1 with offl := [aMove true rs] };
      s.otXfer 0 0 = some (aMove true rs) ∧ s.otReady 0 0 0 = true ∧ (match s.otRead 0 0 0 with
        | (some e, u) => !e.testBit 162 && otReaders e == 0 && (match u.otCopy (aMove true rs) e with
            | .ok ps v => (match v.push (agentSlice 0) ps with
                | (f, l, w) => f == 0 && l == [] && w.deltasDone (agentSlice 0))
            | _ => false)
        | _ => false) = true) ∧
    otReaders (anOtEntry 1 + 2 ^ 176) = 1 := by decide +kernel

/-- Copies that have failed, that a drive performs, and that wait for what is outstanding; entries that a reset has left. -/
theorem test_witness_DrivesAndOffload_done_drive :
    (let x := { aMove true [] with failed := some 7 }
     let s := { otBoard 1 with offl := [x] };
      s.otXfer 0 0 = some x ∧ x.copied = false ∧ s.otReady x.die 0 0 = true ∧ x.failed = some 7 ∧
      (match s.otRead x.die 0 0 with
        | (some e, u) => otLen e == 4096 && u.nvme == [] && u.deltasDone (agentSlice x.die) && u.deltasDone agentNvme
        | _ => false) = true) ∧
    (let x := aMove true []
     let s := otL2 { boardMem [] 0x1000 (toBytes 64 (anOtEntry 1 + 2 ^ 162)) with offl := [x] };
      s.otXfer 0 0 = some x ∧ (match s.otRead x.die 0 0 with
        | (some e, u) => e.testBit 162 && decide (x.sent < otLen e) && decide (u.outstanding (otPair e) < 1024) &&
            !u.rangeAway (agentSlice 0) 0 (otHbm e + x.sent) 4096 &&
            (match u.piecesOf (agentSlice 0) 0 false (otHbm e + x.sent) 4096 with
              | .ok ps => ((u.walkRange (agentSlice 0) 0 (otHbm e + x.sent) 4096).rangesBad (splitRanges ps)).1 == 0
              | .error _ => false)
        | _ => false) = true ∧
      1024 ≤ ({ s with nvme := List.replicate 1024 aRead } : State).outstanding (otPair (anOtEntry 1 + 2 ^ 162))) ∧
    (let x := { aMove true [] with sent := 4096 }
     let s := { boardMem [] 0x1000 (toBytes 64 (anOtEntry 1 + 2 ^ 162)) with offl := [x] };
      s.otXfer 0 0 = some x ∧ (match s.otRead x.die 0 0 with
        | (some e, u) => e.testBit 162 && decide (otLen e ≤ x.sent) && u.nvme == [] && u.deltasDone (agentSlice 0) && u.deltasDone agentNvme
        | _ => false) = true ∧
      (let q := { aRead with copy := some 0, entry := some 0 }; q.ctx = x.ctx ∧ q.copy = some x.idx ∧ q.entry ≠ none) ∧
      (let q := { aRead with copy := some 0 }
       let u := { s with nvme := [aRead, q] };
        u.nvme[1]? = some q ∧ q.ctx = 0 ∧ q.copy = some 0 ∧ q.entry = none ∧ aRead.copy ≠ some 0)) ∧
    (let s := { otBoard 1 with offlClear := [(0, 0)] };
      s.otXfer 0 0 = none ∧ (0, 0) ∈ s.offlClear ∧ s.otReady 0 0 0 = true ∧ (s.otRead 0 0 0).1.isSome = true ∧ (0, 1) ∉ s.offlClear) ∧
    (let x := aMove true []
     let s := { otBoard 1 with offl := [x] };
      (s.otXfer 0 0 = some x ∧ { x with copied := true }.copied = true) ∧
      ({ s with pages := [(0, .excl 3)] } : State).otReady x.die 0 0 = false) ∧
    (let s := otBoard 1; (s.push (agentSlice 0) [(0x2000, false, [1])]).1 = 0 ∧
      (({ s with poison := [(64, true)] } : State).push (agentSlice 0) [(0x2000, false, [1])]).1 ≠ 0 ∧
      (({ s with pages := [(0, .excl 3)] } : State).push (agentSlice 0) [(0x2000, false, [1])]).2.1 ≠ []) := by decide +kernel

/-- A drive's Write whose page is not mapped, or is poisoned; a pair the context does not own; a range that is not HBM. -/
theorem test_witness_DrivesAndOffload_entries_more :
    (let s := boardMem [] 0x1000 (toBytes 64 (anOtEntry 0 + 2 ^ 162 + 2 ^ 163));
      (match s.otRead 0 0 0 with
        | (some e, _) => otLen e != 0 && e.testBit 162 && otPair e == 1 && !(s.ctx s.ctxId).nvqp.getLsbD (otPair e)
        | _ => false) = true) ∧
    (let s := boardMem [] 0x1000 (toBytes 64 (anOtEntry 0 + 0x4E000));
      (match s.otRead 0 0 0 with
        | (some e, _) => otLen e != 0 && !e.testBit 162 && (s.rangesOf s.agent s.ctxId (fun _ => true) (otHbm e) (otLen e)).isNone
        | _ => false) = true) ∧
    (let s := board []; (match s.otRead 0 0 0 with | (some e, _) => otLen e == 0 | _ => false) = true) ∧
    (let s := otBoard 0; (match s.otRead 0 0 0 with
        | (some e, _) => ((s.rangesOf s.agent s.ctxId (fun _ => true) (otHbm e) (otLen e)).map fun rs => rs.all fun x => isHbm (x.1 + x.2 - 1)) == some true
        | _ => false) = true) ∧
    (let s := board []; isOk (s.piecesOf (agentSlice 0) 0 true 0x50000 4096) = false ∧
      (({ s with poison := [(64, true)] } : State).rangesBad [(0x2000, 512, false)]).1 ≠ 0) := by decide +kernel

theorem test_witness_DrivesAndOffload_done_inbound :
    let s := otL2 { otBoard 3 with offl := [aMove false []] };
      s.otXfer 0 0 = some (aMove false []) ∧ (match s.otRead 0 0 0 with
        | (some e, u) => (match u.otCopy (aMove false []) e with
            | .ok ps v => (match v.push (agentSlice 0) ps with
                | (f, l, w) => f == 0 && l == [] && w.deltasDone (agentSlice 0))
            | _ => false)
        | _ => false) = true := by decide +kernel

/-- The entry's data lie on a page another module holds, at a page that is not mapped, or on a drive. -/
theorem test_witness_DrivesAndOffload_done_other :
    (let s := { otBoard 1 with pages := [(3, .excl 3)], offl := [aMove true []] };
      (match s.otRead 0 0 0 with
        | (some e, u) => (match u.otCopy (aMove true []) (e + 0x30000) with | .wait => true | _ => false)
        | _ => false) = true) ∧
    (let s := { otBoard 1 with offl := [aMove true []] };
      (match s.otRead 0 0 0 with
        | (some e, u) => (match u.otCopy (aMove true []) (e + 0x60000) with | .fault _ _ _ => true | _ => false)
        | _ => false) = true) ∧
    (let s := boardMem [] 0x1000 (toBytes 64 (anOtEntry 1 + 2 ^ 162));
      (match { s with offl := [aMove true []] }.otRead 0 0 0 with | (some e, _) => e.testBit 162 | _ => false) = true) := by
  decide +kernel

/-- An extent map of one extent of 16 bytes units from 0x8000, stride 8. -/
def aMap : Nat := 1 + 0x8000 * 2 ^ 128 + 16 * 2 ^ 192 + 8 * 2 ^ 224

theorem test_witness_DrivesAndOffload_xloc :
    (let s := boardMem [(6, 0x201), (7, 0x200), (8, 3), (9, 2 ^ 32), (10, 16)] 0x200 (toBytes 272 aMap);
      accTraps (s.readBlock (s.rx 6).toNat 272 16) = true ∧
      accWaits ({ s with pages := [(0, .excl 3)] }.readBlock (s.rx 7).toNat 272 16) = true ∧
      (match s.readBlock (s.rx 7).toNat 272 16 with | .ok m _ => m == aMap | _ => false) = true ∧ 2 ^ 32 ≤ (s.rx 9).toNat ∧
      gives (xloc aMap (s.rx 8).toNat) 0x8018 = true ∧ fails (xloc aMap (s.rx 10).toNat) 7 = true) ∧
    xNext aMap = 1 ∧ xTotal aMap = 16 ∧ ((List.range 0).map (xLen aMap)).sum ≤ 3 ∧ 3 < ((List.range 1).map (xLen aMap)).sum := by
  decide +kernel

/-! ### Witnesses: clause banks -/

/-- Bank 0, bound to context 0: two classes of one clause, threshold 1. -/
def aBank : Bank := { Bank.reset with ctx := some 0, kcfgr := 0x10001000, cfgd := true }
def bankBoard (x : SMap W64) (b : Bank) : State := { board x with banks := [(0, b)] }
def aSample (ctl : W64) : Sample := { x := 0, ctl := ctl, die := 0, n := 0 }
def anInfer (v : Bool) : Infer := { x := 0, plane := [], ser := 0, start := 0, vote := v, die := 0, n := 0 }
def aVote (n : Nat) : Vote :=
  { samples := 0x1000, total := n, out := 0x2000, tag := 3, done := 0, bad := none, die := 0, n := 0, ctx := 0 }

theorem test_witness_ClauseWords_refused :
    (let s := bankBoard [] { aBank with ctx := some 1 };
      (s.bank (bankOf (s.rx 6))).ctx = some 1 ∧ 1 ≠ s.ctxId ∧ s.cur.wait = none) ∧
    (let s := bankBoard [] { aBank with fb := true };
      (s.bank (bankOf (s.rx 6))).ctx = some s.ctxId ∧ (s.bank (bankOf (s.rx 6))).fbBusy = true) ∧
    (let s := bankBoard [(7, 1), (8, 3)] aBank;
      kmOk (s.rx 8) true = false ∧ kmOk (s.rx 8) false = false ∧ (s.rx 7).toNat % 128 ≠ 0 ∧ (s.rx 8).toNat % 4 ≠ 0) := by decide +kernel

/-- A bank that no context holds, and the ways of a KINF and a KVOTE that wait or fail. -/
theorem test_witness_ClauseWords_more :
    (let s := bankBoard [] { aBank with ctx := none }; (s.bank (bankOf (s.rx 6))).ctx = none ∧ s.cur.wait = none) ∧
    (let s := bankBoard [(8, 0x30004)] aBank
     let u := { s with pages := [(0, .excl 3)], tlb := [] };
      u.sumsAway 8 0 = true ∧ s.sumsAway 8 0 = false ∧ (bankBoard [(8, 0x30002)] aBank).sumsAway 8 0 = false ∧
      (bankBoard [(8, 0x30002)] aBank).rx 8 = 0x30002 ∧ s.sumsOk 8 0 = true ∧ (bankBoard [(8, 0x50000)] aBank).sumsOk 8 0 = false) ∧
    (let s := bankBoard [(7, 0x1000)] aBank;
      engWaits (({ s with pages := [(0, .excl 3)] } : State).vread (agentBank 0 0) 0 0x1000 128) = true ∧
      (match ({ s with poison := [(32, true)] } : State).vread (agentBank 0 0) 0 0x1000 128 with
        | .fault e _ u => e == 0x09 && !u.cur.tm
        | _ => false) = true ∧
      (match s.vread (agentBank 0 0) 0 0x50000 128 with
        | .fault e _ _ => e != 0x08 && e != 0x09
        | _ => false) = true ∧
      engOk (s.vread (agentBank 0 0) 0 0x1000 128) = true ∧
      ({ aBank with inf := some (anInfer false) } : Bank).infBusy = true) ∧
    (let w : Wait := { instr := .kinf 5 6 7 0, phase := 2, marks := [(0, 5)], todo := [] }
     let s := { bankBoard [] aBank with ost := [(0, { anOstler [] with wait := some w })] };
      s.cur.wait = some w ∧ w.phase = 2 ∧ mget 0 w.marks 0 < 2 ^ 1024 ∧ (s.bank 0).infBusy = false ∧ s.commitDue 0 = false ∧
      ({ w with phase := 3 } : Wait).phase = 3) ∧
    (let b := voteOf (0x1001 + 2 * 2 ^ 64 + 0x2000 * 2 ^ 128) 0 0 0; b.samples % 128 ≠ 0) ∧
    (let s := boardMem [(7, 0x200)] 0x200 (toBytes 32 (0x50000 + 2 * 2 ^ 64 + 0x2000 * 2 ^ 128));
      (match s.vread (agentBank 0 0) 0 0x200 32 with
        | .ok l u => let v := voteOf (ofBytes l) 0 0 0
            v.samples == 0x50000 && v.total == 2 && v.out == 0x2000 && !u.tablesAway u.agent u.ctxId v.samples 256 && !u.tablesAway u.agent u.ctxId v.out 16 &&
            (let w := (u.walkRange u.agent u.ctxId v.samples 256).walkRange u.agent u.ctxId v.out 16
             (w.rangesOf w.agent w.ctxId (fun _ => true) v.samples 256).isNone)
        | _ => false) = true) := by decide +kernel

theorem test_witness_ClauseWords_config :
    let s := bankBoard [(6, 1), (7, 0x10001000), (8, 0x3F040)] aBank
    (s.bank (bankOf (s.rx 6))).ctx = none ∧ (s.bank (bankOf (s.rx 0))).ctx = some s.ctxId ∧ (s.bank 0).fbBusy = false ∧
      (s.bank 0).infBusy = false ∧ (bits (s.rx 7).toNat 17 12 + 1) * (bits (s.rx 7).toNat 11 0 + 1) ≤ 4096 ∧
      bits (s.rx 7).toNat 43 28 ≠ 0 ∧ bits (s.rx 8).toNat 43 28 = 0 ∧ (s.rx 0).getLsbD 0 = false ∧ (s.rx 6).getLsbD 0 = true := by
  decide +kernel

theorem test_witness_ClauseWords_moves :
    let s := bankBoard [(6, 0x400), (7, 0x1000), (8, 0x400000001)] aBank
    (kmOk (s.rx 0) true = true ∧ engOk (s.vread (agentBank 0 0) s.ctxId (s.rx 7).toNat 64) = true ∧ kmOk (s.rx 0) false = true ∧
      s.cur.wait = none ∧ engOk (s.vwrite s.agent s.ctxId (s.rx 7).toNat ((s.bank 0).stored (s.rx 0))) = true) ∧
    (kmOk (s.rx 8) true = true ∧ kmRows (s.rx 8) = 5) ∧
    (2 < (s.bank 0).classes + 1 ∧ (s.rx 0).toNat % 64 < (s.bank 0).classes ∧ (s.rx 0).toNat / 64 % 64 < (s.bank 0).classes ∧
      (s.rx 0).toNat.testBit 12 = false ∧ (s.rx 7).toNat % 128 = 0 ∧
      engOk (s.vread (agentBank 0 0) s.ctxId (s.rx 7).toNat 128) = true ∧ (s.bank 0).fbq.length < 8) ∧
    (let s := bankBoard [(7, 0x1000)] { aBank with fbq := List.replicate 8 (aSample 0) };
      (s.bank 0).ctx = some s.ctxId ∧ (s.rx 0).toNat % 64 < (s.bank 0).classes ∧ (s.rx 7).toNat % 128 = 0 ∧
      engOk (s.vread (agentBank 0 0) s.ctxId (s.rx 7).toNat 128) = true ∧ 8 ≤ (s.bank 0).fbq.length) := by decide +kernel

theorem test_witness_ClauseWords_infer :
    (let s := bankBoard [(7, 0x1000)] aBank;
      s.cur.wait = none ∧ s.sumsAway 0 0 = false ∧ s.sumsOk 0 0 = true ∧ (s.rx 7).toNat % 128 = 0 ∧ (match s.vread (agentBank 0 0) s.ctxId 0x1000 128 with
        | .ok _ u => !(u.bank 0).infBusy && !u.commitDue 0
        | _ => false) = true) ∧
    (let s := boardMem [(7, 0x200)] 0x200 (toBytes 32 (0x1000 + 2 * 2 ^ 64 + 0x2000 * 2 ^ 128));
     let t := { s with banks := [(0, aBank)] };
      (t.bank 0).vote = none ∧ (match t.vread (agentBank 0 0) t.ctxId (t.rx 7).toNat 32 with
        | .ok l u => (let v := voteOf (ofBytes l) 0 0 0; v.samples % 128 == 0 && v.out % 4 == 0 && v.total == 2 &&
            !u.tablesAway u.agent u.ctxId v.samples (128 * v.total) && !u.tablesAway u.agent u.ctxId v.out (4 * aBank.classes * v.total) &&
              (u.rangesOf u.agent u.ctxId (fun _ => true) v.samples (128 * v.total)).isSome && u.writable v.out (4 * aBank.classes * v.total))
        | _ => false) = true) ∧
    (bankBoard [] { aBank with vote := some (aVote 2) }).banks.any (fun e => e.2.vote != none) = true ∧
    (let s := bankBoard [(7, 9)] { aBank with fb := true }; (s.bank 0).fbBusy = true ∧ s.fcycle.toNat < (s.rx 7).toNat) ∧
    (let s := bankBoard [(7, 9)] { aBank with inf := some (anInfer false) }; (s.bank 0).infBusy = true) ∧
    (bankBoard [] aBank).ost.all (fun e => e.2.wait == none) = true := by decide +kernel

theorem test_witness_ClauseSteps_feedback :
    (let s := bankBoard [] { aBank with fbq := [aSample 0] }; (s.bank 0).training = none ∧ (s.bank 0).fbq = aSample 0 :: []) ∧
    (let s := bankBoard [] { aBank with training := some (aSample 0x2000, 5) };
      (s.bank 0).training = some (aSample 0x2000, 5) ∧ s.fcycle.toNat < 5 ∧ (aSample 0x2000).ctl.getLsbD 13 = true) ∧
    (let s := bankBoard [] { aBank with training := some (aSample 0, 0) };
      (s.bank 0).training = some (aSample 0, 0) ∧ 0 ≤ s.fcycle.toNat ∧ (aSample 0).ctl.getLsbD 13 = false) ∧
    ((bankBoard [] aBank).bank 0).fbq = [] ∧ ((bankBoard [] aBank).bank 0).inf = none ∧ ([3, -1, 3] : List Int) ≠ [] := by decide +kernel

theorem test_witness_ClauseSteps_infer :
    (let s := bankBoard [] { aBank with inf := some (anInfer false) };
      (s.bank 0).inf = some (anInfer false) ∧ (s.fcycle - (anInfer false).start).toNat < 4) ∧
    (let s := { bankBoard [] { aBank with inf := some (anInfer false) } with
                  fcycle := 4
                  ost := [(0, { anOstler [] with wait := some { instr := .kinf 5 6 7 0, phase := 3, marks := [], todo := [] } })] };
      (s.bank 0).inf = some (anInfer false) ∧ 4 ≤ (s.fcycle - (anInfer false).start).toNat ∧ (s.bank 0).vote = none ∧
      (s.ostler 0).wait = some { instr := .kinf 5 6 7 0, phase := 3, marks := [], todo := [] } ∧ s.routine = none ∧ mget 0 (s.ostler 0).x 0 = 0) ∧
    (let s := { bankBoard [] { aBank with inf := some (anInfer true), vote := some (aVote 2) } with fcycle := 4 };
      4 ≤ (s.fcycle - (anInfer true).start).toNat ∧ (s.bank 0).vote = some (aVote 2) ∧ (anInfer true).vote = true ∧
      engOk (s.vwrite (agentBank 0 0) (aVote 2).ctx ((aVote 2).out + 4 * (s.bank 0).classes * (aVote 2).done)
        (sumBytes ((s.bank 0).sums (anInfer true).plane (anInfer true).x))) = true) ∧
    (let s := bankBoard [] { aBank with vote := some (aVote 2) };
      (s.bank 0).vote = some (aVote 2) ∧ (s.bank 0).inf = none ∧ (aVote 2).bad = none ∧ (aVote 2).done < (aVote 2).total ∧
      s.commitDue 0 = false ∧ engOk (s.vread (agentBank 0 0) 0 0x1000 128) = true) ∧
    (let s := bankBoard [] { aBank with vote := some (aVote 0) };
      (s.bank 0).vote = some (aVote 0) ∧ (aVote 0).total ≤ (aVote 0).done ∧ s.deltasDone (agentBank 0 0) = true) := by decide +kernel

/-! ### Witnesses: the host's registers, resets and the part -/

/-- The board with function 0's registers. -/
def fnBoard (f : Fn) : State := { board [] with fns := [(0, f)] }

theorem test_witness_HostRegisters_functions :
    (board []).pf.ready = true ∧ (fnBoard { Fn.reset with htbusy := true }).fns.any (fun e => e.2.htbusy) = true ∧
    (let s := board []; (s.fn 0).htbusy = false ∧ (s.ctx 1).valid = false ∧ (s.ctx 0).valid = true ∧ (s.ctx 0).func = 0 ∧
      (s.fn 0).hlbusy = false ∧ (s.fn 0).htlen = 0 ∧ (s.submit 0 0 (s.fn 0).hladdr.toNat (.host 0)).isSome = true ∧
      ({ s with pages := [(0, .excl 3)] }.submit 0 0 (s.fn 0).hladdr.toNat (.host 0)).isNone = true) ∧
    (let s := fnBoard { Fn.reset with htbusy := true, hlbusy := true };
      (s.fn 0).htbusy = true ∧ (s.fn 0).hlbusy = true ∧ s.accessesDone (s.fn 0).htctx = true) ∧
    (let s := { fnBoard { Fn.reset with htbusy := true } with nvme := [aRead] };
      (s.fn 0).htbusy = true ∧ s.accessesDone (s.fn 0).htctx = false) ∧
    State.reset.pf.ready = false := by decide +kernel

/-- The board with the physical function's registers. -/
def pfBoard (f : Pf → Pf) : State := { board [] with pf := f (board []).pf }

theorem test_witness_HostRegisters_contexts :
    (let s := pfBoard fun p => { p with cwsel := 0x1000 };
      s.pf.cwsel.toNat % 256 = 0 ∧ s.pf.cwsel.toNat / 256 % 256 = 16 ∧ isOk (s.cwItem 0 16 7) = true ∧
      fails (s.cwItem 0 16 0x1000) 4 = true) ∧
    (let s := board [];
      s.pf.cwbusy = false ∧ (s.ostler 0).run = .running ∧ (s.ostler 1).run ≠ .running ∧ (s.ctx 0).valid = true ∧
      (s.ctx 1).valid = false) ∧
    (let s := { board [] with ost := [(0, { anOstler [] with stopReq := true })] };
      (s.ostler 0).stopReq = true ∧ (s.ostler 0).wait = none ∧ (s.ostler 0).run = .running) ∧
    (let s := pfBoard fun p => { p with atbusy := true }; s.pf.ready = true ∧ s.pf.atbusy = true) ∧
    (board []).pf.atbusy = false ∧ (0x1000 : W64).toNat % 4096 = 0 := by decide +kernel

theorem test_witness_ResetsAndPart :
    (State.reset.pf.ready = false ∧ (board []).pf.ready = true ∧ (board []).tripped = false) ∧
    (board []).ctxs.all (fun e => !e.2.valid || e.2.func != 1) = true ∧
    (let s := board []; 300 ≤ s.clock ∧ s.clock ≤ 600 ∧ s.limit < 5000 ∧ 0 ≤ s.limit) ∧
    (3 ∉ (board []).peerDown ∧ isPeer 0x4010000000000 = true ∧ (board []).progs = []) ∧
    (let s := { board [] with peerDown := [3] }; 3 ∈ s.peerDown) := by decide +kernel

/-- Bring-up at each stage; a context whose reset meets no queue or binding of ports. -/
theorem test_witness_ResetsAndPart_stages :
    (∀ n ∈ [0, 1, 2, 3, 4], let s := { State.reset with pf := { Pf.reset with stage := n } };
      s.tripped = false ∧ s.pf.ready = false ∧ s.pf.fwfail = false ∧ s.pf.stage = n) ∧
    (let s := { penBoard [] loadedPen with ost := [(0, anOstler []), (1, { anOstler [] with ctx := some 1 })] };
      s.portQ = [] ∧ s.portBind = [] ∧ mwf Ostler.reset s.ost = true ∧ mwf Pen.reset s.pens = true ∧ mwf none s.caches = true ∧
      mwf DSet.reset s.dsets = true ∧ mwf [] s.logs = true ∧ (s.ostler 0).ctx = some 0 ∧ (s.ostler 1).ctx ≠ some 0 ∧
      ¬((s.pen 1).valid = true ∧ (s.pen 1).ctx = 0)) ∧
    (let s := { board [] with pages := [(0, .excl 3)] };
      (List.range (s.ctx 0).otn).all (fun i => !s.otReady 0 0 i) = true) ∧
    (let s := { otBoard 1 with ctxs := [(0, { Ctx.reset with valid := true, otbase := 0x1000, otn := 1 })] };
      (s.ctx 0).otn = 1 ∧ s.otReady 0 0 0 = true ∧ (({ s with offl := s.offl.filter fun x => x.ctx != 0 } : State).otRead 0 0 0).1.isSome = true) := by
  decide +kernel

theorem test_witness_ResetsAndPart_peer :
    let s := { board [(6, 0x40000)] with
      ost := [(0, { anOstler [(6, 0x40000)] with wait := some { instr := .ldd 5 6 0, phase := 1, marks := [], todo := [] } })] }
    s.ostAtPeer 0 (s.ostler 0) (peerOf 0x4010000000000) = true ∧ s.ostAtPeer 0 (s.ostler 0) 5 = false := by decide +kernel

theorem test_witness_ResetsAndPart_waits :
    (let s := { board [] with ost := [(0, { anOstler [] with eqcount := 1, wait := some { instr := .eqwait 5 6, phase := 1, marks := [], todo := [] } })] };
      ((s.ostler 0).wait.map fun w => w.instr) = some (.eqwait 5 6) ∧
      0 < ({ s with who := { s.who with die := 0, n := 0 } } : State).cur.eqcount) ∧
    (let s := { board [] with ost := [(0, { anOstler [] with wait := some { instr := .wait 6, phase := 1, marks := [], todo := [] } })] };
      ((s.ostler 0).wait.map fun w => w.instr) = some (.wait 6) ∧ (s.rx 6).toNat ≤ s.fcycle.toNat ∧ s.routine = none) ∧
    (let s := { board [] with ost := [(0, { anOstler [] with wait := some { instr := .ldd 5 6 0, phase := 1, marks := [], todo := [] } })] };
      isNext (exec (.ldd 5 6 0) { s with who := { s.who with die := 0, n := 0 } }) = true) ∧ (board []).ost.length = 1 := by decide +kernel

/-! ### The words and the worked examples that the spec prints -/

/-- Example words of R5, R128, R278-R315, R365-R405. -/
theorem test_printed_words : reads (
  [(0x04A63800, .add 5 6 7), (0x04A63817, .bext 5 6 7), (0x04A63A19, .sel 5 6 7 8), (0x08A00010, .addi 5 0 16),
   (0x0CA600FF, .andi 5 6 0xFF), (0x18A6FFFF, .slti 5 6 0xFFFF), (0x1CA60083, .shi 5 6 2 3), (0x24A60001, .idf 5 6 1),
   (0x50A6FFF8, .ldw 5 6 0xFFF8), (0x6CE50008, .std 7 5 8), (0x5D050003, .ldaq 8 5 3), (0x70C50003, .strl 6 5 3),
   (0x88A6FFFE, .blt 5 6 0xFFFE), (0x9A000004, .jal 1 4), (0xA0A00003, .loop 5 3), (0xA4080003, .loopi 8 3),
   (0xC0000070, .trap 7), (0xC0A00112, .csrr 5 0x11), (0xC0A60213, .csrw 5 6 0x21), (0xC0000026, .fence 0 2),
   (0xC00000B6, .fence 1 3), (0xC0000146, .fence 2 4), (0xC0050007, .wait 5)] ++
  [(0xC4A60000, .eqpop 5 6), (0xC4A60001, .eqpeek 5 6), (0xC4A60002, .eqwait 5 6), (0xC4A63A03, .eqpost 5 6 7 8),
   (0xE4063800, .rkey 6 7), (0xE4A00001, .rdraw 5), (0xC8A60000, .rplace 5 6), (0xC8A63801, .rload 5 6 7),
   (0xC8A63A02, .rcfg 5 6 7 8), (0xC8A60003, .rstart 5 6), (0xC8A60004, .rstop 5 6), (0xC8A60005, .rstat 5 6),
   (0xC8A60006, .rrel 5 6), (0xC8A63A07, .radj 5 6 7 8), (0xC8A63808, .jraise 5 6 7), (0xC8A63809, .jdone 5 6 7),
   (0xC8A6380A, .jwait 5 6 7), (0xC8A6380B, .launch 5 6 7), (0xCCA63800, .sq 5 6 7), (0xCCA63A01, .sprog 5 6 7 8),
   (0xCCA60002, .scancel 5 6), (0xCCA60003, .sstat 5 6), (0xCCA60004, .recfl 5 6), (0xCCA60005, .scomb 5 6)] ++
  [(0xD0A63A00, .bwait 5 6 7 8), (0xD0A63801, .bset 5 6 7), (0xD4A63800, .clean 5 6 7), (0xD4A63801, .inval 5 6 7),
   (0xD4A63802, .flush 5 6 7), (0xD4A63803, .lock 5 6 7), (0xD4A63804, .unlock 5 6 7), (0xD4A63A05, .hover 5 6 7 8),
   (0xD8A63840, .aadd 5 6 7 1), (0xD8A63A07, .acas 5 6 7 8), (0xD8A63808, .afadd 5 6 7), (0xD8A6380A, .rdef 5 6 7),
   (0xD8A63A09, .arun 5 6 7 8), (0xF0A60000, .lld 5 6), (0xF0063801, .lst 6 7), (0xF0050002, .ldone 5),
   (0xD8A63A0B, .lapp 5 6 7 8), (0xD8A63A0C, .lmrg 5 6 7 8), (0xDCA63800, .ddecl 5 6 7), (0xDCA60001, .ddrop 5 6),
   (0xDCA63802, .drd 5 6 7), (0xDCA63803, .drds 5 6 7), (0xDCA63804, .dsnap 5 6 7), (0xDCA60005, .dsync 5 6)] ++
  [(0xDCA60006, .dreb 5 6), (0xDCA63807, .qscale 5 6 7), (0xE0A63805, .kcfg 5 6 7), (0xE0A63A02, .kseed 5 6 7 8),
   (0xE0A63A03, .kld 5 6 7 8), (0xE0A63A04, .kst 5 6 7 8), (0xE0A63A00, .kinf 5 6 7 8), (0xE0A63806, .kvote 5 6 7),
   (0xE0A63A01, .kfb 5 6 7 8), (0xE0A63807, .ksync 5 6 7), (0xE0A60008, .kclr 5 6), (0xE8A63A00, .nvrd 5 6 7 8),
   (0xE8A63A01, .nvwr 5 6 7 8), (0xECA60000, .offl 5 6), (0xECA60001, .recall 5 6), (0xECA63802, .xloc 5 6 7)]) = true := by
  decide +kernel

/-- The assembler's defaults (R263): unused operands are 48, no modifier. -/
def asm : RowMods :=
  { fmt := 0, dst := 48, sa := 48, sb := 48, sc := 48, pr := 0, pn := 0, stg := 0, hold := 0, hid := 0, rtn := 0, rte := 0, rts := 0,
    rtw := 0, pl := 0, aux := 0, imm := 0 }

/-- Every row word of a list decodes to the row beside it. -/
def readsWords (l : List (Row × Instr)) : Bool := l.all fun e => okIs (decodeRow e.1) e.2

/-- Example words of R258 and R325-R358. -/
theorem test_printed_rows : readsWords (
  [(0x2000D91E047310010000000000000000, .vfadd { asm with dst := 1, sa := 44, sb := 35, pr := 1, stg := 1, hold := 3, hid := 3, rte := 1, aux := 1 }),
   (0x01186186000000000000000000000000, .rowHalt asm), (0x03180386000000000000000000000000, .cond { asm with sa := 1 }),
   (0x05018386000000000000000000000000, .mov { asm with dst := 3, sa := 1 }),
   (0x05128386000010000000000000000000, .mov { asm with dst := 37, sa := 1, rte := 1 }),
   (0x10E1000E000000000000000000000000, .vadd { asm with fmt := 7, dst := 2, sa := 0, sb := 1 }),
   (0x23020A30E00000000000000000000000, .vfma { asm with dst := 4, sa := 5, sb := 6, sc := 7 }),
   (0x281D0216000000010000000000000000, .vfcmp { asm with dst := 58, sa := 1, sb := 2, aux := 1 }),
   (0x2F020426000000003F7FBE7700110010, .vopt { asm with dst := 4, sa := 2, sb := 4, imm := 0x3F7FBE7700110010 }),
   (0x30648586000000040000000000000000, .vcvt { asm with fmt := 3, dst := 9, sa := 2, aux := 4 }),
   (0x336801A6000000030000000000000000, .vbfly { asm with fmt := 3, dst := 16, sa := 0, sb := 52, aux := 3 })] ++
  [(0x340A6186000000000000000000001234, .vrng { asm with dst := 20, imm := 0x1234 }),
   (0x40046186000000000000000000000200, .lds { asm with dst := 8, imm := 0x200 }),
   (0x42181186000000000000000000000200, .sts { asm with sa := 8, imm := 0x200 }),
   (0x43030986000000000000000000000040, .ldg { asm with dst := 6, sa := 4, imm := 64 }),
   (0x47186186000000030000000000000000, .back { asm with aux := 3 }),
   (0x5174145E000000050000000000000000, .mpass { asm with fmt := 3, dst := 40, sa := 10, sb := 11, aux := 5 }),
   (0x53185186000000000000000000000000, .mwait { asm with sa := 40 }),
   (0x54065786000000000000000000000000, .mrd { asm with dst := 12, sa := 43 }),
   (0x59130706000004000000000000000000, .tred { asm with dst := 38, sa := 3, sb := 32, rts := 1 }),
   (0x58008308400000000000000000000000, .tmerge { asm with dst := 1, sa := 1, sb := 33, sc := 2 })]) = true := by decide +kernel

/-- R73: the line at 0x4_6B80 has slice 43 of die 0 as its home, with the other line of its packet. -/
theorem test_home_example : homeOf 0x46B80 = 43 ∧ homeOf 0x46B00 = 43 := by decide +kernel

/-- R184: the generator at key 0, counters 1 and 0, and at the key with khi = 0x1234_0000. -/
theorem test_rng_example : rng 0 1 = 0x666B5633 ∧ rng 0 0 = 0 ∧ rng 0x1234000000000000 1 = 0x745F5633 := by decide +kernel

/-- R185: the cell draw of clause 0 and literal 1. -/
theorem test_cell_draw_example : Bank.reset.cellDraw 0 1 = 0x666B := by decide +kernel

/-- R177: the worked map. -/
theorem test_xloc_example :
    let m := 2 + 0x400000 * 2 ^ 128 + 32 * 2 ^ 192 + 512 * 2 ^ 224 + 0x800000 * 2 ^ 256 + 16 * 2 ^ 320 + 512 * 2 ^ 352
    gives (xloc m 41) 0x801200 = true ∧ fails (xloc m 48) 7 = true := by decide +kernel

/-- R53, R280: IDF of the job of R19. -/
theorem test_idf_example :
    idField 0x0000040000020506 0x20140 1 = 5 ∧ idField 0x0000040000020506 0x20140 2 = 2 ∧ idField 0x0000040000020506 0x20140 3 = 0 := by
  decide +kernel

/-- R196: G8 values. -/
theorem test_g8_examples :
    (cvt 0 0 false 0 (decodeElem 3 0x40)).bits = 0x3F800000 ∧
      (cvt 0 0 false 0 (decodeElem 3 0x38)).bits = 0x3F000000 ∧ (cvt 0 0 false 0 (decodeElem 3 0x3F)).bits = 0x3F700000 ∧
      (cvt 0 0 false 0 (decodeElem 3 0x05)).bits = 0x38000000 ∧ (cvt 0 0 false 0 (decodeElem 3 0xC0)).bits = 0xBF800000 ∧
      decodeElem 3 0x80 = .nan := by decide +kernel

/-- R203: the conversions to G8 of its table, RNE and SR. -/
theorem test_convert_examples :
    (cvt 3 0 false 0 (fp 0x3F780000)).bits = 0x40 ∧ (cvt 3 4 false 0x666B (fp 0x3F780000)).bits = 0x3F ∧
      (cvt 3 4 false 0x666B (.fin false 0xF00001 (-24))).bits = 0x3F ∧ (cvt 3 4 false 0xFFFF (.fin false 0xF00001 (-24))).bits = 0x40 ∧
      cvt 3 4 false 0x666B (.fin false 1 (-21)) = ⟨0, 0, 1⟩ ∧ cvt 3 0 false 0 (fp 0xC2200000) = ⟨0xFF, 0, 1⟩ := by decide +kernel

/-- R212: 2^24 and a group of 32 products of 1.0 and 0.5. -/
theorem test_group_sum_example :
    addGroups 0x4B800000 [r32 (groupSum (List.replicate 32 (Val.mul (decodeElem 3 0x40) (decodeElem 3 0x38))))] = 0x4B800008 := by
  decide +kernel

/-- R217: the merge of (3, 2, 4) with (5, 1, 10). -/
theorem test_merge_example :
    let m := r32 (Val.minMax true (fp 0x40400000) (fp 0x40A00000))
    m = 0x40A00000 ∧ mergeFactor 0x40400000 m = 0x3E800000 ∧ mergeFactor 0x40A00000 m = 0x3F800000 ∧
      mergeSum (mergeFactor 0x40400000 m) 0x40000000 (mergeFactor 0x40A00000 m) 0x3F800000 = 0x3FC00000 ∧
      mergeSum (mergeFactor 0x40400000 m) 0x40800000 (mergeFactor 0x40A00000 m) 0x41200000 = 0x41300000 := by decide +kernel

/-! ### One step of some instructions, with results the spec states -/

/-- What an instruction leaves in register 5 of the board's ostler. -/
def x5 (i : Instr) (x : SMap W64) : Option W64 :=
  match exec i (board x) with
  | .next t => some (t.rx 5)
  | _ => none

/-- R278: truncated division, with its two corners; high products; fields. -/
theorem test_div_corners :
    x5 (.div 5 6 7) [(6, 0xFFFFFFFFFFFFFFF9), (7, 2)] = some 0xFFFFFFFFFFFFFFFD ∧ x5 (.div 5 6 7) [(6, 9)] = some 0xFFFFFFFFFFFFFFFF ∧
      x5 (.div 5 6 7) [(6, 0x8000000000000000), (7, 0xFFFFFFFFFFFFFFFF)] = some 0x8000000000000000 ∧
      x5 (.rem 5 6 7) [(6, 0xFFFFFFFFFFFFFFF9), (7, 2)] = some 0xFFFFFFFFFFFFFFFF := by decide +kernel
theorem test_mul_high :
    x5 (.mulh 5 6 7) [(6, 0xFFFFFFFFFFFFFFFF), (7, 2)] = some 0xFFFFFFFFFFFFFFFF ∧
      x5 (.mulhu 5 6 7) [(6, 0xFFFFFFFFFFFFFFFF), (7, 2)] = some 1 := by decide +kernel
theorem test_fields :
    x5 (.bext 5 6 7) [(6, 0xABCD), (7, 0x0804)] = some 0xBC ∧
      x5 (.bins 5 6 7 8) [(6, 0xFFFFFFFFFFFFFFFF), (7, 0x083C), (8, 0)] = some 0x0FFFFFFFFFFFFFFF := by decide +kernel

/-- R281: a byte load sign-extends, and a word is little-endian. -/
theorem test_loads :
    (match exec (.ldb 5 6 1) (boardMem [(6, 0x200)] 0x200 [0x11, 0x80]) with | .next t => t.rx 5 | _ => 0) = 0xFFFFFFFFFFFFFF80 ∧
      (match exec (.ldhu 5 6 0) (boardMem [(6, 0x200)] 0x200 [0x11, 0x80]) with | .next t => t.rx 5 | _ => 0) = 0x8011 := by
  decide +kernel

/-- R286: JALR reads its target before it writes the link, in the same register. -/
theorem test_jalr_same_register :
    (match exec (.jalr 5 5 7) (board [(5, 0x100)]) with | .next t => (t.cur.pc == 0x104, t.rx 5 == 4) | _ => (false, false)) =
      (true, true) := by decide +kernel

/-- x0 discards what is written to it (R48). -/
theorem test_x0 : (match exec (.addi 0 6 1) (board [(6, 3)]) with | .next t => (t.rx 0 == 0, t.cur.pc == 4) | _ => (false, false)) =
    (true, true) := by decide +kernel

/-- R300, R301: RKEY, then a draw. -/
theorem test_draw_after_key :
    (match exec (.rkey 6 7) (board [(7, 1)]) with
      | .next t => (match exec (.rdraw 5) t with | .next u => u.rx 5 | _ => 0)
      | _ => 0) = 0x666B5633 := by decide +kernel

/-- R328: INT8 elements wrap by themselves. -/
theorem test_vadd_int8 :
    let p := { PE.reset with v := [(1, splat 0x7FFF0102), (2, splat 0x01010101)] }
    (match exec (.vadd { goodMods with fmt := 6, dst := 3, sa := 1, sb := 2 }) (peBoard loadedPen p) with
      | .next t => (t.pe 0 0).slots.map fun x => (x.dst, x.value == splat 0x80000203)
      | _ => []) = [(3, true)] := by decide +kernel
end Sys2Proof.Tests
end

/-! The module after a reset (R8, R244), and the reset of one context beside a pen that R14 does not allow. -/

namespace Sys2Proof.Machine

/-! ### Every unlisted key of a reset table reads its reset value -/

@[simp] theorem State.reset_ostler (k : Nat) : State.reset.ostler k = Ostler.reset := rfl
@[simp] theorem State.reset_pen (k : Nat) : State.reset.pen k = Pen.reset := rfl
@[simp] theorem State.reset_fn (f : Nat) : State.reset.fn f = Fn.reset := rfl
@[simp] theorem State.reset_l2Of (l : Nat) : State.reset.l2Of l = none := rfl
@[simp] theorem State.reset_cacheOf (a l : Nat) : State.reset.cacheOf a l = none := rfl
@[simp] theorem State.reset_dirOf (l : Nat) : State.reset.dirOf l = Dir.reset := rfl

/-! ### A pen taller than a die -/

/-- A pen nine stalls high, where R14 ends at eight: the PE at its row 32 and column 0 is number 2048, and PE 2048 of pen k has the
key of PE 0 of pen k + 1. -/
def tallPen : Pen := { Pen.reset with valid := true, hm1 := 8 }

/-- A result on its way in a PE (R65). -/
def slotInFlight : Slot := { dst := 1, lanes := 1, left := 1, route := 0, pl := 0, value := 0, pending := false }

/-- Pen 0, of context 0, is the tall one; pen 1 is of context 1, and its first PE has a result in flight. -/
def tallPenBoard : State :=
  { State.reset with
    pens := [(0, tallPen), (1, { Pen.reset with valid := true, ctx := 1, gang := 1 })]
    pes := [(peKey 1 0, { PE.reset with slots := [slotInFlight] })] }

/-- The sweep of the tall pen empties PE 0 of the pen after it. -/
theorem tallPenBoard_resetCtx_slots : ((tallPenBoard.resetCtx 0).pe 1 0).slots = [] := by decide +kernel

end Sys2Proof.Machine

namespace Sys2Proof.Claims

open Sys2Proof.Machine

/-! ### The three statements -/

theorem coherent_reset : Coherent State.reset := by
  refine ⟨rfl, rfl, rfl, fun l c h => ?_, fun a l c _ h => ?_, fun l r m h => ?_⟩
  · simp at h
  · simp at h
  · simp [Dir.reset] at h

theorem sound_reset : Sound State.reset := ⟨rfl, rfl, rfl, rfl, rfl⟩

/-- Settles O1: every table is empty after a reset, so that each key reads its reset value. -/
theorem resetState : Obligations.ResetState := by
  unfold Obligations.ResetState
  refine ⟨fun k => ?ostler, fun k => ?pen, fun _ => rfl, rfl, rfl, fun _ => rfl, rfl, rfl, rfl, rfl, rfl, rfl, rfl, rfl,
    fun _ => ⟨rfl, rfl⟩, rfl, rfl, rfl, rfl, rfl, rfl, fun f => ?fn, rfl, rfl, rfl, rfl, rfl⟩
  case ostler => rw [State.reset_ostler]; decide
  case pen => rw [State.reset_pen]; rfl
  case fn => rw [State.reset_fn]; decide

/-- Settles O2: no line has a copy, an owner or a release after a reset. -/
theorem resetInOrder : Obligations.ResetInOrder := ⟨State.reset_mem_wf, coherent_reset, sound_reset⟩

/-- Refutes O60 in its clause that the reset of a context leaves the PEs of other pens alone, which is stated for pens of any size:
tallPenBoard has a pen higher than R14 allows, whose PE numbers run into those of the next pen (the clause lacks hm1 < 8 and
wm1 < 16). -/
theorem not_resetsAndPart : ¬ Obligations.ResetsAndPart := by
  unfold Obligations.ResetsAndPart
  rintro ⟨-, -, -, -, -, -, -, -, hreset, -⟩
  obtain ⟨-, -, hother⟩ := hreset 0 tallPenBoard rfl rfl (by decide) (by decide) (by decide)
  obtain ⟨-, hpe, -⟩ := hother 1 (by decide)
  have kept : (tallPenBoard.resetCtx 0).pe 1 0 = tallPenBoard.pe 1 0 := hpe 0 (by decide)
  have inFlight : (tallPenBoard.pe 1 0).slots = [slotInFlight] := rfl
  rw [← kept, tallPenBoard_resetCtx_slots] at inFlight
  cases inFlight

end Sys2Proof.Claims

/-! Floating-point, conversion and random rows: what a committing row word leaves, and the result of each of these ops (R331-R339). -/

namespace Sys2Proof.Machine

open Sys2Proof.Claims

/-! ### Fields, lanes and counts -/

/-- The field of the lowest three bits is a remainder (R2). -/
theorem bits_lowThree (x : Nat) : bits x 2 0 = x % 8 := rfl

/-- A lane is its 32-bit element (R58). -/
@[simp] theorem toNat_lane (v : Vec) (k : Nat) : (lane v k).toNat = elem 32 v k := by
  rw [lane, BitVec.toNat_ofNat, elem, Nat.mod_mod]

/-- Elements that count nothing count nothing together (R203). -/
theorem countCvt_zero (per : Nat) (lanes : W64) {f : Nat → Cvt} (hf : ∀ i, (f i).nfc = 0 ∧ (f i).satc = 0) :
    countCvt per lanes f = (0, 0) := by
  unfold countCvt
  induction List.range (64 * per) with
  | nil => rfl
  | cons i l ih =>
    obtain ⟨hnfc, hsatc⟩ := hf i
    simp only [List.foldl_cons, hnfc, hsatc, Nat.add_zero, ite_self]
    exact ih

/-! ### The commit of a row word -/

section
variable {s : State} {o : Op} {w : RowMods}

/-- A row op that goes on from the machine u commits there, or faults NONFINITE where the pen has NFT and the row counts one. -/
theorem State.row_commitsFrom {f : RowCx → State → Eff} {u : State} {res : Option Vec} {lanes : W64} {nfc satc : Nat}
    (hg : RowGood s o w) (hu : u.who = s.who) (hf : f (rowCx o w s) s = .go u res lanes nfc satc) :
    RowCommitsFrom s u (s.row o w f) o w u.myPe res lanes nfc satc := by
  obtain ⟨hwindow, hlive⟩ := hg
  have hrow : s.row o w f = if s.myPen.nft && nfc + nanCount o w (rowCx o w s) != 0 then s.rowFault w cNONFINITE 0 0
      else u.setMyPe (u.myPe.finishRow s.myPe o w (if ignored o s.myPen s.who.pe then [] else usedSources o w) res lanes
        (nfc + nanCount o w (rowCx o w s)) satc) := by
    simp only [State.row, hlive, hwindow, hf, Bool.false_eq_true, if_false]
    rfl
  have hkey : peKey s.penK s.who.pe = peKey u.penK u.who.pe := by rw [State.penK, State.penK, hu]
  rw [hrow]
  unfold RowCommitsFrom
  by_cases hnft : s.myPen.nft = true ∧ nfc + nanCount o w (rowCx o w s) ≠ 0
  · rw [if_pos hnft, if_pos (by simpa only [Bool.and_eq_true, bne_iff_ne] using hnft)]
    rfl
  · rw [if_neg hnft, if_neg (by simpa only [Bool.and_eq_true, bne_iff_ne] using hnft), hkey]
    exact ⟨u.setMyPe_eq _, fun k hk => mget_mset_ne _ _ hk _, u.setMyPe_myPe _⟩

/-- A row op that answers a vector built element by element, and leaves nothing else, has these elements as its result. -/
theorem State.row_result {f : RowCx → State → Eff} {n : Nat} {g : Nat → Nat} {nfc satc : Nat} (hg : RowGood s o w)
    (hf : f (rowCx o w s) s = .go s (some (mkElems n g)) (s.myPe.mask w) nfc satc) :
    RowResult s (s.row o w f) o w n g nfc satc :=
  ⟨mkElems n g, State.row_commitsFrom hg rfl hf, fun i hi => elem_mkElems n g i hi⟩

/-- The result of an op that counts nothing. -/
theorem State.vec_result {f : RowCx → Vec} {n : Nat} {g : Nat → Nat} (hg : RowGood s o w)
    (hf : f (rowCx o w s) = mkElems n g) : RowResult s (s.vec o w f) o w n g 0 0 :=
  State.row_result hg (by rw [hf]; rfl)

/-- A floating-point op rounds the exact value of each element once (R193). -/
theorem State.fpOp_result (hg : RowGood s o w) (f : Val → Val → Val → Val) :
    let c := fmtCode w.fmt.toNat
    let n := fmtWidth w.fmt.toNat
    RowResult s (s.fpOp o w f) o w n (fun k => rne c (f (decodeElem c (elem n (srcA s o w) k))
      (decodeElem c (elem n (srcB s o w) k)) (decodeElem c (elem n (srcC s o w) k)))) 0 0 :=
  State.vec_result hg rfl

/-- A conversion on some lanes commits the vector of its elements and what they count on these lanes (R203). -/
theorem State.cvtOp_commits (hg : RowGood s o w) (n : Nat) (lanes : W64) (f : RowCx → Nat → Cvt) :
    let g := f (rowCx o w s)
    let c := countCvt (32 / n) (s.myPe.mask w &&& lanes) g
    RowCommits s (s.cvtOp o w n lanes f) o w s.myPe (some (mkElems n fun i => (g i).bits)) (s.myPe.mask w &&& lanes) c.1 c.2 :=
  State.row_commitsFrom hg rfl rfl

/-- A conversion on every lane. -/
theorem State.cvtOp_result (hg : RowGood s o w) (n : Nat) (f : RowCx → Nat → Cvt) :
    let g := f (rowCx o w s)
    let c := countCvt (32 / n) (s.myPe.mask w) g
    RowResult s (s.cvtOp o w n (BitVec.allOnes 64) f) o w n (fun i => (g i).bits) c.1 c.2 := by
  have h := State.cvtOp_commits hg n (BitVec.allOnes 64) f
  rw [BitVec.and_allOnes] at h
  exact ⟨_, h, fun i hi => elem_mkElems n _ i hi⟩

/-- A conversion on every lane whose elements count nothing. -/
theorem State.cvtOp_result_uncounted (hg : RowGood s o w) (n : Nat) (f : RowCx → Nat → Cvt)
    (hf : ∀ i, (f (rowCx o w s) i).nfc = 0 ∧ (f (rowCx o w s) i).satc = 0) :
    RowResult s (s.cvtOp o w n (BitVec.allOnes 64) f) o w n (fun i => (f (rowCx o w s) i).bits) 0 0 := by
  simpa only [countCvt_zero _ _ hf] using State.cvtOp_result hg n f

end

end Sys2Proof.Machine

namespace Sys2Proof.Claims

open Sys2Proof.Machine

/-! ### Each floating-point instruction is the op that fpRow names -/

theorem exec_of_fpRow {i : Instr} {o : Op} {w : RowMods} {f : Val → Val → Val → Val} (h : fpRow i = some (o, w, f)) (s : State) :
    exec i s = .next (s.fpOp o w f) := by
  cases i with
  | vfadd _ | vfsub _ | vfmul _ | vfma _ | vfmin _ | vfmax _ | vfabs _ | vfneg _ | vrcp _ | vrsq _ | vexp2 _ | vlog2 _ =>
    cases h
    rfl
  | _ => cases h

/-- Settles O46: each op is a row that commits its vector, whose elements read back as they were made. Beside log 12 the clauses
meet two more choices of the model: the packets VCVT accepts (log 46) and the count of elements under a NaN scale (log 47). -/
theorem rowFloat : Obligations.RowFloat := by
  unfold Obligations.RowFloat
  refine ⟨fun i s o w f hi hg => ?fp, fun w s hg => ?vfcmp, fun w s hg => ?vrope, fun w s hg => ?vrng,
    fun w s hg hsame => ?copy, fun w s hg hdiff => ?vcvt, fun w s hg => ?vpack, fun w s hg => ?vunpk, fun w s hg => ?vbfly⟩
  case fp => exact ⟨_, exec_of_fpRow hi s, State.fpOp_result hg f⟩
  case vfcmp => exact ⟨_, rfl, State.vec_result hg rfl⟩
  case vrope => exact ⟨_, rfl, State.row_result hg rfl⟩
  case vrng => exact ⟨_, rfl, State.vec_result hg rfl⟩
  case copy =>
    rw [← bits_lowThree] at hsame
    refine ⟨_, rfl, ?_⟩
    simp only [if_pos hsame]
    exact State.cvtOp_result_uncounted hg _ _ fun _ => ⟨rfl, rfl⟩
  case vcvt =>
    rw [← bits_lowThree] at hdiff
    refine ⟨_, rfl, ?_⟩
    simp only [if_neg hdiff]
    exact State.cvtOp_result hg _ _
  case vpack =>
    refine ⟨_, rfl, ?_⟩
    simp only [apply_ite BitVec.toNat, toNat_lane]
    exact ⟨_, State.cvtOp_commits hg _ _ _, fun i hi => elem_mkElems _ _ i hi⟩
  case vunpk => exact ⟨_, rfl, State.cvtOp_result hg 32 _⟩
  case vbfly => exact ⟨_, rfl, State.row_result hg rfl⟩

end Sys2Proof.Claims
